-- ==== Sys2Proof/Word.lean ====
section
/-!
DEFINITION. The word types of the block: a register word (32 bits, rule R7 `REG_WIDTH`), a byte of system
memory, and an offset in the register window (12 bits, rule R80).
-/

namespace Sys2Proof

/-- One 32-bit register word, DMA word or DMA address (rules R7, R88). -/
abbrev Word := BitVec 32

/-- One byte of system memory (rule R86). -/
abbrev Byte := BitVec 8

/-- A byte offset in the register window (rule R80: 12 bits of offset). -/
abbrev Offset := BitVec 12

end Sys2Proof
end

