-- ==== Sys2Proof/Syntax.lean ====
section
/-!
DEFINITION. The operations of the block, one constructor per row of spec/opcode_table.json, the formats they
are encoded in (rule R110), the names of the registers (rule R21), and the agents that take turns (rule R8).
-/

namespace Sys2Proof

/-- The four kinds of host bus operation (format BUS, rule R111). -/
inductive BusKind where
  | rd | wr | set | clr
deriving DecidableEq, Repr

/-- The width of a host access. Only `word` has a meaning (rule R82). -/
inductive AccessSize where
  | byte | half | word
deriving DecidableEq, Repr

/-- The three registers that hold write-1-to-clear flags (format W1CW, rule R114). -/
inductive W1cReg where
  | intsts | dmaintsts | gintsts
deriving DecidableEq, Repr

/-- The three registers that hold launch bits (formats CTLW, DMACTLW, GCTLW, rules R112, R113). -/
inductive LaunchReg where
  | ctl | dmactl | gctl
deriving DecidableEq, Repr

/-- The registers of the window (rule R21), and the reserved offsets (rule R44). -/
inductive Reg where
  | fb (i : Fin 128)
  | dmactl | dmasa | dmabcnt | dmainten | dmaintsts
  | gctl | ginten | gintsts
  | ctl | cmdarg | inten | intsts | resp0 | resp1 | blen | tout | ectl
  | reserved
deriving DecidableEq, Repr

/-- The two card ports of an instance (rules R7 `NUM_PORTS`, R275). -/
inductive Port where
  | p0 | p1
deriving DecidableEq, Repr, Inhabited

/-- Whose step comes next (rules R8, R10). `engine` is the step launched from `CTL` (its reset among them),
`dmaReset` and `globalReset` are the steps launched from `DMACTL` and `GCTL`, `cd` is the change detector of a
port, `env` is the outside world. -/
inductive Turn where
  | host | engine | dmaReset | globalReset | cd (p : Port) | env
deriving DecidableEq, Repr, Inhabited

/-- What an operation is encoded as (rule R110): a bus transaction, a word standing in a launch register, or a
command frame. -/
inductive Code where
  | bus (kind : BusKind) (size : AccessSize) (off : Offset) (data : Word)
  | word (reg : LaunchReg) (w : Word)
  | frame (f : BitVec 48)
deriving DecidableEq, Repr

/-- The operations (rule R130, rule R134). `dout` is the row `DO`. -/
inductive Instr where
  /-- `RD` (rule R150). -/
  | rd (off : Offset)
  /-- `WR` (rule R151). -/
  | wr (off : Offset) (data : Word)
  /-- `SET` (rule R152). -/
  | set (off : Offset) (mask : Word)
  /-- `CLR` (rule R153). -/
  | clr (off : Offset) (mask : Word)
  /-- `CO` (rule R172). -/
  | co
  /-- `RI` (rule R190). -/
  | ri
  /-- `DI` (rule R234). -/
  | di
  /-- `DO` (rule R240). -/
  | dout
  /-- `R2I` (rule R193). -/
  | r2i
  /-- `CLK74O` (rule R170). -/
  | clk74o
  /-- `CLK8O` (rule R171). -/
  | clk8o
  /-- `CTLRST` (rule R250). -/
  | ctlrst
  /-- `DMARST` (rule R251). -/
  | dmarst
  /-- `GCTLRST` (rule R252). -/
  | gctlrst
  /-- `W1C` (rule R156). -/
  | w1c (reg : W1cReg) (mask : Word)
  /-- GO_IDLE_STATE (rule R291). -/
  | cmd0 (arg : Word)
  /-- SEND_OP_COND (rule R292). -/
  | cmd1 (arg : Word)
  /-- ALL_SEND_CID (rule R293). -/
  | cmd2 (arg : Word)
  /-- SET_RELATIVE_ADDR (rule R294). -/
  | cmd3 (arg : Word)
  /-- SELECT_CARD (rule R295). -/
  | cmd7 (arg : Word)
  /-- SEND_IF_COND (rule R296). -/
  | cmd8 (arg : Word)
  /-- SEND_CSD (rule R297). -/
  | cmd9 (arg : Word)
  /-- STOP_TRANSMISSION (rule R298). -/
  | cmd12 (arg : Word)
  /-- SEND_STATUS (rule R299). -/
  | cmd13 (arg : Word)
  /-- READ_SINGLE_BLOCK (rule R300). -/
  | cmd17 (arg : Word)
  /-- READ_MULTIPLE_BLOCK (rule R301). -/
  | cmd18 (arg : Word)
  /-- WRITE_BLOCK (rule R302). -/
  | cmd24 (arg : Word)
  /-- WRITE_MULTIPLE_BLOCK (rule R303). -/
  | cmd25 (arg : Word)
  /-- SD_SEND_OP_COND (rule R304). -/
  | acmd41 (arg : Word)
  /-- APP_CMD (rule R305). -/
  | cmd55 (arg : Word)
deriving DecidableEq, Repr

end Sys2Proof
end

