-- ==== Sys2Proof/Config.lean ====
section
/-!
DEFINITION. What an implementation, the platform or the environment fixes (rules R7, R12), and the free values
that stand for the spec's draws (rules R12, R14). Every constant here is opaque: no proof can see its value, so
a claim proved of the model holds for every value. The first argument of a draw is the counter `draws` of State,
which every step advances, so that each draw is a fresh one (assumption log, entries 3, 6, 8 and 29).
-/

namespace Sys2Proof

/-- A received data block: its bytes and its CRCs, one per data line, highest line first (rule R236; assumption
log, entry 22). -/
structure Block where
  bytes : List Byte
  crcs : List (BitVec 16)
deriving DecidableEq, Repr, Inhabited

/-- Draw `n` of the unspecified bits of the register at offset `off` (rules R14 `any`, R44, R45). -/
opaque Config.anyWord (n : Nat) (off : Offset) : Word

/-- Draw `n` of the `j`-th hidden field that holds `any` (rule R64: `dma.cur`, `dma.pad_ptr`). -/
opaque Config.anyHidden (n j : Nat) : Word

/-- Draw `n` of byte `a` of system memory where nothing the model knows has been written (rules R80, R88, R331). -/
opaque Config.anyByte (n a : Nat) : Byte

/-- Draw `n`: which of the values that byte `a` of a buffer had during a `DO` the engine finds there (rule R95). -/
opaque Config.oldOrNew (n a : Nat) : Nat

/-- Draw `n`: which agent moves next when no schedule is given (rule R10). -/
opaque Config.turn (n : Nat) : Turn

/-- Draw `n` of the oracle `CardResp48` (rule R12). -/
opaque Config.resp48 (n : Nat) : Option (BitVec 48)

/-- Draw `n` of the oracle `CardResp136` (rule R12). -/
opaque Config.resp136 (n : Nat) : Option (BitVec 136)

/-- Draw `n` of the oracle `CardReadBlock` (rule R12). -/
opaque Config.readBlock (n : Nat) : Option Block

/-- Draw `n` of the oracle `CardCrcStatus` (rule R12); `none` is `Never`. -/
opaque Config.crcStatus (n : Nat) : Option (BitVec 3)

/-- Draw `n` of the oracle `CardReady` (rule R12). -/
opaque Config.ready (n : Nat) : Bool

/-- Draw `n` of the oracle `CardDat0` (rule R12). -/
opaque Config.dat0 (n : Nat) : Bool

/-- Whether a second controller instance exists (rule R7: `NUM_CTRL` is 1 or 2, open). -/
opaque Config.twoControllers : Bool

/-- The open parameter `NUM_CTRL` (rule R7). The model is of one instance (rule R11). -/
def Config.numCtrl : Nat := if Config.twoControllers then 2 else 1

/-- The open parameter `BASE[i]` (rule R7). -/
opaque Config.base (i : Fin 2) : Word

/-- What a driver reads as the number of sectors from the four words of a card's CSD; the spec leaves the parsing out
(rules R198, R297). -/
opaque Config.csdSectors (csd : List Word) : Nat

/-- The driver's poll ceiling `POLL_BOUND` (rule R7), software. -/
opaque Config.pollBound : Nat

/-- The driver's `OCR_RETRY_BOUND` (rule R7), software. -/
opaque Config.ocrRetryBound : Nat

end Sys2Proof
end

