-- ==== Sys2Proof/Machine/Crc.lean ====
section
/-!
DEFINITION. The two CRC functions over a bit sequence, first bit on the wire first (rules R210, R212), and the
bits of a data block that each line carries (rule R213).
-/

namespace Sys2Proof.Machine

/-- The bits of a vector, most significant first: wire order (rules R13, R87). -/
def bitsMsb {w : Nat} (x : BitVec w) : List Bool :=
  (List.range w).map fun i => x.getMsbD i

/-- One step of the CRC-7 register (rule R210): shift in `b`, taps x^3 and x^0. -/
def crc7Step (c : BitVec 7) (b : Bool) : BitVec 7 :=
  if (c.getLsbD 6 ^^ b) then (c <<< 1) ^^^ 0x09#7 else c <<< 1

/-- `crc7` (rule R210): initial value 0, no reflection, no final inversion. -/
def crc7 (bs : List Bool) : BitVec 7 := bs.foldl crc7Step 0#7

/-- One step of the CRC-16 register (rule R212): shift in `b`, taps x^12, x^5 and x^0. -/
def crc16Step (c : BitVec 16) (b : Bool) : BitVec 16 :=
  if (c.getLsbD 15 ^^ b) then (c <<< 1) ^^^ 0x1021#16 else c <<< 1

/-- `crc16` (rule R212). -/
def crc16 (bs : List Bool) : BitVec 16 := bs.foldl crc16Step 0#16

/-- All bits of a block in 1-bit mode: byte 0 first, each byte most significant bit first (rules R123, R213). -/
def serialBits (d : List Byte) : List Bool := d.flatMap bitsMsb

/-- The bits that line `n` carries in 4-bit mode: of each byte bit `4 + n`, then bit `n` (rules R124, R213). -/
def lineBits (n : Nat) (d : List Byte) : List Bool :=
  d.flatMap fun b => [b.getLsbD (4 + n), b.getLsbD n]

/-- The CRC of each active line, highest line first (rules R213, R236, R241); `wide` is `CTL.DBW = 1`. -/
def lineCrcs (wide : Bool) (d : List Byte) : List (BitVec 16) :=
  if wide then [crc16 (lineBits 3 d), crc16 (lineBits 2 d), crc16 (lineBits 1 d), crc16 (lineBits 0 d)]
  else [crc16 (serialBits d)]

end Sys2Proof.Machine
end

