-- ==== Sys2Proof/Decode.lean ====
section
/-!
DEFINITION. The register map (rule R21), the decoder of bus transactions, launch words and command frames, which
is total and rejects by name, and after it the encoder, written from the same tables (rules R110 to R115, R129 to
R134).
-/

namespace Sys2Proof

open Sys2Proof.Machine (bitsMsb crc7)

/-- Why the decoder gives no operation. -/
inductive DecodeError where
  /-- a host access of 8 or 16 bits (rule R82) -/
  | narrowAccess
  /-- an offset that is not a multiple of 4, or beyond 0x840 (rule R82) -/
  | badOffset
  /-- a launch word that selects no operation (rule R130) -/
  | noOperation
  /-- a set of launch bits outside the legal ones (rule R131) -/
  | illegalLaunchSet
  /-- `SDPORT` = 2 or 3 (rules R132, R275) -/
  | reservedPort
  /-- start, transmission or end bit of a command frame wrong (rule R115) -/
  | notACommandFrame
  /-- a command index that is no row of the table (rule R134) -/
  | unknownCommand
  /-- neither a 32-bit launch word nor a 48-bit frame -/
  | badLength
deriving DecidableEq, Repr

/-- The register at a window offset (rule R21); none where the offset is no legal access (rule R82). -/
def regAt (off : Offset) : Option Reg :=
  if off.toNat % 4 ≠ 0 ∨ 0x840 < off.toNat then none
  else if h : off.toNat / 4 < 128 then some (.fb ⟨off.toNat / 4, h⟩)
  else some (match off.toNat with
    | 0x400 => .dmactl
    | 0x408 => .dmasa
    | 0x40C => .dmabcnt
    | 0x410 => .dmainten
    | 0x414 => .dmaintsts
    | 0x800 => .gctl
    | 0x804 => .ginten
    | 0x808 => .gintsts
    | 0x820 => .ctl
    | 0x824 => .cmdarg
    | 0x828 => .inten
    | 0x82C => .intsts
    | 0x830 => .resp0
    | 0x834 => .resp1
    | 0x838 => .blen
    | 0x83C => .tout
    | 0x840 => .ectl
    | _ => .reserved)

/-- The offset of a register with write-1-to-clear flags (rules R31, R34, R38). -/
def w1cOffset : W1cReg → Offset
  | .intsts => 0x82C#12
  | .dmaintsts => 0x414#12
  | .gintsts => 0x808#12

/-- The register with write-1-to-clear flags at an offset, if it is one (rule R114). -/
def w1cAt (off : Offset) : Option W1cReg :=
  if off = 0x82C#12 then some .intsts
  else if off = 0x414#12 then some .dmaintsts
  else if off = 0x808#12 then some .gintsts
  else none

/-- Whether the launch bits 6:0 of a CTLW form one of the legal sets (rule R131): the empty set, the initial
clocks alone, the eight clocks alone, or a set of frame operations without both responses and without both data
directions. -/
def legalLaunch (w : Word) : Bool :=
  let l := w &&& 0x7F#32
  l == 0#32 || l == 0x20#32 || l == 0x40#32
    || (l &&& 0x60#32 == 0#32 && !(w.getLsbD 1 && w.getLsbD 4) && !(w.getLsbD 2 && w.getLsbD 3))

/-- The field `SDPORT` of a CTLW (rule R112). -/
def portField (w : Word) : BitVec 2 := w.extractLsb' 29 2

/-- The operation that the ENGINE performs next when `CTL` holds `w` (rules R129, R175): the reset alone if bit 14
is set, otherwise the first selected operation in the fixed order. -/
def decodeCtl (w : Word) : Except DecodeError Instr :=
  if w.getLsbD 14 then .ok .ctlrst
  else if !legalLaunch w then .error .illegalLaunchSet
  else if 2 ≤ (portField w).toNat then .error .reservedPort
  else if w.getLsbD 5 then .ok .clk74o
  else if w.getLsbD 0 then .ok .co
  else if w.getLsbD 1 then .ok .ri
  else if w.getLsbD 4 then .ok .r2i
  else if w.getLsbD 2 then .ok .di
  else if w.getLsbD 3 then .ok .dout
  else if w.getLsbD 6 then .ok .clk8o
  else .error .noOperation

/-- The operation of a word in a launch register (rules R112, R113). -/
def decodeLaunch : LaunchReg → Word → Except DecodeError Instr
  | .ctl, w => decodeCtl w
  | .dmactl, w => if w.getLsbD 1 then .ok .dmarst else .error .noOperation
  | .gctl, w => if w.getLsbD 0 then .ok .gctlrst else .error .noOperation

/-- The operation of a bus transaction (rule R111); a `WR` to a register of flags is the row `W1C` (rule R156). -/
def decodeBus (kind : BusKind) (size : AccessSize) (off : Offset) (data : Word) : Except DecodeError Instr :=
  if size ≠ .word then .error .narrowAccess
  else if (regAt off).isNone then .error .badOffset
  else match kind with
    | .rd => .ok (.rd off)
    | .set => .ok (.set off data)
    | .clr => .ok (.clr off data)
    | .wr => match w1cAt off with
      | some r => .ok (.w1c r data)
      | none => .ok (.wr off data)

/-- The command of an index (rule R134). -/
def commandOf (idx : BitVec 6) (arg : Word) : Option Instr :=
  match idx.toNat with
  | 0 => some (.cmd0 arg)
  | 1 => some (.cmd1 arg)
  | 2 => some (.cmd2 arg)
  | 3 => some (.cmd3 arg)
  | 7 => some (.cmd7 arg)
  | 8 => some (.cmd8 arg)
  | 9 => some (.cmd9 arg)
  | 12 => some (.cmd12 arg)
  | 13 => some (.cmd13 arg)
  | 17 => some (.cmd17 arg)
  | 18 => some (.cmd18 arg)
  | 24 => some (.cmd24 arg)
  | 25 => some (.cmd25 arg)
  | 41 => some (.acmd41 arg)
  | 55 => some (.cmd55 arg)
  | _ => none

/-- The command of a frame, by the mask and match of opcode_table.json: start, transmission, index and end bit
(rules R115, R134). The CRC field takes no part (assumption log, entry 18). -/
def decodeFrame (f : BitVec 48) : Except DecodeError Instr :=
  if f.getLsbD 47 || !f.getLsbD 46 || !f.getLsbD 0 then .error .notACommandFrame
  else match commandOf (f.extractLsb' 40 6) (f.extractLsb' 8 32) with
    | some i => .ok i
    | none => .error .unknownCommand

/-- The decoder: total, rejecting by name. -/
def decode : Code → Except DecodeError Instr
  | .bus kind size off data => decodeBus kind size off data
  | .word reg w => decodeLaunch reg w
  | .frame f => decodeFrame f

/-- The bytes of an operation that is a pattern of bits: four bytes are a CTLW, lowest byte first (rule R84), six
bytes are a command frame, in wire order (rule R87). -/
def codeOfBytes : List Byte → Except DecodeError Code
  | [b0, b1, b2, b3] => .ok (.word .ctl (b3 ++ b2 ++ b1 ++ b0))
  | [c5, c4, c3, c2, c1, c0] => .ok (.frame (c5 ++ c4 ++ c3 ++ c2 ++ c1 ++ c0))
  | _ => .error .badLength

/-- The decoder on any bytes. -/
def decodeBytes (bs : List Byte) : Except DecodeError Instr :=
  match codeOfBytes bs with
  | .ok c => decode c
  | .error e => .error e

/-- The bytes of the operation whose bits are `w`, numbered as opcode_table.json numbers them: a frame in wire
order if the row has more than 32 bits, a launch word of `CTL` lowest byte first otherwise. -/
def tableBytes (nbits w : Nat) : List Byte :=
  let byteOf (k : Nat) : Byte := BitVec.ofNat 8 (w >>> (8 * k))
  if 32 < nbits then [byteOf 5, byteOf 4, byteOf 3, byteOf 2, byteOf 1, byteOf 0]
  else [byteOf 0, byteOf 1, byteOf 2, byteOf 3]

/-- The operation this decoder reads from the bits of a row of opcode_table.json. The rows DMARST and GCTLRST have
the same bits as RI and CO and differ only in the register written; a bare word is read as a word of `CTL`
(assumption log, entry 17). -/
def decodeTableWord (nbits w : Nat) : Option Instr :=
  if 48 < nbits then none
  else match decodeBytes (tableBytes nbits w) with
    | .ok i => some i
    | .error _ => none

/-- The 48-bit command frame (rules R115, R172): start bit 0, transmission bit 1, index, argument, CRC-7 of these
forty bits, end bit 1. -/
def commandFrame (idx : BitVec 6) (arg : Word) : BitVec 48 :=
  let h : BitVec 40 := 0#1 ++ 1#1 ++ idx ++ arg
  h ++ crc7 (bitsMsb h) ++ 1#1

/-- The encoder. An operation launched from a register is the word with its bit alone (rule R130). -/
def encode : Instr → Code
  | .rd off => .bus .rd .word off 0#32
  | .wr off data => .bus .wr .word off data
  | .set off mask => .bus .set .word off mask
  | .clr off mask => .bus .clr .word off mask
  | .co => .word .ctl 0x00000001#32
  | .ri => .word .ctl 0x00000002#32
  | .di => .word .ctl 0x00000004#32
  | .dout => .word .ctl 0x00000008#32
  | .r2i => .word .ctl 0x00000010#32
  | .clk74o => .word .ctl 0x00000020#32
  | .clk8o => .word .ctl 0x00000040#32
  | .ctlrst => .word .ctl 0x00004000#32
  | .dmarst => .word .dmactl 0x00000002#32
  | .gctlrst => .word .gctl 0x00000001#32
  | .w1c reg mask => .bus .wr .word (w1cOffset reg) mask
  | .cmd0 arg => .frame (commandFrame 0#6 arg)
  | .cmd1 arg => .frame (commandFrame 1#6 arg)
  | .cmd2 arg => .frame (commandFrame 2#6 arg)
  | .cmd3 arg => .frame (commandFrame 3#6 arg)
  | .cmd7 arg => .frame (commandFrame 7#6 arg)
  | .cmd8 arg => .frame (commandFrame 8#6 arg)
  | .cmd9 arg => .frame (commandFrame 9#6 arg)
  | .cmd12 arg => .frame (commandFrame 12#6 arg)
  | .cmd13 arg => .frame (commandFrame 13#6 arg)
  | .cmd17 arg => .frame (commandFrame 17#6 arg)
  | .cmd18 arg => .frame (commandFrame 18#6 arg)
  | .cmd24 arg => .frame (commandFrame 24#6 arg)
  | .cmd25 arg => .frame (commandFrame 25#6 arg)
  | .acmd41 arg => .frame (commandFrame 41#6 arg)
  | .cmd55 arg => .frame (commandFrame 55#6 arg)

end Sys2Proof
end

