-- ==== Sys2Proof/WellFormed.lean ====
section
/-!
DEFINITION. Which operations are well formed: the offset of a bus operation is a legal access (rule R82), and a
`WR` to a register of write-1-to-clear flags is written as the row `W1C` (rule R156).
-/

namespace Sys2Proof

/-- A legal access to the window: a multiple of 4, at most 0x840 (rules R82, R111). -/
def offsetOk (off : Offset) : Bool := (regAt off).isSome

/-- The well-formed operations. -/
def Instr.wellFormed : Instr → Bool
  | .rd off | .set off _ | .clr off _ => offsetOk off
  | .wr off _ => offsetOk off && (w1cAt off).isNone
  | .co | .ri | .di | .dout | .r2i | .clk74o | .clk8o | .ctlrst | .dmarst | .gctlrst | .w1c _ _
  | .cmd0 _ | .cmd1 _ | .cmd2 _ | .cmd3 _ | .cmd7 _ | .cmd8 _ | .cmd9 _ | .cmd12 _ | .cmd13 _ | .cmd17 _
  | .cmd18 _ | .cmd24 _ | .cmd25 _ | .acmd41 _ | .cmd55 _ => true

end Sys2Proof
end

