-- ==== Sys2Proof/Machine/State.lean ====
section
/-!
DEFINITION. The state of one controller instance as plain data: the registers of rule R21 with their fields, the
hidden state of rule R23, the inputs of rule R60, the event history of rule R61, and around the block what the
spec's other agents bring (system memory, the card's answers, the host's program, the outside world). Then the
reasons a step can stop, and the state after the hardware reset (rules R63, R64).
-/

namespace Sys2Proof.Machine

/-- A field that may hold the spec's stored value `any` (rule R14): then every read may return a different value. -/
inductive Held (α : Type) where
  | known (a : α)
  | any
deriving DecidableEq, Repr

/-- What the SD engine is doing (`eng.phase`, rule R23). -/
inductive Phase where
  | idle | clk74 | clk8 | cmdOut | respIn | resp2In | dataIn | dataOut | dataEnd | reset
deriving DecidableEq, Repr

/-- The position inside one block of a `DO` operation (`eng.dsub`, rule R23). -/
inductive DSub where
  | send | waitStatus | waitReady
deriving DecidableEq, Repr

/-- `DMACTL` (rule R27). -/
structure DmaCtl where
  dmaen : Bool
  dmarst : Bool
  sgen : Bool
  dmabusy : Held Bool
deriving DecidableEq, Repr

/-- `DMAINTEN` (rule R30). -/
structure DmaIntEn where
  abortien : Bool
  weotien : Bool
deriving DecidableEq, Repr

/-- `DMAINTSTS` (rule R31). -/
structure DmaIntSts where
  abortif : Bool
  weotif : Bool
deriving DecidableEq, Repr

/-- `GCTL` (rule R32). -/
structure GCtl where
  gctlrst : Bool
  sden : Bool
deriving DecidableEq, Repr

/-- `CTL` (rule R35). The launch bits that rule R331 may leave `any` are of type `Held Bool`. -/
structure Ctl where
  coen : Bool
  rien : Held Bool
  dien : Held Bool
  doen : Held Bool
  r2en : Held Bool
  clk74oen : Bool
  clk8oen : Bool
  clkkeep0 : Bool
  cmdcode : BitVec 6
  ctlrst : Bool
  dbw : Bool
  blkcnt : BitVec 8
  sdnwr : BitVec 4
  sdport : BitVec 2
  clkkeep1 : Bool
deriving DecidableEq, Repr

/-- `INTEN` (rule R37). -/
structure IntEn where
  blkdien : Bool
  crcien : Bool
  cdien0 : Bool
  cdien1 : Bool
  rtoien : Bool
  ditoien : Bool
  cdsrc0 : Bool
  cdsrc1 : Bool
deriving DecidableEq, Repr

/-- The stored fields of `INTSTS` (rule R38); `DAT0STS`, `CDSTS0` and `CDSTS1` are live inputs. -/
structure IntSts where
  blkdif : Held Bool
  crcif : Bool
  crc7 : Held Bool
  crc16 : Held Bool
  crcsts : Held (BitVec 3)
  cdif0 : Bool
  cdif1 : Bool
  rtoif : Bool
  ditoif : Bool
deriving DecidableEq, Repr

/-- `ECTL` (rule R43). -/
structure ECtl where
  poweroff0 : Bool
  poweroff1 : Bool
deriving DecidableEq, Repr

/-- The hidden state of the SD engine (rule R23). `stuck` is the model's own: the oracle has answered that nothing
comes and no timeout is set, so that the engine has no enabled step until a reset (rules R15, R196, R254;
assumption log, entry 7). -/
structure Eng where
  phase : Phase
  blocksLeft : Nat
  dsub : DSub
  halted : Bool
  stuck : Bool
deriving DecidableEq, Repr

/-- The hidden state of the DMA sequencer (rule R23). `padPtr` is a number so that the end of the address space, 2^32,
is not taken for 0 (rule R222; assumption log, entry 24). `dest` is the model's own: the segments `[a, a + n)` of the
running scatter-gather operation, as pairs of `a` and `n`; none where a table entry is unknown, so that a segment
could lie anywhere (rule R331; assumption log, entry 25). -/
structure Dma where
  halted : Bool
  cur : Held Word
  segLeft : Nat
  padPtr : Held Nat
  eotSeen : Bool
  dest : Option (List (Nat × Nat))
deriving DecidableEq, Repr

/-- The present levels of the card-detect inputs (rule R60). -/
structure CdPins where
  ded0 : Bool
  ded1 : Bool
  gpio0 : Bool
  gpio1 : Bool
deriving DecidableEq, Repr

/-- The three software resets, as the event history names them (rule R61). -/
inductive ResetKind where
  | ctl | dma | global
deriving DecidableEq, Repr

/-- The events of the history (rule R61). -/
inductive Event where
  | clk (p : Port) (n : Nat)
  | cmdOut (p : Port) (f : BitVec 48)
  | respIn (p : Port) (f : BitVec 48)
  | resp2In (p : Port) (f : BitVec 136)
  | respNone (p : Port)
  | blockIn (p : Port) (k : Nat) (bytes : List Byte)
  | blockNone (p : Port) (k : Nat)
  | blockOut (p : Port) (k : Nat) (bytes : List Byte) (crcs : List (BitVec 16))
  | crcStatus (p : Port) (k : Nat) (s : BitVec 3)
  | memRd (addr : Word) (v : Word)
  | memWr (addr : Word) (v : Word)
  | memErr (addr : Word)
  | reset (kind : ResetKind)
deriving DecidableEq, Repr

/-- The answers a card will give, per query of rule R12, in order; `none` is `Nothing` or `Never`. When a list is
used up the answers are free values (assumption log, entry 6). -/
structure CardScript where
  resp48 : List (Option (BitVec 48))
  resp136 : List (Option (BitVec 136))
  blocks : List (Option Block)
  status : List (Option (BitVec 3))
  ready : List Bool
  dat0 : List Bool
deriving DecidableEq, Repr

/-- What the outside world does to the instance: a card-detect level changes (rule R60), another master stores a
byte in system memory (rule R80), the platform changes which word addresses answer `BusError` (rule R81), a word of
system memory starts or ceases to lie in the buffers of both instances (rule R344), or the system resets the block
(rule R63). -/
inductive Input where
  | cdDed (p : Port) (level : Bool)
  | cdGpio (p : Port) (level : Bool)
  | memStore (addr : Word) (b : Byte)
  | busError (addr : Word) (fails : Bool)
  | overlap (addr : Word) (on : Bool)
  | hardwareReset
deriving DecidableEq, Repr

/-- The state of one controller instance and its surroundings (rule R20). -/
structure State where
  /-- the shared buffer (rule R26) -/
  fb : Vector (Held Word) 128
  dmactl : DmaCtl
  /-- `DMASA` (rule R28) -/
  dmasa : Word
  /-- `DMABCNT.BCNT` (rule R29) -/
  bcnt : Held (BitVec 26)
  dmainten : DmaIntEn
  dmaintsts : DmaIntSts
  gctl : GCtl
  /-- `GINTEN.DTAIEN` (rule R33) -/
  dtaien : Bool
  /-- `GINTSTS.DTAIF` (rule R34) -/
  dtaif : Bool
  ctl : Ctl
  /-- `CMDARG` (rule R36) -/
  cmdarg : Word
  inten : IntEn
  intsts : IntSts
  /-- `RESP0` (rule R39) -/
  resp0 : Held Word
  /-- `RESP1[7:0]` (rule R40) -/
  resp1 : Held Byte
  /-- `BLEN.BLEN` (rule R41) -/
  blen : BitVec 11
  /-- `TOUT.TOUT` (rule R42) -/
  tout : BitVec 24
  ectl : ECtl
  eng : Eng
  dma : Dma
  /-- `cd.prev[0]` (rule R23) -/
  cdPrev0 : Bool
  /-- `cd.prev[1]` (rule R23) -/
  cdPrev1 : Bool
  /-- the card-detect inputs (rule R60) -/
  pins : CdPins
  /-- the event history, oldest first (rule R61) -/
  history : List Event
  /-- system memory (rules R80, R88): address and byte, addresses rising; an unlisted byte is `any` -/
  mem : List Host.Cell
  /-- the model's own: the bytes of system memory that another master changed during the running `DO`, with what each
  held before; none is `any` (rule R95; assumption log, entry 36) -/
  lent : List (Nat × Option Byte)
  /-- the word addresses that answer `BusError`, a property of the platform (rule R81) -/
  busErr : List Word
  /-- the model's own: the addresses of the words of system memory that lie in the buffers of both instances, whose
  contents are `any` (rule R344; assumption log, entry 41) -/
  overlap : List Word
  /-- the answers of the card on port 0 (rule R12) -/
  card0 : CardScript
  /-- the answers of the card on port 1 (rule R12) -/
  card1 : CardScript
  /-- the host's remaining program (rule R8) -/
  prog : List Code
  /-- the data the register slave port returned last (rule R60) -/
  rdata : Word
  /-- whose turns come next (rule R10) -/
  turns : List Turn
  /-- what the outside world will do next -/
  inputs : List Input
  /-- the model's own counter, which every draw of a free value is applied to -/
  draws : Nat
deriving DecidableEq, Repr

/-- The reasons the machine stops with a fault. There is none: rules R320 and R336 make every error of the block a
recorded event, a next state. Raised by nothing; safe. -/
inductive Fault where
deriving DecidableEq, Repr

/-- The reasons a step is refused: the host did something the spec forbids or gives no meaning (rule R15). Each is
safe: the model stops where the part would go on. -/
inductive Refusal where
  /-- an arm of `exec` that has no meaning yet; raised by `exec` alone; safe -/
  | notModelled (mnemonic : String)
  /-- the offset is not a multiple of 4 or beyond 0x840 (rules R82, R150, R151); raised by RD, WR, SET, CLR; safe -/
  | badOffset
  /-- a host access of 8 or 16 bits (rule R82); raised when the host's operation is fetched; safe -/
  | narrowAccess
  /-- the host's program holds a word or frame that is no operation of the host; raised at its fetch; safe -/
  | notAHostOperation
  /-- a write to a reserved offset (rule R44); raised by WR, SET, CLR; safe -/
  | reservedOffset
  /-- an access to `FB` while an operation is in flight (rule R372); raised by RD, WR, SET, CLR; safe -/
  | bufferInUse
  /-- a write of 0 to a launch bit that is 1 (rule R370); raised by WR, SET, CLR and the commands; safe -/
  | launchBitCleared
  /-- a launch while an operation is in flight (rule R371); raised by WR, SET, CLR and the commands; safe -/
  | launchInFlight
  /-- a write that changes an operand, or clears an enable, in flight (rule R371); raised by WR, SET, CLR and the
  commands; safe -/
  | operandInFlight
  /-- a set of launch bits outside the legal ones (rule R131); raised by WR, SET, CLR and the commands; safe -/
  | illegalLaunchSet
  /-- a launch with `SDPORT` = 2 or 3 (rule R275); raised by WR, SET, CLR and the commands; safe -/
  | reservedPort
  /-- a launch after a halting event and before the resets (rule R375); raised by WR, SET, CLR and the commands;
  safe -/
  | launchWhileHalted
  /-- a data launch with `BLKCNT` = 0 (rule R373); raised by WR, SET, CLR and the data commands; safe -/
  | zeroBlockCount
  /-- a data launch with `DMASA[1:0]` not 0 (rule R374); raised by WR, SET, CLR and the data commands; safe -/
  | misalignedAddress
  /-- a data launch with a block length that is no multiple of 4 (rule R374); raised by WR, SET, CLR and the data
  commands; safe -/
  | blockNotWords
  /-- a contiguous data launch whose range passes 2^32 (rule R374); raised by WR, SET, CLR and the data commands;
  safe -/
  | rangeWraps
  /-- a malformed entry of the scatter-gather table (rule R248); raised by DI and DO; safe -/
  | illegalPadEntry
  /-- a scatter-gather table that passes 2^32 (rule R222); raised by DI and DO; safe -/
  | padTableWraps
deriving DecidableEq, Repr

/-- A card that has no scripted answer. -/
def CardScript.silent : CardScript :=
  { resp48 := [], resp136 := [], blocks := [], status := [], ready := [], dat0 := [] }

/-- The state after the hardware reset (rules R63, R64). Fields for which rule R63 gives no value hold the values
named in the assumption log, entries 1 (PRESUMED, the family's), 2, 29 and 31 (DESIGN CHOICE). -/
def State.reset : State where
  fb := Vector.replicate 128 (.known 0#32)
  dmactl := { dmaen := false, dmarst := false, sgen := false, dmabusy := .known false }
  dmasa := 0#32
  bcnt := .known 0#26
  dmainten := { abortien := true, weotien := false }
  dmaintsts := { abortif := false, weotif := false }
  gctl := { gctlrst := false, sden := false }
  dtaien := true
  dtaif := false
  ctl :=
    { coen := false, rien := .known false, dien := .known false, doen := .known false, r2en := .known false
      clk74oen := false, clk8oen := false, clkkeep0 := false, cmdcode := 0#6, ctlrst := false, dbw := false
      blkcnt := 1#8, sdnwr := 1#4, sdport := 0#2, clkkeep1 := false }
  cmdarg := 0#32
  inten :=
    { blkdien := false, crcien := false, cdien0 := false, cdien1 := true, rtoien := false, ditoien := false
      cdsrc0 := false, cdsrc1 := false }
  intsts :=
    { blkdif := .known false, crcif := false, crc7 := .known true, crc16 := .known true, crcsts := .known 0#3
      cdif0 := false, cdif1 := false, rtoif := false, ditoif := false }
  resp0 := .known 0#32
  resp1 := .known 0#8
  blen := 0x1FF#11
  tout := 0#24
  ectl := { poweroff0 := true, poweroff1 := true }
  eng := { phase := .idle, blocksLeft := 0, dsub := .send, halted := false, stuck := false }
  dma := { halted := false, cur := .known 0#32, segLeft := 0, padPtr := .known 0, eotSeen := false, dest := some [] }
  cdPrev0 := false
  cdPrev1 := false
  pins := { ded0 := false, ded1 := false, gpio0 := false, gpio1 := false }
  history := []
  mem := []
  lent := []
  busErr := []
  overlap := []
  card0 := .silent
  card1 := .silent
  prog := []
  rdata := 0#32
  turns := []
  inputs := []
  draws := 0

end Sys2Proof.Machine
end

