-- ==== Sys2Proof/Machine/Operands.lean ====
section
/-!
DEFINITION. The operand forms: fields that may hold `any`, the fields of every register word (rules R27 to R43), and
the operands of the engine's operations: port, block length, byte count (rules R41, R90, R231).
-/

namespace Sys2Proof.Machine

/-- The value of a field at this moment: the stored one, or the draw `d` where it holds `any` (rule R14). -/
def Held.pick {α : Type} (x : Held α) (d : α) : α :=
  match x with
  | .known a => a
  | .any => d

/-- Whether a launch bit is 1 and known to be. -/
def Held.isOn (x : Held Bool) : Bool :=
  match x with
  | .known b => b
  | .any => false

/-- A launch bit of a stopped operation: `any` if it was 1, otherwise as it was (rule R331). -/
def Held.blur (x : Held Bool) : Held Bool :=
  if x.isOn then .any else x

/-- A field that reads `any` while `b` holds, whatever is stored in it. -/
def Held.hideIf {α : Type} (x : Held α) (b : Bool) : Held α :=
  if b then .any else x

/-- The word with bit `i` equal to `b` and every other bit 0. -/
def bit (i : Nat) (b : Bool) : Word := if b then 1#32 <<< i else 0#32

/-- The word with the field `v` at bit `i` and every other bit 0. -/
def fld {w : Nat} (i : Nat) (v : BitVec w) : Word := v.setWidth 32 <<< i

/-- The offset of `CTL` (rule R21). -/
def ctlOff : Offset := 0x820#12

/-- The offset of `DMACTL` (rule R21). -/
def dmactlOff : Offset := 0x400#12

/-- The offset of `CMDARG` (rule R21). -/
def cmdargOff : Offset := 0x824#12

/-- The offset of `DMABCNT` (rule R21). -/
def dmabcntOff : Offset := 0x40C#12

/-- The offset of `INTSTS` (rule R21). -/
def intstsOff : Offset := 0x82C#12

/-- `CTL` at this moment, its reserved bit 0 (rule R35). -/
def ctlNow (s : State) : Word :=
  let d := Config.anyWord s.draws ctlOff
  bit 0 s.ctl.coen ||| bit 1 (s.ctl.rien.pick (d.getLsbD 1)) ||| bit 2 (s.ctl.dien.pick (d.getLsbD 2))
    ||| bit 3 (s.ctl.doen.pick (d.getLsbD 3)) ||| bit 4 (s.ctl.r2en.pick (d.getLsbD 4))
    ||| bit 5 s.ctl.clk74oen ||| bit 6 s.ctl.clk8oen ||| bit 7 s.ctl.clkkeep0 ||| fld 8 s.ctl.cmdcode
    ||| bit 14 s.ctl.ctlrst ||| bit 15 s.ctl.dbw ||| fld 16 s.ctl.blkcnt ||| fld 24 s.ctl.sdnwr
    ||| fld 29 s.ctl.sdport ||| bit 31 s.ctl.clkkeep1

/-- `DMACTL.DMABUSY` at this moment (rule R59). -/
def busyNow (s : State) : Bool :=
  s.dmactl.dmabusy.pick ((Config.anyWord s.draws dmactlOff).getLsbD 9)

/-- `DMACTL` at this moment, its reserved bits 0 (rule R27). -/
def dmactlNow (s : State) : Word :=
  bit 0 s.dmactl.dmaen ||| bit 1 s.dmactl.dmarst ||| bit 3 s.dmactl.sgen ||| bit 9 (busyNow s)

/-- `GCTL` at this moment, its reserved bits 0 (rule R32). -/
def gctlNow (s : State) : Word := bit 0 s.gctl.gctlrst ||| bit 1 s.gctl.sden

/-- `DMABCNT.BCNT` at this moment (rule R29). -/
def bcntNow (s : State) : BitVec 26 :=
  s.bcnt.pick ((Config.anyWord s.draws dmabcntOff).setWidth 26)

/-- `INTSTS.BLKDIF` at this moment (rule R46): `any` while the SD engine is halted (rule R331; also against a clearing
by the host, and where `DMARST` halted it, DESIGN CHOICE; assumption log, entries 35 and 40). -/
def blkdifNow (s : State) : Bool :=
  (s.intsts.blkdif.hideIf s.eng.halted).pick ((Config.anyWord s.draws intstsOff).getLsbD 0)

/-- Whether the sequencer counts as busy for the host contract (rules R26, R371, R372): `DMABUSY` is 1. Where it is
`any` and the sequencer is not halted, a response timeout alone made it so, and nothing moves (assumption log, entry
35). -/
def seqBusy (s : State) : Bool := if s.dma.halted then busyNow s else s.dmactl.dmabusy.isOn

/-- Whether an operation is in flight as the host contract counts it: a launch bit of `CTL` is 1 or the sequencer is
busy (rules R26, R371, R372). -/
def inFlight (s : State) : Bool := (ctlNow s &&& 0x407F#32) != 0#32 || seqBusy s

/-- The port that every operation of the engine uses (rule R275); `SDPORT` is 0 or 1 in every enabled step. While
`SDPORT` holds the reserved value 2 or 3, which a write without a launch may store, only a read of `INTSTS` asks for a
port (rule R52); the spec does not say which, and the model's choice is port 0 (DESIGN CHOICE; assumption log, entry
34). -/
def selPort (s : State) : Port := if s.ctl.sdport = 1#2 then .p1 else .p0

/-- The length of a data block in bytes, `BLEN + 1`, computed without wrap-around (rules R41, R222). -/
def blockLen (s : State) : Nat := s.blen.toNat + 1

/-- The byte count of a data operation, `BLKCNT × (BLEN + 1)` (rules R29, R90). -/
def byteCount (s : State) : Nat := s.ctl.blkcnt.toNat * blockLen s

/-- The index of the block being moved, from 0 (rule R236). -/
def blockIndex (s : State) : Nat := s.ctl.blkcnt.toNat - s.eng.blocksLeft

/-- The fields of `CTL` that are not launch bits, as a written word has them (rule R112). -/
def Ctl.withFields (c : Ctl) (w : Word) : Ctl :=
  { c with
    clkkeep0 := w.getLsbD 7
    cmdcode := w.extractLsb' 8 6
    dbw := w.getLsbD 15
    blkcnt := w.extractLsb' 16 8
    sdnwr := w.extractLsb' 24 4
    sdport := portField w
    clkkeep1 := w.getLsbD 31 }

/-- Whether a written word changes one of the operand fields of `CTL` (rules R98, R371). -/
def Ctl.operandsDiffer (c : Ctl) (w : Word) : Bool :=
  c.cmdcode != w.extractLsb' 8 6 || c.dbw != w.getLsbD 15 || c.blkcnt != w.extractLsb' 16 8
    || c.sdport != portField w

/-- The launch bits of `CTL` after the operations selected by `w` have been requested (rules R45, R157): a bit that
is 1 already is left as it is. -/
def Ctl.launch (c : Ctl) (w : Word) : Ctl :=
  let on (x : Held Bool) (b : Bool) : Held Bool := if b && !x.isOn then .known true else x
  { c with
    coen := c.coen || w.getLsbD 0
    rien := on c.rien (w.getLsbD 1)
    dien := on c.dien (w.getLsbD 2)
    doen := on c.doen (w.getLsbD 3)
    r2en := on c.r2en (w.getLsbD 4)
    clk74oen := c.clk74oen || w.getLsbD 5
    clk8oen := c.clk8oen || w.getLsbD 6 }

/-- `CTL` with every launch bit of an operation 0, as a reset leaves it; `CTLRST` itself is not touched
(rules R250, R252). -/
def Ctl.noLaunch (c : Ctl) : Ctl :=
  { c with
    coen := false
    rien := .known false
    dien := .known false
    doen := .known false
    r2en := .known false
    clk74oen := false
    clk8oen := false }

/-- What the engine does next: the fixed order of rule R175. -/
def nextPhase (c : Ctl) : Phase :=
  if c.clk74oen then .clk74
  else if c.coen then .cmdOut
  else if c.rien.isOn then .respIn
  else if c.r2en.isOn then .resp2In
  else if c.dien.isOn then .dataIn
  else if c.doen.isOn then .dataOut
  else if c.clk8oen then .clk8
  else .idle

/-- The enabling conditions common to every step launched from `CTL` (rule R176), and that the engine is not stuck
(rule R15). -/
def engineEnabled (s : State) : Bool :=
  s.gctl.sden && !s.eng.halted && !s.eng.stuck && !s.ctl.ctlrst && !s.gctl.gctlrst && s.ctl.sdport.toNat < 2

/-- The enabling conditions of every step of a data operation (rule R232). -/
def dataEnabled (s : State) : Bool :=
  engineEnabled s && s.dmactl.dmaen && !s.dma.halted && !s.dmactl.dmarst

end Sys2Proof.Machine
end

