-- ==== Sys2Proof/Machine/Flags.lean ====
section
/-!
DEFINITION. The flags: how a CRC verdict is recorded (rules R191, R194, R217), how a word of write-1-to-clear flags
clears them (rule R156), the live status inputs (rules R52, R271), and the outputs that are functions of the flags
(rules R277, R333).
-/

namespace Sys2Proof.Machine

/-- The verdict of a CRC-7 check (rules R48, R191): the bit is 1 for correct. `CRCIF` is event E2, raised apart. -/
def recordCrc7 (ok : Bool) (s : State) : State :=
  { s with intsts := { s.intsts with crc7 := .known ok } }

/-- The verdict of a CRC-16 check (rules R49, R236). -/
def recordCrc16 (ok : Bool) (s : State) : State :=
  { s with intsts := { s.intsts with crc16 := .known ok } }

/-- The CRC status token received after a written block (rules R50, R242). -/
def recordCrcStatus (t : BitVec 3) (s : State) : State :=
  { s with intsts := { s.intsts with crcsts := .known t } }

/-- The flags of `INTSTS` after a word is written to it (rules R38, R114, R156). -/
def IntSts.clear (f : IntSts) (m : Word) : IntSts :=
  { f with
    blkdif := if m.getLsbD 0 then .known false else f.blkdif
    crcif := f.crcif && !m.getLsbD 1
    cdif0 := f.cdif0 && !m.getLsbD 8
    cdif1 := f.cdif1 && !m.getLsbD 9
    rtoif := f.rtoif && !m.getLsbD 12
    ditoif := f.ditoif && !m.getLsbD 13 }

/-- The flags of `DMAINTSTS` after a word is written to it (rules R31, R156). -/
def DmaIntSts.clear (f : DmaIntSts) (m : Word) : DmaIntSts :=
  { abortif := f.abortif && !m.getLsbD 0, weotif := f.weotif && !m.getLsbD 1 }

/-- Clearing event flags (rule R156): a written 1 clears the flag at its position, every other position is ignored. -/
def clearFlags (r : W1cReg) (m : Word) (s : State) : State :=
  match r with
  | .intsts => { s with intsts := s.intsts.clear m }
  | .dmaintsts => { s with dmaintsts := s.dmaintsts.clear m }
  | .gintsts => { s with dtaif := s.dtaif && !m.getLsbD 0 }

/-- The script of the card on a port. -/
def State.card (s : State) : Port → CardScript
  | .p0 => s.card0
  | .p1 => s.card1

/-- `INTSTS.DAT0STS` at this moment: the oracle `CardDat0` of the selected port (rule R52). Where `SDPORT` holds 2 or
3 the spec names no port; that the card on port 0 is asked then is the model's choice (assumption log, entry 34). -/
def dat0Now (s : State) : Bool :=
  match (s.card (selPort s)).dat0 with
  | b :: _ => b
  | [] => Config.dat0 s.draws

/-- `INTSTS.CDSTSp` at this moment (rules R270, R271): the dedicated source or the general-purpose pin. -/
def cdsts (s : State) : Port → Bool
  | .p0 => if s.inten.cdsrc0 then s.pins.gpio0 else s.pins.ded0
  | .p1 => if s.inten.cdsrc1 then s.pins.gpio1 else s.pins.ded1

/-- The presence predicate the host must use, with the polarity inverted between the sources (rule R271). -/
def cardPresent (s : State) : Port → Bool
  | .p0 => cdsts s .p0 != s.inten.cdsrc0
  | .p1 => cdsts s .p1 != s.inten.cdsrc1

/-- The remembered card-detect level `cd.prev[p]` (rule R23). -/
def cdPrev (s : State) : Port → Bool
  | .p0 => s.cdPrev0
  | .p1 => s.cdPrev1

/-- The output `power[p]` (rule R277). -/
def power (s : State) : Port → Bool
  | .p0 => !s.ectl.poweroff0
  | .p1 => !s.ectl.poweroff1

/-- The interrupt request, a level (rule R333). -/
def irq (s : State) : Bool :=
  (s.inten.blkdien && blkdifNow s) || (s.inten.crcien && s.intsts.crcif) || (s.inten.cdien0 && s.intsts.cdif0)
    || (s.inten.cdien1 && s.intsts.cdif1) || (s.inten.rtoien && s.intsts.rtoif)
    || (s.inten.ditoien && s.intsts.ditoif) || (s.dmainten.abortien && s.dmaintsts.abortif)
    || (s.dmainten.weotien && s.dmaintsts.weotif) || (s.dtaien && s.dtaif)

end Sys2Proof.Machine
end

