-- ==== Sys2Proof/Machine/Ops.lean ====
section
/-!
DEFINITION. The operations over system memory (rules R86, R88, R90), the card oracle's answers (rule R12), the
addresses of a data operation (rule R248), and the counterpart of taking an exception: recording an event and
halting (rules R330, R331, R336), with the way back beside it (rule R337).
-/

namespace Sys2Proof.Machine

/-- Every draw uses a new value of the counter. -/
def State.tick (s : State) : State := { s with draws := s.draws + 1 }

/-- An event is appended to the history (rule R61). -/
def State.log (s : State) (e : Event) : State := { s with history := s.history ++ [e] }

/-- The engine goes to a phase (rule R14, `eng.phase <- P`). -/
def State.setPhase (s : State) (p : Phase) : State := { s with eng := { s.eng with phase := p } }

/-! ### System memory -/

/-- The byte listed at an address, if there is one. -/
def memGet : List Host.Cell → Nat → Option Byte
  | [], _ => none
  | c :: m, a => if c.1 = a then some c.2 else memGet m a

/-- A byte stored: the list stays sorted by address. -/
def memPut : List Host.Cell → Nat → Byte → List Host.Cell
  | [], a, b => [(a, b)]
  | c :: m, a, b =>
    if a < c.1 then (a, b) :: c :: m
    else if c.1 = a then (a, b) :: m
    else c :: memPut m a b

/-- The bytes of `[lo, hi)` hold `any` from now on: nothing is listed there (rule R331). -/
def memErase (m : List Host.Cell) (lo hi : Nat) : List Host.Cell :=
  m.filter fun c => !(decide (lo ≤ c.1) && decide (c.1 < hi))

/-- The canonical form: every address above the one before it. `lo` bounds the first from below. -/
def memWfFrom : Nat → List Host.Cell → Bool
  | _, [] => true
  | lo, c :: m => decide (lo ≤ c.1) && memWfFrom (c.1 + 1) m

/-- The canonical form of system memory: addresses strictly rising, all of them below 2^32. An unlisted byte is
`any`, which no listed byte equals (assumption log, entry 8). -/
def Memory.wf (m : List Host.Cell) : Bool := memWfFrom 0 m && m.all fun c => c.1 < 2 ^ 32

/-- Byte `k` of the word at address `a`. -/
def byteAddr (a : Word) (k : Nat) : Nat := (a + BitVec.ofNat 32 k).toNat

/-- A byte of system memory as an access sees it: the listed one, or a draw where the byte is `any`. A byte that another
master changed during the running `DO` is any of its old and new values (rule R95; assumption log, entry 36). -/
def memByte (s : State) (a : Nat) : Byte :=
  let draw := Config.anyByte s.draws a
  let old := s.lent.filter fun c => c.1 == a
  match old[Config.oldOrNew s.draws a % (old.length + 1)]? with
  | some c => c.2.getD draw
  | none => (memGet s.mem a).getD draw

/-- The little-endian word at an address (rule R86). -/
def memWord (s : State) (a : Word) : Word :=
  memByte s (byteAddr a 3) ++ memByte s (byteAddr a 2) ++ memByte s (byteAddr a 1) ++ memByte s (byteAddr a 0)

/-- Whether a byte lies in one of the words that the buffers of the two instances share (rule R344). -/
def overlapped (ov : List Word) (a : Nat) : Bool := ov.any fun w => decide (w.toNat ≤ a ∧ a < w.toNat + 4)

/-- A byte stored at an address; where the buffers of the two instances overlap the result is `any` (rule R344). -/
def storeByte (ov : List Word) (m : List Host.Cell) (a : Nat) (b : Byte) : List Host.Cell :=
  if overlapped ov a then memErase m a (a + 1) else memPut m a b

/-- The four bytes of a word stored at an address, little-endian (rule R86). -/
def storeWord (ov : List Word) (m : List Host.Cell) (a v : Word) : List Host.Cell :=
  let m0 := storeByte ov m (byteAddr a 0) (v.extractLsb' 0 8)
  let m1 := storeByte ov m0 (byteAddr a 1) (v.extractLsb' 8 8)
  let m2 := storeByte ov m1 (byteAddr a 2) (v.extractLsb' 16 8)
  storeByte ov m2 (byteAddr a 3) (v.extractLsb' 24 8)

/-! ### Recording an event -/

/-- The word listed at an address, little-endian, if all four bytes are. -/
def memGetWord (m : List Host.Cell) (a : Nat) : Option Word :=
  match memGet m a, memGet m (a + 1), memGet m (a + 2), memGet m (a + 3) with
  | some b0, some b1, some b2, some b3 => some (b3 ++ b2 ++ b1 ++ b0)
  | _, _, _, _ => none

/-- The segments of the scatter-gather table at `ptr`, up to its end mark (rules R128, R331); none where the bytes of an
entry are unknown (assumption log, entry 25). The entries read lie at different addresses of memory, so a fuel beyond
its size is never used up. -/
def tableSegments (m : List Host.Cell) : Nat → Nat → Option (List (Nat × Nat))
  | 0, _ => none
  | fuel + 1, ptr =>
    match memGetWord m ptr, memGetWord m (ptr + 4) with
    | some e0, some e1 =>
      let seg := (e0.toNat, (e1 &&& 0x03FFFFFF#32).toNat)
      if e1.getLsbD 31 then some [seg] else (tableSegments m fuel (ptr + 8)).map (seg :: ·)
    | _, _ => none

/-- The byte ranges of the data operation that the registers describe: `[DMASA, DMASA + N)` of a contiguous one, or
every segment of the table (rules R90, R331). -/
def destRanges (s : State) : Option (List (Nat × Nat)) :=
  if s.dmactl.sgen then tableSegments s.mem (s.mem.length + 1) s.dmasa.toNat
  else some [(s.dmasa.toNat, byteCount s)]

/-- System memory after a data input was stopped: every byte of its destination ranges holds `any` (rules R197, R251,
R331). The segments of a scatter-gather operation that has started were noted at its start and at each entry it
fetched; where an entry is unknown its segment could lie anywhere, and the whole memory holds `any` (assumption log,
entry 25). -/
def blurDest (s : State) : List Host.Cell :=
  match (if s.dmactl.sgen && s.dmactl.dmabusy.isOn then s.dma.dest else destRanges s) with
  | some rs => rs.foldl (fun m r => memErase m r.1 (r.1 + r.2)) s.mem
  | none => []

/-- Every word of the shared buffer holds `any` (rule R26). -/
def fbAny : Vector (Held Word) 128 := Vector.replicate 128 .any

/-- The SD engine is halted with its data launch bits `any` (rules R197, R249, R251). -/
def stopEngine (s : State) : State :=
  { s with eng := { s.eng with halted := true }, ctl := { s.ctl with dien := .any, doen := .any } }

/-- Both engines stop (`halt_data()`, rules R249, R331): `DIEN`, `DOEN`, `BLKDIF`, `DMABUSY`, `BCNT` and the shared
buffer hold `any`, a response launch bit too if it was 1, and for a `DI` every byte of the destination does. -/
def haltData (s : State) : State :=
  { stopEngine s with
    ctl := { s.ctl with rien := s.ctl.rien.blur, r2en := s.ctl.r2en.blur, dien := .any, doen := .any }
    mem := if s.ctl.dien.isOn then blurDest s else s.mem
    dma := { s.dma with halted := true }
    intsts := { s.intsts with blkdif := .any }
    dmactl := { s.dmactl with dmabusy := .any }
    bcnt := .any
    fb := fbAny }

/-- The SD engine stops on a response timeout (rule R195): all four launch bits hold `any`. -/
def haltResponse (s : State) : State :=
  { stopEngine s with ctl := { s.ctl with rien := .any, r2en := .any, dien := .any, doen := .any } }

/-- The sequencer's status after the SD engine alone was halted by an event (rules R59, R331): `DMABUSY` and `BCNT` hold
`any`, until `DMARST`, `GCTLRST` or, since the sequencer is not halted, the next `DSTART` (assumption log, entry 35). -/
def loseCount (s : State) : State :=
  { s with dmactl := { s.dmactl with dmabusy := .any }, bcnt := .any }

/-- Whether the launch word of the running operation has a data phase. -/
def dataPending (s : State) : Bool := s.ctl.dien.isOn || s.ctl.doen.isOn

/-- The events of rule R330 with what each records. -/
inductive EventKind where
  | responseTimeout
  | responseCrc
  | dataTimeout
  | dataCrc
  | crcStatus
  | targetAbort (a : Word)
  | wrongEot
  | cardDetect (p : Port)
  | blockDone
deriving DecidableEq, Repr

/-- Setting the flags of an event (rule R330, columns "flag" and "other values recorded"). -/
def setFlags (e : EventKind) (s : State) : State :=
  match e with
  | .responseTimeout => { s with intsts := { s.intsts with rtoif := true } }
  | .responseCrc => { s with intsts := { s.intsts with crcif := true } }
  | .dataTimeout => { s with intsts := { s.intsts with ditoif := true } }
  | .dataCrc => { s with intsts := { s.intsts with crcif := true } }
  | .crcStatus => { s with intsts := { s.intsts with crcif := true } }
  | .targetAbort a =>
    { s.log (.memErr a) with
      dmaintsts := { s.dmaintsts with abortif := true }
      dtaif := true
      dmactl := { s.dmactl with dmaen := false } }
  | .wrongEot => { s with dmaintsts := { s.dmaintsts with weotif := true } }
  | .cardDetect .p0 => { s with intsts := { s.intsts with cdif0 := true } }
  | .cardDetect .p1 => { s with intsts := { s.intsts with cdif1 := true } }
  | .blockDone => { s with intsts := { s.intsts with blkdif := .known true } }

/-- The consequence of an event (rule R330, column "halts"). After a response timeout without a data phase rules R160
and R331 make `BLKDIF`, `DMABUSY`, `BCNT` and `FB` read `any`, while rule R195 does not name them, and vectors V52 and
V101 have `FB` unchanged and a new launch legal after `CTLRST`: `BLKDIF` and `FB` read `any` until that reset and come
back with it, `DMABUSY` and `BCNT` stay `any` and hinder no launch (DESIGN CHOICE; assumption log, entry 35). -/
def applyHalt (e : EventKind) (s : State) : State :=
  match e with
  | .responseTimeout => haltResponse (if dataPending s then haltData s else loseCount s)
  | .responseCrc => if dataPending s then haltData s else s
  | .dataTimeout | .dataCrc | .crcStatus | .targetAbort _ | .wrongEot => haltData s
  | .cardDetect _ | .blockDone => s

/-- Raising an event, the counterpart of taking an exception (rule R336): the flags and recorded values, and for a
halting event the halt; nothing is saved and no control is transferred. -/
def raise (e : EventKind) (s : State) : State := applyHalt e (setFlags e s)

/-- The way back from a halt of the SD engine (rules R250, R252, R337): no launch bit, not halted, not stuck. -/
def resetEngine (s : State) : State :=
  { s with
    ctl := s.ctl.noLaunch
    eng := { s.eng with blocksLeft := 0, dsub := .send, halted := false, stuck := false }
    resp0 := .any
    resp1 := .any
    intsts := { s.intsts with crc7 := .any, crc16 := .any, crcsts := .any }
    lent := [] }

/-- The way back from a halt of the DMA sequencer (rules R251, R252, R337). -/
def resetDma (s : State) : State :=
  { s with
    dmactl := { s.dmactl with dmabusy := .known false }
    bcnt := .known 0#26
    dma := { halted := false, cur := .any, segLeft := 0, padPtr := .any, eotSeen := false, dest := some [] }
    fb := fbAny }

/-! ### DMA accesses -/

/-- How a part of a step ends: it goes on with a value, the step ends with an event, or the model refuses. -/
inductive Flow (α : Type) where
  | go (a : α) (s : State)
  | stop (s : State)
  | refuse (r : Refusal)

/-- `MemRead(a, 4)` of a data operation (rule R88): the word, or the target abort of rule R247. -/
def dmaRead (a : Word) (s : State) : Flow Word :=
  if a ∈ s.busErr then .stop (raise (.targetAbort a) s)
  else .go (memWord s a) ((s.log (.memRd a (memWord s a))).tick)

/-- `MemWrite(a, 4, v)` of a data operation (rules R88, R344): done, or the target abort of rule R247. -/
def dmaWrite (a v : Word) (s : State) : Flow Unit :=
  if a ∈ s.busErr then .stop (raise (.targetAbort a) s)
  else .go () ({ s with mem := storeWord s.overlap s.mem a v }.log (.memWr a v))

/-- Whether the two words of a table entry are malformed (rules R128, R248). -/
def padIllegal (e0 e1 : Word) : Bool :=
  e0 &&& 3#32 != 0#32 || e1 &&& 0x03FFFFFF#32 == 0#32 || e1 &&& 3#32 != 0#32 || e1 &&& 0x7C000000#32 != 0#32
    || decide (2 ^ 32 < e0.toNat + (e1 &&& 0x03FFFFFF#32).toNat)

/-- A new entry of the scatter-gather table becomes the current segment (rule R248). An access that fails ends the
step: of a failing first word the second is not read (assumption log, entry 10). -/
def fetchPad (s : State) : Flow Unit :=
  let p := s.dma.padPtr.pick (Config.anyHidden s.draws 1).toNat
  if 2 ^ 32 < p + 8 then .refuse .padTableWraps
  else match dmaRead (BitVec.ofNat 32 p) s with
    | .go e0 s1 => match dmaRead (BitVec.ofNat 32 (p + 4)) s1 with
      | .go e1 s2 =>
        if padIllegal e0 e1 then .refuse .illegalPadEntry
        else .go () { s2 with
          dma := { s2.dma with cur := .known e0, segLeft := (e1 &&& 0x03FFFFFF#32).toNat
                               eotSeen := e1.getLsbD 31, padPtr := .known (p + 8)
                               dest := s2.dma.dest.map ((e0.toNat, (e1 &&& 0x03FFFFFF#32).toNat) :: ·) } }
      | .stop s2 => .stop s2
      | .refuse r => .refuse r
    | .stop s1 => .stop s1
    | .refuse r => .refuse r

/-- The address of the next word inside the current segment or buffer (rule R248). -/
def takeAddr (s : State) : Flow Word :=
  let a := s.dma.cur.pick (Config.anyHidden s.draws 0)
  .go a { s with dma := { s.dma with cur := .known (a + 4#32)
                                     segLeft := if s.dmactl.sgen then s.dma.segLeft - 4 else s.dma.segLeft } }

/-- `next_addr()` (rule R248). -/
def nextAddr (s : State) : Flow Word :=
  if s.dmactl.sgen && s.dma.segLeft == 0 then
    if s.dma.eotSeen then .stop (raise .wrongEot s)
    else match fetchPad s with
      | .go _ s1 => takeAddr s1
      | .stop s1 => .stop s1
      | .refuse r => .refuse r
  else takeAddr s

/-- The words of a received block go to system memory in ascending order (rule R236). -/
def storeBlock : List Byte → State → Flow Unit
  | b0 :: b1 :: b2 :: b3 :: rest, s =>
    match nextAddr s with
    | .go a s1 => match dmaWrite a (b3 ++ b2 ++ b1 ++ b0) s1 with
      | .go _ s2 => storeBlock rest s2
      | .stop s2 => .stop s2
      | .refuse r => .refuse r
    | .stop s1 => .stop s1
    | .refuse r => .refuse r
  | _, s => .go () s

/-- The words of a block to be sent come from system memory in ascending order (rule R241): `n` words, as bytes. -/
def loadBlock : Nat → State → Flow (List Byte)
  | 0, s => .go [] s
  | n + 1, s =>
    match nextAddr s with
    | .go a s1 => match dmaRead a s1 with
      | .go v s2 => match loadBlock n s2 with
        | .go d s3 =>
          .go (v.extractLsb' 0 8 :: v.extractLsb' 8 8 :: v.extractLsb' 16 8 :: v.extractLsb' 24 8 :: d) s3
        | .stop s3 => .stop s3
        | .refuse r => .refuse r
      | .stop s2 => .stop s2
      | .refuse r => .refuse r
    | .stop s1 => .stop s1
    | .refuse r => .refuse r

/-! ### The card oracle -/

/-- The card on the selected port has answered, and its script is shorter by that answer. -/
def State.setCard (s : State) (c : CardScript) : State :=
  match selPort s with
  | .p0 => { s with card0 := c }.tick
  | .p1 => { s with card1 := c }.tick

/-- `CardResp48` of the selected port (rule R12); none is `Nothing`. -/
def askResp48 (s : State) : Option (BitVec 48) :=
  match (s.card (selPort s)).resp48 with
  | a :: _ => a
  | [] => Config.resp48 s.draws

/-- The state after `CardResp48` was asked. -/
def tookResp48 (s : State) : State :=
  s.setCard { s.card (selPort s) with resp48 := (s.card (selPort s)).resp48.tail }

/-- `CardResp136` of the selected port (rule R12); none is `Nothing`. -/
def askResp136 (s : State) : Option (BitVec 136) :=
  match (s.card (selPort s)).resp136 with
  | a :: _ => a
  | [] => Config.resp136 s.draws

/-- The state after `CardResp136` was asked. -/
def tookResp136 (s : State) : State :=
  s.setCard { s.card (selPort s) with resp136 := (s.card (selPort s)).resp136.tail }

/-- A list as long as an answer's type asks (rule R12), missing entries being draws. -/
def fitTo {α : Type} (draw : Nat → α) : Nat → List α → List α
  | 0, _ => []
  | n + 1, [] => draw n :: fitTo draw n []
  | n + 1, x :: xs => x :: fitTo draw n xs

/-- `CardReadBlock` of the selected port, `blockLen` bytes and a CRC per active line (rule R12); none is `Nothing`. -/
def askBlock (s : State) : Option Block :=
  let a := match (s.card (selPort s)).blocks with
    | a :: _ => a
    | [] => Config.readBlock s.draws
  a.map fun b =>
    { bytes := fitTo (Config.anyByte s.draws) (blockLen s) b.bytes
      crcs := fitTo (fun k => (Config.anyHidden s.draws (k + 2)).setWidth 16) (if s.ctl.dbw then 4 else 1) b.crcs }

/-- The state after `CardReadBlock` was asked. -/
def tookBlock (s : State) : State :=
  s.setCard { s.card (selPort s) with blocks := (s.card (selPort s)).blocks.tail }

/-- `CardCrcStatus` of the selected port (rule R12); none is `Never`. -/
def askStatus (s : State) : Option (BitVec 3) :=
  match (s.card (selPort s)).status with
  | a :: _ => a
  | [] => Config.crcStatus s.draws

/-- The state after `CardCrcStatus` was asked. -/
def tookStatus (s : State) : State :=
  s.setCard { s.card (selPort s) with status := (s.card (selPort s)).status.tail }

/-- `CardReady` of the selected port (rule R12). -/
def askReady (s : State) : Bool :=
  match (s.card (selPort s)).ready with
  | a :: _ => a
  | [] => Config.ready s.draws

/-- The state after `CardReady` was asked. -/
def tookReady (s : State) : State :=
  s.setCard { s.card (selPort s) with ready := (s.card (selPort s)).ready.tail }

/-- The state after `CardDat0` was asked by a read of `INTSTS` (rule R52). -/
def tookDat0 (s : State) : State :=
  s.setCard { s.card (selPort s) with dat0 := (s.card (selPort s)).dat0.tail }

/-- The engine has no enabled step until a reset: nothing comes from the card and no timeout is set (rules R15, R196,
R254). -/
def State.getStuck (s : State) : State := { s with eng := { s.eng with stuck := true } }

end Sys2Proof.Machine
end

