-- ==== Sys2Proof/Machine/Regs.lean ====
section
/-!
DEFINITION. The register window: what a read of each register returns (rule R150), what a write does (rule R151),
launching (rules R129 to R132, R157, R180), and the host contract that refuses (rules R370 to R375). One operation
reads registers and one writes them, so that special behaviour has one home.
-/

namespace Sys2Proof.Machine

/-- The value of a register at this moment, its reserved bits 0: stored values, live inputs, and draws where a field
holds `any` (rules R26 to R43, R150). While the SD engine is halted every word of the shared buffer reads `any`, and
so does `BLKDIF` (rule R331). That this holds against a write or a clearing by the host, that it holds where `DMARST`
halted the engine without an event (rule R251), and that it ends with the engine's halt although the sequencer may
still be halted, is the model's choice (DESIGN CHOICE; assumption log, entry 40). -/
def regNow (off : Offset) (r : Reg) (s : State) : Word :=
  let d := Config.anyWord s.draws off
  match r with
  | .fb i => (s.fb[i].hideIf s.eng.halted).pick d
  | .dmactl => dmactlNow s
  | .dmasa => s.dmasa
  | .dmabcnt => fld 0 (bcntNow s)
  | .dmainten => bit 0 s.dmainten.abortien ||| bit 1 s.dmainten.weotien
  | .dmaintsts => bit 0 s.dmaintsts.abortif ||| bit 1 s.dmaintsts.weotif
  | .gctl => gctlNow s
  | .ginten => bit 0 s.dtaien
  | .gintsts => bit 0 s.dtaif
  | .ctl => ctlNow s
  | .cmdarg => s.cmdarg
  | .inten =>
    bit 0 s.inten.blkdien ||| bit 1 s.inten.crcien ||| bit 8 s.inten.cdien0 ||| bit 9 s.inten.cdien1
      ||| bit 12 s.inten.rtoien ||| bit 13 s.inten.ditoien ||| bit 30 s.inten.cdsrc0 ||| bit 31 s.inten.cdsrc1
  | .intsts =>
    bit 0 (blkdifNow s) ||| bit 1 s.intsts.crcif
      ||| bit 2 (s.intsts.crc7.pick (d.getLsbD 2)) ||| bit 3 (s.intsts.crc16.pick (d.getLsbD 3))
      ||| fld 4 (s.intsts.crcsts.pick (d.extractLsb' 4 3)) ||| bit 7 (dat0Now s)
      ||| bit 8 s.intsts.cdif0 ||| bit 9 s.intsts.cdif1 ||| bit 12 s.intsts.rtoif ||| bit 13 s.intsts.ditoif
      ||| bit 16 (cdsts s .p0) ||| bit 17 (cdsts s .p1)
  | .resp0 => s.resp0.pick d
  | .resp1 => fld 0 (s.resp1.pick (d.setWidth 8))
  | .blen => fld 0 s.blen
  | .tout => fld 0 s.tout
  | .ectl => bit 0 s.ectl.poweroff0 ||| bit 1 s.ectl.poweroff1
  | .reserved => 0#32

/-- The reserved bits of a register (access type RSV, rule R45). -/
def reservedMask : Reg → Word
  | .dmactl => 0xFFFFFDF4#32
  | .dmabcnt => 0xFC000000#32
  | .dmainten | .dmaintsts | .gctl | .ectl => 0xFFFFFFFC#32
  | .ginten | .gintsts => 0xFFFFFFFE#32
  | .ctl => 0x10000000#32
  | .inten => 0x3FFFCCFC#32
  | .intsts => 0xFFFCCC00#32
  | .resp1 => 0xFFFFFF00#32
  | .blen => 0xFFFFF800#32
  | .tout => 0xFF000000#32
  | .reserved => 0xFFFFFFFF#32
  | .fb _ | .dmasa | .cmdarg | .resp0 => 0x00000000#32

/-- What a read returns: reserved bits are draws (rules R44, R45, R150). -/
def regView (off : Offset) (r : Reg) (s : State) : Word :=
  regNow off r s ||| (Config.anyWord s.draws off &&& reservedMask r)

/-- The word that `SET` and `CLR` start from (rules R152, R153): the value read, with every write-1-to-clear field 0.
In the three registers of flags every other field is read-only or reserved, and so ignored by the write; likewise
the reserved bits everywhere: they are left 0. -/
def rmwBase (off : Offset) (r : Reg) (s : State) : Word :=
  match r with
  | .intsts | .dmaintsts | .gintsts => 0#32
  | r => regNow off r s

/-- The legality of a read (rules R82, R150, R372). -/
def readRefusal (off : Offset) (s : State) : Option Refusal :=
  match regAt off with
  | none => some .badOffset
  | some (.fb _) => if inFlight s then some .bufferInUse else none
  | some _ => none

/-- The state after a read of a register: the block is unchanged (rule R85); a read of `INTSTS` has asked for the
level of DAT0 (rule R52). -/
def afterRead (r : Reg) (s : State) : State :=
  match r with
  | .intsts => tookDat0 s
  | _ => s.tick

/-- Why a request for operations of `CTL` is refused, if it is (rules R132, R275, R371, R373 to R375). -/
def launchRefusal (w : Word) (s : State) : Option Refusal :=
  if inFlight s then some .launchInFlight
  else if 2 ≤ (portField w).toNat then some .reservedPort
  else if s.eng.halted then some .launchWhileHalted
  else if !(w.getLsbD 2 || w.getLsbD 3) then none
  else if w.extractLsb' 16 8 = 0#8 then some .zeroBlockCount
  else if s.dma.halted then some .launchWhileHalted
  else if s.dmasa &&& 3#32 ≠ 0#32 then some .misalignedAddress
  else if blockLen s % 4 ≠ 0 then some .blockNotWords
  else if !s.dmactl.sgen && decide (2 ^ 32 < s.dmasa.toNat + (w.extractLsb' 16 8).toNat * blockLen s) then
    some .rangeWraps
  else none

/-- The launch bits that a CTLW requests: 1 in the word and 0 in the register (rule R129). -/
def requested (w : Word) (s : State) : Word := w &&& ~~~ctlNow s &&& 0x7F#32

/-- Why a write of `CTL` is refused, if it is. The other launch bits of a word with `CTLRST` are not examined (rules
R129, R250); otherwise no launch bit may be cleared (rule R370), the bits requested with those already 1, which are then
the word's own, must be a legal set (rules R129, R131, R132), and a request must pass the host contract. No word
that launches no operation may change an operand field in flight, a word with `CTLRST` neither (rules R98, R151, R371;
assumption log, entry 14). -/
def ctlRefusal (w : Word) (s : State) : Option Refusal :=
  if w.getLsbD 14 then if inFlight s && s.ctl.operandsDiffer w then some .operandInFlight else none
  else if ctlNow s &&& ~~~w &&& 0x407F#32 ≠ 0#32 then some .launchBitCleared
  else if !legalLaunch w then some .illegalLaunchSet
  else if requested w s ≠ 0#32 then launchRefusal w s
  else if inFlight s && s.ctl.operandsDiffer w then some .operandInFlight
  else none

/-- A write of `CTL` that is not refused: the fields are stored, then the requested operations are launched (rules
R129, R157) and the phase follows (rule R180); a word with `CTLRST` launches the reset alone (rule R250). -/
def writeCtl (w : Word) (s : State) : State :=
  let c := s.ctl.withFields w
  if w.getLsbD 14 then ({ s with ctl := { c with ctlrst := true } }).setPhase .reset
  else if requested w s ≠ 0#32 then
    let t := { s with ctl := c.launch w }
    if s.eng.phase = .idle then t.setPhase (nextPhase (c.launch w)) else t
  else { s with ctl := c }

/-- Why a write of `DMACTL` is refused, if it is (rules R370, R371). `DMARST` may be written 1 in every state (rule
R251); in flight the word neither changes `SGEN` nor clears `DMAEN` (rules R98, R151, R153; assumption log, entry 14).
-/
def dmactlRefusal (w : Word) (s : State) : Option Refusal :=
  if s.dmactl.dmarst && !w.getLsbD 1 then some .launchBitCleared
  else if inFlight s && (s.dmactl.sgen != w.getLsbD 3 || (s.dmactl.dmaen && !w.getLsbD 0)) then
    some .operandInFlight
  else none

/-- A write of `DMACTL` that is not refused (rules R27, R251). -/
def writeDmactl (w : Word) (s : State) : State :=
  { s with dmactl := { s.dmactl with dmaen := w.getLsbD 0, sgen := w.getLsbD 3
                                     dmarst := s.dmactl.dmarst || w.getLsbD 1 } }

/-- Why a write of `GCTL` is refused, if it is (rules R370, R371). `GCTLRST` may be written 1 in every state (rule
R252); in flight the word does not clear `SDEN` (rules R98, R151; assumption log, entry 14). -/
def gctlRefusal (w : Word) (s : State) : Option Refusal :=
  if s.gctl.gctlrst && !w.getLsbD 0 then some .launchBitCleared
  else if inFlight s && s.gctl.sden && !w.getLsbD 1 then some .operandInFlight
  else none

/-- A write of `GCTL` that is not refused (rules R32, R180, R252); a 1 written to a `GCTLRST` that is 1 changes nothing
(rule R45). -/
def writeGctl (w : Word) (s : State) : State :=
  let t := { s with gctl := { gctlrst := s.gctl.gctlrst || w.getLsbD 0, sden := w.getLsbD 1 } }
  if w.getLsbD 0 && !s.gctl.gctlrst then t.setPhase .reset else t

/-- Why a write of a register is refused, if it is (rule R151 and the host contract). -/
def regWriteRefusal (r : Reg) (w : Word) (s : State) : Option Refusal :=
  match r with
  | .fb _ => if inFlight s then some .bufferInUse else none
  | .ctl => ctlRefusal w s
  | .dmactl => dmactlRefusal w s
  | .gctl => gctlRefusal w s
  | .dmasa => if inFlight s && s.dmasa != w then some .operandInFlight else none
  | .cmdarg => if inFlight s && s.cmdarg != w then some .operandInFlight else none
  | .blen => if inFlight s && s.blen != w.setWidth 11 then some .operandInFlight else none
  | .tout => if inFlight s && s.tout != w.setWidth 24 then some .operandInFlight else none
  | .reserved => some .reservedOffset
  | .dmabcnt | .dmainten | .dmaintsts | .ginten | .gintsts | .inten | .intsts | .resp0 | .resp1 | .ectl => none

/-- Why a write at an offset is refused, if it is (rules R82, R151). -/
def writeRefusal (off : Offset) (w : Word) (s : State) : Option Refusal :=
  match regAt off with
  | none => some .badOffset
  | some r => regWriteRefusal r w s

/-- The effect of a write that is not refused, on every field of the register at once (rule R151); read-only registers
ignore it. -/
def regWrite (r : Reg) (w : Word) (s : State) : State :=
  match r with
  | .fb i => { s with fb := s.fb.set i (.known w) }
  | .dmactl => writeDmactl w s
  | .dmasa => { s with dmasa := w }
  | .dmainten => { s with dmainten := { abortien := w.getLsbD 0, weotien := w.getLsbD 1 } }
  | .dmaintsts => clearFlags .dmaintsts w s
  | .gctl => writeGctl w s
  | .ginten => { s with dtaien := w.getLsbD 0 }
  | .gintsts => clearFlags .gintsts w s
  | .ctl => writeCtl w s
  | .cmdarg => { s with cmdarg := w }
  | .inten =>
    { s with inten :=
        { blkdien := w.getLsbD 0, crcien := w.getLsbD 1, cdien0 := w.getLsbD 8, cdien1 := w.getLsbD 9
          rtoien := w.getLsbD 12, ditoien := w.getLsbD 13, cdsrc0 := w.getLsbD 30, cdsrc1 := w.getLsbD 31 } }
  | .intsts => clearFlags .intsts w s
  | .blen => { s with blen := w.setWidth 11 }
  | .tout => { s with tout := w.setWidth 24 }
  | .ectl => { s with ectl := { poweroff0 := w.getLsbD 0, poweroff1 := w.getLsbD 1 } }
  | .dmabcnt | .resp0 | .resp1 | .reserved => s

/-- The register at an offset; a bad offset has been refused before (rule R82). -/
def regOf (off : Offset) : Reg := (regAt off).getD .reserved

end Sys2Proof.Machine
end

