-- ==== Sys2Proof/Machine/HostOps.lean ====
section
/-!
DEFINITION. The host's register operations RD, WR, SET, CLR and W1C (rules R150 to R153, R156): one definition per
operation over the shared read and write of the window.
-/

namespace Sys2Proof.Machine

/-- The three outcomes of a step of this machine. -/
abbrev Out := Host.Outcome State Fault Refusal

/-- `RD` (rule R150): the value goes to the host; the block is unchanged. -/
def execRd (off : Offset) (s : State) : Out :=
  match readRefusal off s with
  | some r => .refused r
  | none => .next { afterRead (regOf off) s with rdata := regView off (regOf off) s }

/-- `WR` (rule R151). -/
def execWr (off : Offset) (w : Word) (s : State) : Out :=
  match writeRefusal off w s with
  | some r => .refused r
  | none => .next (regWrite (regOf off) w s).tick

/-- An atomic read, modify, write (rules R83, R152, R153): `f` of the value read, with the write-1-to-clear fields 0,
is written in the same step. -/
def modify (off : Offset) (f : Word → Word) (s : State) : Out :=
  match readRefusal off s with
  | some r => .refused r
  | none =>
    let w := f (rmwBase off (regOf off) s)
    match writeRefusal off w s with
    | some r => .refused r
    | none => .next (afterRead (regOf off) (regWrite (regOf off) w s))

/-- `SET` (rule R152). -/
def execSet (off : Offset) (m : Word) (s : State) : Out := modify off (fun t => t ||| m) s

/-- `CLR` (rule R153). -/
def execClr (off : Offset) (m : Word) (s : State) : Out := modify off (fun t => t &&& ~~~m) s

/-- `W1C` (rule R156): a `WR` to one of the three registers of flags, never refused. -/
def execW1c (r : W1cReg) (m : Word) (s : State) : Out := .next (clearFlags r m s).tick

end Sys2Proof.Machine
end

