-- ==== Sys2Proof/Machine/Engine.lean ====
section
/-!
DEFINITION. The engine's operations without data: the clock bursts (rules R170, R171), the command output (rule R172)
and the two response inputs (rules R190 to R197). Where the conditions of a step do not hold the operation is held
or waits: nothing happens (rules R159, R176; assumption log, entry 27).
-/

namespace Sys2Proof.Machine

/-- The engine goes on to the next pending operation (rule R175). -/
def State.goOn (s : State) : State := s.setPhase (nextPhase s.ctl)

/-- `CLK74O` (rule R170): 74 clocks on the selected port. -/
def execClk74o (s : State) : Out :=
  .next (if engineEnabled s && s.ctl.clk74oen then
    { s.log (.clk (selPort s) 74) with ctl := { s.ctl with clk74oen := false } }.goOn
  else s)

/-- `CLK8O` (rule R171): 8 clocks on the selected port. -/
def execClk8o (s : State) : Out :=
  .next (if engineEnabled s && s.ctl.clk8oen then
    { s.log (.clk (selPort s) 8) with ctl := { s.ctl with clk8oen := false } }.goOn
  else s)

/-- The conditions of the step `CO` (rule R172). -/
def coEnabled (s : State) : Bool := engineEnabled s && s.ctl.coen && !s.ctl.clk74oen

/-- The step `CO` (rules R172, R173): the frame of `CMDCODE` and `CMDARG` goes to the selected port. -/
def coStep (s : State) : State :=
  { s.log (.cmdOut (selPort s) (commandFrame s.ctl.cmdcode s.cmdarg)) with ctl := { s.ctl with coen := false } }.goOn

/-- `CO` (rule R172). -/
def execCo (s : State) : Out := .next (if coEnabled s then coStep s else s)

/-- The conditions of the steps of `RI` (rule R190). -/
def riEnabled (s : State) : Bool := engineEnabled s && s.ctl.rien.isOn && !s.ctl.coen && !s.ctl.clk74oen

/-- The conditions of the steps of `R2I` (rule R193). -/
def r2iEnabled (s : State) : Bool := engineEnabled s && s.ctl.r2en.isOn && !s.ctl.coen && !s.ctl.clk74oen

/-- The verdict on a received response (rules R191, R194, R197): the bit `CRC7`, and on a mismatch event E2, which
halts if a data phase is pending. -/
def judgeResponse (ok : Bool) (s : State) : State :=
  if ok then recordCrc7 true s else raise .responseCrc (recordCrc7 false s)

/-- After a response: the next pending operation, unless a mismatch halted the engine (rules R190, R197). -/
def afterResponse (s : State) : State := if s.eng.halted then s else s.goOn

/-- `crc7(f[47:8]) = f[7:1]` (rule R191). -/
def respOk48 (f : BitVec 48) : Bool := crc7 (bitsMsb (f.extractLsb' 8 40)) == f.extractLsb' 1 7

/-- `crc7(f[127:8]) = f[7:1]` (rule R194). -/
def respOk136 (f : BitVec 136) : Bool := crc7 (bitsMsb (f.extractLsb' 8 120)) == f.extractLsb' 1 7

/-- The step `RI-frame(f)` (rule R190). -/
def riFrame (f : BitVec 48) (s : State) : State :=
  let t := { s.log (.respIn (selPort s) f) with
    resp0 := .known (f.extractLsb' 16 32)
    resp1 := .known (f.extractLsb' 8 8)
    ctl := { s.ctl with rien := .known false } }
  afterResponse (judgeResponse (respOk48 f) t)

/-- The byte of frame bits `135 − 8k : 128 − 8k` (rules R122, R193). -/
def longByte (f : BitVec 136) (k : Nat) : Byte := f.extractLsb' (128 - 8 * k) 8

/-- The word `FB[i]`, i < 4, of a long response (rules R84, R193). -/
def longWord (f : BitVec 136) (i : Nat) : Word :=
  longByte f (4 * i + 3) ++ longByte f (4 * i + 2) ++ longByte f (4 * i + 1) ++ longByte f (4 * i)

/-- The shared buffer after a long response: sixteen bytes in the first four words, `any` elsewhere (rule R193). -/
def longBuffer (f : BitVec 136) : Vector (Held Word) 128 :=
  (((fbAny.set 0 (.known (longWord f 0))).set 1 (.known (longWord f 1))).set 2 (.known (longWord f 2))).set 3
    (.known (longWord f 3))

/-- The step `R2I-frame(f)` (rule R193); on a mismatch with a data phase pending event E2 halts as it does for `RI`
(rules R330, R335; DEDUCED; assumption log, entry 12). Every word of `FB` is `any` then, the frame just stored among
them: rule R331 says so of `FB`, and says too that the values event E2 records are definite (DESIGN CHOICE; assumption
log, entry 12). -/
def r2iFrame (f : BitVec 136) (s : State) : State :=
  let t := { s.log (.resp2In (selPort s) f) with
    fb := longBuffer f
    resp0 := .any
    resp1 := .any
    ctl := { s.ctl with r2en := .known false } }
  afterResponse (judgeResponse (respOk136 f) t)

/-- No response (rules R195, R196): event E1 if a timeout is set, otherwise the engine is stuck. -/
def noResponse (s : State) : State :=
  if s.tout ≠ 0#24 then raise .responseTimeout (s.log (.respNone (selPort s))) else s.getStuck

/-- `RI` (rule R190). -/
def execRi (s : State) : Out :=
  .next (if riEnabled s then
    match askResp48 s with
    | some f => riFrame f (tookResp48 s)
    | none => noResponse (tookResp48 s)
  else s)

/-- `R2I` (rule R193). -/
def execR2i (s : State) : Out :=
  .next (if r2iEnabled s then
    match askResp136 s with
    | some f => r2iFrame f (tookResp136 s)
    | none => noResponse (tookResp136 s)
  else s)

end Sys2Proof.Machine
end

