-- ==== Sys2Proof/Machine/Data.lean ====
section
/-!
DEFINITION. The data operations DI and DO (rules R230 to R244): the start of the data phase, one step per block or
part of a block, and the completion. Each call of the meaning is the one step of the operation whose conditions
hold.
-/

namespace Sys2Proof.Machine

/-- Start of the data phase (`DSTART`, rule R233), enabled while the sequencer is not busy: also where `DMABUSY` is
`any` since a response timeout without a data phase (assumption log, entry 35). The segments that a halt would make
`any` are noted (rule R331). -/
def dstart (s : State) : State :=
  { s with
    eng := { s.eng with blocksLeft := s.ctl.blkcnt.toNat, dsub := .send }
    bcnt := .known (BitVec.ofNat 26 (byteCount s))
    dmactl := { s.dmactl with dmabusy := .known true }
    dma := if s.dmactl.sgen then
        { s.dma with padPtr := .known s.dmasa.toNat, segLeft := 0, eotSeen := false, dest := destRanges s }
      else { s.dma with cur := .known s.dmasa } }

/-- One block has been moved (rules R236, R237, R242): the counts go down; `after` is what follows if blocks remain. -/
def blockMoved (after : State → State) (s : State) : State :=
  let t := { s with
    eng := { s.eng with blocksLeft := s.eng.blocksLeft - 1 }
    bcnt := .known (bcntNow s - BitVec.ofNat 26 (blockLen s)) }
  if t.eng.blocksLeft = 0 then t.setPhase .dataEnd else after t

/-- The end of a data operation (rules R238, R244), after its launch bit is cleared. -/
def dataDone (s : State) : State :=
  ({ raise .blockDone s with
    dmactl := { s.dmactl with dmabusy := .known false }
    fb := fbAny }).goOn

/-- A received block (rule R236): the check, and on success the words to system memory. -/
def diFrame (b : Block) (s : State) : Out :=
  let ok := b.crcs == lineCrcs s.ctl.dbw b.bytes
  let t := recordCrc16 ok (s.log (.blockIn (selPort s) (blockIndex s) b.bytes))
  if ok then
    match storeBlock b.bytes t with
    | .go _ u => .next (blockMoved id u)
    | .stop u => .next u
    | .refuse r => .refused r
  else .next (raise .dataCrc t)

/-- One block of `DI` (rule R236): the block the card delivers, or event E3, or no end of waiting (rule R254). -/
def diBlock (s : State) : Out :=
  match askBlock s with
  | some b => diFrame b (tookBlock s)
  | none =>
    let t := tookBlock s
    .next (if s.tout ≠ 0#24 then raise .dataTimeout (t.log (.blockNone (selPort s) (blockIndex s)))
      else t.getStuck)

/-- Completion of `DI` (rule R238). -/
def diDone (s : State) : State := dataDone { s with ctl := { s.ctl with dien := .known false } }

/-- `DI` (rule R234). -/
def execDi (s : State) : Out :=
  if !dataEnabled s then .next s
  else if s.eng.phase = .dataEnd then .next (if s.ctl.dien.isOn then diDone s else s)
  else if s.eng.phase ≠ .dataIn then .next s
  else if !s.dmactl.dmabusy.isOn then .next (dstart s)
  else if s.eng.blocksLeft = 0 then .next s
  else diBlock s

/-- Sending one block (rule R241). -/
def doBlock (s : State) : Out :=
  match loadBlock (blockLen s / 4) s with
  | .go d t =>
    .next { t.log (.blockOut (selPort s) (blockIndex s) d (lineCrcs s.ctl.dbw d)) with
      eng := { t.eng with dsub := .waitStatus } }
  | .stop t => .next t
  | .refuse r => .refused r

/-- The CRC status token (rule R242): `010` is the only good one; with no token the engine is stuck (rule R254). -/
def doStatus (s : State) : State :=
  let t := tookStatus s
  match askStatus s with
  | none => t.getStuck
  | some v =>
    let u := recordCrcStatus v (t.log (.crcStatus (selPort s) (blockIndex s) v))
    if v ≠ 0b010#3 then raise .crcStatus u
    else blockMoved (fun x => { x with eng := { x.eng with dsub := .waitReady } }) u

/-- Waiting for the card between blocks (rule R243). -/
def doReady (s : State) : State :=
  let t := tookReady s
  if askReady s then { t with eng := { t.eng with dsub := .send } } else t

/-- Completion of `DO` (rule R244); the buffer is the caller's again (rule R95). -/
def doDone (s : State) : State :=
  dataDone { s with ctl := { s.ctl with doen := .known false }, eng := { s.eng with dsub := .send }, lent := [] }

/-- The step of `DO` inside a block (rules R241 to R243). -/
def doInBlock (s : State) : Out :=
  match s.eng.dsub with
  | .send => if s.eng.blocksLeft = 0 then .next s else doBlock s
  | .waitStatus => .next (doStatus s)
  | .waitReady => .next (doReady s)

/-- `DO` (rule R240). -/
def execDout (s : State) : Out :=
  if !dataEnabled s then .next s
  else if s.eng.phase = .dataEnd then .next (if s.ctl.doen.isOn then doDone s else s)
  else if s.eng.phase ≠ .dataOut then .next s
  else if !s.dmactl.dmabusy.isOn then .next (dstart s)
  else doInBlock s

end Sys2Proof.Machine
end

