-- ==== Sys2Proof/Machine/Resets.lean ====
section
/-!
DEFINITION. The three reset operations (rules R250 to R252), each enabled whenever its launch bit is 1.
-/

namespace Sys2Proof.Machine

/-- What `CTLRST` does to the sequencer's status (rule R250): a live data operation is cut, and leaves the sequencer
halted and its status `any`; any other status it keeps (rules R59, R361). -/
def cutSequencer (s : State) : State :=
  { s with
    dma := { s.dma with halted := s.dma.halted || s.dmactl.dmabusy.isOn }
    dmactl := { s.dmactl with
      dmabusy := if !s.dma.halted && s.dmactl.dmabusy.isOn then .any else s.dmactl.dmabusy }
    bcnt := if !s.dma.halted && s.dmactl.dmabusy.isOn then .any else s.bcnt }

/-- `CTLRST` (rules R250, R361). A live data operation that it cuts leaves the DMA sequencer halted. The phase is
`IDLE` afterwards, also while `GCTLRST` is pending, where rule R66 would have `RESET` (DEDUCED; assumption log, entry
32). `FB` is kept as it was before the launch, although the engine stages blocks in it (rule R26), whose traces the spec
does not describe (DESIGN CHOICE; assumption log, entry 43). -/
def execCtlrst (s : State) : Out :=
  .next (if s.ctl.ctlrst then
    let t := (cutSequencer (resetEngine s)).log (.reset .ctl)
    { t with ctl := { t.ctl with ctlrst := false } }.setPhase .idle
  else s)

/-- Whether a live data operation runs (rule R251). -/
def dataPhase (s : State) : Bool :=
  decide (s.eng.phase = .dataIn) || decide (s.eng.phase = .dataOut) || decide (s.eng.phase = .dataEnd)

/-- `DMARST` (rule R251). A live data operation that it cuts leaves the SD engine halted, and a `DI` its destination
`any`. -/
def execDmarst (s : State) : Out :=
  .next (if s.dmactl.dmarst then
    let wasData := dataPhase s && !s.eng.halted
    let t := (resetDma s).log (.reset .dma)
    let u := if wasData then
        { stopEngine t with
          intsts := { t.intsts with blkdif := .any }
          mem := if s.ctl.dien.isOn then blurDest s else s.mem }
      else t
    { u with dmactl := { u.dmactl with dmarst := false } }
  else s)

/-- `GCTLRST` (rule R252): the effect of `CTLRST` and `DMARST` together, neither engine halted; a `DI` that it cuts
leaves its destination `any` (assumption log, entry 23). -/
def execGctlrst (s : State) : Out :=
  .next (if s.gctl.gctlrst then
    let cut := s.dmactl.dmabusy.isOn && !s.dma.halted && s.ctl.dien.isOn
    let t := (resetDma (resetEngine s)).log (.reset .global)
    { t with
      mem := if cut then blurDest s else s.mem
      ctl := { t.ctl with ctlrst := false }
      dmactl := { t.dmactl with dmarst := false }
      gctl := { t.gctl with gctlrst := false } }.setPhase .idle
  else s)

end Sys2Proof.Machine
end

