-- ==== Sys2Proof/Machine/Commands.lean ====
section
/-!
DEFINITION. The fifteen commands of rule R134 (rules R291 to R305). A command is a frame on the CMD line that the host
causes and `CO` builds: the host writes the argument and then the control word (rules R286, R290), and the engine sends
the frame (rule R172). What the launch word asks for besides `CO` (a response, a data phase) is done by the engine's later
steps (assumption log, entries 15 and 16).
-/

namespace Sys2Proof.Machine

/-- The launch bits of a command without a response (rule R290). -/
def launchNone : Word := 0x01#32

/-- The launch bits of a command with a 48-bit response (rule R290). -/
def launchShort : Word := 0x03#32

/-- The launch bits of a command with a 136-bit response (rule R290). -/
def launchLong : Word := 0x11#32

/-- The launch bits of a command that reads blocks (rules R290, R306). -/
def launchRead : Word := 0x07#32

/-- The launch bits of a command that writes blocks (rules R290, R308). -/
def launchWrite : Word := 0x0B#32

/-- The control word of a command, on the base of the present `CTL` (rule R290): the base keeps every configuration
field and drops the old command code and every launch bit. -/
def commandWord (base : Word) (idx : BitVec 6) (launch : Word) : Word :=
  (base &&& 0xFFFF8080#32) ||| fld 8 idx ||| launch

/-- The control word of a command that moves one block (rules R290, R300, R302): `BLKCNT` is 1. -/
def oneBlockWord (base : Word) (idx : BitVec 6) (launch : Word) : Word :=
  (base &&& 0xFF008080#32) ||| 0x00010000#32 ||| fld 8 idx ||| launch

/-- The host submits a command (rules R286, R290): the argument is written, then the control word that `word` makes of
the present `CTL`; either write may be refused by the host contract. -/
def submitted (word : Word → Word) (arg : Word) (s : State) : Except Refusal State :=
  match regWriteRefusal .cmdarg arg s with
  | some r => .error r
  | none =>
    let t := (regWrite .cmdarg arg s).tick
    match regWriteRefusal .ctl (word (ctlNow t)) t with
    | some r => .error r
    | none => .ok (regWrite .ctl (word (ctlNow t)) t).tick

/-- A command: submitted by the host, and its frame sent by `CO` (rule R172), which is held if the conditions of its
step do not hold (rule R176). -/
def command (word : Word → Word) (arg : Word) (s : State) : Out :=
  match submitted word arg s with
  | .error r => .refused r
  | .ok t => .next (if coEnabled t then coStep t else t)

/-- GO_IDLE_STATE (rule R291). -/
def execCmd0 (arg : Word) (s : State) : Out := command (commandWord · 0#6 launchNone) arg s

/-- SEND_OP_COND (rule R292), response R3. -/
def execCmd1 (arg : Word) (s : State) : Out := command (commandWord · 1#6 launchShort) arg s

/-- ALL_SEND_CID (rule R293), response R2. -/
def execCmd2 (arg : Word) (s : State) : Out := command (commandWord · 2#6 launchLong) arg s

/-- SET_RELATIVE_ADDR (rule R294), response R6 or R1. -/
def execCmd3 (arg : Word) (s : State) : Out := command (commandWord · 3#6 launchShort) arg s

/-- SELECT_CARD (rule R295), response R1 with busy. -/
def execCmd7 (arg : Word) (s : State) : Out := command (commandWord · 7#6 launchShort) arg s

/-- SEND_IF_COND (rule R296), response R7. -/
def execCmd8 (arg : Word) (s : State) : Out := command (commandWord · 8#6 launchShort) arg s

/-- SEND_CSD (rule R297), response R2. -/
def execCmd9 (arg : Word) (s : State) : Out := command (commandWord · 9#6 launchLong) arg s

/-- STOP_TRANSMISSION (rule R298), response R1 with busy. -/
def execCmd12 (arg : Word) (s : State) : Out := command (commandWord · 12#6 launchShort) arg s

/-- SEND_STATUS (rule R299), response R1. -/
def execCmd13 (arg : Word) (s : State) : Out := command (commandWord · 13#6 launchShort) arg s

/-- READ_SINGLE_BLOCK (rule R300), response R1, one block card to host. -/
def execCmd17 (arg : Word) (s : State) : Out := command (oneBlockWord · 17#6 launchRead) arg s

/-- READ_MULTIPLE_BLOCK (rule R301), response R1; the block count is the one `CTL` holds. -/
def execCmd18 (arg : Word) (s : State) : Out := command (commandWord · 18#6 launchRead) arg s

/-- WRITE_BLOCK (rule R302), response R1, one block host to card. -/
def execCmd24 (arg : Word) (s : State) : Out := command (oneBlockWord · 24#6 launchWrite) arg s

/-- WRITE_MULTIPLE_BLOCK (rule R303), response R1; the block count is the one `CTL` holds. -/
def execCmd25 (arg : Word) (s : State) : Out := command (commandWord · 25#6 launchWrite) arg s

/-- SD_SEND_OP_COND (rule R304), response R3. The prefix APP_CMD is a command of its own (rule R135). -/
def execAcmd41 (arg : Word) (s : State) : Out := command (commandWord · 41#6 launchShort) arg s

/-- APP_CMD (rule R305), response R1. -/
def execCmd55 (arg : Word) (s : State) : Out := command (commandWord · 55#6 launchShort) arg s

end Sys2Proof.Machine
end

