-- ==== Sys2Proof/Machine/Env.lean ====
section
/-!
DEFINITION. The agents besides HOST and ENGINE: the change detectors CD (rule R272) and the outside world, which moves
the card-detect inputs (rule R60), stores to system memory (rule R80), changes the platform's answers (rule R81) and
resets the block (rules R63, R64, R360).
-/

namespace Sys2Proof.Machine

/-- The remembered card-detect level of a port becomes the present one (rules R23, R272). -/
def rememberCd (p : Port) (s : State) : State :=
  match p with
  | .p0 => { s with cdPrev0 := cdsts s .p0 }
  | .p1 => { s with cdPrev1 := cdsts s .p1 }

/-- The step CD(p) (rule R272), enabled whenever the level differs from the remembered one; otherwise nothing happens.
-/
def cdStep (p : Port) (s : State) : State :=
  if cdsts s p ≠ cdPrev s p then rememberCd p (raise (.cardDetect p) s) else s

/-- The hardware reset of the instance (rules R63, R64): every register and the hidden state as `State.reset` has them,
the remembered card-detect levels equal to the inputs. What is not state of the block stays: memory, the card, the
host's program, the schedule and the inputs (assumption log, entry 28). -/
def hardwareReset (s : State) : State :=
  let t := { State.reset with
    pins := s.pins, mem := s.mem, busErr := s.busErr, overlap := s.overlap, card0 := s.card0, card1 := s.card1
    prog := s.prog, rdata := s.rdata, turns := s.turns, inputs := s.inputs, draws := s.draws }
  rememberCd .p1 (rememberCd .p0 t)

/-- Another master has stored to byte `a`, which held `old` (rule R95): while a `DO` is in flight the engine may find
the old value there or the new one (assumption log, entry 36). -/
def lend (a : Nat) (s : State) (old : Option Byte) : State :=
  if s.ctl.doen.isOn then { s with lent := (a, old) :: s.lent } else s

/-- The word at address `w` starts to lie in the buffers of both instances, and its bytes are `any` from then on, or it
ceases to, and they stay so until the next store (rule R344; assumption log, entry 41). -/
def setOverlap (w : Word) (on : Bool) (s : State) : State :=
  if on then { s with overlap := w :: s.overlap, mem := memErase s.mem w.toNat (w.toNat + 4) }
  else { s with overlap := s.overlap.filter (fun x => x != w) }

/-- One event of the outside world. A byte that another master stores is known at once, also where it lies in the
destination of a `DI` that is halted and not yet reset (DESIGN CHOICE; assumption log, entry 42). -/
def applyInput (i : Input) (s : State) : State :=
  match i with
  | .cdDed .p0 b => { s with pins := { s.pins with ded0 := b } }
  | .cdDed .p1 b => { s with pins := { s.pins with ded1 := b } }
  | .cdGpio .p0 b => { s with pins := { s.pins with gpio0 := b } }
  | .cdGpio .p1 b => { s with pins := { s.pins with gpio1 := b } }
  | .memStore a b => lend a.toNat { s with mem := storeByte s.overlap s.mem a.toNat b } (memGet s.mem a.toNat)
  | .busError a fails =>
    { s with busErr := if fails then a :: s.busErr else s.busErr.filter (fun x => x != a) }
  | .overlap a on => setOverlap (a &&& 0xFFFFFFFC#32) on s
  | .hardwareReset => hardwareReset s

/-- The turn of the outside world: its next event, if there is one. -/
def envStep (s : State) : State :=
  match s.inputs with
  | [] => s
  | i :: rest => applyInput i { s with inputs := rest }

end Sys2Proof.Machine
end

