-- ==== Sys2Proof/Machine/Fetch.lean ====
section
/-!
DEFINITION. What the next step performs: whose turn it is (rule R10) and, for the host and the three kinds of launched
step, which operation that agent performs (rules R8, R24, R175). The block fetches nothing from memory (rule R24): the
host's operation is the head of its program, an engine's is decoded from the register that holds its launch bit. Then the
placing of an operation where the next step finds it.
-/

namespace Sys2Proof.Machine

/-- Whose turn is next: the schedule's, or a free choice where there is no schedule (rule R10; assumption log,
entry 4). -/
def nextTurn (s : State) : Turn :=
  match s.turns with
  | t :: _ => t
  | [] => Config.turn s.draws

/-- The state after the turn is taken. -/
def takeTurn (s : State) : State := { s with turns := s.turns.tail, draws := s.draws + 1 }

/-- What an agent does with its turn. -/
inductive Fetched where
  /-- the agent performs an operation; the state is the one it performs it in -/
  | run (i : Instr) (s : State)
  /-- the agent has nothing to do (rule R24) -/
  | nothing
  /-- the host's program asks for something that is no host operation -/
  | refuse (r : Refusal)

/-- Why a code that the host's program holds is no operation of the host (rules R82, R111). -/
def codeRefusal : DecodeError → Refusal
  | .narrowAccess => .narrowAccess
  | .badOffset => .badOffset
  | .noOperation | .illegalLaunchSet | .reservedPort | .notACommandFrame | .unknownCommand | .badLength =>
    .notAHostOperation

/-- The host's next operation: the head of its program, a bus transaction or a command frame. A bare launch word is no
host operation: the host writes it to a register. -/
def fetchHost (s : State) : Fetched :=
  match s.prog with
  | [] => .nothing
  | .word _ _ :: _ => .refuse .notAHostOperation
  | c :: rest =>
    match decode c with
    | .ok i => .run i { s with prog := rest }
    | .error e => .refuse (codeRefusal e)

/-- The operation that a launch register holds, if any (rules R129, R175). -/
def fetchLaunch (r : LaunchReg) (w : Word) (s : State) : Fetched :=
  match decode (.word r w) with
  | .ok i => .run i s
  | .error _ => .nothing

/-- The operation that an agent performs in its turn. The detectors and the outside world perform none of the table. -/
def fetch (t : Turn) (s : State) : Fetched :=
  match t with
  | .host => fetchHost s
  | .engine => fetchLaunch .ctl (ctlNow s) s
  | .dmaReset => fetchLaunch .dmactl (dmactlNow s) s
  | .globalReset => fetchLaunch .gctl (gctlNow s) s
  | .cd _ | .env => .nothing

/-- The launch bits of a word, all of them known. -/
def Ctl.withLaunch (c : Ctl) (w : Word) : Ctl :=
  { c with
    coen := w.getLsbD 0, rien := .known (w.getLsbD 1), dien := .known (w.getLsbD 2), doen := .known (w.getLsbD 3)
    r2en := .known (w.getLsbD 4), clk74oen := w.getLsbD 5, clk8oen := w.getLsbD 6, ctlrst := w.getLsbD 14 }

/-- A CTLW standing in `CTL`, as after the host's write of it (rules R129, R157, R180), with the engines enabled and not
halted, and the engine's turn next. -/
def placeWord (w : Word) (s : State) : State :=
  let c := (s.ctl.withFields w).withLaunch w
  { s with
    ctl := c
    gctl := { gctlrst := false, sden := true }
    dmactl := { s.dmactl with dmaen := true, dmarst := false, dmabusy := .known false }
    eng := { s.eng with phase := if w.getLsbD 14 then .reset else nextPhase c, halted := false, stuck := false }
    dma := { s.dma with halted := false }
    turns := .engine :: s.turns }

/-- A command frame as the host's next operation, with the engine enabled and the host's turn next. -/
def placeFrame (f : BitVec 48) (s : State) : State :=
  { s with
    prog := .frame f :: s.prog
    gctl := { s.gctl with sden := true }
    turns := .host :: s.turns }

end Sys2Proof.Machine
end

