-- ==== Sys2Proof/Machine/Dispatch.lean ====
section
/-!
DEFINITION. The meaning of each operation: one arm per constructor, each one direct call.
-/

namespace Sys2Proof.Machine

def exec (i : Instr) (s : State) : Host.Outcome State Fault Refusal :=
  match i with
  | .rd off => Sys2Proof.Machine.execRd off s
  | .wr off data => Sys2Proof.Machine.execWr off data s
  | .set off mask => Sys2Proof.Machine.execSet off mask s
  | .clr off mask => Sys2Proof.Machine.execClr off mask s
  | .co => Sys2Proof.Machine.execCo s
  | .ri => Sys2Proof.Machine.execRi s
  | .di => Sys2Proof.Machine.execDi s
  | .dout => Sys2Proof.Machine.execDout s
  | .r2i => Sys2Proof.Machine.execR2i s
  | .clk74o => Sys2Proof.Machine.execClk74o s
  | .clk8o => Sys2Proof.Machine.execClk8o s
  | .ctlrst => Sys2Proof.Machine.execCtlrst s
  | .dmarst => Sys2Proof.Machine.execDmarst s
  | .gctlrst => Sys2Proof.Machine.execGctlrst s
  | .w1c reg mask => Sys2Proof.Machine.execW1c reg mask s
  | .cmd0 arg => Sys2Proof.Machine.execCmd0 arg s
  | .cmd1 arg => Sys2Proof.Machine.execCmd1 arg s
  | .cmd2 arg => Sys2Proof.Machine.execCmd2 arg s
  | .cmd3 arg => Sys2Proof.Machine.execCmd3 arg s
  | .cmd7 arg => Sys2Proof.Machine.execCmd7 arg s
  | .cmd8 arg => Sys2Proof.Machine.execCmd8 arg s
  | .cmd9 arg => Sys2Proof.Machine.execCmd9 arg s
  | .cmd12 arg => Sys2Proof.Machine.execCmd12 arg s
  | .cmd13 arg => Sys2Proof.Machine.execCmd13 arg s
  | .cmd17 arg => Sys2Proof.Machine.execCmd17 arg s
  | .cmd18 arg => Sys2Proof.Machine.execCmd18 arg s
  | .cmd24 arg => Sys2Proof.Machine.execCmd24 arg s
  | .cmd25 arg => Sys2Proof.Machine.execCmd25 arg s
  | .acmd41 arg => Sys2Proof.Machine.execAcmd41 arg s
  | .cmd55 arg => Sys2Proof.Machine.execCmd55 arg s

end Sys2Proof.Machine
end

