-- ==== Sys2Proof/Machine/Step.lean ====
section
/-!
DEFINITION. One step of the machine: the agent whose turn it is moves (rules R8, R9, R10). There is no program counter
(rule R24); a turn of an agent that has nothing to do changes nothing but the schedule.
-/

namespace Sys2Proof.Machine

/-- One step. -/
def step (s : State) : Host.Outcome State Fault Refusal :=
  match nextTurn s with
  | .cd p => .next (cdStep p (takeTurn s))
  | .env => .next (envStep (takeTurn s))
  | t =>
    match fetch t (takeTurn s) with
    | .run i u => exec i u
    | .nothing => .next (takeTurn s)
    | .refuse r => .refused r

/-- An operation of the opcode table placed where the next step performs it (assumption log, entry 5): a launch word
stands in `CTL`, a command frame is the host's next operation. -/
def State.withFetchWord (s : State) (nbits w : Nat) : State :=
  if 32 < nbits then placeFrame (BitVec.ofNat 48 w) s else placeWord (BitVec.ofNat 32 w) s

end Sys2Proof.Machine
end

