-- ==== Sys2Proof/Machine/Driver.lean ====
section
/-!
DEFINITION. The host's programs of the spec's host sequences (rules R137, R253, R285 to R317): programs over the host
operations, outside the state of the block, with the runner that performs them in any interleaving with the other
agents (rule R10). They are no behaviour of the block (rule R5; assumption log, entry 26).
-/

namespace Sys2Proof.Machine

/-- A host program: it ends with a result, or performs one host operation and goes on with the data that the slave port
returns (rules R8, R92, R136), or sleeps until the interrupt request is 1 (rules R316, R341). -/
inductive HostProg (α : Type) where
  | done (a : α)
  | op (i : Instr) (next : Word → HostProg α)
  | sleep (next : HostProg α)

/-- One program after another. -/
def HostProg.andThen {α β : Type} (p : HostProg α) (f : α → HostProg β) : HostProg β :=
  match p with
  | .done a => f a
  | .op i k => .op i fun d => (k d).andThen f
  | .sleep k => .sleep (k.andThen f)

/-- The other agents take these turns, in this order, each by a step of the machine. -/
def runTurns : List Turn → State → Out
  | [], s => .next s
  | t :: ts, s =>
    match step { s with turns := t :: s.turns } with
    | .next u => runTurns ts u
    | .fault f => .fault f
    | .refused r => .refused r

/-- How a run of a host program ends: with its result, with the host asleep because the interrupt request is 0 after the
turns that were listed, or refused. -/
inductive HostRun (α : Type) where
  | result (a : α) (s : State)
  | asleep (s : State)
  | refused (r : Refusal)

/-- A host program performed, the other agents taking the listed turns before each of its operations, and while it
sleeps (rules R10, R316): it wakes when the interrupt request is 1. -/
def HostProg.run {α : Type} : HostProg α → List (List Turn) → State → HostRun α
  | .done a, _, s => .result a s
  | .op i k, sched, s =>
    match runTurns (sched.headD []) s with
    | .refused r => .refused r
    | .next u =>
      match exec i u with
      | .next v => (k v.rdata).run sched.tail v
      | .refused r => .refused r
  | .sleep k, sched, s =>
    match runTurns (sched.headD []) s with
    | .refused r => .refused r
    | .next u => if irq u then k.run sched.tail u else .asleep u

/-! ### Operations and pseudo-operations (rules R136, R137) -/

/-- `RD`. -/
def hRd {α : Type} (off : Offset) (k : Word → HostProg α) : HostProg α := .op (.rd off) k

/-- `WR`. -/
def hWr {α : Type} (off : Offset) (w : Word) (k : HostProg α) : HostProg α := .op (.wr off w) fun _ => k

/-- `SET`. -/
def hSet {α : Type} (off : Offset) (m : Word) (k : HostProg α) : HostProg α := .op (.set off m) fun _ => k

/-- `CLR`. -/
def hClr {α : Type} (off : Offset) (m : Word) (k : HostProg α) : HostProg α := .op (.clr off m) fun _ => k

/-- `W1C`. -/
def hW1c {α : Type} (r : W1cReg) (m : Word) (k : HostProg α) : HostProg α := .op (.w1c r m) fun _ => k

/-- `UPD` (rule R137): not atomic. -/
def hUpd {α : Type} (off : Offset) (mask value : Word) (k : HostProg α) : HostProg α :=
  hRd off fun t => hWr off ((t &&& ~~~mask) ||| value) k

/-- How a poll ends (rule R137). -/
inductive PollEnd where
  | success
  | timeout
  | error (e : Word)
deriving DecidableEq, Repr

/-- `POLL` (rules R137, R159). -/
def hPoll {α : Type} (off : Offset) (mask want : Word) (k : PollEnd → HostProg α) : Nat → HostProg α
  | 0 => k .timeout
  | n + 1 => hRd off fun t => if t &&& mask = want then k .success else hPoll off mask want k n

/-- `POLL2` (rules R137, R160): the error register is read in every iteration. -/
def hPoll2 {α : Type} (off : Offset) (mask want : Word) (eoff : Offset) (emask : Word) (k : PollEnd → HostProg α) :
    Nat → HostProg α
  | 0 => k .timeout
  | n + 1 => hRd off fun t => hRd eoff fun e =>
    if e &&& emask ≠ 0#32 then k (.error e)
    else if t &&& mask = want then k .success
    else hPoll2 off mask want eoff emask k n

/-! ### Codes and descriptors (rules R288, R289) -/

/-- The driver's `ErrorCode` (rule R288); its numbers are left open. -/
inductive ErrorCode where
  | ok | fail | timeout | noCard | deviceError | initTimeout | selectError | writeProtect | initError | crc7Error
  | crc16Error | crcError | cmd8Error | outOfMemory
deriving DecidableEq, Repr

/-- The response types (rule R289). -/
inductive ResponseType where
  | none | r1 | r2 | r3 | r6 | r7
deriving DecidableEq, Repr

/-- `launch(type)` (rule R290). -/
def ResponseType.launch : ResponseType → Word
  | .none => launchNone
  | .r2 => launchLong
  | .r1 | .r3 | .r6 | .r7 => launchShort

/-- Whether the CRC-7 verdict is looked at (rules R200, R289). -/
def ResponseType.hasCrc : ResponseType → Bool
  | .r1 | .r2 | .r6 | .r7 => true
  | .none | .r3 => false

/-- The register of flags. -/
def dmaintstsOff : Offset := 0x414#12

/-- What `SubmitCommand` returns: the words of the response (two for a short one, the four of rule R198 for a long
one), the code, and whether the wait ended by the software bound, which SEND_IF_COND tells apart (rule R296). -/
structure Answer where
  words : List Word
  code : ErrorCode
  byBound : Bool
deriving DecidableEq, Repr

/-! ### SubmitCommand (rules R286, R287) -/

/-- The failure path of `SubmitCommand` (rule R286). What follows where the poll of the reset runs out the spec does not
say; the model goes on (DESIGN CHOICE; assumption log, entry 39). -/
def submitFail {α : Type} (bound : Nat) (byBound : Bool) (k : Answer → HostProg α) : HostProg α :=
  hSet ctlOff 0x00004000#32 (hPoll ctlOff 0x00004000#32 0#32
    (fun _ => hW1c .intsts 0x00001002#32 (k { words := [], code := .timeout, byBound := byBound })) bound)

/-- The wait of `SubmitCommand`, step 6 (rule R286): completion, the response-timeout flag seen, or the bound. -/
def submitWait {α : Type} (launch : Word) (k : PollEnd → HostProg α) : Nat → HostProg α
  | 0 => k .timeout
  | n + 1 => hRd intstsOff fun s => hRd ctlOff fun c =>
    if s.getLsbD 12 then k (.error s)
    else if c &&& launch = 0#32 then k .success
    else submitWait launch k n

/-- The four words of the long response that a driver wants (rule R198): bits 127:96, 95:64, 63:32 and 31:0 of the
card's register, the lowest byte unspecified. -/
def longRegister (fb : List Word) : List Word :=
  let byte (k : Nat) : Byte := ((fb.getD (k / 4) 0#32) >>> (8 * (k % 4))).setWidth 8
  let word (k : Nat) : Word := byte k ++ byte (k + 1) ++ byte (k + 2) ++ byte (k + 3)
  [word 1, word 5, word 9, word 13]

/-- Step 8 of `SubmitCommand` (rules R198, R286): the response words. -/
def submitRead {α : Type} (ty : ResponseType) (k : Answer → HostProg α) : HostProg α :=
  match ty with
  | .none => k { words := [], code := .ok, byBound := false }
  | .r2 => hRd 0x000#12 fun a => hRd 0x004#12 fun b => hRd 0x008#12 fun c => hRd 0x00C#12 fun d =>
    hRd 0x010#12 fun e => k { words := longRegister [a, b, c, d, e], code := .ok, byBound := false }
  | .r1 | .r3 | .r6 | .r7 => hRd 0x830#12 fun r0 => hRd 0x834#12 fun r1 =>
    k { words := [r0, r1 &&& 0xFF#32], code := .ok, byBound := false }

/-- `SubmitCommand` (rule R286). -/
def submitCommand {α : Type} (bound : Nat) (idx : BitVec 6) (arg : Word) (ty : ResponseType)
    (k : Answer → HostProg α) : HostProg α :=
  hW1c .intsts 0x00003003#32 <| hWr cmdargOff arg <| hRd ctlOff fun t =>
  hWr ctlOff (commandWord t idx ty.launch) <|
  submitWait ty.launch (fun ended =>
    match ended with
    | .timeout => submitFail bound true k
    | .error _ => submitFail bound false k
    | .success => hRd intstsOff fun s =>
      if s.getLsbD 12 then submitFail bound false k
      else if ty.hasCrc && !s.getLsbD 2 then
        hW1c .intsts 0x00000002#32 (k { words := [], code := .crc7Error, byBound := false })
      else if ty = .r3 then hW1c .intsts 0x00000002#32 (submitRead ty k)
      else submitRead ty k) bound

/-- The card status of an R1 response (rules R118, R192). -/
def statusOf (r0 r1 : Word) : Word := (r0 <<< 8) ||| (r1 &&& 0xFF#32)

/-- The relative card address word of an R6 response, as a later argument has it (rules R120, R294). -/
def rcaOf (r0 : Word) : Word := (r0 <<< 8) &&& 0xFFFF0000#32

/-! ### Waits and recovery (rules R253, R307, R311) -/

/-- The recovery after an error event (rule R253). Where the poll of a reset runs out the model goes on, which the spec
does not say (DESIGN CHOICE; assumption log, entry 39). -/
def recover {α : Type} (bound : Nat) (k : HostProg α) : HostProg α :=
  hSet dmactlOff 0x00000002#32 <| hPoll dmactlOff 0x00000002#32 0#32 (fun _ =>
    hSet ctlOff 0x00004000#32 <| hPoll ctlOff 0x00004000#32 0#32 (fun _ =>
      hW1c .intsts 0x00003003#32 <| hW1c .dmaintsts 0x00000003#32 <| hW1c .gintsts 0x00000001#32 <|
      hSet dmactlOff 0x00000001#32 k) bound) bound

/-- The error that the registers read in the wait of a data operation show (rule R307), in its order. -/
def dataError (reading : Bool) (s m : Word) : Option ErrorCode :=
  if s.getLsbD 12 then some .timeout
  else if s.getLsbD 13 then some .timeout
  else if s.getLsbD 1 && !s.getLsbD 2 then some .crc7Error
  else if s.getLsbD 1 && reading && !s.getLsbD 3 then some .crc16Error
  else if s.getLsbD 1 && !reading then some .crcError
  else if m.getLsbD 0 then some .deviceError
  else if m.getLsbD 1 then some .deviceError
  else none

/-- The wait of a data operation (rules R307, R376, R377). -/
def waitData {α : Type} (reading : Bool) (k : ErrorCode → HostProg α) : Nat → HostProg α
  | 0 => k .timeout
  | n + 1 => hRd intstsOff fun s => hRd dmaintstsOff fun m => hRd dmactlOff fun c =>
    match dataError reading s m with
    | some e => k e
    | none => if s.getLsbD 0 && !c.getLsbD 9 then k .ok else waitData reading k n

/-- Waiting for the end of the card's busy signalling (rules R199, R311): whether it ended within the bound. Where
the poll of the eight clocks runs out the level is looked at all the same, which the spec does not say (DESIGN CHOICE;
assumption log, entry 39). -/
def waitReady {α : Type} (bound : Nat) (k : Bool → HostProg α) : Nat → HostProg α
  | 0 => k false
  | n + 1 => hSet ctlOff 0x00000040#32 <| hPoll ctlOff 0x00000040#32 0#32 (fun _ =>
    hRd intstsOff fun s => if s.getLsbD 7 then k true else waitReady bound k n) bound

/-- The interrupt enables that a driver sets before it sleeps (rules R316, R334): masks for `INTEN`, `DMAINTEN` and
`GINTEN`. -/
def enableInterrupts {α : Type} (i d g : Word) (k : HostProg α) : HostProg α :=
  hSet 0x828#12 (i &&& 0x00003303#32) <| hSet 0x410#12 (d &&& 0x00000003#32) <| hSet 0x804#12 (g &&& 0x00000001#32) k

/-- The interrupt-driven wait of a data operation (rule R316), at most so many awakenings: the host sleeps until the
interrupt request is 1; the handler reads the status registers, decides as rule R307 does, and clears the flags it has
handled. A flag it has not handled (a card-detect change) stays set and keeps the request at 1. -/
def waitInterrupt {α : Type} (reading : Bool) (k : ErrorCode → HostProg α) : Nat → HostProg α
  | 0 => k .timeout
  | n + 1 => .sleep <| hRd intstsOff fun s => hRd dmaintstsOff fun m => hRd dmactlOff fun c =>
    let handled (e : ErrorCode) : HostProg α :=
      hW1c .intsts (s &&& 0x00003003#32) <| hW1c .dmaintsts (m &&& 0x00000003#32) <| hW1c .gintsts 0x00000001#32 (k e)
    match dataError reading s m with
    | some e => handled e
    | none => if s.getLsbD 0 && !c.getLsbD 9 then handled .ok else waitInterrupt reading k n

/-- How a driver waits for the end of a data operation (rules R307, R316): it polls, or it sets these enables in
`INTEN`, `DMAINTEN` and `GINTEN` and sleeps. -/
inductive WaitMode where
  | polled
  | interrupt (i d g : Word)
deriving DecidableEq, Repr

/-- What precedes the launch of an operation whose end is waited for in this way. -/
def WaitMode.prepare {α : Type} (m : WaitMode) (k : HostProg α) : HostProg α :=
  match m with
  | .polled => k
  | .interrupt i d g => enableInterrupts i d g k

/-- The wait for the end of a data operation. -/
def WaitMode.wait {α : Type} (m : WaitMode) (reading : Bool) (k : ErrorCode → HostProg α) (bound : Nat) : HostProg α :=
  match m with
  | .polled => waitData reading k bound
  | .interrupt _ _ _ => waitInterrupt reading k bound

/-! ### Ports and presence (rules R271, R309, R310) -/

/-- Whether the registers read say that a card is present (rule R271). -/
def presentIn (p : Port) (s e : Word) : Bool :=
  match p with
  | .p0 => s.getLsbD 16 != e.getLsbD 30
  | .p1 => s.getLsbD 17 != e.getLsbD 31

/-- The number of a port. -/
def portNumber : Port → Nat
  | .p0 => 0
  | .p1 => 1

/-- `CardSelect` (rule R309). -/
def cardSelect {α : Type} (p : Port) (k : HostProg α) : HostProg α :=
  hUpd ctlOff 0x60000000#32 (BitVec.ofNat 32 (portNumber p) <<< 29) k

/-- `WhichCardIsSelected` (rule R310). -/
def whichCardIsSelected {α : Type} (k : BitVec 2 → HostProg α) : HostProg α :=
  hRd ctlOff fun t => k (portField t)

/-- The reads of rule R312: whether a card is present, and whether a change is flagged. -/
def presence {α : Type} (p : Port) (k : Bool → Bool → HostProg α) : HostProg α :=
  hRd intstsOff fun s => hRd 0x828#12 fun e => k (presentIn p s e) (s.getLsbD (8 + portNumber p))

/-- The test after a failed wait inside `Probe` (rules R274, R288, R312): the error, or `NO_CARD` where the card is
gone. Rule R274 has the driver evaluate the flag of a change too, and does not say what `Probe` does with it where a
card is present again: the model tests the presence alone and leaves the flag set (DESIGN CHOICE; assumption log,
entry 44). -/
def orNoCard {α : Type} (p : Port) (e : ErrorCode) (k : ErrorCode → HostProg α) : HostProg α :=
  presence p fun present _ => k (if present then e else .noCard)

/-! ### Probe (rule R314) -/

/-- The type of a card (rules R292, R304, R312, R314), with whether it is addressed by sector; software. -/
inductive CardType where
  | unknown
  | sd (highCapacity : Bool)
  | mmc (highCapacity : Bool)
deriving DecidableEq, Repr

/-- What the driver knows of the card, as far as its sequences look at it (rules R306, R308, R312, R314); software. -/
structure Session where
  cardType : CardType
  inTransfer : Bool
  writeProtected : Bool
  totalSectors : Nat
deriving DecidableEq, Repr

/-- The session of a card that is gone (rule R312) or whose initialisation failed (rule R314): type UNKNOWN, sector
counts zero. -/
def Session.cleared : Session :=
  { cardType := .unknown, inTransfer := false, writeProtected := false, totalSectors := 0 }

/-- Whether the card is addressed by sector (rules R292, R304). -/
def CardType.highCapacity : CardType → Bool
  | .sd h | .mmc h => h
  | .unknown => false

/-- What a sequence that works on the session returns: the code, and the session after it, which holds the card's
type. -/
structure Opened where
  code : ErrorCode
  session : Session
deriving DecidableEq, Repr

/-- A step of `Probe` that failed (rules R288, R312, R314): the code, or `NO_CARD` where the card is gone; the session
is left as not inserted. -/
def probeFail {α : Type} (p : Port) (e : ErrorCode) (k : Opened → HostProg α) : HostProg α :=
  orNoCard p e fun c => k { code := c, session := .cleared }

/-- How the exchange of operating conditions ends (rule R314): the card is ready and has this type, the bound is used
up, or a step failed. -/
inductive OcrEnd where
  | ready (t : CardType)
  | exhausted
  | failed (e : ErrorCode)
deriving DecidableEq, Repr

/-- After a failed command of the exchange (rules R288, R312): the end where the card is gone, otherwise on. -/
def ocrGoOn {α : Type} (p : Port) (k : OcrEnd → HostProg α) (on : HostProg α) : HostProg α :=
  presence p fun present _ => if present then on else k (.failed .noCard)

/-- The loop over SEND_OP_COND of a card that is no SD card (rules R292, R314). A command that itself times out counts
as one more busy round, which the spec does not say (DESIGN CHOICE; assumption log, entry 38). -/
def mmcLoop {α : Type} (bound : Nat) (p : Port) (k : OcrEnd → HostProg α) : Nat → HostProg α
  | 0 => k .exhausted
  | n + 1 => submitCommand bound 1#6 0x40FF8000#32 .r3 fun a =>
    let r0 := a.words.headD 0#32
    if a.code ≠ .ok then ocrGoOn p k (mmcLoop bound p k n)
    else if r0.getLsbD 23 then k (.ready (.mmc (r0.getLsbD 22))) else mmcLoop bound p k n

/-- The loop over APP_CMD and SD_SEND_OP_COND (rules R304, R305, R314), `v2` for a card that echoed SEND_IF_COND. An
SD_SEND_OP_COND that itself times out counts as one more busy round, which the spec does not say (DESIGN CHOICE;
assumption log, entry 38). -/
def ocrLoop {α : Type} (bound retries : Nat) (p : Port) (v2 : Bool) (k : OcrEnd → HostProg α) : Nat → HostProg α
  | 0 => k .exhausted
  | n + 1 => submitCommand bound 55#6 0#32 .r1 fun a =>
    if a.code = .timeout then ocrGoOn p k (mmcLoop bound p k retries)
    else if a.code ≠ .ok then k (.failed .initError)
    else submitCommand bound 41#6 (if v2 then 0x40FF8000#32 else 0x00FF8000#32) .r3 fun b =>
      let r0 := b.words.headD 0#32
      if b.code ≠ .ok then ocrGoOn p k (ocrLoop bound retries p v2 k n)
      else if r0.getLsbD 23 then k (.ready (.sd (v2 && r0.getLsbD 22))) else ocrLoop bound retries p v2 k n

/-- The code of a failed step of the initialisation (rules R288, R314). -/
def initCode (e : ErrorCode) : ErrorCode := if e = .crc7Error then .initError else e

/-- The rest of `Probe` once the card is ready (rule R314): identification, address, card data, selection. The address
of a card that is no SD card is chosen by the host (rule R294); what the card data say of its size is not the spec's
(rule R198). A failure of SELECT_CARD is `SELECT_ERROR` (rule R295) also where its response fails the CRC, for which
rule R314 has `INIT_ERROR`, and where the wait for ready after it runs out, for which rules R288 and R311 have `TIMEOUT`
(DESIGN CHOICE; assumption log, entry 38). -/
def identify {α : Type} (bound : Nat) (p : Port) (locked : Bool) (t : CardType) (k : Opened → HostProg α) :
    HostProg α :=
  let sd : Bool := match t with
    | .sd _ => true
    | .mmc _ | .unknown => false
  submitCommand bound 2#6 0#32 .r2 fun cid => if cid.code ≠ .ok then probeFail p (initCode cid.code) k else
  submitCommand bound 3#6 (if sd then 0#32 else 0x00010000#32) (if sd then .r6 else .r1) fun a =>
  if a.code ≠ .ok then probeFail p (initCode a.code) k else
  let rca := if sd then rcaOf (a.words.headD 0#32) else 0x00010000#32
  submitCommand bound 9#6 rca .r2 fun csd => if csd.code ≠ .ok then probeFail p (initCode csd.code) k else
  submitCommand bound 7#6 rca .r1 fun sel => if sel.code ≠ .ok then probeFail p .selectError k else
  waitReady bound (fun ok =>
    if ok then k { code := .ok, session :=
      { cardType := t, inTransfer := true, writeProtected := locked, totalSectors := Config.csdSectors csd.words } }
    else probeFail p .selectError k) bound

/-- `Probe` (rules R296, R314). A SEND_IF_COND whose response fails its CRC-7 counts as a wrong echo, so that the card
is taken for a legacy one: rule R296 does not name the case and rule R314 has `INIT_ERROR` for a required CRC (DESIGN
CHOICE; assumption log, entry 38). After a SEND_IF_COND that ends by a response timeout, which rule R296 calls not
fatal, no presence test is made, although rules R274 and R312 have one after every failed wait (DESIGN CHOICE;
assumption log, entry 44). Where the poll of the 74 clocks runs out the model ends with `TIMEOUT`, and rule R314
names no outcome (DESIGN CHOICE; assumption log, entry 39). -/
def probe {α : Type} (bound retries : Nat) (p : Port) (locked : Bool) (k : Opened → HostProg α) : HostProg α :=
  presence p fun present _ => if !present then k { code := .noCard, session := .cleared } else
  hSet ctlOff 0x00000020#32 <| hPoll ctlOff 0x00000020#32 0#32 (fun burst =>
    if burst ≠ .success then probeFail p .timeout k else
    submitCommand bound 0#6 0#32 .none fun idle => if idle.code ≠ .ok then probeFail p idle.code k else
    submitCommand bound 8#6 0x000001AA#32 .r7 fun v =>
    if v.byBound then probeFail p .cmd8Error k else
    let v2 := decide (v.code = .ok) && decide (v.words.getD 0 0#32 &&& 0xF#32 = 1#32)
      && decide (v.words.getD 1 0#32 = 0xAA#32)
    ocrLoop bound retries p v2 (fun o =>
      match o with
      | .ready t => identify bound p locked t k
      | .exhausted => probeFail p .initTimeout k
      | .failed e => probeFail p e k) retries) bound

/-! ### CardDetection (rule R312) -/

/-- `CardDetection` (rule R312): presence; where a change is flagged the flag is cleared, and `Probe` runs on the card
that is now there, or the session of the card that is gone is cleared. Where that `Probe` finds the card gone the
presence returned is `false`, although its own reads found one (DESIGN CHOICE; assumption log, entry 44). -/
def cardDetection {α : Type} (bound retries : Nat) (p : Port) (c : Session) (k : Bool → Session → HostProg α) :
    HostProg α :=
  presence p fun present changed =>
    if changed then
      hW1c .intsts (1#32 <<< (8 + portNumber p)) <|
        if present then probe bound retries p c.writeProtected fun r => k (decide (r.code ≠ .noCard)) r.session
        else k false .cleared
    else k present c

/-! ### Block transfers (rules R306, R308) -/

/-- What a block transfer returns (rule R306), with the session after it. -/
structure Transferred where
  bytes : Nat
  code : ErrorCode
  session : Session
deriving DecidableEq, Repr

/-- The end of a transfer that failed (rules R306, R307, R312): no byte counts, and the test for a removed or
exchanged card is made; where the card is gone the session is cleared and the code is `NO_CARD`. -/
def transferFail {α : Type} (bound retries : Nat) (p : Port) (c : Session) (e : ErrorCode)
    (k : Transferred → HostProg α) : HostProg α :=
  cardDetection bound retries p c fun present c' =>
    if present then k { bytes := 0, code := e, session := c' }
    else k { bytes := 0, code := .noCard, session := .cleared }

/-- The address that goes into the argument (rules R300, R306). -/
def sectorAddr (c : Session) (sector : Nat) : Word :=
  BitVec.ofNat 32 (if c.cardType.highCapacity then sector else sector * 512)

/-- Steps 7 and 8 (rules R298, R306, R308): STOP_TRANSMISSION and the wait for ready where more than one block was
moved, the wait alone after a single written block. Where the command or the wait fails rule R306 names no outcome;
that the transfer then ends with no byte and the code of the failure is the model's choice (DESIGN CHOICE; assumption
log, entry 37). -/
def finishBlocks {α : Type} (bound n : Nat) (reading : Bool) (fail : ErrorCode → HostProg α) (ok : HostProg α) :
    HostProg α :=
  let ready := waitReady bound (fun r => if r then ok else fail .timeout) bound
  if 1 < n then submitCommand bound 12#6 0#32 .r1 fun a => if a.code = .ok then ready else fail a.code
  else if reading then ok
  else ready

/-- One data operation of at most 255 blocks: steps 1 to 8 of `ReadBlocks` and of `WriteBlocks` (rules R306, R308),
waited for in one of the two ways (rules R307, R316). -/
def moveBlocks {α : Type} (mode : WaitMode) (reading : Bool) (bound retries : Nat) (p : Port) (c : Session) (buf : Word)
    (sector n : Nat) (k : Transferred → HostProg α) : HostProg α :=
  let code : BitVec 6 := if reading then (if n = 1 then 17#6 else 18#6) else (if n = 1 then 24#6 else 25#6)
  let fail (e : ErrorCode) : HostProg α := transferFail bound retries p c e k
  hW1c .intsts 0x00003003#32 <| hW1c .dmaintsts 0x00000003#32 <| hW1c .gintsts 0x00000001#32 <|
  hWr 0x838#12 0x000001FF#32 <| hWr 0x408#12 buf <| hWr cmdargOff (sectorAddr c sector) <| mode.prepare <|
  hRd ctlOff fun t =>
  hWr ctlOff ((t &&& 0xFF008080#32) ||| (BitVec.ofNat 32 n <<< 16) ||| fld 8 code
    ||| (if reading then launchRead else launchWrite)) <|
  mode.wait reading (fun e =>
    if e = .ok then finishBlocks bound n reading fail (k { bytes := n * 512, code := .ok, session := c })
    else recover bound (fail e)) bound

/-- Operations of at most 255 blocks each (rule R306), at most `fuel` of them; `moved` bytes so far, which a failing
operation does not add to (assumption log, entry 26). -/
def moveMany {α : Type} (mode : WaitMode) (reading : Bool) (bound retries : Nat) (p : Port) (c : Session)
    (k : Transferred → HostProg α) : Nat → Nat → Word → Nat → Nat → HostProg α
  | 0, moved, _, _, _ => k { bytes := moved, code := .ok, session := c }
  | fuel + 1, moved, buf, sector, n =>
    if n = 0 then k { bytes := moved, code := .ok, session := c }
    else moveBlocks mode reading bound retries p c buf sector (min n 255) fun r =>
      if r.code = .ok then
        moveMany mode reading bound retries p c k fuel (moved + r.bytes) (buf + BitVec.ofNat 32 (min n 255 * 512))
          (sector + min n 255) (n - min n 255)
      else k { r with bytes := moved + r.bytes }

/-- The preconditions of `ReadBlocks` and `WriteBlocks` that touch no register (rules R306, R308): for a write the
write-protect test first; a session that was cleared has no card; the source names no codes for the others. -/
def transferRefusal (reading : Bool) (c : Session) (buf : Word) (sector n : Nat) : Option ErrorCode :=
  if !reading && c.writeProtected then some .writeProtect
  else if c.cardType = .unknown then some .noCard
  else if !c.inTransfer || n = 0 || buf &&& 3#32 ≠ 0#32 then some .fail
  else if c.totalSectors < sector + n then some .fail
  else none

/-- `ReadBlocks` (rule R306) and `WriteBlocks` (rule R308). The presence of the card is tested after the preconditions
that touch no register; a card that was exchanged has been probed then, and the preconditions are tested for it too.
-/
def transferBlocks {α : Type} (mode : WaitMode) (reading : Bool) (bound retries : Nat) (p : Port) (c : Session)
    (buf : Word) (sector n : Nat) (k : Transferred → HostProg α) : HostProg α :=
  match transferRefusal reading c buf sector n with
  | some e => k { bytes := 0, code := e, session := c }
  | none => cardDetection bound retries p c fun present c' =>
    if !present then k { bytes := 0, code := .noCard, session := .cleared }
    else match transferRefusal reading c' buf sector n with
      | some e => k { bytes := 0, code := e, session := c' }
      | none => moveMany mode reading bound retries p c' k n 0 buf sector n

/-! ### Open and Close (rules R313, R315) -/

/-- `Open` (rules R313, R365). Where the poll of a reset runs out the model goes on, which the spec does not say (DESIGN
CHOICE; assumption log, entry 39). -/
def openController {α : Type} (bound : Nat) (gpio : Bool) (p : Port) (k : HostProg α) : HostProg α :=
  hWr dmactlOff 0x00000003#32 <| hPoll dmactlOff 0x00000002#32 0#32 (fun _ =>
    hWr 0x800#12 0x00000003#32 <| hPoll 0x800#12 0x00000001#32 0#32 (fun _ =>
      hWr 0x410#12 0#32 <| hWr 0x804#12 0#32 <|
      hWr 0x828#12 (if gpio then 1#32 <<< (30 + portNumber p) else 0#32) <|
      hWr 0x840#12 (3#32 &&& ~~~(1#32 <<< portNumber p)) <|
      hWr 0x83C#12 0x00FFFFFF#32 <| hWr 0x838#12 0x000001FF#32 <| hWr cmdargOff 0#32 <|
      hWr ctlOff (0x01014000#32 ||| (BitVec.ofNat 32 (portNumber p) <<< 29)) <|
      hPoll ctlOff 0x00004000#32 0#32 (fun _ =>
        hW1c .intsts 0x00003303#32 <| hW1c .dmaintsts 0x00000003#32 <| hW1c .gintsts 0x00000001#32 k) bound) bound) bound

/-- `Close` (rule R315). -/
def closeController {α : Type} (k : HostProg α) : HostProg α :=
  hClr 0x828#12 0x00003303#32 <| hClr 0x410#12 0x00000003#32 <| hClr 0x804#12 0x00000001#32 k

/-- The number of host operations that a program performs is at most `n`, whatever the registers return (rule R317);
sleeping is no operation. -/
inductive HostProg.AtMost {α : Type} : Nat → HostProg α → Prop where
  | done (n : Nat) (a : α) : AtMost n (.done a)
  | op (n : Nat) (i : Instr) (k : Word → HostProg α) (h : ∀ d, AtMost n (k d)) : AtMost (n + 1) (.op i k)
  | sleep (n : Nat) (k : HostProg α) (h : AtMost n k) : AtMost n (.sleep k)

end Sys2Proof.Machine
end

