-- ==== Sys2Proof/Safety.lean ====
section
/-!
DEFINITION. What counts as a good state: the conditions under which the operations run (rules R176, R232, R371), the end of
a run (rule R19), and the invariants of rule R66 with what they need to hold of every step.
-/

namespace Sys2Proof.Machine

/-! ### Groups of operations -/

/-- The seven operations launched from `CTL` that rule R176 names. -/
def IsCtlOp (i : Instr) : Prop :=
  i = .clk74o ∨ i = .clk8o ∨ i = .co ∨ i = .ri ∨ i = .r2i ∨ i = .di ∨ i = .dout

/-- The bus operations and flag clearing: what the host does to the window (rules R111, R156). -/
def IsBusOp (i : Instr) : Prop :=
  (∃ off, i = .rd off) ∨ (∃ off w, i = .wr off w) ∨ (∃ off m, i = .set off m) ∨ (∃ off m, i = .clr off m)
    ∨ ∃ r m, i = .w1c r m

/-- The fifteen commands (rule R134). -/
def IsCommand (i : Instr) : Prop :=
  ∃ arg, i = .cmd0 arg ∨ i = .cmd1 arg ∨ i = .cmd2 arg ∨ i = .cmd3 arg ∨ i = .cmd7 arg ∨ i = .cmd8 arg ∨ i = .cmd9 arg
    ∨ i = .cmd12 arg ∨ i = .cmd13 arg ∨ i = .cmd17 arg ∨ i = .cmd18 arg ∨ i = .cmd24 arg ∨ i = .cmd25 arg
    ∨ i = .acmd41 arg ∨ i = .cmd55 arg

/-- The port that an event of the history names (rule R61): none for an access to system memory and for a reset. -/
def Event.port : Event → Option Port
  | .clk p _ | .cmdOut p _ | .respIn p _ | .resp2In p _ | .respNone p | .blockIn p _ _ | .blockNone p _
  | .blockOut p _ _ _ | .crcStatus p _ _ => some p
  | .memRd _ _ | .memWr _ _ | .memErr _ | .reset _ => none

/-! ### Conditions -/

/-- The conditions common to every step launched from `CTL` (rule R176), the engine not stuck (rule R15). -/
abbrev EngineReady (s : State) : Prop :=
  s.gctl.sden = true ∧ s.eng.halted = false ∧ s.eng.stuck = false ∧ s.ctl.ctlrst = false ∧ s.gctl.gctlrst = false
    ∧ s.ctl.sdport.toNat < 2

/-- The conditions of every step of a data operation (rule R232). -/
abbrev DataReady (s : State) : Prop :=
  EngineReady s ∧ s.dmactl.dmaen = true ∧ s.dma.halted = false ∧ s.dmactl.dmarst = false

/-- The sequencer is not busy: `DMABUSY` is 0, or `any` since a response timeout without a data phase, while the
sequencer is not halted (rules R59, R371; assumption log, entry 35). -/
abbrev NotBusy (s : State) : Prop :=
  s.dmactl.dmabusy = .known false ∨ (s.dmactl.dmabusy = .any ∧ s.dma.halted = false)

/-- Nothing is in flight: no launch bit of `CTL` is 1 and the sequencer is not busy (rules R26, R371). -/
abbrev Quiet (s : State) : Prop :=
  s.ctl.coen = false ∧ s.ctl.rien = .known false ∧ s.ctl.dien = .known false ∧ s.ctl.doen = .known false
    ∧ s.ctl.r2en = .known false ∧ s.ctl.clk74oen = false ∧ s.ctl.clk8oen = false ∧ s.ctl.ctlrst = false
    ∧ NotBusy s

/-- The operands of a data operation of `n` blocks are as the host contract asks (rules R373, R374, R375). -/
abbrev DataLegal (n : Nat) (s : State) : Prop :=
  n ≠ 0 ∧ s.dma.halted = false ∧ s.dmasa.toNat % 4 = 0 ∧ blockLen s % 4 = 0
    ∧ (s.dmactl.sgen = false → s.dmasa.toNat + n * blockLen s ≤ 2 ^ 32)

/-- A block step of a data operation may run: rule R232, the data phase `p`, busy, blocks left. -/
def InBlock (p : Phase) (s : State) : Prop :=
  DataReady s ∧ s.eng.phase = p ∧ s.dmactl.dmabusy = .known true ∧ 0 < s.eng.blocksLeft

/-- Contiguous mode at address `a`, with the whole block inside the address space and every word of it answered
without `BusError` (rules R88, R89, R90). -/
def BlockRange (a : Word) (s : State) : Prop :=
  s.dmactl.sgen = false ∧ s.dma.cur = .known a ∧ blockLen s % 4 = 0 ∧ a.toNat + blockLen s ≤ 2 ^ 32
    ∧ ∀ x ∈ s.busErr, x.toNat < a.toNat ∨ a.toNat + blockLen s ≤ x.toNat

/-- No byte of `[lo, hi)` was changed by another master during the running `DO` (rule R95). -/
def Unlent (lo hi : Nat) (s : State) : Prop := ∀ c ∈ s.lent, c.1 < lo ∨ hi ≤ c.1

/-! ### The words of a block (rules R86, R90, R236, R241, R245, R248) -/

/-- The access to one word of a block: the reads of a table entry that come before it, and its address. -/
abbrev Access : Type := List Event × Word

/-- The bytes of a block as little-endian words (rule R86). -/
def leWords : List Byte → List Word
  | b0 :: b1 :: b2 :: b3 :: rest => (b3 ++ b2 ++ b1 ++ b0) :: leWords rest
  | _ => []

/-- The accesses to `n` words of a contiguous buffer from `a` on. -/
def contigWords : Word → Nat → List Access
  | _, 0 => []
  | a, n + 1 => ([], a) :: contigWords (a + 4#32) n

/-- The byte count of a table entry (rule R128). -/
def entryCount (e1 : Word) : Nat := (e1.extractLsb' 0 26).toNat

/-- A well-formed table entry (rules R128, R248). -/
abbrev EntryLegal (e0 e1 : Word) : Prop :=
  e0.toNat % 4 = 0 ∧ entryCount e1 ≠ 0 ∧ entryCount e1 % 4 = 0 ∧ e1.extractLsb' 26 5 = 0#5
    ∧ e0.toNat + entryCount e1 ≤ 2 ^ 32

/-- The accesses to `n` words in scatter-gather mode, and where the sequencer then stands, from where it stands now
and the entries of the table that follow (rules R245, R248); none where the entries do not reach that far or one is
not legal. -/
def scatterWords : Nat → Dma → List (Word × Word) → Option (List Access × Dma)
  | 0, d, _ => some ([], d)
  | n + 1, d, es =>
    if d.segLeft ≠ 0 then
      match d.cur with
      | .known a =>
        (scatterWords n { d with cur := .known (a + 4#32), segLeft := d.segLeft - 4 } es).map fun r =>
          (([], a) :: r.1, r.2)
      | .any => none
    else
      match es, d.padPtr with
      | (e0, e1) :: rest, .known p =>
        if d.eotSeen = false ∧ EntryLegal e0 e1 then
          (scatterWords n
            { d with cur := .known (e0 + 4#32), segLeft := entryCount e1 - 4, padPtr := .known (p + 8)
                     eotSeen := e1.getLsbD 31, dest := d.dest.map ((e0.toNat, entryCount e1) :: ·) } rest).map fun r =>
            (([.memRd (BitVec.ofNat 32 p) e0, .memRd (BitVec.ofNat 32 (p + 4)) e1], e0) :: r.1, r.2)
        else none
      | _, _ => none

/-- Scatter-gather mode, with the entries `es` standing in the table from `p` on, where the sequencer reads the next
one: every word of them is known, answered without `BusError`, and not changed by another master. -/
def TableReady (p : Nat) (es : List (Word × Word)) (s : State) : Prop :=
  s.dmactl.sgen = true ∧ s.dma.padPtr = .known p ∧ p + 8 * es.length ≤ 2 ^ 32
    ∧ (∀ k e, es[k]? = some e →
        memGetWord s.mem (p + 8 * k) = some e.1 ∧ memGetWord s.mem (p + 8 * k + 4) = some e.2)
    ∧ (∀ x ∈ s.busErr, x.toNat < p ∨ p + 8 * es.length ≤ x.toNat) ∧ Unlent p (p + 8 * es.length) s

/-- The events of accesses that write these words. -/
def writeEvents (rs : List Access) (ws : List Word) : List Event :=
  (List.zipWith (fun r w => r.1 ++ [Event.memWr r.2 w]) rs ws).flatten

/-- The events of accesses that read these words. -/
def readEvents (rs : List Access) (ws : List Word) : List Event :=
  (List.zipWith (fun r w => r.1 ++ [Event.memRd r.2 w]) rs ws).flatten

/-- System memory after accesses that write these words, where the words `ov` lie in the buffers of both instances. -/
def putWords (ov : List Word) (m : List Host.Cell) (rs : List Access) (ws : List Word) : List Host.Cell :=
  (rs.zip ws).foldl (fun m x => storeWord ov m x.1.2 x.2) m

/-- The number of reads of table entries among accesses: each takes a draw. -/
def fetchReads (rs : List Access) : Nat := (rs.map fun r => r.1.length).sum

/-- A command can be written and its frame sent: the engine is ready and nothing is in flight (rules R176, R371). -/
def CommandReady (s : State) : Prop := EngineReady s ∧ Quiet s

/-- The end of a run (rule R19): the host has performed its last operation and the engine is idle, `DMABUSY` is 0. -/
abbrev Final (s : State) : Prop :=
  s.prog = [] ∧ s.eng.phase = .idle ∧ Quiet s ∧ s.dmactl.dmabusy = .known false ∧ s.dmactl.dmarst = false ∧ s.gctl.gctlrst = false
    ∧ s.eng.halted = false ∧ s.eng.stuck = false

/-! ### Runs -/

/-- A turn of this agent would do something: its operation is not held (rules R10, R176), or the level that a change
detector looks at differs from the remembered one (rule R272). -/
def TurnEnabled (t : Turn) (s : State) : Prop :=
  match t with
  | .cd p => cdsts s p ≠ cdPrev s p
  | t => match fetch t (takeTurn s) with
    | .run i u => exec i u ≠ .next u
    | .nothing | .refuse _ => False

/-- An infinite run of the machine. -/
def IsRun (r : Nat → State) : Prop := ∀ n, step (r n) = .next (r (n + 1))

/-- Weak fairness (rules R10, R272): a step of the engine, a reset, or a step of a change detector that stays enabled is
eventually taken. It is the spec's only liveness assumption, and a premise of no statement about a single step. -/
def WeaklyFair (r : Nat → State) : Prop :=
  ∀ t, (t = .engine ∨ t = .dmaReset ∨ t = .globalReset ∨ ∃ p, t = .cd p) → ∀ n, (∀ m, n ≤ m → TurnEnabled t (r m)) →
    ∃ m, n ≤ m ∧ nextTurn (r m) = t

/-- The flag of a card-detect change of a port (rules R54, R272). -/
def cdFlag (s : State) : Port → Bool
  | .p0 => s.intsts.cdif0
  | .p1 => s.intsts.cdif1

/-! ### Invariants -/

/-- Where the buffers of the two instances overlap every byte of memory is `any` (rule R344). -/
def OverlapAny (s : State) : Prop := ∀ x, overlapped s.overlap x = true → memGet s.mem x = none

/-- The launch bits of operations in `CTL` that are 1 and known to be, at their positions (rule R112). -/
def launchBits (c : Ctl) : Word :=
  bit 0 c.coen ||| bit 1 c.rien.isOn ||| bit 2 c.dien.isOn ||| bit 3 c.doen.isOn ||| bit 4 c.r2en.isOn
    ||| bit 5 c.clk74oen ||| bit 6 c.clk8oen

/-- The launch bits form a legal set (rules R66, R131, R174). -/
abbrev LegalSet (s : State) : Prop := legalLaunch (launchBits s.ctl) = true

/-- A launch bit holds `any` only after an event halted the engine (rules R66, R331). -/
abbrev LaunchKnown (s : State) : Prop :=
  s.eng.halted = false → s.ctl.rien ≠ .any ∧ s.ctl.dien ≠ .any ∧ s.ctl.doen ≠ .any ∧ s.ctl.r2en ≠ .any

/-- The byte counter of a sequencer that is not halted (rules R29, R66, R237): 0 when it is not busy, and when it is,
the blocks left times the block length; since a response timeout both may be `any` (rules R59, R331). -/
abbrev CountOk (s : State) : Prop :=
  s.dma.halted = false →
    (s.dmactl.dmabusy = .known false ∧ s.bcnt = .known 0#26)
    ∨ (s.dmactl.dmabusy = .known true
        ∧ (s.eng.halted = false → s.bcnt = .known (BitVec.ofNat 26 (s.eng.blocksLeft * blockLen s))))
    ∨ (s.dmactl.dmabusy = .any ∧ s.bcnt = .any)

/-- Outside the phase `RESET` the engine stands at the first pending operation, or at the end of a data operation
(rules R24, R175, R180). -/
abbrev PhaseOk (s : State) : Prop :=
  s.eng.halted = false → s.eng.phase ≠ .reset →
    s.eng.phase = nextPhase s.ctl
    ∨ (s.eng.phase = .dataEnd ∧ (nextPhase s.ctl = .dataIn ∨ nextPhase s.ctl = .dataOut))

/-- While the sequencer is busy the engine is in the data phase with blocks left, or at its end with none; and it is at
the end only while the sequencer is busy (rules R66, R233, R238, R244). -/
abbrev BusyOk (s : State) : Prop :=
  s.eng.halted = false → s.dma.halted = false → s.eng.phase ≠ .reset →
    (s.dmactl.dmabusy = .known true →
      ((s.eng.phase = .dataIn ∨ s.eng.phase = .dataOut) ∧ 0 < s.eng.blocksLeft)
      ∨ (s.eng.phase = .dataEnd ∧ s.eng.blocksLeft = 0))
    ∧ (s.eng.phase = .dataEnd → s.dmactl.dmabusy = .known true)

/-- A sequencer that alone is halted leaves no data operation pending (rules R250, R375). -/
abbrev HaltOk (s : State) : Prop :=
  s.eng.halted = false → s.dma.halted = true → s.ctl.dien = .known false ∧ s.ctl.doen = .known false

/-- A pending data operation has a block count that is not 0 (rule R373). -/
abbrev BlocksOk (s : State) : Prop :=
  s.ctl.ctlrst = false → (s.ctl.dien = .known true ∨ s.ctl.doen = .known true) → s.ctl.blkcnt ≠ 0#8

/-- `eng.phase` is `RESET` while `CTLRST` is pending, and only while `CTLRST` or `GCTLRST` is (rules R66, R180, R250,
R252); a `CTLRST` performed while `GCTLRST` is pending puts it to `IDLE` (assumption log, entry 32). -/
abbrev ResetOk (s : State) : Prop :=
  (s.ctl.ctlrst = true → s.eng.phase = .reset) ∧ (s.eng.phase = .reset → s.ctl.ctlrst = true ∨ s.gctl.gctlrst = true)

/-- The invariants of rule R66 with what they need to be kept by every step. -/
abbrev Consistent (s : State) : Prop :=
  LegalSet s ∧ LaunchKnown s ∧ CountOk s ∧ PhaseOk s ∧ BusyOk s ∧ HaltOk s ∧ BlocksOk s ∧ ResetOk s

end Sys2Proof.Machine
end

