-- ==== Sys2Proof/Certificates/Slice0/Obligations.lean ====
section
/-!
DEFINITION. The statements for the provers. A statement about an operation says the whole next state as an update of
the state before it, so that everything not named is unchanged; memory is spoken of through `memGet`, the listed byte
at an address. Statements hold of every state that meets their hypotheses, also of states that no run reaches. Where one
speaks of a quiet state or of nothing in flight, a `DMABUSY` that is `any` since a response timeout without a data phase
counts as not busy (assumption log, entry 35, DESIGN CHOICE).
-/

open Sys2Proof Sys2Proof.Machine

namespace Sys2Proof.Machine

/-! ### Names used by the statements -/

/-- `CTL` as a word without `CTLRST` gives it, every launch bit known (rules R35, R112). -/
def wordCtl (w : Word) : Ctl :=
  { coen := w.getLsbD 0, rien := .known (w.getLsbD 1), dien := .known (w.getLsbD 2), doen := .known (w.getLsbD 3)
    r2en := .known (w.getLsbD 4), clk74oen := w.getLsbD 5, clk8oen := w.getLsbD 6, clkkeep0 := w.getLsbD 7
    cmdcode := w.extractLsb' 8 6, ctlrst := false, dbw := w.getLsbD 15, blkcnt := w.extractLsb' 16 8
    sdnwr := w.extractLsb' 24 4, sdport := w.extractLsb' 29 2, clkkeep1 := w.getLsbD 31 }

/-- The frame of rule R172 written out: start bit, transmission bit, index, argument, CRC-7 of these forty bits, end
bit. -/
def frameOf (code : BitVec 6) (arg : Word) : BitVec 48 :=
  ((0#1 ++ 1#1 ++ code ++ arg : BitVec 40) ++ crc7 (bitsMsb (0#1 ++ 1#1 ++ code ++ arg : BitVec 40)) ++ 1#1)

/-- Whether a written word has the operand fields of `CTL` as they are (rules R98, R371). -/
abbrev SameOperands (w : Word) (s : State) : Prop :=
  s.ctl.cmdcode = w.extractLsb' 8 6 ∧ s.ctl.dbw = w.getLsbD 15 ∧ s.ctl.blkcnt = w.extractLsb' 16 8
    ∧ s.ctl.sdport = w.extractLsb' 29 2

/-- The scatter-gather table at `p` has these entries, all of them known, the end mark on the last alone (rule R128). -/
def TableAt (p : Nat) (es : List (Word × Word)) (m : List Host.Cell) : Prop :=
  es ≠ [] ∧ ∀ k e, es[k]? = some e →
    memGetWord m (p + 8 * k) = some e.1 ∧ memGetWord m (p + 8 * k + 4) = some e.2
      ∧ (e.2.getLsbD 31 = true ↔ k + 1 = es.length)

/-- The scatter-gather table at `p` has an entry of which a byte is unknown before its end mark. -/
def TableUnknown (p : Nat) (m : List Host.Cell) : Prop :=
  ∃ n, (∀ k, k < n → ∃ e, memGetWord m (p + 8 * k + 4) = some e ∧ e.getLsbD 31 = false)
    ∧ (memGetWord m (p + 8 * n) = none ∨ memGetWord m (p + 8 * n + 4) = none)

/-- The byte of the word at the place `k` of a sent block and of number `j` in it is what memory lists at its address,
or one of the values that another master replaced there during the `DO` (rule R95); an unlisted byte, and one that was
unlisted before it was replaced, is any (rules R12, R80). -/
def SentFrom (s : State) (d : List Byte) (a k j : Nat) : Prop :=
  ∀ v, memGet s.mem (a + j) = some v →
    d[4 * k + j]? = some v ∨ ∃ c ∈ s.lent, c.1 = a + j ∧ (c.2 = none ∨ c.2 = d[4 * k + j]?)

/-- A target abort at `a` (rules R247, R326), before it halts. -/
def aborted (a : Word) (s : State) : State :=
  { s with
    history := s.history ++ [.memErr a], dmaintsts := { s.dmaintsts with abortif := true }, dtaif := true
    dmactl := { s.dmactl with dmaen := false } }

/-- The state after a command whose launch word also asks for the operations of the bits `l` (rules R172, R290): the
argument and the control word are stored, the frame is sent, `COEN` is 0 again, the engine stands at `p`. -/
def commandDone (idx : BitVec 6) (arg : Word) (n : BitVec 8) (l : Word) (p : Phase) (s : State) : State :=
  { s with
    cmdarg := arg
    ctl := { s.ctl with
      coen := false, rien := .known (l.getLsbD 1), dien := .known (l.getLsbD 2), doen := .known (l.getLsbD 3)
      r2en := .known (l.getLsbD 4), cmdcode := idx, blkcnt := n }
    eng := { s.eng with phase := p }
    history := s.history ++ [.cmdOut (selPort s) (frameOf idx arg)]
    draws := s.draws + 2 }

end Sys2Proof.Machine

/-! ### Reset -/

/-- R63, R64: the fields to which the spec gives a reset value. -/
def Obligations.ResetValues : Prop :=
  Quiet State.reset ∧ State.reset.dmactl.dmabusy = .known false ∧ State.reset.dmactl.dmarst = false
  ∧ State.reset.gctl.gctlrst = false
  ∧ State.reset.dmactl.dmaen = false ∧ State.reset.gctl.sden = false ∧ State.reset.bcnt = .known 0#26
  ∧ State.reset.intsts.blkdif = .known false ∧ State.reset.intsts.crcif = false ∧ State.reset.intsts.rtoif = false
  ∧ State.reset.intsts.ditoif = false ∧ State.reset.dmaintsts.abortif = false
  ∧ State.reset.dmaintsts.weotif = false ∧ State.reset.dtaif = false
  ∧ State.reset.eng.phase = .idle ∧ State.reset.eng.blocksLeft = 0 ∧ State.reset.eng.dsub = .send
  ∧ State.reset.eng.halted = false ∧ State.reset.dma.halted = false ∧ State.reset.dma.eotSeen = false
  ∧ State.reset.cdPrev0 = cdsts State.reset .p0 ∧ State.reset.cdPrev1 = cdsts State.reset .p1
  ∧ State.reset.history = []

/-- The reset state meets the invariants that `StepKeepsConsistent` and `StepKeepsMemoryForm` are about. -/
def Obligations.ResetMeetsInvariants : Prop :=
  Consistent State.reset ∧ Memory.wf State.reset.mem = true ∧ OverlapAny State.reset ∧ Final State.reset

/-- R63, R64, R361: a hardware reset from any state. The registers to which the spec gives no value hold the values of
`State.reset` (assumption log, entries 1 and 2); memory, cards, program and inputs stay (entry 28). The remembered
card-detect levels equal the inputs, so that no change is detected. -/
def Obligations.HardwareReset : Prop :=
  ∀ s : State, ∀ rest, nextTurn s = .env → s.inputs = .hardwareReset :: rest →
    step s = .next { State.reset with
      cdPrev0 := s.pins.ded0, cdPrev1 := s.pins.ded1
      pins := s.pins, mem := s.mem, busErr := s.busErr, overlap := s.overlap, card0 := s.card0, card1 := s.card1, prog := s.prog
      rdata := s.rdata, turns := s.turns.tail, inputs := rest, draws := s.draws + 1 }
    ∧ ∀ p t, step s = .next t → cdStep p t = t

/-! ### Decoding and encoding -/

/-- R111 to R115, R134: words written out from the spec's encodings, one or more of every format. -/
def Obligations.DecodeKnownWords : Prop :=
  decode (.bus .rd .word 0x82C#12 0#32) = .ok (.rd 0x82C#12)
  ∧ decode (.bus .wr .word 0x824#12 0x000001AA#32) = .ok (.wr 0x824#12 0x000001AA#32)
  ∧ decode (.bus .set .word 0x820#12 0x00000020#32) = .ok (.set 0x820#12 0x00000020#32)
  ∧ decode (.bus .clr .word 0x828#12 0x00000300#32) = .ok (.clr 0x828#12 0x00000300#32)
  ∧ decode (.bus .wr .word 0x82C#12 0x00000002#32) = .ok (.w1c .intsts 0x00000002#32)
  ∧ decode (.word .ctl 0x01010001#32) = .ok .co ∧ decode (.word .ctl 0x01013702#32) = .ok .ri
  ∧ decode (.word .ctl 0x01018004#32) = .ok .di ∧ decode (.word .ctl 0x09018008#32) = .ok .dout
  ∧ decode (.word .ctl 0x01010210#32) = .ok .r2i ∧ decode (.word .ctl 0x01010020#32) = .ok .clk74o
  ∧ decode (.word .ctl 0x01018040#32) = .ok .clk8o ∧ decode (.word .ctl 0x01017702#32) = .ok .ctlrst
  ∧ decode (.word .dmactl 0x00000003#32) = .ok .dmarst ∧ decode (.word .gctl 0x00000003#32) = .ok .gctlrst
  ∧ decode (.frame 0x400000000095#48) = .ok (.cmd0 0#32)
  ∧ decode (.frame 0x48000001AA87#48) = .ok (.cmd8 0x000001AA#32)
  ∧ decode (.frame 0x471234000059#48) = .ok (.cmd7 0x12340000#32)
  ∧ decode (.frame 0x5100000064B1#48) = .ok (.cmd17 100#32)
  ∧ decode (.frame 0x5900000064E7#48) = .ok (.cmd25 100#32)
  ∧ decode (.frame 0x770000000065#48) = .ok (.cmd55 0#32)

/-- Every well-formed operation is read back from its encoding, with every operand at every value. -/
def Obligations.DecodeEncode : Prop :=
  ∀ i : Instr, i.wellFormed = true → decode (encode i) = .ok i

/-- The other direction: what the decoder gives is well formed; a bus transaction that is not a read is the encoding of
what is decoded from it; a command frame with a correct CRC is too (R111, R115). -/
def Obligations.DecodedIsWellFormed : Prop :=
  ∀ c i, decode c = .ok i →
    i.wellFormed = true
    ∧ (∀ k sz off d, c = .bus k sz off d → k ≠ .rd → encode i = c)
    ∧ (∀ f, c = .frame f → f.extractLsb' 1 7 = crc7 (bitsMsb (f.extractLsb' 8 40)) → encode i = c)

/-- R131: of the 128 sets of launch bits exactly twenty are legal, the empty one among them: the decoder's test agrees
with the rule's words on every set. -/
def Obligations.LegalLaunchSets : Prop :=
  (∀ w : Word, legalLaunch w = true ↔
    (w &&& 0x7F#32 = 0#32 ∨ w &&& 0x7F#32 = 0x20#32 ∨ w &&& 0x7F#32 = 0x40#32
      ∨ (w.getLsbD 5 = false ∧ w.getLsbD 6 = false
          ∧ ¬(w.getLsbD 1 = true ∧ w.getLsbD 4 = true) ∧ ¬(w.getLsbD 2 = true ∧ w.getLsbD 3 = true))))
  ∧ ((List.range 128).filter fun n => legalLaunch (BitVec.ofNat 32 n)).length = 20

/-- R175, R129: in a state whose launch bits are known and legal, with `SDPORT` 0 or 1 and no `CTLRST`, what the engine
decodes from `CTL` is the operation of the phase that the fixed order gives, and nothing where that is `IDLE`. -/
def Obligations.EngineOrder : Prop :=
  ∀ s : State, LegalSet s → LaunchKnown s → s.eng.halted = false → s.ctl.sdport.toNat < 2 → s.ctl.ctlrst = false →
    decode (.word .ctl (ctlNow s)) =
      if s.ctl.clk74oen = true then .ok .clk74o
      else if s.ctl.coen = true then .ok .co
      else if s.ctl.rien = .known true then .ok .ri
      else if s.ctl.r2en = .known true then .ok .r2i
      else if s.ctl.dien = .known true then .ok .di
      else if s.ctl.doen = .known true then .ok .dout
      else if s.ctl.clk8oen = true then .ok .clk8o
      else .error .noOperation

/-! ### Steps -/

/-- A step runs the decoded operation: the host's the head of its program, the engine's and the resets' the one decoded
from the register that holds the launch bit. `takeTurn` only advances the schedule and the counter of draws. A turn of
an agent that has nothing to do changes nothing else (R24), and a detector's turn is its own step. -/
def Obligations.StepRunsDecoded : Prop :=
  (∀ s c rest i, nextTurn s = .host → s.prog = c :: rest → (∀ r w, c ≠ .word r w) → decode c = .ok i →
    step s = exec i { takeTurn s with prog := rest })
  ∧ (∀ s i, nextTurn s = .engine → decode (.word .ctl (ctlNow (takeTurn s))) = .ok i → step s = exec i (takeTurn s))
  ∧ (∀ s i, nextTurn s = .dmaReset → decode (.word .dmactl (dmactlNow (takeTurn s))) = .ok i →
      step s = exec i (takeTurn s))
  ∧ (∀ s i, nextTurn s = .globalReset → decode (.word .gctl (gctlNow (takeTurn s))) = .ok i →
      step s = exec i (takeTurn s))
  ∧ (∀ s, takeTurn s = { s with turns := s.turns.tail, draws := s.draws + 1 })
  ∧ (∀ s, nextTurn s = .host → s.prog = [] → step s = .next (takeTurn s))
  ∧ (∀ s e, nextTurn s = .engine → decode (.word .ctl (ctlNow (takeTurn s))) = .error e →
      step s = .next (takeTurn s))
  ∧ (∀ s, nextTurn s = .dmaReset → s.dmactl.dmarst = false → step s = .next (takeTurn s))
  ∧ (∀ s, nextTurn s = .globalReset → s.gctl.gctlrst = false → step s = .next (takeTurn s))
  ∧ (∀ s, nextTurn s = .env → s.inputs = [] → step s = .next (takeTurn s))
  ∧ ∀ s p, nextTurn s = .cd p → step s = .next (cdStep p (takeTurn s))

/-! ### Host register operations -/

/-- R150, R85: a legal read completes; it returns the register's fields, with draws in the reserved bits, and changes
nothing of the block, of memory or of the history. Reading `INTSTS` asks the card for the level of DAT0. While the
engine is halted the value of `BLKDIF` and of `FB` is a draw too (R331; entries 35 and 40). -/
def Obligations.RdCompletes : Prop :=
  ∀ (s : State) (off : Offset) (r : Reg), regAt off = some r → ((∃ i, r = .fb i) → inFlight s = false) →
    ∃ t, exec (.rd off) s = .next t
      ∧ t = { s with rdata := t.rdata, draws := s.draws + 1, card0 := t.card0, card1 := t.card1 }
      ∧ (r ≠ .intsts → t.card0 = s.card0 ∧ t.card1 = s.card1)
      ∧ t.rdata &&& ~~~reservedMask r = regNow off r s
      ∧ t.rdata &&& reservedMask r = Config.anyWord s.draws off &&& reservedMask r

/-- R27 to R43, R46 to R59, R271: the fields that a read of each named register returns: a launch bit reads 1 while
its operation is pending. `BLKDIF` reads `any` while the engine is halted (R331; entries 35 and 40), and so it is
said where it is not. The level of DAT0 is the card's (R52); where `SDPORT` is 2 or 3 the port asked is the model's
choice (entry 34), which nothing here rests on. -/
def Obligations.RdFields : Prop :=
  ∀ s : State,
    (∃ t, exec (.rd 0x82C#12) s = .next t
      ∧ (∀ b, s.eng.halted = false → s.intsts.blkdif = .known b → t.rdata.getLsbD 0 = b)
      ∧ t.rdata.getLsbD 1 = s.intsts.crcif
      ∧ (∀ b, s.intsts.crc7 = .known b → t.rdata.getLsbD 2 = b)
      ∧ (∀ b, s.intsts.crc16 = .known b → t.rdata.getLsbD 3 = b)
      ∧ (∀ v, s.intsts.crcsts = .known v → t.rdata.extractLsb' 4 3 = v)
      ∧ t.rdata.getLsbD 7 = dat0Now s
      ∧ t.rdata.getLsbD 8 = s.intsts.cdif0 ∧ t.rdata.getLsbD 9 = s.intsts.cdif1
      ∧ t.rdata.getLsbD 12 = s.intsts.rtoif ∧ t.rdata.getLsbD 13 = s.intsts.ditoif
      ∧ t.rdata.getLsbD 16 = (if s.inten.cdsrc0 then s.pins.gpio0 else s.pins.ded0)
      ∧ t.rdata.getLsbD 17 = (if s.inten.cdsrc1 then s.pins.gpio1 else s.pins.ded1))
    ∧ (∃ t, exec (.rd 0x820#12) s = .next t
      ∧ t.rdata.getLsbD 0 = s.ctl.coen ∧ (∀ b, s.ctl.rien = .known b → t.rdata.getLsbD 1 = b)
      ∧ (∀ b, s.ctl.dien = .known b → t.rdata.getLsbD 2 = b) ∧ (∀ b, s.ctl.doen = .known b → t.rdata.getLsbD 3 = b)
      ∧ (∀ b, s.ctl.r2en = .known b → t.rdata.getLsbD 4 = b) ∧ t.rdata.getLsbD 5 = s.ctl.clk74oen
      ∧ t.rdata.getLsbD 6 = s.ctl.clk8oen ∧ t.rdata.getLsbD 7 = s.ctl.clkkeep0
      ∧ t.rdata.extractLsb' 8 6 = s.ctl.cmdcode ∧ t.rdata.getLsbD 14 = s.ctl.ctlrst ∧ t.rdata.getLsbD 15 = s.ctl.dbw
      ∧ t.rdata.extractLsb' 16 8 = s.ctl.blkcnt ∧ t.rdata.extractLsb' 24 4 = s.ctl.sdnwr
      ∧ t.rdata.extractLsb' 29 2 = s.ctl.sdport ∧ t.rdata.getLsbD 31 = s.ctl.clkkeep1)
    ∧ (∃ t, exec (.rd 0x400#12) s = .next t
      ∧ t.rdata.getLsbD 0 = s.dmactl.dmaen ∧ t.rdata.getLsbD 1 = s.dmactl.dmarst ∧ t.rdata.getLsbD 3 = s.dmactl.sgen
      ∧ ∀ b, s.dmactl.dmabusy = .known b → t.rdata.getLsbD 9 = b)
    ∧ (∃ t, exec (.rd 0x40C#12) s = .next t ∧ ∀ n, s.bcnt = .known n → t.rdata.extractLsb' 0 26 = n)
    ∧ (∃ t, exec (.rd 0x830#12) s = .next t ∧ ∀ v, s.resp0 = .known v → t.rdata = v)
    ∧ (∃ t, exec (.rd 0x834#12) s = .next t ∧ ∀ v, s.resp1 = .known v → t.rdata.extractLsb' 0 8 = v)
    ∧ (∃ t, exec (.rd 0x414#12) s = .next t
      ∧ t.rdata.getLsbD 0 = s.dmaintsts.abortif ∧ t.rdata.getLsbD 1 = s.dmaintsts.weotif)
    ∧ (∃ t, exec (.rd 0x808#12) s = .next t ∧ t.rdata.getLsbD 0 = s.dtaif)
    ∧ (∃ t, exec (.rd 0x800#12) s = .next t
      ∧ t.rdata.getLsbD 0 = s.gctl.gctlrst ∧ t.rdata.getLsbD 1 = s.gctl.sden)
    ∧ (∃ t, exec (.rd 0x838#12) s = .next t ∧ t.rdata.extractLsb' 0 11 = s.blen)
    ∧ (∃ t, exec (.rd 0x83C#12) s = .next t ∧ t.rdata.extractLsb' 0 24 = s.tout)
    ∧ (∃ t, exec (.rd 0x840#12) s = .next t
      ∧ t.rdata.getLsbD 0 = s.ectl.poweroff0 ∧ t.rdata.getLsbD 1 = s.ectl.poweroff1)
    ∧ (∃ t, exec (.rd 0x824#12) s = .next t ∧ t.rdata = s.cmdarg)
    ∧ (∃ t, exec (.rd 0x408#12) s = .next t ∧ t.rdata = s.dmasa)
    ∧ (∃ t, exec (.rd 0x410#12) s = .next t
      ∧ t.rdata.getLsbD 0 = s.dmainten.abortien ∧ t.rdata.getLsbD 1 = s.dmainten.weotien)
    ∧ (∃ t, exec (.rd 0x804#12) s = .next t ∧ t.rdata.getLsbD 0 = s.dtaien)
    ∧ ∃ t, exec (.rd 0x828#12) s = .next t
      ∧ t.rdata.getLsbD 0 = s.inten.blkdien ∧ t.rdata.getLsbD 1 = s.inten.crcien
      ∧ t.rdata.getLsbD 8 = s.inten.cdien0 ∧ t.rdata.getLsbD 9 = s.inten.cdien1
      ∧ t.rdata.getLsbD 12 = s.inten.rtoien ∧ t.rdata.getLsbD 13 = s.inten.ditoien
      ∧ t.rdata.getLsbD 30 = s.inten.cdsrc0 ∧ t.rdata.getLsbD 31 = s.inten.cdsrc1

/-- R151, R29, R39, R40: a write of a register without launch bits or flags stores every RW field at once and nothing
else; the operand registers only while nothing is in flight, or with the value they hold; a read-only register ignores
the write. -/
def Obligations.WrStoresFields : Prop :=
  ∀ (s : State) (w : Word),
    (inFlight s = false ∨ s.cmdarg = w → exec (.wr 0x824#12 w) s = .next { s with cmdarg := w, draws := s.draws + 1 })
    ∧ (inFlight s = false ∨ s.dmasa = w → exec (.wr 0x408#12 w) s = .next { s with dmasa := w, draws := s.draws + 1 })
    ∧ (inFlight s = false ∨ s.blen = w.extractLsb' 0 11 →
        exec (.wr 0x838#12 w) s = .next { s with blen := w.extractLsb' 0 11, draws := s.draws + 1 })
    ∧ (inFlight s = false ∨ s.tout = w.extractLsb' 0 24 →
        exec (.wr 0x83C#12 w) s = .next { s with tout := w.extractLsb' 0 24, draws := s.draws + 1 })
    ∧ exec (.wr 0x410#12 w) s = .next { s with
        dmainten := { abortien := w.getLsbD 0, weotien := w.getLsbD 1 }, draws := s.draws + 1 }
    ∧ exec (.wr 0x804#12 w) s = .next { s with dtaien := w.getLsbD 0, draws := s.draws + 1 }
    ∧ exec (.wr 0x828#12 w) s = .next { s with
        inten := { blkdien := w.getLsbD 0, crcien := w.getLsbD 1, cdien0 := w.getLsbD 8, cdien1 := w.getLsbD 9
                   rtoien := w.getLsbD 12, ditoien := w.getLsbD 13, cdsrc0 := w.getLsbD 30, cdsrc1 := w.getLsbD 31 }
        draws := s.draws + 1 }
    ∧ exec (.wr 0x840#12 w) s = .next { s with
        ectl := { poweroff0 := w.getLsbD 0, poweroff1 := w.getLsbD 1 }, draws := s.draws + 1 }
    ∧ ∀ off, (off = 0x40C#12 ∨ off = 0x830#12 ∨ off = 0x834#12) →
        exec (.wr off w) s = .next { s with draws := s.draws + 1 }

/-- R26, R372: while nothing is in flight and the engine is not halted (then every word of the buffer reads `any`,
R331; entries 35 and 40) the host writes a word of the shared buffer and reads it back; while an operation is in flight
every access to the buffer is refused. -/
def Obligations.SharedBuffer : Prop :=
  (∀ (s : State) (i : Fin 128) (w : Word), Quiet s → s.eng.halted = false →
    ∃ t u, exec (.wr (BitVec.ofNat 12 (4 * i)) w) s = .next t
      ∧ t = { s with fb := s.fb.set i (.known w), draws := s.draws + 1 }
      ∧ exec (.rd (BitVec.ofNat 12 (4 * i))) t = .next u ∧ u.rdata = w)
  ∧ ∀ (s : State) (i : Fin 128) (w : Word), inFlight s = true →
    exec (.rd (BitVec.ofNat 12 (4 * i))) s = .refused .bufferInUse
    ∧ exec (.wr (BitVec.ofNat 12 (4 * i)) w) s = .refused .bufferInUse
    ∧ exec (.set (BitVec.ofNat 12 (4 * i)) w) s = .refused .bufferInUse
    ∧ exec (.clr (BitVec.ofNat 12 (4 * i)) w) s = .refused .bufferInUse

/-- R44, R45, R132: a read of a reserved offset returns a draw, a write of one is refused, and a written reserved bit is
ignored everywhere. -/
def Obligations.ReservedSpace : Prop :=
  ∀ (s : State) (off : Offset) (w : Word),
    (regAt off = some .reserved →
      exec (.rd off) s = .next { s with rdata := Config.anyWord s.draws off, draws := s.draws + 1 }
      ∧ exec (.wr off w) s = .refused .reservedOffset)
    ∧ ∀ r, regAt off = some r → exec (.wr off w) s = exec (.wr off (w &&& ~~~reservedMask r)) s

/-- R157, R129, R180: a launching write of `CTL` to a quiet engine stores every field and sets the launch bits; the
engine goes to the first operation if it was idle. A word without launch bits stores the fields only. -/
def Obligations.WrControlWord : Prop :=
  (∀ (s : State) (w : Word), Quiet s → s.eng.halted = false → w.getLsbD 14 = false → w &&& 0x7F#32 ≠ 0#32 →
    legalLaunch w = true → (portField w).toNat < 2 →
    ((w.getLsbD 2 = true ∨ w.getLsbD 3 = true) → DataLegal (w.extractLsb' 16 8).toNat s) →
    exec (.wr 0x820#12 w) s = .next { s with
      ctl := wordCtl w
      eng := { s.eng with phase := if s.eng.phase = .idle then nextPhase (wordCtl w) else s.eng.phase }
      draws := s.draws + 1 })
  ∧ ∀ (s : State) (w : Word), Quiet s → w &&& 0x407F#32 = 0#32 →
    exec (.wr 0x820#12 w) s = .next { s with ctl := wordCtl w, draws := s.draws + 1 }

/-- R250, R251, R252, R180: a write that launches a reset stores the fields of its word, sets the launch bit and
leaves every other launch bit; `CTLRST` and `GCTLRST` put the phase to `RESET`, `DMARST` leaves it; a 1 written to a
`GCTLRST` that is pending already leaves the phase too (R45; entry 32, DEDUCED). It is legal in
every state, but that in flight the word may not change an operand or clear an enable (R98, R151, R371; entry 14,
DEDUCED). A write of `DMACTL` or `GCTL` that launches nothing stores the mode bits while nothing is in flight, and in
flight too where it neither changes `SGEN` nor clears an enable (R27, R32, R371). -/
def Obligations.WrModeAndReset : Prop :=
  ∀ (s : State) (w : Word),
    (w.getLsbD 14 = true → (inFlight s = false ∨ SameOperands w s) → exec (.wr 0x820#12 w) s = .next { s with
      ctl := { s.ctl with
        clkkeep0 := w.getLsbD 7, cmdcode := w.extractLsb' 8 6, ctlrst := true, dbw := w.getLsbD 15
        blkcnt := w.extractLsb' 16 8, sdnwr := w.extractLsb' 24 4, sdport := w.extractLsb' 29 2
        clkkeep1 := w.getLsbD 31 }
      eng := { s.eng with phase := .reset }, draws := s.draws + 1 })
    ∧ (w.getLsbD 1 = true →
      (inFlight s = false ∨ (s.dmactl.sgen = w.getLsbD 3 ∧ (s.dmactl.dmaen = true → w.getLsbD 0 = true))) →
      exec (.wr 0x400#12 w) s = .next { s with
      dmactl := { s.dmactl with dmaen := w.getLsbD 0, dmarst := true, sgen := w.getLsbD 3 }
      draws := s.draws + 1 })
    ∧ (w.getLsbD 0 = true → (inFlight s = false ∨ (s.gctl.sden = true → w.getLsbD 1 = true)) →
      exec (.wr 0x800#12 w) s = .next { s with
      gctl := { gctlrst := true, sden := w.getLsbD 1 }
      eng := { s.eng with phase := if s.gctl.gctlrst then s.eng.phase else .reset }, draws := s.draws + 1 })
    ∧ (s.dmactl.dmarst = false → w.getLsbD 1 = false →
      (inFlight s = false ∨ (s.dmactl.sgen = w.getLsbD 3 ∧ (s.dmactl.dmaen = true → w.getLsbD 0 = true))) →
      exec (.wr 0x400#12 w) s = .next { s with
        dmactl := { s.dmactl with dmaen := w.getLsbD 0, sgen := w.getLsbD 3 }, draws := s.draws + 1 })
    ∧ (s.gctl.gctlrst = false → w.getLsbD 0 = false →
      (inFlight s = false ∨ (s.gctl.sden = true → w.getLsbD 1 = true)) →
      exec (.wr 0x800#12 w) s = .next { s with
        gctl := { s.gctl with sden := w.getLsbD 1 }, draws := s.draws + 1 })

/-- R152: `SET` on registers of every kind: operand registers, enables, the buffer, the mode bits, the registers of
flags, where it clears the flags of the mask and no other, and launch bits of `CTL` from a quiet engine (R157). A word
of the buffer is spoken of where the engine is not halted (R331; entries 35 and 40). -/
def Obligations.SetCompletes : Prop :=
  ∀ (s : State) (m : Word),
    (inFlight s = false ∨ s.cmdarg = s.cmdarg ||| m →
      exec (.set 0x824#12 m) s = .next { s with cmdarg := s.cmdarg ||| m, draws := s.draws + 1 })
    ∧ (inFlight s = false ∨ s.dmasa = s.dmasa ||| m →
      exec (.set 0x408#12 m) s = .next { s with dmasa := s.dmasa ||| m, draws := s.draws + 1 })
    ∧ exec (.set 0x828#12 m) s = .next { s with
        inten := { blkdien := s.inten.blkdien || m.getLsbD 0, crcien := s.inten.crcien || m.getLsbD 1
                   cdien0 := s.inten.cdien0 || m.getLsbD 8, cdien1 := s.inten.cdien1 || m.getLsbD 9
                   rtoien := s.inten.rtoien || m.getLsbD 12, ditoien := s.inten.ditoien || m.getLsbD 13
                   cdsrc0 := s.inten.cdsrc0 || m.getLsbD 30, cdsrc1 := s.inten.cdsrc1 || m.getLsbD 31 }
        draws := s.draws + 1 }
    ∧ (s.dmactl.dmarst = false → (inFlight s = false ∨ m.getLsbD 3 = false) →
      exec (.set 0x400#12 m) s = .next { s with
        dmactl := { s.dmactl with dmaen := s.dmactl.dmaen || m.getLsbD 0, dmarst := m.getLsbD 1
                                  sgen := s.dmactl.sgen || m.getLsbD 3 }
        draws := s.draws + 1 })
    ∧ (∀ i : Fin 128, ∀ v, inFlight s = false → s.eng.halted = false → s.fb[i] = .known v →
      exec (.set (BitVec.ofNat 12 (4 * i)) m) s = .next { s with
        fb := s.fb.set i (.known (v ||| m)), draws := s.draws + 1 })
    ∧ exec (.set 0x82C#12 m) s = .next { tookDat0 s with intsts := s.intsts.clear m }
    ∧ (Quiet s → s.eng.halted = false → s.ctl.sdport.toNat < 2 →
    exec (.set 0x820#12 0x20#32) s = .next { s with
      ctl := { s.ctl with clk74oen := true }
      eng := { s.eng with phase := if s.eng.phase = .idle then .clk74 else s.eng.phase }
      draws := s.draws + 1 }
    ∧ exec (.set 0x820#12 0x40#32) s = .next { s with
      ctl := { s.ctl with clk8oen := true }
      eng := { s.eng with phase := if s.eng.phase = .idle then .clk8 else s.eng.phase }
      draws := s.draws + 1 })

/-- R153: `CLR` on registers of every kind; it cannot clear a flag. -/
def Obligations.ClrCompletes : Prop :=
  ∀ (s : State) (m : Word),
    (inFlight s = false ∨ s.cmdarg = s.cmdarg &&& ~~~m →
      exec (.clr 0x824#12 m) s = .next { s with cmdarg := s.cmdarg &&& ~~~m, draws := s.draws + 1 })
    ∧ exec (.clr 0x828#12 m) s = .next { s with
        inten := { blkdien := s.inten.blkdien && !m.getLsbD 0, crcien := s.inten.crcien && !m.getLsbD 1
                   cdien0 := s.inten.cdien0 && !m.getLsbD 8, cdien1 := s.inten.cdien1 && !m.getLsbD 9
                   rtoien := s.inten.rtoien && !m.getLsbD 12, ditoien := s.inten.ditoien && !m.getLsbD 13
                   cdsrc0 := s.inten.cdsrc0 && !m.getLsbD 30, cdsrc1 := s.inten.cdsrc1 && !m.getLsbD 31 }
        draws := s.draws + 1 }
    ∧ exec (.clr 0x410#12 m) s = .next { s with
        dmainten := { abortien := s.dmainten.abortien && !m.getLsbD 0, weotien := s.dmainten.weotien && !m.getLsbD 1 }
        draws := s.draws + 1 }
    ∧ exec (.clr 0x804#12 m) s = .next { s with dtaien := s.dtaien && !m.getLsbD 0, draws := s.draws + 1 }
    ∧ (inFlight s = false → s.dmactl.dmarst = false →
      exec (.clr 0x400#12 m) s = .next { s with
        dmactl := { s.dmactl with dmaen := s.dmactl.dmaen && !m.getLsbD 0, sgen := s.dmactl.sgen && !m.getLsbD 3 }
        draws := s.draws + 1 })
    ∧ exec (.clr 0x82C#12 m) s = .next (tookDat0 s)
    ∧ exec (.clr 0x414#12 m) s = .next { s with draws := s.draws + 1 }
    ∧ exec (.clr 0x808#12 m) s = .next { s with draws := s.draws + 1 }

/-- R156, R114: clearing flags is never refused; a written 1 clears the flag at its position, and nothing else
changes. -/
def Obligations.W1cClears : Prop :=
  ∀ (s : State) (m : Word),
    exec (.w1c .intsts m) s = .next { s with
      intsts := { s.intsts with
        blkdif := if m.getLsbD 0 then .known false else s.intsts.blkdif
        crcif := s.intsts.crcif && !m.getLsbD 1
        cdif0 := s.intsts.cdif0 && !m.getLsbD 8
        cdif1 := s.intsts.cdif1 && !m.getLsbD 9
        rtoif := s.intsts.rtoif && !m.getLsbD 12
        ditoif := s.intsts.ditoif && !m.getLsbD 13 }
      draws := s.draws + 1 }
    ∧ exec (.w1c .dmaintsts m) s = .next { s with
      dmaintsts := { abortif := s.dmaintsts.abortif && !m.getLsbD 0, weotif := s.dmaintsts.weotif && !m.getLsbD 1 }
      draws := s.draws + 1 }
    ∧ exec (.w1c .gintsts m) s = .next { s with dtaif := s.dtaif && !m.getLsbD 0, draws := s.draws + 1 }

/-! ### The host contract -/

/-- R82: a host access of 8 or 16 bits is refused, and one at an offset that is no multiple of 4 or beyond 0x840 (the
window's last register, R111). -/
def Obligations.RefuseBadAccess : Prop :=
  (∀ s k sz off d rest, nextTurn s = .host → s.prog = .bus k sz off d :: rest → sz ≠ .word →
    step s = .refused .narrowAccess)
  ∧ ∀ (s : State) (off : Offset) (w : Word), (off.toNat % 4 ≠ 0 ∨ 0x840 < off.toNat) →
    exec (.rd off) s = .refused .badOffset ∧ exec (.wr off w) s = .refused .badOffset
    ∧ exec (.set off w) s = .refused .badOffset ∧ exec (.clr off w) s = .refused .badOffset

/-- R370: a write that has 0 in a launch bit which reads 1 is refused, except a word of `CTL` with `CTLRST`, which
completes unless it changes an operand in flight (R371; entry 14, DEDUCED); so is the write of a `CLR` of a launch bit
that is 1. -/
def Obligations.RefuseClearingLaunchBit : Prop :=
  ∀ (s : State) (w : Word),
    (w.getLsbD 14 = false → ctlNow s &&& ~~~w &&& 0x407F#32 ≠ 0#32 →
      exec (.wr 0x820#12 w) s = .refused .launchBitCleared)
    ∧ (s.dmactl.dmarst = true → w.getLsbD 1 = false → exec (.wr 0x400#12 w) s = .refused .launchBitCleared)
    ∧ (s.gctl.gctlrst = true → w.getLsbD 0 = false → exec (.wr 0x800#12 w) s = .refused .launchBitCleared)
    ∧ (w.getLsbD 14 = true → (inFlight s = false ∨ SameOperands w s) → ∃ t, exec (.wr 0x820#12 w) s = .next t)
    ∧ ((s.ctl.ctlrst = false ∨ w.getLsbD 14 = true) → ctlNow s &&& w &&& 0x407F#32 ≠ 0#32 →
      exec (.clr 0x820#12 w) s = .refused .launchBitCleared)
    ∧ (s.dmactl.dmarst = true → w.getLsbD 1 = true → exec (.clr 0x400#12 w) s = .refused .launchBitCleared)
    ∧ (s.gctl.gctlrst = true → w.getLsbD 0 = true → exec (.clr 0x800#12 w) s = .refused .launchBitCleared)

/-- R371, R177, R98: while an operation is in flight a write is refused that requests a further one, changes an
operand, or clears an enable, also where the word launches a reset (entry 14, DEDUCED); so is a `CLR` of `DMAEN`
(R153). Allowed are a read of any register but `FB`, clearing flags, writes of the enables and of `ECTL`, and a write
of `CTL` that changes no more than `SDNWR` and the clock bits, where the launch bits it finds are a legal set (R129: an
event that halted the engine may leave them `any`). -/
def Obligations.OneTransactionInFlight : Prop :=
  (∀ (s : State) (w : Word), inFlight s = true →
    ((w.getLsbD 14 = false ∧ requested w s ≠ 0#32 ∨ ¬SameOperands w s) → ∃ r, exec (.wr 0x820#12 w) s = .refused r)
    ∧ (s.cmdarg ≠ w → exec (.wr 0x824#12 w) s = .refused .operandInFlight)
    ∧ (s.dmasa ≠ w → exec (.wr 0x408#12 w) s = .refused .operandInFlight)
    ∧ (s.blen ≠ w.extractLsb' 0 11 → exec (.wr 0x838#12 w) s = .refused .operandInFlight)
    ∧ (s.tout ≠ w.extractLsb' 0 24 → exec (.wr 0x83C#12 w) s = .refused .operandInFlight)
    ∧ ((s.dmactl.sgen ≠ w.getLsbD 3 ∨ (s.dmactl.dmaen = true ∧ w.getLsbD 0 = false)) →
      ∃ r, exec (.wr 0x400#12 w) s = .refused r)
    ∧ (s.dmactl.dmaen = true → w.getLsbD 0 = true → ∃ r, exec (.clr 0x400#12 w) s = .refused r)
    ∧ (s.gctl.sden = true → w.getLsbD 1 = false → ∃ r, exec (.wr 0x800#12 w) s = .refused r))
  ∧ ∀ (s : State) (w : Word),
    (∀ off r, regAt off = some r → (∀ i, r ≠ .fb i) → ∃ t, exec (.rd off) s = .next t)
    ∧ (∀ r, ∃ t, exec (.w1c r w) s = .next t)
    ∧ (∀ off, (off = 0x410#12 ∨ off = 0x804#12 ∨ off = 0x828#12 ∨ off = 0x840#12) →
        ∃ t, exec (.wr off w) s = .next t)
    ∧ (w.getLsbD 14 = s.ctl.ctlrst → legalLaunch (ctlNow s) = true → w &&& 0x60FFBF7F#32 = ctlNow s &&& 0x60FFBF7F#32 →
        exec (.wr 0x820#12 w) s = .next { s with
          ctl := { s.ctl with clkkeep0 := w.getLsbD 7, sdnwr := w.extractLsb' 24 4, clkkeep1 := w.getLsbD 31 }
          eng := { s.eng with phase := if s.ctl.ctlrst then .reset else s.eng.phase }
          draws := s.draws + 1 })

/-- R129, R131, R132: a write of `CTL` is refused whose launch bits, those requested and those already 1, are an illegal
set, whether it requests one or not. R275, R373, R374, R375: so is a request from `CTL` whose port is reserved, that
comes while an engine is halted, or whose data operands are not legal; the same for the commands. -/
def Obligations.RefuseIllegalLaunch : Prop :=
  (∀ (s : State) (w : Word), w.getLsbD 14 = false → legalLaunch ((ctlNow s &&& 0x7F#32) ||| requested w s) = false →
    ∃ r, exec (.wr 0x820#12 w) s = .refused r)
  ∧ (∀ (s : State) (w : Word), w.getLsbD 14 = false → requested w s ≠ 0#32 →
    (2 ≤ (portField w).toNat ∨ s.eng.halted = true
      ∨ ((w.getLsbD 2 = true ∨ w.getLsbD 3 = true) ∧ ¬DataLegal (w.extractLsb' 16 8).toNat s)) →
    ∃ r, exec (.wr 0x820#12 w) s = .refused r)
  ∧ ∀ (s : State) (arg : Word), Quiet s →
    ((s.eng.halted = true ∨ 2 ≤ s.ctl.sdport.toNat) →
      ∀ i, (i = .cmd0 arg ∨ i = .cmd1 arg ∨ i = .cmd2 arg ∨ i = .cmd3 arg ∨ i = .cmd7 arg ∨ i = .cmd8 arg
        ∨ i = .cmd9 arg ∨ i = .cmd12 arg ∨ i = .cmd13 arg ∨ i = .cmd17 arg ∨ i = .cmd18 arg ∨ i = .cmd24 arg
        ∨ i = .cmd25 arg ∨ i = .acmd41 arg ∨ i = .cmd55 arg) → ∃ r, exec i s = .refused r)
    ∧ (¬DataLegal 1 s → (∃ r, exec (.cmd17 arg) s = .refused r) ∧ ∃ r, exec (.cmd24 arg) s = .refused r)
    ∧ (¬DataLegal s.ctl.blkcnt.toNat s →
        (∃ r, exec (.cmd18 arg) s = .refused r) ∧ ∃ r, exec (.cmd25 arg) s = .refused r)

/-! ### Engine operations without data -/

/-- R170, R171, R172, R173: the clock bursts and the command output. -/
def Obligations.ClocksAndCommandOutput : Prop :=
  (∀ s : State, EngineReady s →
    (s.ctl.clk74oen = true → exec .clk74o s = .next { s with
      ctl := { s.ctl with clk74oen := false }
      eng := { s.eng with phase := nextPhase { s.ctl with clk74oen := false } }
      history := s.history ++ [.clk (selPort s) 74] })
    ∧ (s.ctl.clk8oen = true → exec .clk8o s = .next { s with
      ctl := { s.ctl with clk8oen := false }
      eng := { s.eng with phase := nextPhase { s.ctl with clk8oen := false } }
      history := s.history ++ [.clk (selPort s) 8] }))
  ∧ ∀ s : State, EngineReady s → s.ctl.coen = true → s.ctl.clk74oen = false →
    exec .co s = .next { s with
      ctl := { s.ctl with coen := false }
      eng := { s.eng with phase := nextPhase { s.ctl with coen := false } }
      history := s.history ++ [.cmdOut (selPort s) (frameOf s.ctl.cmdcode s.cmdarg)] }

/-- R176, R232: where the conditions do not hold an operation is held, and performing it leaves the state as it is (that
a held operation answers the state unchanged is entry 27, DEDUCED); a reset needs only its launch bit. Of `EngineReady`
the condition that the engine is not stuck is rule R196's, held by a mark of the model's own (entry 7, DEDUCED). -/
def Obligations.HeldOperations : Prop :=
  ∀ s : State,
    (¬EngineReady s → ∀ i, IsCtlOp i → exec i s = .next s)
    ∧ (¬DataReady s → exec .di s = .next s ∧ exec .dout s = .next s)
    ∧ (s.ctl.ctlrst = true → ∃ t, exec .ctlrst s = .next t ∧ t.ctl.ctlrst = false)
    ∧ (s.dmactl.dmarst = true → ∃ t, exec .dmarst s = .next t ∧ t.dmactl.dmarst = false)
    ∧ (s.gctl.gctlrst = true → ∃ t, exec .gctlrst s = .next t ∧ t.gctl.gctlrst = false)

/-- R190, R191: a short response that arrives. On a mismatch with no data phase pending the flags tell and the engine
goes on; `tookResp48` only takes the answer off the card's script. -/
def Obligations.ShortResponse : Prop :=
  ∀ (s : State) (f : BitVec 48), EngineReady s → s.ctl.rien = .known true → s.ctl.coen = false →
    s.ctl.clk74oen = false → askResp48 s = some f →
    (crc7 (bitsMsb (f.extractLsb' 8 40)) = f.extractLsb' 1 7 ∨ dataPending s = false) →
    exec .ri s = .next { tookResp48 s with
      resp0 := .known (f.extractLsb' 16 32)
      resp1 := .known (f.extractLsb' 8 8)
      intsts := { s.intsts with
        crc7 := .known (decide (crc7 (bitsMsb (f.extractLsb' 8 40)) = f.extractLsb' 1 7))
        crcif := s.intsts.crcif || decide (crc7 (bitsMsb (f.extractLsb' 8 40)) ≠ f.extractLsb' 1 7) }
      ctl := { s.ctl with rien := .known false }
      eng := { s.eng with phase := nextPhase { s.ctl with rien := .known false } }
      history := s.history ++ [.respIn (selPort s) f] }

/-- R193, R194: a long response that arrives. -/
def Obligations.LongResponse : Prop :=
  ∀ (s : State) (f : BitVec 136), EngineReady s → s.ctl.r2en = .known true → s.ctl.coen = false →
    s.ctl.clk74oen = false → askResp136 s = some f →
    (crc7 (bitsMsb (f.extractLsb' 8 120)) = f.extractLsb' 1 7 ∨ dataPending s = false) →
    ∃ t, exec .r2i s = .next t
      ∧ t = { tookResp136 s with
        fb := t.fb, resp0 := .any, resp1 := .any
        intsts := { s.intsts with
          crc7 := .known (decide (crc7 (bitsMsb (f.extractLsb' 8 120)) = f.extractLsb' 1 7))
          crcif := s.intsts.crcif || decide (crc7 (bitsMsb (f.extractLsb' 8 120)) ≠ f.extractLsb' 1 7) }
        ctl := { s.ctl with r2en := .known false }
        eng := { s.eng with phase := nextPhase { s.ctl with r2en := .known false } }
        history := s.history ++ [.resp2In (selPort s) f] }
      ∧ (∀ k : Nat, ∀ h : k < 4, ∃ w, t.fb[k] = .known w ∧ ∀ j, j < 4 →
          w.extractLsb' (8 * j) 8 = f.extractLsb' (128 - 8 * (4 * k + j)) 8)
      ∧ (∀ k : Nat, ∀ h : k < 128, 4 ≤ k → t.fb[k] = .any)

/-- R197, R331: a CRC-7 mismatch of a short response with a data phase pending halts both engines; `DIEN` and `DOEN`,
`BLKDIF`, `DMABUSY`, `BCNT` and the buffer hold `any`. For a long response the same (R330; the model's choice, DEDUCED,
assumption log entry 12); that the frame it stored in the buffer is `any` too, although E2 records it, is the model's
choice as well (entry 12, DESIGN CHOICE). -/
def Obligations.MismatchWithDataHalts : Prop :=
  (∀ (s : State) (f : BitVec 48), EngineReady s → s.ctl.rien = .known true → s.ctl.coen = false →
    s.ctl.clk74oen = false → askResp48 s = some f →
    crc7 (bitsMsb (f.extractLsb' 8 40)) ≠ f.extractLsb' 1 7 → dataPending s = true →
    exec .ri s = .next { tookResp48 s with
      resp0 := .known (f.extractLsb' 16 32)
      resp1 := .known (f.extractLsb' 8 8)
      intsts := { s.intsts with crc7 := .known false, crcif := true, blkdif := .any }
      ctl := { s.ctl with rien := .known false, dien := .any, doen := .any
                          r2en := if s.ctl.r2en = .known true then .any else s.ctl.r2en }
      eng := { s.eng with halted := true }
      dma := { s.dma with halted := true }
      dmactl := { s.dmactl with dmabusy := .any }
      bcnt := .any
      fb := Vector.replicate 128 .any
      mem := if s.ctl.dien.isOn then blurDest s else s.mem
      history := s.history ++ [.respIn (selPort s) f] })
  ∧ ∀ (s : State) (f : BitVec 136), EngineReady s → s.ctl.r2en = .known true → s.ctl.coen = false →
    s.ctl.clk74oen = false → askResp136 s = some f →
    crc7 (bitsMsb (f.extractLsb' 8 120)) ≠ f.extractLsb' 1 7 → dataPending s = true →
    exec .r2i s = .next (haltData { tookResp136 s with
      resp0 := .any, resp1 := .any
      intsts := { s.intsts with crc7 := .known false, crcif := true }
      ctl := { s.ctl with r2en := .known false }
      history := s.history ++ [.resp2In (selPort s) f] })

/-- R195: no response and a timeout set, for both lengths: `RTOIF`, the engine halted, all four launch bits `any`, the
response and its verdict unchanged; with a data phase pending the whole of rule R331 (entry 13, DEDUCED). Without one
`DMABUSY` and `BCNT` hold `any` (R59, R160, R331): R195 does not name them, and that is the model's choice (entry 35,
DESIGN CHOICE). -/
def Obligations.ResponseTimeout : Prop :=
  ∀ s : State, EngineReady s → s.ctl.coen = false → s.ctl.clk74oen = false → s.tout ≠ 0#24 →
    let off : Ctl := { s.ctl with rien := .any, r2en := .any, dien := .any, doen := .any }
    (s.ctl.rien = .known true → askResp48 s = none →
      exec .ri s = .next (if dataPending s then
          { haltData { tookResp48 s with intsts := { s.intsts with rtoif := true }
                                         history := s.history ++ [.respNone (selPort s)] } with ctl := off }
        else { tookResp48 s with
          intsts := { s.intsts with rtoif := true }
          ctl := off
          eng := { s.eng with halted := true }
          dmactl := { s.dmactl with dmabusy := .any }
          bcnt := .any
          history := s.history ++ [.respNone (selPort s)] }))
    ∧ (s.ctl.r2en = .known true → askResp136 s = none →
      exec .r2i s = .next (if dataPending s then
          { haltData { tookResp136 s with intsts := { s.intsts with rtoif := true }
                                          history := s.history ++ [.respNone (selPort s)] } with ctl := off }
        else { tookResp136 s with
          intsts := { s.intsts with rtoif := true }
          ctl := off
          eng := { s.eng with halted := true }
          dmactl := { s.dmactl with dmabusy := .any }
          bcnt := .any
          history := s.history ++ [.respNone (selPort s)] }))

/-- R196, R254: nothing comes and no timeout is set: no flag, no launch bit and no register changes; the engine is
stuck, and every operation launched from `CTL` then does nothing. -/
def Obligations.StuckWithoutTimeout : Prop :=
  ∀ s : State, EngineReady s → s.tout = 0#24 →
    (s.ctl.rien = .known true → s.ctl.coen = false → s.ctl.clk74oen = false → askResp48 s = none →
      exec .ri s = .next { tookResp48 s with eng := { s.eng with stuck := true } })
    ∧ (s.ctl.r2en = .known true → s.ctl.coen = false → s.ctl.clk74oen = false → askResp136 s = none →
      exec .r2i s = .next { tookResp136 s with eng := { s.eng with stuck := true } })
    ∧ (InBlock .dataIn s → askBlock s = none →
      exec .di s = .next { tookBlock s with eng := { s.eng with stuck := true } })
    ∧ ∀ t, t.eng.stuck = true → ∀ i, IsCtlOp i → exec i t = .next t

/-- R331, R249: what a halt of both engines does, and all it does. In contiguous mode the bytes of `[DMASA, DMASA +
N)` lose their values; in scatter-gather mode those of every segment: the ones noted for an operation that has
started, the ones the table names for one that has not, and all of memory where an entry of the table is unknown
(entry 25, DESIGN CHOICE). -/
def Obligations.HaltDataEffect : Prop :=
  ∀ s : State,
    haltData s = { s with
      eng := { s.eng with halted := true }
      dma := { s.dma with halted := true }
      ctl := { s.ctl with
        rien := if s.ctl.rien = .known true then .any else s.ctl.rien
        dien := .any, doen := .any
        r2en := if s.ctl.r2en = .known true then .any else s.ctl.r2en }
      intsts := { s.intsts with blkdif := .any }
      dmactl := { s.dmactl with dmabusy := .any }
      bcnt := .any
      fb := Vector.replicate 128 .any
      mem := (haltData s).mem }
    ∧ (s.ctl.dien ≠ .known true → (haltData s).mem = s.mem)
    ∧ (s.ctl.dien = .known true → s.dmactl.sgen = false → ∀ a,
        memGet (haltData s).mem a =
          if s.dmasa.toNat ≤ a ∧ a < s.dmasa.toNat + s.ctl.blkcnt.toNat * (s.blen.toNat + 1) then none
          else memGet s.mem a)
    ∧ (s.ctl.dien = .known true → s.dmactl.sgen = true → s.dmactl.dmabusy = .known true →
        (∀ rs, s.dma.dest = some rs → ∀ a, memGet (haltData s).mem a =
          if ∃ r ∈ rs, r.1 ≤ a ∧ a < r.1 + r.2 then none else memGet s.mem a)
        ∧ (s.dma.dest = none → ∀ a, memGet (haltData s).mem a = none))
    ∧ (s.ctl.dien = .known true → s.dmactl.sgen = true → s.dmactl.dmabusy ≠ .known true →
        (∀ es, TableAt s.dmasa.toNat es s.mem → ∀ a, memGet (haltData s).mem a =
          if ∃ e ∈ es, e.1.toNat ≤ a ∧ a < e.1.toNat + entryCount e.2 then none else memGet s.mem a)
        ∧ (TableUnknown s.dmasa.toNat s.mem → ∀ a, memGet (haltData s).mem a = none))
    ∧ (s.ctl.dien = .known true → ∀ a b, memGet (haltData s).mem a = some b → memGet s.mem a = some b)

/-! ### Data operations -/

/-- R233, R222 (b): the start of the data phase of a sequencer that is not busy; the byte count fits its 26 bits. (A
`DMABUSY` that is `any` since a response timeout without a data phase counts as not busy: entry 35, DESIGN CHOICE.) In
scatter-gather mode the segments
of the table are noted for a later halt (entry 25, DESIGN CHOICE): those of its entries, none where an entry is
unknown. -/
def Obligations.DataStart : Prop :=
  (∀ s : State, DataReady s → NotBusy s → ∀ i,
    ((i = .di ∧ s.eng.phase = .dataIn) ∨ (i = .dout ∧ s.eng.phase = .dataOut)) →
    ∃ t, exec i s = .next t
      ∧ t = { s with
        eng := { s.eng with blocksLeft := s.ctl.blkcnt.toNat, dsub := .send }
        bcnt := .known (BitVec.ofNat 26 (s.ctl.blkcnt.toNat * (s.blen.toNat + 1)))
        dmactl := { s.dmactl with dmabusy := .known true }
        dma := if s.dmactl.sgen then
            { s.dma with padPtr := .known s.dmasa.toNat, segLeft := 0, eotSeen := false, dest := t.dma.dest }
          else { s.dma with cur := .known s.dmasa } }
      ∧ (s.dmactl.sgen = true →
        (∀ es, TableAt s.dmasa.toNat es s.mem →
          t.dma.dest = some (es.map fun e => (e.1.toNat, entryCount e.2)))
        ∧ (TableUnknown s.dmasa.toNat s.mem → t.dma.dest = none)))
  ∧ ∀ s : State, (BitVec.ofNat 26 (s.ctl.blkcnt.toNat * (s.blen.toNat + 1))).toNat = s.ctl.blkcnt.toNat * (s.blen.toNat + 1)

/-- R236, R245, R248, R86, R90: a block with correct CRCs is stored, in wire order, and every byte outside it is
unchanged; the counts go down; the last block leads to `DATA_END`; the history has the block and every access. In
contiguous mode it lies at the current address; in scatter-gather mode at the addresses that the current segment and
the following entries of the table give, and a byte that a later word of the block does not overwrite is the block's.
A byte where the buffers of the two instances overlap is `any` instead (R344; the form by entry 41). -/
def Obligations.BlockInStored : Prop :=
  (∀ (s : State) (a : Word) (b : Block), InBlock .dataIn s → BlockRange a s → askBlock s = some b →
    b.crcs = lineCrcs s.ctl.dbw b.bytes →
    ∃ t, exec .di s = .next t
      ∧ t = { tookBlock s with
        mem := t.mem
        history := s.history ++ [.blockIn (selPort s) (blockIndex s) b.bytes]
          ++ writeEvents (contigWords a (blockLen s / 4)) (leWords b.bytes)
        intsts := { s.intsts with crc16 := .known true }
        eng := { s.eng with blocksLeft := s.eng.blocksLeft - 1
                            phase := if s.eng.blocksLeft = 1 then .dataEnd else .dataIn }
        bcnt := .known (bcntNow (tookBlock s) - BitVec.ofNat 26 (blockLen s))
        dma := { s.dma with cur := .known (a + BitVec.ofNat 32 (blockLen s)) } }
      ∧ (∀ j, j < blockLen s →
        memGet t.mem (a.toNat + j) = if overlapped s.overlap (a.toNat + j) then none else b.bytes[j]?)
      ∧ ∀ x, (x < a.toNat ∨ a.toNat + blockLen s ≤ x) → memGet t.mem x = memGet s.mem x)
  ∧ ∀ (s : State) (p : Nat) (es : List (Word × Word)) (rs : List Access) (d : Dma) (b : Block),
    InBlock .dataIn s → TableReady p es s → blockLen s % 4 = 0 →
    scatterWords (blockLen s / 4) s.dma es = some (rs, d) →
    (∀ r ∈ rs, r.2 ∉ s.busErr ∧ r.2.toNat + 4 ≤ 2 ^ 32
      ∧ (r.2.toNat + 4 ≤ p ∨ p + 8 * es.length ≤ r.2.toNat)) →
    askBlock s = some b → b.crcs = lineCrcs s.ctl.dbw b.bytes →
    ∃ t, exec .di s = .next t
      ∧ t = { tookBlock s with
        mem := t.mem
        history := s.history ++ [.blockIn (selPort s) (blockIndex s) b.bytes] ++ writeEvents rs (leWords b.bytes)
        intsts := { s.intsts with crc16 := .known true }
        eng := { s.eng with blocksLeft := s.eng.blocksLeft - 1
                            phase := if s.eng.blocksLeft = 1 then .dataEnd else .dataIn }
        bcnt := t.bcnt
        dma := d
        draws := s.draws + 1 + fetchReads rs }
      ∧ (∀ n, s.bcnt = .known n → t.bcnt = .known (n - BitVec.ofNat 26 (blockLen s)))
      ∧ (∀ (k : Nat) (r : Access), rs[k]? = some r →
        (∀ (i : Nat) (x : Access), k < i → rs[i]? = some x → x.2.toNat + 4 ≤ r.2.toNat ∨ r.2.toNat + 4 ≤ x.2.toNat) →
        ∀ j, j < 4 → memGet t.mem (r.2.toNat + j)
          = if overlapped s.overlap (r.2.toNat + j) then none else b.bytes[4 * k + j]?)
      ∧ ∀ x, (∀ r ∈ rs, x < r.2.toNat ∨ r.2.toNat + 4 ≤ x) → memGet t.mem x = memGet s.mem x

/-- R236, R323, R324: a block with a CRC-16 mismatch on some line: the verdict, the flag, the block in the history, and
the halt, nothing stored; no block and a timeout set: the flag and the halt. -/
def Obligations.BlockInFails : Prop :=
  (∀ (s : State) (b : Block), InBlock .dataIn s → askBlock s = some b → b.crcs ≠ lineCrcs s.ctl.dbw b.bytes →
    exec .di s = .next (haltData { tookBlock s with
      intsts := { s.intsts with crc16 := .known false, crcif := true }
      history := s.history ++ [.blockIn (selPort s) (blockIndex s) b.bytes] }))
  ∧ ∀ s : State, InBlock .dataIn s → askBlock s = none → s.tout ≠ 0#24 →
    exec .di s = .next (haltData { tookBlock s with
      intsts := { s.intsts with ditoif := true }
      history := s.history ++ [.blockNone (selPort s) (blockIndex s)] })

/-- R238, R244: the completion of a data operation; with a `DO` the values that another master replaced in its buffer
are forgotten (R95, entry 36). -/
def Obligations.DataDone : Prop :=
  ∀ s : State, DataReady s → s.eng.phase = .dataEnd →
    (s.ctl.dien = .known true → exec .di s = .next { s with
      intsts := { s.intsts with blkdif := .known true }
      ctl := { s.ctl with dien := .known false }
      dmactl := { s.dmactl with dmabusy := .known false }
      fb := Vector.replicate 128 .any
      eng := { s.eng with phase := nextPhase { s.ctl with dien := .known false } } })
    ∧ (s.ctl.doen = .known true → exec .dout s = .next { s with
      lent := []
      intsts := { s.intsts with blkdif := .known true }
      ctl := { s.ctl with doen := .known false }
      dmactl := { s.dmactl with dmabusy := .known false }
      fb := Vector.replicate 128 .any
      eng := { s.eng with dsub := .send, phase := nextPhase { s.ctl with doen := .known false } } })

/-- R241, R245, R248, R86, R95: the block that is sent is what memory holds, with the CRC of each line; of a byte that
another master changed during the `DO` it is any of the old and new values (entry 36). Memory is unchanged, and the
history has every access and then the block. In contiguous mode its words lie from the current address on; in
scatter-gather mode where the current segment and the following entries of the table put them. A store by another
master during a `DO` notes the value it replaces; what it stores where the buffers of the two instances overlap is
`any` (R344, entry 41). -/
def Obligations.BlockOutSent : Prop :=
  (∀ (s : State) (a : Word), InBlock .dataOut s → s.eng.dsub = .send → BlockRange a s →
    ∃ d, d.length = blockLen s
      ∧ exec .dout s = .next { s with
        eng := { s.eng with dsub := .waitStatus }
        dma := { s.dma with cur := .known (a + BitVec.ofNat 32 (blockLen s)) }
        history := s.history ++ readEvents (contigWords a (blockLen s / 4)) (leWords d)
          ++ [.blockOut (selPort s) (blockIndex s) d (lineCrcs s.ctl.dbw d)]
        draws := s.draws + blockLen s / 4 }
      ∧ ∀ k j, 4 * k + j < blockLen s → j < 4 → SentFrom s d (a.toNat + 4 * k) k j)
  ∧ (∀ (s : State) (p : Nat) (es : List (Word × Word)) (rs : List Access) (e : Dma),
    InBlock .dataOut s → s.eng.dsub = .send → TableReady p es s → blockLen s % 4 = 0 →
    scatterWords (blockLen s / 4) s.dma es = some (rs, e) →
    (∀ r ∈ rs, r.2 ∉ s.busErr ∧ r.2.toNat + 4 ≤ 2 ^ 32) →
    ∃ d, d.length = blockLen s
      ∧ exec .dout s = .next { s with
        eng := { s.eng with dsub := .waitStatus }
        dma := e
        history := s.history ++ readEvents rs (leWords d)
          ++ [.blockOut (selPort s) (blockIndex s) d (lineCrcs s.ctl.dbw d)]
        draws := s.draws + fetchReads rs + blockLen s / 4 }
      ∧ ∀ (k : Nat) (r : Access) (j : Nat), rs[k]? = some r → j < 4 → SentFrom s d r.2.toNat k j)
  ∧ ∀ (s : State) (a : Word) (v : Byte) (rest : List Input), nextTurn s = .env → s.inputs = .memStore a v :: rest →
    ∃ t, step s = .next t
      ∧ t = { s with
        turns := s.turns.tail, draws := s.draws + 1, inputs := rest, mem := t.mem
        lent := if s.ctl.doen = .known true then (a.toNat, memGet s.mem a.toNat) :: s.lent else s.lent }
      ∧ memGet t.mem a.toNat = (if overlapped s.overlap a.toNat then none else some v) ∧ ∀ x, x ≠ a.toNat → memGet t.mem x = memGet s.mem x

/-- R242, R243, R254: the status token: a good one counts the block, any other sets `CRCIF` and halts, none leaves the
engine stuck; the token is recorded. Between blocks the next one is sent only when the card is ready. -/
def Obligations.StatusAndReady : Prop :=
  (∀ s : State, InBlock .dataOut s → s.eng.dsub = .waitStatus →
    (∀ v, askStatus s = some v → v ≠ 0b010#3 → exec .dout s = .next (haltData { tookStatus s with
      intsts := { s.intsts with crcsts := .known v, crcif := true }
      history := s.history ++ [.crcStatus (selPort s) (blockIndex s) v] }))
    ∧ (askStatus s = some 0b010#3 → exec .dout s = .next { tookStatus s with
      intsts := { s.intsts with crcsts := .known 0b010#3 }
      eng := { s.eng with blocksLeft := s.eng.blocksLeft - 1
                          phase := if s.eng.blocksLeft = 1 then .dataEnd else .dataOut
                          dsub := if s.eng.blocksLeft = 1 then .waitStatus else .waitReady }
      bcnt := .known (bcntNow (tookStatus s) - BitVec.ofNat 26 (blockLen s))
      history := s.history ++ [.crcStatus (selPort s) (blockIndex s) 0b010#3] })
    ∧ (askStatus s = none → exec .dout s = .next { tookStatus s with eng := { s.eng with stuck := true } }))
  ∧ ∀ s : State, DataReady s → s.eng.phase = .dataOut → s.dmactl.dmabusy = .known true → s.eng.dsub = .waitReady →
    exec .dout s = .next { tookReady s with
      eng := { s.eng with dsub := if askReady s then .send else .waitReady } }

/-- R246, R247, R248, R326: a word access that is answered `BusError`, the first or a later one, ends the step with a
target abort, in both modes: the words before it have been accessed, the block is not sent or counted. Where a word
has no address an event ends the step in the state that records it, and a malformed table is a refusal. -/
def Obligations.BlockAborts : Prop :=
  (∀ (s : State) (a : Word) (k : Nat), s.dmactl.sgen = false → s.dma.cur = .known a → 4 * (k + 1) ≤ blockLen s →
    a.toNat + 4 * (k + 1) ≤ 2 ^ 32 → (∀ x ∈ s.busErr, x.toNat < a.toNat ∨ a.toNat + 4 * k ≤ x.toNat) →
    a + BitVec.ofNat 32 (4 * k) ∈ s.busErr →
    let d : Dma := { s.dma with cur := .known (a + BitVec.ofNat 32 (4 * (k + 1))) }
    (InBlock .dataOut s → s.eng.dsub = .send →
      ∃ ws, ws.length = k
        ∧ exec .dout s = .next (haltData (aborted (a + BitVec.ofNat 32 (4 * k)) { s with
          dma := d, history := s.history ++ readEvents (contigWords a k) ws, draws := s.draws + k }))
        ∧ ∀ (i : Nat) (w : Word), i < k → s.lent = [] → memGetWord s.mem (a.toNat + 4 * i) = some w → ws[i]? = some w)
    ∧ (∀ b, InBlock .dataIn s → askBlock s = some b → b.crcs = lineCrcs s.ctl.dbw b.bytes →
      exec .di s = .next (haltData (aborted (a + BitVec.ofNat 32 (4 * k)) { tookBlock s with
        dma := d, mem := putWords s.overlap s.mem (contigWords a k) (leWords b.bytes)
        history := s.history ++ [.blockIn (selPort s) (blockIndex s) b.bytes]
          ++ writeEvents (contigWords a k) (leWords b.bytes)
        intsts := { s.intsts with crc16 := .known true } }))))
  ∧ (∀ (s : State) (p k : Nat) (es : List (Word × Word)) (rs : List Access) (r : Access) (d : Dma),
    TableReady p es s → 4 * (k + 1) ≤ blockLen s → scatterWords (k + 1) s.dma es = some (rs ++ [r], d) →
    (∀ x ∈ rs, x.2 ∉ s.busErr ∧ x.2.toNat + 4 ≤ 2 ^ 32
      ∧ (x.2.toNat + 4 ≤ p ∨ p + 8 * es.length ≤ x.2.toNat)) → r.2 ∈ s.busErr →
    (InBlock .dataOut s → s.eng.dsub = .send →
      ∃ ws, ws.length = k
        ∧ exec .dout s = .next (haltData (aborted r.2 { s with
          dma := d, history := s.history ++ readEvents rs ws ++ r.1, draws := s.draws + fetchReads rs + k + r.1.length }))
        ∧ ∀ (i : Nat) (x : Access) (w : Word), rs[i]? = some x → s.lent = [] → memGetWord s.mem x.2.toNat = some w → ws[i]? = some w)
    ∧ (∀ b, InBlock .dataIn s → askBlock s = some b → b.crcs = lineCrcs s.ctl.dbw b.bytes →
      exec .di s = .next (haltData (aborted r.2 { tookBlock s with
        dma := d, mem := putWords s.overlap s.mem rs (leWords b.bytes)
        history := s.history ++ [.blockIn (selPort s) (blockIndex s) b.bytes] ++ writeEvents rs (leWords b.bytes) ++ r.1
        intsts := { s.intsts with crc16 := .known true }
        draws := s.draws + 1 + fetchReads rs + r.1.length }))))
  ∧ (∀ (s : State) (p k : Nat) (es : List (Word × Word)) (rs : List Access) (d : Dma),
    TableReady p es s → 4 * (k + 1) ≤ blockLen s → scatterWords k s.dma es = some (rs, d) →
    (∀ x ∈ rs, x.2 ∉ s.busErr ∧ x.2.toNat + 4 ≤ 2 ^ 32
      ∧ (x.2.toNat + 4 ≤ p ∨ p + 8 * es.length ≤ x.2.toNat)) →
    (InBlock .dataOut s → s.eng.dsub = .send →
      ∃ ws, ws.length = k ∧
        let t := { s with
          dma := d, history := s.history ++ readEvents rs ws, draws := s.draws + fetchReads rs + k }
        (∀ u, nextAddr t = .stop u → exec .dout s = .next u) ∧ ∀ e, nextAddr t = .refuse e → exec .dout s = .refused e)
    ∧ ∀ b, InBlock .dataIn s → askBlock s = some b → b.crcs = lineCrcs s.ctl.dbw b.bytes →
      let t := { tookBlock s with
        dma := d, mem := putWords s.overlap s.mem rs (leWords b.bytes)
        history := s.history ++ [.blockIn (selPort s) (blockIndex s) b.bytes] ++ writeEvents rs (leWords b.bytes)
        intsts := { s.intsts with crc16 := .known true }
        draws := s.draws + 1 + fetchReads rs }
      (∀ u, nextAddr t = .stop u → exec .di s = .next u) ∧ ∀ e, nextAddr t = .refuse e → exec .di s = .refused e)

/-- R248, R245, R128: the address of the next word: inside a segment or a contiguous buffer the current one; at the
end of a segment the next legal entry's; at the end of the table a wrong EOT; a malformed entry is refused, and a
table that passes the end of the address space too. A failing word of the entry, the first or the second, is a target
abort; that of a failing first word the second is not read is the model's choice (entry 10, DEDUCED). The segment of a
fetched entry is noted for a later halt (entry 25). -/
def Obligations.NextAddress : Prop :=
  ∀ s : State,
    (∀ a, s.dma.cur = .known a → s.dmactl.sgen = false →
      nextAddr s = .go a { s with dma := { s.dma with cur := .known (a + 4#32) } })
    ∧ (∀ a, s.dma.cur = .known a → s.dmactl.sgen = true → s.dma.segLeft ≠ 0 →
      nextAddr s = .go a { s with dma := { s.dma with cur := .known (a + 4#32), segLeft := s.dma.segLeft - 4 } })
    ∧ (s.dmactl.sgen = true → s.dma.segLeft = 0 → s.dma.eotSeen = true →
      nextAddr s = .stop (haltData { s with dmaintsts := { s.dmaintsts with weotif := true } }))
    ∧ (∀ p : Nat, s.dmactl.sgen = true → s.dma.segLeft = 0 → s.dma.eotSeen = false → s.dma.padPtr = .known p →
      2 ^ 32 < p + 8 → nextAddr s = .refuse .padTableWraps)
    ∧ (∀ p : Nat, s.dmactl.sgen = true → s.dma.segLeft = 0 → s.dma.eotSeen = false → s.dma.padPtr = .known p →
      p + 8 ≤ 2 ^ 32 →
      (BitVec.ofNat 32 p ∈ s.busErr → nextAddr s = .stop (haltData (aborted (BitVec.ofNat 32 p) s)))
      ∧ (BitVec.ofNat 32 p ∉ s.busErr → BitVec.ofNat 32 (p + 4) ∈ s.busErr →
        ∃ v, nextAddr s = .stop (haltData (aborted (BitVec.ofNat 32 (p + 4)) { s with
            history := s.history ++ [.memRd (BitVec.ofNat 32 p) v], draws := s.draws + 1 }))
          ∧ ∀ e0, memGetWord s.mem p = some e0 → Unlent p (p + 4) s → v = e0))
    ∧ ∀ (p : Nat) (e0 e1 : Word), s.dmactl.sgen = true → s.dma.segLeft = 0 → s.dma.eotSeen = false →
      s.dma.padPtr = .known p → p + 8 ≤ 2 ^ 32 →
      BitVec.ofNat 32 p ∉ s.busErr → BitVec.ofNat 32 (p + 4) ∉ s.busErr → Unlent p (p + 8) s →
      (∀ j, j < 4 → memGet s.mem (p + j) = some (e0.extractLsb' (8 * j) 8)
        ∧ memGet s.mem (p + 4 + j) = some (e1.extractLsb' (8 * j) 8)) →
      if e0.toNat % 4 ≠ 0 ∨ (e1.extractLsb' 0 26).toNat = 0 ∨ (e1.extractLsb' 0 26).toNat % 4 ≠ 0
          ∨ e1.extractLsb' 26 5 ≠ 0#5 ∨ 2 ^ 32 < e0.toNat + (e1.extractLsb' 0 26).toNat then
        nextAddr s = .refuse .illegalPadEntry
      else nextAddr s = .go e0 { s with
        dma := { s.dma with cur := .known (e0 + 4#32), segLeft := (e1.extractLsb' 0 26).toNat - 4
                            eotSeen := e1.getLsbD 31, padPtr := .known (p + 8)
                            dest := s.dma.dest.map ((e0.toNat, (e1.extractLsb' 0 26).toNat) :: ·) }
        history := s.history ++ [.memRd (BitVec.ofNat 32 p) e0, .memRd (BitVec.ofNat 32 (p + 4)) e1]
        draws := s.draws + 2 }

/-! ### The resets -/

/-- R250, R361: `CTLRST`. A live data operation is cut; `DMABUSY` and `BCNT` are kept otherwise, also where they
are `any` (R59, R361). That memory is unchanged where a live `DI` is cut is the model's choice (R250 does not name the
destination; entry 23, DEDUCED); the note of replaced values in a `DO`'s buffer is emptied (entry 36, DESIGN CHOICE);
`FB` is kept also where the cut operation may have staged blocks in it (R361; entry 43, DESIGN CHOICE). The phase is
`IDLE` also while `GCTLRST` is pending (R250 before R66; entry 32, DEDUCED). -/
def Obligations.CtlrstEffect : Prop :=
  ∀ s : State, s.ctl.ctlrst = true →
    let live := s.dma.halted = false ∧ s.dmactl.dmabusy = .known true
    exec .ctlrst s = .next { s with
      ctl := { s.ctl with coen := false, rien := .known false, dien := .known false, doen := .known false
                          r2en := .known false, clk74oen := false, clk8oen := false, ctlrst := false }
      eng := { phase := .idle, blocksLeft := 0, dsub := .send, halted := false, stuck := false }
      dma := { s.dma with halted := if live then true else s.dma.halted }
      dmactl := { s.dmactl with dmabusy := if live then .any else s.dmactl.dmabusy }
      bcnt := if live then .any else s.bcnt
      lent := []
      resp0 := .any, resp1 := .any
      intsts := { s.intsts with crc7 := .any, crc16 := .any, crcsts := .any }
      history := s.history ++ [.reset .ctl] }

/-- R251: `DMARST`. -/
def Obligations.DmarstEffect : Prop :=
  ∀ s : State, s.dmactl.dmarst = true →
    let cut := (s.eng.phase = .dataIn ∨ s.eng.phase = .dataOut ∨ s.eng.phase = .dataEnd) ∧ s.eng.halted = false
    exec .dmarst s = .next { s with
      dmactl := { s.dmactl with dmarst := false, dmabusy := .known false }
      bcnt := .known 0#26
      dma := { halted := false, cur := .any, segLeft := 0, padPtr := .any, eotSeen := false, dest := some [] }
      fb := Vector.replicate 128 .any
      eng := { s.eng with halted := if cut then true else s.eng.halted }
      ctl := if cut then { s.ctl with dien := .any, doen := .any } else s.ctl
      intsts := { s.intsts with blkdif := if cut then .any else s.intsts.blkdif }
      mem := if cut ∧ s.ctl.dien = .known true then blurDest s else s.mem
      history := s.history ++ [.reset .dma] }

/-- R252: `GCTLRST`; a live `DI` that it cuts leaves its destination `any` (entry 23). -/
def Obligations.GctlrstEffect : Prop :=
  ∀ s : State, s.gctl.gctlrst = true →
    exec .gctlrst s = .next { s with
      ctl := { s.ctl with coen := false, rien := .known false, dien := .known false, doen := .known false
                          r2en := .known false, clk74oen := false, clk8oen := false, ctlrst := false }
      dmactl := { s.dmactl with dmarst := false, dmabusy := .known false }
      gctl := { s.gctl with gctlrst := false }
      bcnt := .known 0#26
      eng := { phase := .idle, blocksLeft := 0, dsub := .send, halted := false, stuck := false }
      dma := { halted := false, cur := .any, segLeft := 0, padPtr := .any, eotSeen := false, dest := some [] }
      fb := Vector.replicate 128 .any
      lent := []
      resp0 := .any, resp1 := .any
      intsts := { s.intsts with crc7 := .any, crc16 := .any, crcsts := .any }
      mem := if s.dmactl.dmabusy = .known true ∧ s.dma.halted = false ∧ s.ctl.dien = .known true then blurDest s
        else s.mem
      history := s.history ++ [.reset .global] }

/-- R253, R375: the recovery after an error event, its polls left out: both resets launched and performed, then the
flags cleared and `DMAEN` set again; neither engine is halted, nothing is in flight, and no error flag is set; every
operand, enable and configuration field is as before. The engine is idle, also where a `GCTLRST` is pending as well
(R250 before R66; entry 32, DEDUCED). -/
def Obligations.RecoveryWorks : Prop :=
  ∀ s : State,
    ∃ t1 t2 t3 t4 t5 t6 t7 t8,
      exec (.set 0x400#12 0x00000002#32) s = .next t1 ∧ exec .dmarst t1 = .next t2
      ∧ exec (.set 0x820#12 0x00004000#32) t2 = .next t3 ∧ exec .ctlrst t3 = .next t4
      ∧ exec (.w1c .intsts 0x00003003#32) t4 = .next t5 ∧ exec (.w1c .dmaintsts 0x00000003#32) t5 = .next t6
      ∧ exec (.w1c .gintsts 0x00000001#32) t6 = .next t7 ∧ exec (.set 0x400#12 0x00000001#32) t7 = .next t8
      ∧ Quiet t8 ∧ t8.dmactl.dmabusy = .known false ∧ t8.eng.halted = false ∧ t8.dma.halted = false ∧ t8.eng.stuck = false
      ∧ t8.eng.phase = .idle
      ∧ t8.dmactl.dmaen = true ∧ t8.dmactl.dmarst = false ∧ t8.bcnt = .known 0#26
      ∧ t8.intsts.crcif = false ∧ t8.intsts.rtoif = false ∧ t8.intsts.ditoif = false
      ∧ t8.intsts.blkdif = .known false ∧ t8.dmaintsts.abortif = false ∧ t8.dmaintsts.weotif = false
      ∧ t8.dtaif = false ∧ t8.cmdarg = s.cmdarg ∧ t8.blen = s.blen ∧ t8.tout = s.tout ∧ t8.dmasa = s.dmasa
      ∧ t8.inten = s.inten ∧ t8.dmainten = s.dmainten ∧ t8.dtaien = s.dtaien ∧ t8.ectl = s.ectl
      ∧ t8.gctl.sden = s.gctl.sden ∧ t8.dmactl.sgen = s.dmactl.sgen ∧ t8.ctl.cmdcode = s.ctl.cmdcode
      ∧ t8.ctl.dbw = s.ctl.dbw ∧ t8.ctl.blkcnt = s.ctl.blkcnt ∧ t8.ctl.sdnwr = s.ctl.sdnwr
      ∧ t8.ctl.sdport = s.ctl.sdport ∧ t8.ctl.clkkeep0 = s.ctl.clkkeep0 ∧ t8.ctl.clkkeep1 = s.ctl.clkkeep1

/-! ### Card detection, power, the interrupt request -/

/-- R272: the change detector, in every state. -/
def Obligations.CardDetectStep : Prop :=
  ∀ s : State,
    cdStep .p0 s = (if cdsts s .p0 ≠ s.cdPrev0 then
        { s with intsts := { s.intsts with cdif0 := true }, cdPrev0 := cdsts s .p0 } else s)
    ∧ cdStep .p1 s = (if cdsts s .p1 ≠ s.cdPrev1 then
        { s with intsts := { s.intsts with cdif1 := true }, cdPrev1 := cdsts s .p1 } else s)
    ∧ ∀ p, cdStep p (cdStep p s) = cdStep p s

/-- R270, R271, R277: the level that `CDSTSp` shows, the presence predicate with its two polarities, and the power
output. -/
def Obligations.PresenceAndPower : Prop :=
  ∀ s : State,
    (s.inten.cdsrc0 = false → cdsts s .p0 = s.pins.ded0 ∧ (cardPresent s .p0 = true ↔ cdsts s .p0 = true))
    ∧ (s.inten.cdsrc0 = true → cdsts s .p0 = s.pins.gpio0 ∧ (cardPresent s .p0 = true ↔ cdsts s .p0 = false))
    ∧ (s.inten.cdsrc1 = false → cdsts s .p1 = s.pins.ded1 ∧ (cardPresent s .p1 = true ↔ cdsts s .p1 = true))
    ∧ (s.inten.cdsrc1 = true → cdsts s .p1 = s.pins.gpio1 ∧ (cardPresent s .p1 = true ↔ cdsts s .p1 = false))
    ∧ power s .p0 = !s.ectl.poweroff0 ∧ power s .p1 = !s.ectl.poweroff1

/-- R333, R334: the interrupt request is 1 exactly where some flag is set whose enable is set. While the
engine is halted `BLKDIF` reads `any` (R331; entries 35 and 40), and so it is said where it is not or `BLKDIEN` is 0. -/
def Obligations.InterruptRequest : Prop :=
  ∀ s : State, (∀ b, (s.eng.halted = false ∧ s.intsts.blkdif = .known b ∨ s.inten.blkdien = false) → (irq s = true ↔
      (s.inten.blkdien = true ∧ b = true) ∨ (s.inten.crcien = true ∧ s.intsts.crcif = true)
      ∨ (s.inten.cdien0 = true ∧ s.intsts.cdif0 = true) ∨ (s.inten.cdien1 = true ∧ s.intsts.cdif1 = true)
      ∨ (s.inten.rtoien = true ∧ s.intsts.rtoif = true) ∨ (s.inten.ditoien = true ∧ s.intsts.ditoif = true)
      ∨ (s.dmainten.abortien = true ∧ s.dmaintsts.abortif = true)
      ∨ (s.dmainten.weotien = true ∧ s.dmaintsts.weotif = true) ∨ (s.dtaien = true ∧ s.dtaif = true)))
    ∧ (s.inten.blkdien = false → s.inten.crcien = false → s.inten.cdien0 = false → s.inten.cdien1 = false →
      s.inten.rtoien = false → s.inten.ditoien = false → s.dmainten.abortien = false → s.dmainten.weotien = false →
      s.dtaien = false → irq s = false)

/-! ### Commands -/

/-- R172, R290, R291 to R299, R304, R305: the eleven commands without data, from a ready and quiet engine: the argument
and the code are stored, the frame is sent, and the engine waits for the response the launch word asks for. -/
def Obligations.CommandsWithoutData : Prop :=
  ∀ (s : State) (arg : Word), CommandReady s →
    exec (.cmd0 arg) s = .next (commandDone 0#6 arg s.ctl.blkcnt 0x01#32 .idle s)
    ∧ exec (.cmd1 arg) s = .next (commandDone 1#6 arg s.ctl.blkcnt 0x03#32 .respIn s)
    ∧ exec (.cmd2 arg) s = .next (commandDone 2#6 arg s.ctl.blkcnt 0x11#32 .resp2In s)
    ∧ exec (.cmd3 arg) s = .next (commandDone 3#6 arg s.ctl.blkcnt 0x03#32 .respIn s)
    ∧ exec (.cmd7 arg) s = .next (commandDone 7#6 arg s.ctl.blkcnt 0x03#32 .respIn s)
    ∧ exec (.cmd8 arg) s = .next (commandDone 8#6 arg s.ctl.blkcnt 0x03#32 .respIn s)
    ∧ exec (.cmd9 arg) s = .next (commandDone 9#6 arg s.ctl.blkcnt 0x11#32 .resp2In s)
    ∧ exec (.cmd12 arg) s = .next (commandDone 12#6 arg s.ctl.blkcnt 0x03#32 .respIn s)
    ∧ exec (.cmd13 arg) s = .next (commandDone 13#6 arg s.ctl.blkcnt 0x03#32 .respIn s)
    ∧ exec (.acmd41 arg) s = .next (commandDone 41#6 arg s.ctl.blkcnt 0x03#32 .respIn s)
    ∧ exec (.cmd55 arg) s = .next (commandDone 55#6 arg s.ctl.blkcnt 0x03#32 .respIn s)

/-- R172, R290, R300 to R303, R306, R308: the four commands with a data phase; the single-block forms write a block
count of 1, the others use the count that `CTL` holds (entry 16). -/
def Obligations.CommandsWithData : Prop :=
  ∀ (s : State) (arg : Word), CommandReady s →
    (DataLegal 1 s →
      exec (.cmd17 arg) s = .next (commandDone 17#6 arg 1#8 0x07#32 .respIn s)
      ∧ exec (.cmd24 arg) s = .next (commandDone 24#6 arg 1#8 0x0B#32 .respIn s))
    ∧ (DataLegal s.ctl.blkcnt.toNat s →
      exec (.cmd18 arg) s = .next (commandDone 18#6 arg s.ctl.blkcnt 0x07#32 .respIn s)
      ∧ exec (.cmd25 arg) s = .next (commandDone 25#6 arg s.ctl.blkcnt 0x0B#32 .respIn s))

/-- R317: the driver's `SubmitCommand` ends after a bounded number of host operations, whatever it reads. -/
def Obligations.SubmitTerminates : Prop :=
  ∀ (bound m : Nat) (idx : BitVec 6) (arg : Word) (ty : ResponseType) (k : Answer → HostProg Answer),
    (∀ a, HostProg.AtMost m (k a)) → HostProg.AtMost (3 * bound + m + 14) (submitCommand bound idx arg ty k)

/-! ### CRCs -/

/-- R211: zero bits, linearity, residue, the four worked values of `crc7`, and the last byte of their frames. -/
def Obligations.Crc7Properties : Prop :=
  (∀ n, crc7 (List.replicate n false) = 0#7)
  ∧ (∀ a b : List Bool, a.length = b.length → crc7 (List.zipWith xor a b) = crc7 a ^^^ crc7 b)
  ∧ (∀ m : List Bool, crc7 (m ++ bitsMsb (crc7 m)) = 0#7)
  ∧ crc7 (bitsMsb 0x4000000000#40) = 0x4A#7 ∧ crc7 (bitsMsb 0x48000001AA#40) = 0x43#7
  ∧ crc7 (bitsMsb 0x7700000000#40) = 0x32#7 ∧ crc7 (bitsMsb 0x08000001AA#40) = 0x09#7
  ∧ crc7 (bitsMsb 0x4000000000#40) ++ 1#1 = 0x95#8 ∧ crc7 (bitsMsb 0x48000001AA#40) ++ 1#1 = 0x87#8
  ∧ crc7 (bitsMsb 0x7700000000#40) ++ 1#1 = 0x65#8 ∧ crc7 (bitsMsb 0x08000001AA#40) ++ 1#1 = 0x13#8

/-- R212, R213, R214: worked values of `crc16` in both widths. -/
def Obligations.Crc16Values : Prop :=
  crc16 (serialBits [0x31#8, 0x32#8, 0x33#8, 0x34#8, 0x35#8, 0x36#8, 0x37#8, 0x38#8, 0x39#8]) = 0x31C3#16
  ∧ crc16 (serialBits [0x01#8]) = 0x1021#16 ∧ crc16 (serialBits [0x80#8]) = 0x9188#16
  ∧ lineCrcs false [0xDE#8, 0xAD#8, 0xBE#8, 0xEF#8] = [0xC457#16]
  ∧ lineCrcs true [0xDE#8, 0xAD#8, 0xBE#8, 0xEF#8] = [0x1EF0#16, 0xBB9A#16, 0x9D49#16, 0x1290#16]
  ∧ ∀ n, crc16 (serialBits (List.replicate n 0x00#8)) = 0x0000#16

/-! ### Every step -/

/-- Tier 3: every step keeps the canonical form of system memory; and it keeps it so that a byte where the buffers of
the two instances overlap is `any` (R344), which it becomes when a word starts to lie in both (entry 41). -/
def Obligations.StepKeepsMemoryForm : Prop :=
  (∀ s t : State, Memory.wf s.mem = true → step s = .next t → Memory.wf t.mem = true)
  ∧ (∀ s t : State, OverlapAny s → step s = .next t → OverlapAny t)
  ∧ ∀ (s : State) (a : Word) (rest : List Input), nextTurn s = .env → s.inputs = .overlap a true :: rest →
    ∃ t, step s = .next t
      ∧ t = { s with
        turns := s.turns.tail, draws := s.draws + 1, inputs := rest, mem := t.mem
        overlap := (a &&& 0xFFFFFFFC#32) :: s.overlap }
      ∧ ∀ x, memGet t.mem x = if x / 4 = a.toNat / 4 then none else memGet s.mem x

/-- Tier 3: every step keeps the invariants of rule R66, with what they need to be kept. -/
def Obligations.StepKeepsConsistent : Prop :=
  ∀ s t : State, Consistent s → step s = .next t → Consistent t

/-- R66: what `Consistent` says in the words of the rule, in a state in which neither engine is halted. While `GCTLRST`
is pending the first point of the rule holds until a `CTLRST` is performed, which puts the phase to `IDLE` (R250, R361;
entry 32, DEDUCED); from then on the phase is that of the launch bits alone. -/
def Obligations.ConsistentMeansRule : Prop :=
  ∀ s : State, Consistent s → s.eng.halted = false → s.dma.halted = false →
    (s.ctl.ctlrst = true ∨ s.gctl.gctlrst = false →
      (s.eng.phase = .reset ↔ s.ctl.ctlrst = true ∨ s.gctl.gctlrst = true)
      ∧ (s.eng.phase = .idle ↔ ctlNow s &&& 0x407F#32 = 0#32 ∧ s.gctl.gctlrst = false))
    ∧ (s.eng.phase = .reset → s.ctl.ctlrst = true ∨ s.gctl.gctlrst = true)
    ∧ (s.eng.phase ≠ .reset → (s.eng.phase = .idle ↔ ctlNow s &&& 0x407F#32 = 0#32))
    ∧ (s.dmactl.dmabusy = .known true → s.eng.phase = .dataIn ∨ s.eng.phase = .dataOut ∨ s.eng.phase = .dataEnd
        ∨ s.eng.phase = .reset)
    ∧ (s.eng.phase = .dataEnd → s.dmactl.dmabusy = .known true)
    ∧ (s.dmactl.dmabusy = .known false → s.bcnt = .known 0#26)
    ∧ (s.dmactl.dmabusy = .known true → s.bcnt = .known (BitVec.ofNat 26 (s.eng.blocksLeft * (s.blen.toNat + 1))))
    ∧ ¬(s.ctl.rien = .known true ∧ s.ctl.r2en = .known true)
    ∧ ¬(s.ctl.dien = .known true ∧ s.ctl.doen = .known true)
    ∧ (s.ctl.clk74oen = true → ctlNow s &&& 0x7F#32 = 0x20#32)
    ∧ (s.ctl.clk8oen = true → ctlNow s &&& 0x7F#32 = 0x40#32)

/-- R46, R47, R51, R53, R54, R56 to R58: only a host operation or a hardware reset clears an event flag: after the turn
of an engine, a reset operation or a detector every flag that was set is still set. -/
def Obligations.FlagsAreSticky : Prop :=
  ∀ s t : State, step s = .next t → nextTurn s ≠ .host → nextTurn s ≠ .env →
    (s.intsts.crcif = true → t.intsts.crcif = true) ∧ (s.intsts.rtoif = true → t.intsts.rtoif = true)
    ∧ (s.intsts.ditoif = true → t.intsts.ditoif = true) ∧ (s.intsts.cdif0 = true → t.intsts.cdif0 = true)
    ∧ (s.intsts.cdif1 = true → t.intsts.cdif1 = true) ∧ (s.dmaintsts.abortif = true → t.dmaintsts.abortif = true)
    ∧ (s.dmaintsts.weotif = true → t.dmaintsts.weotif = true) ∧ (s.dtaif = true → t.dtaif = true)
    ∧ (s.intsts.blkdif = .known true → t.intsts.blkdif ≠ .known false)

/-- R23, R250 to R252, R331, R337: a halt ends only with the resets the rules name. -/
def Obligations.HaltsEndOnlyByReset : Prop :=
  ∀ s t : State, step s = .next t →
    (s.eng.halted = true → t.eng.halted = false →
      (nextTurn s = .engine ∧ s.ctl.ctlrst = true) ∨ (nextTurn s = .globalReset ∧ s.gctl.gctlrst = true)
      ∨ (nextTurn s = .env ∧ ∃ rest, s.inputs = .hardwareReset :: rest))
    ∧ (s.dma.halted = true → t.dma.halted = false →
      (nextTurn s = .dmaReset ∧ s.dmactl.dmarst = true) ∨ (nextTurn s = .globalReset ∧ s.gctl.gctlrst = true)
      ∨ (nextTurn s = .env ∧ ∃ rest, s.inputs = .hardwareReset :: rest))

/-- R61: the history only grows, except at a hardware reset. -/
def Obligations.HistoryGrows : Prop :=
  ∀ s t : State, step s = .next t → ¬(nextTurn s = .env ∧ ∃ rest, s.inputs = .hardwareReset :: rest) →
    ∃ es, t.history = s.history ++ es

/-- R83, R85, R91, R99, R217: a bus operation of the host touches neither system memory, nor the history, nor the hidden
state other than the phase, nor any result or verdict of the engine; and the configuration of the other agents stays. -/
def Obligations.HostOperationFrame : Prop :=
  ∀ (s t : State) (i : Instr), IsBusOp i → exec i s = .next t →
    t = { s with
      fb := t.fb, dmactl := t.dmactl, dmasa := t.dmasa, dmainten := t.dmainten, dmaintsts := t.dmaintsts
      gctl := t.gctl, dtaien := t.dtaien, dtaif := t.dtaif, ctl := t.ctl, cmdarg := t.cmdarg, inten := t.inten
      intsts := t.intsts, blen := t.blen, tout := t.tout, ectl := t.ectl
      eng := { s.eng with phase := t.eng.phase }, card0 := t.card0, card1 := t.card1, rdata := t.rdata
      draws := s.draws + 1 }
    ∧ t.dmactl.dmabusy = s.dmactl.dmabusy ∧ t.intsts.crc7 = s.intsts.crc7 ∧ t.intsts.crc16 = s.intsts.crc16
    ∧ t.intsts.crcsts = s.intsts.crcsts

/-- R99, R240, R91: system memory changes only in a step of `DI`, in a step that halts or cuts a `DI`, or by the outside
world: while `DIEN` is 0 no operation but `DI` changes it. -/
def Obligations.MemoryChangesOnlyByInput : Prop :=
  ∀ (s t : State) (i : Instr), exec i s = .next t → s.ctl.dien.isOn = false → i ≠ .di → t.mem = s.mem

/-- R275, R276: an operation launched from `CTL` uses the selected port alone: every event it leaves in the history that
names a port (a clock burst, a command frame, a response or its absence, a block in either direction or its absence, a
status token) names the selected one, and the other card's answers stay. -/
def Obligations.OtherPortUntouched : Prop :=
  ∀ (s t : State) (i : Instr), IsCtlOp i → exec i s = .next t →
    (selPort s = .p0 → t.card1 = s.card1) ∧ (selPort s = .p1 → t.card0 = s.card0)
    ∧ ∃ es, t.history = s.history ++ es ∧ ∀ e ∈ es, ∀ p,
      ((∃ n, e = .clk p n) ∨ (∃ f, e = .cmdOut p f) ∨ (∃ f, e = .respIn p f) ∨ (∃ f, e = .resp2In p f)
        ∨ e = .respNone p ∨ (∃ k b, e = .blockIn p k b) ∨ (∃ k, e = .blockNone p k)
        ∨ (∃ k b c, e = .blockOut p k b c) ∨ ∃ k v, e = .crcStatus p k v) → p = selPort s
end

