-- ==== Sys2Proof/Laws/State.lean ====
section
/-!
SUPPORT. The fields of the state after each small update of it: one lemma per field and update, so that no proof unfolds a
record update.
-/

namespace Sys2Proof.Machine

/-! `State.tick` -/

@[simp] theorem State.tick_fb (s : State) : s.tick.fb = s.fb := rfl
@[simp] theorem State.tick_dmactl (s : State) : s.tick.dmactl = s.dmactl := rfl
@[simp] theorem State.tick_dmasa (s : State) : s.tick.dmasa = s.dmasa := rfl
@[simp] theorem State.tick_bcnt (s : State) : s.tick.bcnt = s.bcnt := rfl
@[simp] theorem State.tick_dmainten (s : State) : s.tick.dmainten = s.dmainten := rfl
@[simp] theorem State.tick_dmaintsts (s : State) : s.tick.dmaintsts = s.dmaintsts := rfl
@[simp] theorem State.tick_gctl (s : State) : s.tick.gctl = s.gctl := rfl
@[simp] theorem State.tick_dtaien (s : State) : s.tick.dtaien = s.dtaien := rfl
@[simp] theorem State.tick_dtaif (s : State) : s.tick.dtaif = s.dtaif := rfl
@[simp] theorem State.tick_ctl (s : State) : s.tick.ctl = s.ctl := rfl
@[simp] theorem State.tick_cmdarg (s : State) : s.tick.cmdarg = s.cmdarg := rfl
@[simp] theorem State.tick_inten (s : State) : s.tick.inten = s.inten := rfl
@[simp] theorem State.tick_intsts (s : State) : s.tick.intsts = s.intsts := rfl
@[simp] theorem State.tick_resp0 (s : State) : s.tick.resp0 = s.resp0 := rfl
@[simp] theorem State.tick_resp1 (s : State) : s.tick.resp1 = s.resp1 := rfl
@[simp] theorem State.tick_blen (s : State) : s.tick.blen = s.blen := rfl
@[simp] theorem State.tick_tout (s : State) : s.tick.tout = s.tout := rfl
@[simp] theorem State.tick_ectl (s : State) : s.tick.ectl = s.ectl := rfl
@[simp] theorem State.tick_eng (s : State) : s.tick.eng = s.eng := rfl
@[simp] theorem State.tick_dma (s : State) : s.tick.dma = s.dma := rfl
@[simp] theorem State.tick_cdPrev0 (s : State) : s.tick.cdPrev0 = s.cdPrev0 := rfl
@[simp] theorem State.tick_cdPrev1 (s : State) : s.tick.cdPrev1 = s.cdPrev1 := rfl
@[simp] theorem State.tick_pins (s : State) : s.tick.pins = s.pins := rfl
@[simp] theorem State.tick_history (s : State) : s.tick.history = s.history := rfl
@[simp] theorem State.tick_mem (s : State) : s.tick.mem = s.mem := rfl
@[simp] theorem State.tick_lent (s : State) : s.tick.lent = s.lent := rfl
@[simp] theorem State.tick_busErr (s : State) : s.tick.busErr = s.busErr := rfl
@[simp] theorem State.tick_overlap (s : State) : s.tick.overlap = s.overlap := rfl
@[simp] theorem State.tick_card0 (s : State) : s.tick.card0 = s.card0 := rfl
@[simp] theorem State.tick_card1 (s : State) : s.tick.card1 = s.card1 := rfl
@[simp] theorem State.tick_prog (s : State) : s.tick.prog = s.prog := rfl
@[simp] theorem State.tick_rdata (s : State) : s.tick.rdata = s.rdata := rfl
@[simp] theorem State.tick_turns (s : State) : s.tick.turns = s.turns := rfl
@[simp] theorem State.tick_inputs (s : State) : s.tick.inputs = s.inputs := rfl
@[simp] theorem State.tick_draws (s : State) : s.tick.draws = s.draws + 1 := rfl

/-! `State.log` -/

@[simp] theorem State.log_fb (s : State) (e : Event) : (s.log e).fb = s.fb := rfl
@[simp] theorem State.log_dmactl (s : State) (e : Event) : (s.log e).dmactl = s.dmactl := rfl
@[simp] theorem State.log_dmasa (s : State) (e : Event) : (s.log e).dmasa = s.dmasa := rfl
@[simp] theorem State.log_bcnt (s : State) (e : Event) : (s.log e).bcnt = s.bcnt := rfl
@[simp] theorem State.log_dmainten (s : State) (e : Event) : (s.log e).dmainten = s.dmainten := rfl
@[simp] theorem State.log_dmaintsts (s : State) (e : Event) : (s.log e).dmaintsts = s.dmaintsts := rfl
@[simp] theorem State.log_gctl (s : State) (e : Event) : (s.log e).gctl = s.gctl := rfl
@[simp] theorem State.log_dtaien (s : State) (e : Event) : (s.log e).dtaien = s.dtaien := rfl
@[simp] theorem State.log_dtaif (s : State) (e : Event) : (s.log e).dtaif = s.dtaif := rfl
@[simp] theorem State.log_ctl (s : State) (e : Event) : (s.log e).ctl = s.ctl := rfl
@[simp] theorem State.log_cmdarg (s : State) (e : Event) : (s.log e).cmdarg = s.cmdarg := rfl
@[simp] theorem State.log_inten (s : State) (e : Event) : (s.log e).inten = s.inten := rfl
@[simp] theorem State.log_intsts (s : State) (e : Event) : (s.log e).intsts = s.intsts := rfl
@[simp] theorem State.log_resp0 (s : State) (e : Event) : (s.log e).resp0 = s.resp0 := rfl
@[simp] theorem State.log_resp1 (s : State) (e : Event) : (s.log e).resp1 = s.resp1 := rfl
@[simp] theorem State.log_blen (s : State) (e : Event) : (s.log e).blen = s.blen := rfl
@[simp] theorem State.log_tout (s : State) (e : Event) : (s.log e).tout = s.tout := rfl
@[simp] theorem State.log_ectl (s : State) (e : Event) : (s.log e).ectl = s.ectl := rfl
@[simp] theorem State.log_eng (s : State) (e : Event) : (s.log e).eng = s.eng := rfl
@[simp] theorem State.log_dma (s : State) (e : Event) : (s.log e).dma = s.dma := rfl
@[simp] theorem State.log_cdPrev0 (s : State) (e : Event) : (s.log e).cdPrev0 = s.cdPrev0 := rfl
@[simp] theorem State.log_cdPrev1 (s : State) (e : Event) : (s.log e).cdPrev1 = s.cdPrev1 := rfl
@[simp] theorem State.log_pins (s : State) (e : Event) : (s.log e).pins = s.pins := rfl
@[simp] theorem State.log_history (s : State) (e : Event) : (s.log e).history = s.history ++ [e] := rfl
@[simp] theorem State.log_mem (s : State) (e : Event) : (s.log e).mem = s.mem := rfl
@[simp] theorem State.log_lent (s : State) (e : Event) : (s.log e).lent = s.lent := rfl
@[simp] theorem State.log_busErr (s : State) (e : Event) : (s.log e).busErr = s.busErr := rfl
@[simp] theorem State.log_overlap (s : State) (e : Event) : (s.log e).overlap = s.overlap := rfl
@[simp] theorem State.log_card0 (s : State) (e : Event) : (s.log e).card0 = s.card0 := rfl
@[simp] theorem State.log_card1 (s : State) (e : Event) : (s.log e).card1 = s.card1 := rfl
@[simp] theorem State.log_prog (s : State) (e : Event) : (s.log e).prog = s.prog := rfl
@[simp] theorem State.log_rdata (s : State) (e : Event) : (s.log e).rdata = s.rdata := rfl
@[simp] theorem State.log_turns (s : State) (e : Event) : (s.log e).turns = s.turns := rfl
@[simp] theorem State.log_inputs (s : State) (e : Event) : (s.log e).inputs = s.inputs := rfl
@[simp] theorem State.log_draws (s : State) (e : Event) : (s.log e).draws = s.draws := rfl

/-! `State.setPhase` -/

@[simp] theorem State.setPhase_fb (s : State) (p : Phase) : (s.setPhase p).fb = s.fb := rfl
@[simp] theorem State.setPhase_dmactl (s : State) (p : Phase) : (s.setPhase p).dmactl = s.dmactl := rfl
@[simp] theorem State.setPhase_dmasa (s : State) (p : Phase) : (s.setPhase p).dmasa = s.dmasa := rfl
@[simp] theorem State.setPhase_bcnt (s : State) (p : Phase) : (s.setPhase p).bcnt = s.bcnt := rfl
@[simp] theorem State.setPhase_dmainten (s : State) (p : Phase) : (s.setPhase p).dmainten = s.dmainten := rfl
@[simp] theorem State.setPhase_dmaintsts (s : State) (p : Phase) : (s.setPhase p).dmaintsts = s.dmaintsts := rfl
@[simp] theorem State.setPhase_gctl (s : State) (p : Phase) : (s.setPhase p).gctl = s.gctl := rfl
@[simp] theorem State.setPhase_dtaien (s : State) (p : Phase) : (s.setPhase p).dtaien = s.dtaien := rfl
@[simp] theorem State.setPhase_dtaif (s : State) (p : Phase) : (s.setPhase p).dtaif = s.dtaif := rfl
@[simp] theorem State.setPhase_ctl (s : State) (p : Phase) : (s.setPhase p).ctl = s.ctl := rfl
@[simp] theorem State.setPhase_cmdarg (s : State) (p : Phase) : (s.setPhase p).cmdarg = s.cmdarg := rfl
@[simp] theorem State.setPhase_inten (s : State) (p : Phase) : (s.setPhase p).inten = s.inten := rfl
@[simp] theorem State.setPhase_intsts (s : State) (p : Phase) : (s.setPhase p).intsts = s.intsts := rfl
@[simp] theorem State.setPhase_resp0 (s : State) (p : Phase) : (s.setPhase p).resp0 = s.resp0 := rfl
@[simp] theorem State.setPhase_resp1 (s : State) (p : Phase) : (s.setPhase p).resp1 = s.resp1 := rfl
@[simp] theorem State.setPhase_blen (s : State) (p : Phase) : (s.setPhase p).blen = s.blen := rfl
@[simp] theorem State.setPhase_tout (s : State) (p : Phase) : (s.setPhase p).tout = s.tout := rfl
@[simp] theorem State.setPhase_ectl (s : State) (p : Phase) : (s.setPhase p).ectl = s.ectl := rfl
@[simp] theorem State.setPhase_eng (s : State) (p : Phase) : (s.setPhase p).eng = { s.eng with phase := p } := rfl
@[simp] theorem State.setPhase_dma (s : State) (p : Phase) : (s.setPhase p).dma = s.dma := rfl
@[simp] theorem State.setPhase_cdPrev0 (s : State) (p : Phase) : (s.setPhase p).cdPrev0 = s.cdPrev0 := rfl
@[simp] theorem State.setPhase_cdPrev1 (s : State) (p : Phase) : (s.setPhase p).cdPrev1 = s.cdPrev1 := rfl
@[simp] theorem State.setPhase_pins (s : State) (p : Phase) : (s.setPhase p).pins = s.pins := rfl
@[simp] theorem State.setPhase_history (s : State) (p : Phase) : (s.setPhase p).history = s.history := rfl
@[simp] theorem State.setPhase_mem (s : State) (p : Phase) : (s.setPhase p).mem = s.mem := rfl
@[simp] theorem State.setPhase_lent (s : State) (p : Phase) : (s.setPhase p).lent = s.lent := rfl
@[simp] theorem State.setPhase_busErr (s : State) (p : Phase) : (s.setPhase p).busErr = s.busErr := rfl
@[simp] theorem State.setPhase_overlap (s : State) (p : Phase) : (s.setPhase p).overlap = s.overlap := rfl
@[simp] theorem State.setPhase_card0 (s : State) (p : Phase) : (s.setPhase p).card0 = s.card0 := rfl
@[simp] theorem State.setPhase_card1 (s : State) (p : Phase) : (s.setPhase p).card1 = s.card1 := rfl
@[simp] theorem State.setPhase_prog (s : State) (p : Phase) : (s.setPhase p).prog = s.prog := rfl
@[simp] theorem State.setPhase_rdata (s : State) (p : Phase) : (s.setPhase p).rdata = s.rdata := rfl
@[simp] theorem State.setPhase_turns (s : State) (p : Phase) : (s.setPhase p).turns = s.turns := rfl
@[simp] theorem State.setPhase_inputs (s : State) (p : Phase) : (s.setPhase p).inputs = s.inputs := rfl
@[simp] theorem State.setPhase_draws (s : State) (p : Phase) : (s.setPhase p).draws = s.draws := rfl

/-! `State.goOn` -/

@[simp] theorem State.goOn_fb (s : State) : s.goOn.fb = s.fb := rfl
@[simp] theorem State.goOn_dmactl (s : State) : s.goOn.dmactl = s.dmactl := rfl
@[simp] theorem State.goOn_dmasa (s : State) : s.goOn.dmasa = s.dmasa := rfl
@[simp] theorem State.goOn_bcnt (s : State) : s.goOn.bcnt = s.bcnt := rfl
@[simp] theorem State.goOn_dmainten (s : State) : s.goOn.dmainten = s.dmainten := rfl
@[simp] theorem State.goOn_dmaintsts (s : State) : s.goOn.dmaintsts = s.dmaintsts := rfl
@[simp] theorem State.goOn_gctl (s : State) : s.goOn.gctl = s.gctl := rfl
@[simp] theorem State.goOn_dtaien (s : State) : s.goOn.dtaien = s.dtaien := rfl
@[simp] theorem State.goOn_dtaif (s : State) : s.goOn.dtaif = s.dtaif := rfl
@[simp] theorem State.goOn_ctl (s : State) : s.goOn.ctl = s.ctl := rfl
@[simp] theorem State.goOn_cmdarg (s : State) : s.goOn.cmdarg = s.cmdarg := rfl
@[simp] theorem State.goOn_inten (s : State) : s.goOn.inten = s.inten := rfl
@[simp] theorem State.goOn_intsts (s : State) : s.goOn.intsts = s.intsts := rfl
@[simp] theorem State.goOn_resp0 (s : State) : s.goOn.resp0 = s.resp0 := rfl
@[simp] theorem State.goOn_resp1 (s : State) : s.goOn.resp1 = s.resp1 := rfl
@[simp] theorem State.goOn_blen (s : State) : s.goOn.blen = s.blen := rfl
@[simp] theorem State.goOn_tout (s : State) : s.goOn.tout = s.tout := rfl
@[simp] theorem State.goOn_ectl (s : State) : s.goOn.ectl = s.ectl := rfl
@[simp] theorem State.goOn_eng (s : State) : s.goOn.eng = { s.eng with phase := nextPhase s.ctl } := rfl
@[simp] theorem State.goOn_dma (s : State) : s.goOn.dma = s.dma := rfl
@[simp] theorem State.goOn_cdPrev0 (s : State) : s.goOn.cdPrev0 = s.cdPrev0 := rfl
@[simp] theorem State.goOn_cdPrev1 (s : State) : s.goOn.cdPrev1 = s.cdPrev1 := rfl
@[simp] theorem State.goOn_pins (s : State) : s.goOn.pins = s.pins := rfl
@[simp] theorem State.goOn_history (s : State) : s.goOn.history = s.history := rfl
@[simp] theorem State.goOn_mem (s : State) : s.goOn.mem = s.mem := rfl
@[simp] theorem State.goOn_lent (s : State) : s.goOn.lent = s.lent := rfl
@[simp] theorem State.goOn_busErr (s : State) : s.goOn.busErr = s.busErr := rfl
@[simp] theorem State.goOn_overlap (s : State) : s.goOn.overlap = s.overlap := rfl
@[simp] theorem State.goOn_card0 (s : State) : s.goOn.card0 = s.card0 := rfl
@[simp] theorem State.goOn_card1 (s : State) : s.goOn.card1 = s.card1 := rfl
@[simp] theorem State.goOn_prog (s : State) : s.goOn.prog = s.prog := rfl
@[simp] theorem State.goOn_rdata (s : State) : s.goOn.rdata = s.rdata := rfl
@[simp] theorem State.goOn_turns (s : State) : s.goOn.turns = s.turns := rfl
@[simp] theorem State.goOn_inputs (s : State) : s.goOn.inputs = s.inputs := rfl
@[simp] theorem State.goOn_draws (s : State) : s.goOn.draws = s.draws := rfl

/-! `State.getStuck` -/

@[simp] theorem State.getStuck_fb (s : State) : s.getStuck.fb = s.fb := rfl
@[simp] theorem State.getStuck_dmactl (s : State) : s.getStuck.dmactl = s.dmactl := rfl
@[simp] theorem State.getStuck_dmasa (s : State) : s.getStuck.dmasa = s.dmasa := rfl
@[simp] theorem State.getStuck_bcnt (s : State) : s.getStuck.bcnt = s.bcnt := rfl
@[simp] theorem State.getStuck_dmainten (s : State) : s.getStuck.dmainten = s.dmainten := rfl
@[simp] theorem State.getStuck_dmaintsts (s : State) : s.getStuck.dmaintsts = s.dmaintsts := rfl
@[simp] theorem State.getStuck_gctl (s : State) : s.getStuck.gctl = s.gctl := rfl
@[simp] theorem State.getStuck_dtaien (s : State) : s.getStuck.dtaien = s.dtaien := rfl
@[simp] theorem State.getStuck_dtaif (s : State) : s.getStuck.dtaif = s.dtaif := rfl
@[simp] theorem State.getStuck_ctl (s : State) : s.getStuck.ctl = s.ctl := rfl
@[simp] theorem State.getStuck_cmdarg (s : State) : s.getStuck.cmdarg = s.cmdarg := rfl
@[simp] theorem State.getStuck_inten (s : State) : s.getStuck.inten = s.inten := rfl
@[simp] theorem State.getStuck_intsts (s : State) : s.getStuck.intsts = s.intsts := rfl
@[simp] theorem State.getStuck_resp0 (s : State) : s.getStuck.resp0 = s.resp0 := rfl
@[simp] theorem State.getStuck_resp1 (s : State) : s.getStuck.resp1 = s.resp1 := rfl
@[simp] theorem State.getStuck_blen (s : State) : s.getStuck.blen = s.blen := rfl
@[simp] theorem State.getStuck_tout (s : State) : s.getStuck.tout = s.tout := rfl
@[simp] theorem State.getStuck_ectl (s : State) : s.getStuck.ectl = s.ectl := rfl
@[simp] theorem State.getStuck_eng (s : State) : s.getStuck.eng = { s.eng with stuck := true } := rfl
@[simp] theorem State.getStuck_dma (s : State) : s.getStuck.dma = s.dma := rfl
@[simp] theorem State.getStuck_cdPrev0 (s : State) : s.getStuck.cdPrev0 = s.cdPrev0 := rfl
@[simp] theorem State.getStuck_cdPrev1 (s : State) : s.getStuck.cdPrev1 = s.cdPrev1 := rfl
@[simp] theorem State.getStuck_pins (s : State) : s.getStuck.pins = s.pins := rfl
@[simp] theorem State.getStuck_history (s : State) : s.getStuck.history = s.history := rfl
@[simp] theorem State.getStuck_mem (s : State) : s.getStuck.mem = s.mem := rfl
@[simp] theorem State.getStuck_lent (s : State) : s.getStuck.lent = s.lent := rfl
@[simp] theorem State.getStuck_busErr (s : State) : s.getStuck.busErr = s.busErr := rfl
@[simp] theorem State.getStuck_overlap (s : State) : s.getStuck.overlap = s.overlap := rfl
@[simp] theorem State.getStuck_card0 (s : State) : s.getStuck.card0 = s.card0 := rfl
@[simp] theorem State.getStuck_card1 (s : State) : s.getStuck.card1 = s.card1 := rfl
@[simp] theorem State.getStuck_prog (s : State) : s.getStuck.prog = s.prog := rfl
@[simp] theorem State.getStuck_rdata (s : State) : s.getStuck.rdata = s.rdata := rfl
@[simp] theorem State.getStuck_turns (s : State) : s.getStuck.turns = s.turns := rfl
@[simp] theorem State.getStuck_inputs (s : State) : s.getStuck.inputs = s.inputs := rfl
@[simp] theorem State.getStuck_draws (s : State) : s.getStuck.draws = s.draws := rfl

/-! `recordCrc7` -/

@[simp] theorem recordCrc7_fb (s : State) (b : Bool) : (recordCrc7 b s).fb = s.fb := rfl
@[simp] theorem recordCrc7_dmactl (s : State) (b : Bool) : (recordCrc7 b s).dmactl = s.dmactl := rfl
@[simp] theorem recordCrc7_dmasa (s : State) (b : Bool) : (recordCrc7 b s).dmasa = s.dmasa := rfl
@[simp] theorem recordCrc7_bcnt (s : State) (b : Bool) : (recordCrc7 b s).bcnt = s.bcnt := rfl
@[simp] theorem recordCrc7_dmainten (s : State) (b : Bool) : (recordCrc7 b s).dmainten = s.dmainten := rfl
@[simp] theorem recordCrc7_dmaintsts (s : State) (b : Bool) : (recordCrc7 b s).dmaintsts = s.dmaintsts := rfl
@[simp] theorem recordCrc7_gctl (s : State) (b : Bool) : (recordCrc7 b s).gctl = s.gctl := rfl
@[simp] theorem recordCrc7_dtaien (s : State) (b : Bool) : (recordCrc7 b s).dtaien = s.dtaien := rfl
@[simp] theorem recordCrc7_dtaif (s : State) (b : Bool) : (recordCrc7 b s).dtaif = s.dtaif := rfl
@[simp] theorem recordCrc7_ctl (s : State) (b : Bool) : (recordCrc7 b s).ctl = s.ctl := rfl
@[simp] theorem recordCrc7_cmdarg (s : State) (b : Bool) : (recordCrc7 b s).cmdarg = s.cmdarg := rfl
@[simp] theorem recordCrc7_inten (s : State) (b : Bool) : (recordCrc7 b s).inten = s.inten := rfl
@[simp] theorem recordCrc7_intsts (s : State) (b : Bool) :
    (recordCrc7 b s).intsts = { s.intsts with crc7 := .known b } := rfl
@[simp] theorem recordCrc7_resp0 (s : State) (b : Bool) : (recordCrc7 b s).resp0 = s.resp0 := rfl
@[simp] theorem recordCrc7_resp1 (s : State) (b : Bool) : (recordCrc7 b s).resp1 = s.resp1 := rfl
@[simp] theorem recordCrc7_blen (s : State) (b : Bool) : (recordCrc7 b s).blen = s.blen := rfl
@[simp] theorem recordCrc7_tout (s : State) (b : Bool) : (recordCrc7 b s).tout = s.tout := rfl
@[simp] theorem recordCrc7_ectl (s : State) (b : Bool) : (recordCrc7 b s).ectl = s.ectl := rfl
@[simp] theorem recordCrc7_eng (s : State) (b : Bool) : (recordCrc7 b s).eng = s.eng := rfl
@[simp] theorem recordCrc7_dma (s : State) (b : Bool) : (recordCrc7 b s).dma = s.dma := rfl
@[simp] theorem recordCrc7_cdPrev0 (s : State) (b : Bool) : (recordCrc7 b s).cdPrev0 = s.cdPrev0 := rfl
@[simp] theorem recordCrc7_cdPrev1 (s : State) (b : Bool) : (recordCrc7 b s).cdPrev1 = s.cdPrev1 := rfl
@[simp] theorem recordCrc7_pins (s : State) (b : Bool) : (recordCrc7 b s).pins = s.pins := rfl
@[simp] theorem recordCrc7_history (s : State) (b : Bool) : (recordCrc7 b s).history = s.history := rfl
@[simp] theorem recordCrc7_mem (s : State) (b : Bool) : (recordCrc7 b s).mem = s.mem := rfl
@[simp] theorem recordCrc7_lent (s : State) (b : Bool) : (recordCrc7 b s).lent = s.lent := rfl
@[simp] theorem recordCrc7_busErr (s : State) (b : Bool) : (recordCrc7 b s).busErr = s.busErr := rfl
@[simp] theorem recordCrc7_overlap (s : State) (b : Bool) : (recordCrc7 b s).overlap = s.overlap := rfl
@[simp] theorem recordCrc7_card0 (s : State) (b : Bool) : (recordCrc7 b s).card0 = s.card0 := rfl
@[simp] theorem recordCrc7_card1 (s : State) (b : Bool) : (recordCrc7 b s).card1 = s.card1 := rfl
@[simp] theorem recordCrc7_prog (s : State) (b : Bool) : (recordCrc7 b s).prog = s.prog := rfl
@[simp] theorem recordCrc7_rdata (s : State) (b : Bool) : (recordCrc7 b s).rdata = s.rdata := rfl
@[simp] theorem recordCrc7_turns (s : State) (b : Bool) : (recordCrc7 b s).turns = s.turns := rfl
@[simp] theorem recordCrc7_inputs (s : State) (b : Bool) : (recordCrc7 b s).inputs = s.inputs := rfl
@[simp] theorem recordCrc7_draws (s : State) (b : Bool) : (recordCrc7 b s).draws = s.draws := rfl

/-! `recordCrc16` -/

@[simp] theorem recordCrc16_fb (s : State) (b : Bool) : (recordCrc16 b s).fb = s.fb := rfl
@[simp] theorem recordCrc16_dmactl (s : State) (b : Bool) : (recordCrc16 b s).dmactl = s.dmactl := rfl
@[simp] theorem recordCrc16_dmasa (s : State) (b : Bool) : (recordCrc16 b s).dmasa = s.dmasa := rfl
@[simp] theorem recordCrc16_bcnt (s : State) (b : Bool) : (recordCrc16 b s).bcnt = s.bcnt := rfl
@[simp] theorem recordCrc16_dmainten (s : State) (b : Bool) : (recordCrc16 b s).dmainten = s.dmainten := rfl
@[simp] theorem recordCrc16_dmaintsts (s : State) (b : Bool) : (recordCrc16 b s).dmaintsts = s.dmaintsts := rfl
@[simp] theorem recordCrc16_gctl (s : State) (b : Bool) : (recordCrc16 b s).gctl = s.gctl := rfl
@[simp] theorem recordCrc16_dtaien (s : State) (b : Bool) : (recordCrc16 b s).dtaien = s.dtaien := rfl
@[simp] theorem recordCrc16_dtaif (s : State) (b : Bool) : (recordCrc16 b s).dtaif = s.dtaif := rfl
@[simp] theorem recordCrc16_ctl (s : State) (b : Bool) : (recordCrc16 b s).ctl = s.ctl := rfl
@[simp] theorem recordCrc16_cmdarg (s : State) (b : Bool) : (recordCrc16 b s).cmdarg = s.cmdarg := rfl
@[simp] theorem recordCrc16_inten (s : State) (b : Bool) : (recordCrc16 b s).inten = s.inten := rfl
@[simp] theorem recordCrc16_intsts (s : State) (b : Bool) :
    (recordCrc16 b s).intsts = { s.intsts with crc16 := .known b } := rfl
@[simp] theorem recordCrc16_resp0 (s : State) (b : Bool) : (recordCrc16 b s).resp0 = s.resp0 := rfl
@[simp] theorem recordCrc16_resp1 (s : State) (b : Bool) : (recordCrc16 b s).resp1 = s.resp1 := rfl
@[simp] theorem recordCrc16_blen (s : State) (b : Bool) : (recordCrc16 b s).blen = s.blen := rfl
@[simp] theorem recordCrc16_tout (s : State) (b : Bool) : (recordCrc16 b s).tout = s.tout := rfl
@[simp] theorem recordCrc16_ectl (s : State) (b : Bool) : (recordCrc16 b s).ectl = s.ectl := rfl
@[simp] theorem recordCrc16_eng (s : State) (b : Bool) : (recordCrc16 b s).eng = s.eng := rfl
@[simp] theorem recordCrc16_dma (s : State) (b : Bool) : (recordCrc16 b s).dma = s.dma := rfl
@[simp] theorem recordCrc16_cdPrev0 (s : State) (b : Bool) : (recordCrc16 b s).cdPrev0 = s.cdPrev0 := rfl
@[simp] theorem recordCrc16_cdPrev1 (s : State) (b : Bool) : (recordCrc16 b s).cdPrev1 = s.cdPrev1 := rfl
@[simp] theorem recordCrc16_pins (s : State) (b : Bool) : (recordCrc16 b s).pins = s.pins := rfl
@[simp] theorem recordCrc16_history (s : State) (b : Bool) : (recordCrc16 b s).history = s.history := rfl
@[simp] theorem recordCrc16_mem (s : State) (b : Bool) : (recordCrc16 b s).mem = s.mem := rfl
@[simp] theorem recordCrc16_lent (s : State) (b : Bool) : (recordCrc16 b s).lent = s.lent := rfl
@[simp] theorem recordCrc16_busErr (s : State) (b : Bool) : (recordCrc16 b s).busErr = s.busErr := rfl
@[simp] theorem recordCrc16_overlap (s : State) (b : Bool) : (recordCrc16 b s).overlap = s.overlap := rfl
@[simp] theorem recordCrc16_card0 (s : State) (b : Bool) : (recordCrc16 b s).card0 = s.card0 := rfl
@[simp] theorem recordCrc16_card1 (s : State) (b : Bool) : (recordCrc16 b s).card1 = s.card1 := rfl
@[simp] theorem recordCrc16_prog (s : State) (b : Bool) : (recordCrc16 b s).prog = s.prog := rfl
@[simp] theorem recordCrc16_rdata (s : State) (b : Bool) : (recordCrc16 b s).rdata = s.rdata := rfl
@[simp] theorem recordCrc16_turns (s : State) (b : Bool) : (recordCrc16 b s).turns = s.turns := rfl
@[simp] theorem recordCrc16_inputs (s : State) (b : Bool) : (recordCrc16 b s).inputs = s.inputs := rfl
@[simp] theorem recordCrc16_draws (s : State) (b : Bool) : (recordCrc16 b s).draws = s.draws := rfl

/-! `recordCrcStatus` -/

@[simp] theorem recordCrcStatus_fb (s : State) (t : BitVec 3) : (recordCrcStatus t s).fb = s.fb := rfl
@[simp] theorem recordCrcStatus_dmactl (s : State) (t : BitVec 3) : (recordCrcStatus t s).dmactl = s.dmactl := rfl
@[simp] theorem recordCrcStatus_dmasa (s : State) (t : BitVec 3) : (recordCrcStatus t s).dmasa = s.dmasa := rfl
@[simp] theorem recordCrcStatus_bcnt (s : State) (t : BitVec 3) : (recordCrcStatus t s).bcnt = s.bcnt := rfl
@[simp] theorem recordCrcStatus_dmainten (s : State) (t : BitVec 3) : (recordCrcStatus t s).dmainten = s.dmainten := rfl
@[simp] theorem recordCrcStatus_dmaintsts (s : State) (t : BitVec 3) :
    (recordCrcStatus t s).dmaintsts = s.dmaintsts := rfl
@[simp] theorem recordCrcStatus_gctl (s : State) (t : BitVec 3) : (recordCrcStatus t s).gctl = s.gctl := rfl
@[simp] theorem recordCrcStatus_dtaien (s : State) (t : BitVec 3) : (recordCrcStatus t s).dtaien = s.dtaien := rfl
@[simp] theorem recordCrcStatus_dtaif (s : State) (t : BitVec 3) : (recordCrcStatus t s).dtaif = s.dtaif := rfl
@[simp] theorem recordCrcStatus_ctl (s : State) (t : BitVec 3) : (recordCrcStatus t s).ctl = s.ctl := rfl
@[simp] theorem recordCrcStatus_cmdarg (s : State) (t : BitVec 3) : (recordCrcStatus t s).cmdarg = s.cmdarg := rfl
@[simp] theorem recordCrcStatus_inten (s : State) (t : BitVec 3) : (recordCrcStatus t s).inten = s.inten := rfl
@[simp] theorem recordCrcStatus_intsts (s : State) (t : BitVec 3) :
    (recordCrcStatus t s).intsts = { s.intsts with crcsts := .known t } := rfl
@[simp] theorem recordCrcStatus_resp0 (s : State) (t : BitVec 3) : (recordCrcStatus t s).resp0 = s.resp0 := rfl
@[simp] theorem recordCrcStatus_resp1 (s : State) (t : BitVec 3) : (recordCrcStatus t s).resp1 = s.resp1 := rfl
@[simp] theorem recordCrcStatus_blen (s : State) (t : BitVec 3) : (recordCrcStatus t s).blen = s.blen := rfl
@[simp] theorem recordCrcStatus_tout (s : State) (t : BitVec 3) : (recordCrcStatus t s).tout = s.tout := rfl
@[simp] theorem recordCrcStatus_ectl (s : State) (t : BitVec 3) : (recordCrcStatus t s).ectl = s.ectl := rfl
@[simp] theorem recordCrcStatus_eng (s : State) (t : BitVec 3) : (recordCrcStatus t s).eng = s.eng := rfl
@[simp] theorem recordCrcStatus_dma (s : State) (t : BitVec 3) : (recordCrcStatus t s).dma = s.dma := rfl
@[simp] theorem recordCrcStatus_cdPrev0 (s : State) (t : BitVec 3) : (recordCrcStatus t s).cdPrev0 = s.cdPrev0 := rfl
@[simp] theorem recordCrcStatus_cdPrev1 (s : State) (t : BitVec 3) : (recordCrcStatus t s).cdPrev1 = s.cdPrev1 := rfl
@[simp] theorem recordCrcStatus_pins (s : State) (t : BitVec 3) : (recordCrcStatus t s).pins = s.pins := rfl
@[simp] theorem recordCrcStatus_history (s : State) (t : BitVec 3) : (recordCrcStatus t s).history = s.history := rfl
@[simp] theorem recordCrcStatus_mem (s : State) (t : BitVec 3) : (recordCrcStatus t s).mem = s.mem := rfl
@[simp] theorem recordCrcStatus_lent (s : State) (t : BitVec 3) : (recordCrcStatus t s).lent = s.lent := rfl
@[simp] theorem recordCrcStatus_busErr (s : State) (t : BitVec 3) : (recordCrcStatus t s).busErr = s.busErr := rfl
@[simp] theorem recordCrcStatus_overlap (s : State) (t : BitVec 3) : (recordCrcStatus t s).overlap = s.overlap := rfl
@[simp] theorem recordCrcStatus_card0 (s : State) (t : BitVec 3) : (recordCrcStatus t s).card0 = s.card0 := rfl
@[simp] theorem recordCrcStatus_card1 (s : State) (t : BitVec 3) : (recordCrcStatus t s).card1 = s.card1 := rfl
@[simp] theorem recordCrcStatus_prog (s : State) (t : BitVec 3) : (recordCrcStatus t s).prog = s.prog := rfl
@[simp] theorem recordCrcStatus_rdata (s : State) (t : BitVec 3) : (recordCrcStatus t s).rdata = s.rdata := rfl
@[simp] theorem recordCrcStatus_turns (s : State) (t : BitVec 3) : (recordCrcStatus t s).turns = s.turns := rfl
@[simp] theorem recordCrcStatus_inputs (s : State) (t : BitVec 3) : (recordCrcStatus t s).inputs = s.inputs := rfl
@[simp] theorem recordCrcStatus_draws (s : State) (t : BitVec 3) : (recordCrcStatus t s).draws = s.draws := rfl

/-! `takeTurn` -/

@[simp] theorem takeTurn_fb (s : State) : (takeTurn s).fb = s.fb := rfl
@[simp] theorem takeTurn_dmactl (s : State) : (takeTurn s).dmactl = s.dmactl := rfl
@[simp] theorem takeTurn_dmasa (s : State) : (takeTurn s).dmasa = s.dmasa := rfl
@[simp] theorem takeTurn_bcnt (s : State) : (takeTurn s).bcnt = s.bcnt := rfl
@[simp] theorem takeTurn_dmainten (s : State) : (takeTurn s).dmainten = s.dmainten := rfl
@[simp] theorem takeTurn_dmaintsts (s : State) : (takeTurn s).dmaintsts = s.dmaintsts := rfl
@[simp] theorem takeTurn_gctl (s : State) : (takeTurn s).gctl = s.gctl := rfl
@[simp] theorem takeTurn_dtaien (s : State) : (takeTurn s).dtaien = s.dtaien := rfl
@[simp] theorem takeTurn_dtaif (s : State) : (takeTurn s).dtaif = s.dtaif := rfl
@[simp] theorem takeTurn_ctl (s : State) : (takeTurn s).ctl = s.ctl := rfl
@[simp] theorem takeTurn_cmdarg (s : State) : (takeTurn s).cmdarg = s.cmdarg := rfl
@[simp] theorem takeTurn_inten (s : State) : (takeTurn s).inten = s.inten := rfl
@[simp] theorem takeTurn_intsts (s : State) : (takeTurn s).intsts = s.intsts := rfl
@[simp] theorem takeTurn_resp0 (s : State) : (takeTurn s).resp0 = s.resp0 := rfl
@[simp] theorem takeTurn_resp1 (s : State) : (takeTurn s).resp1 = s.resp1 := rfl
@[simp] theorem takeTurn_blen (s : State) : (takeTurn s).blen = s.blen := rfl
@[simp] theorem takeTurn_tout (s : State) : (takeTurn s).tout = s.tout := rfl
@[simp] theorem takeTurn_ectl (s : State) : (takeTurn s).ectl = s.ectl := rfl
@[simp] theorem takeTurn_eng (s : State) : (takeTurn s).eng = s.eng := rfl
@[simp] theorem takeTurn_dma (s : State) : (takeTurn s).dma = s.dma := rfl
@[simp] theorem takeTurn_cdPrev0 (s : State) : (takeTurn s).cdPrev0 = s.cdPrev0 := rfl
@[simp] theorem takeTurn_cdPrev1 (s : State) : (takeTurn s).cdPrev1 = s.cdPrev1 := rfl
@[simp] theorem takeTurn_pins (s : State) : (takeTurn s).pins = s.pins := rfl
@[simp] theorem takeTurn_history (s : State) : (takeTurn s).history = s.history := rfl
@[simp] theorem takeTurn_mem (s : State) : (takeTurn s).mem = s.mem := rfl
@[simp] theorem takeTurn_lent (s : State) : (takeTurn s).lent = s.lent := rfl
@[simp] theorem takeTurn_busErr (s : State) : (takeTurn s).busErr = s.busErr := rfl
@[simp] theorem takeTurn_overlap (s : State) : (takeTurn s).overlap = s.overlap := rfl
@[simp] theorem takeTurn_card0 (s : State) : (takeTurn s).card0 = s.card0 := rfl
@[simp] theorem takeTurn_card1 (s : State) : (takeTurn s).card1 = s.card1 := rfl
@[simp] theorem takeTurn_prog (s : State) : (takeTurn s).prog = s.prog := rfl
@[simp] theorem takeTurn_rdata (s : State) : (takeTurn s).rdata = s.rdata := rfl
@[simp] theorem takeTurn_turns (s : State) : (takeTurn s).turns = s.turns.tail := rfl
@[simp] theorem takeTurn_inputs (s : State) : (takeTurn s).inputs = s.inputs := rfl
@[simp] theorem takeTurn_draws (s : State) : (takeTurn s).draws = s.draws + 1 := rfl

/-! `stopEngine` -/

@[simp] theorem stopEngine_fb (s : State) : (stopEngine s).fb = s.fb := rfl
@[simp] theorem stopEngine_dmactl (s : State) : (stopEngine s).dmactl = s.dmactl := rfl
@[simp] theorem stopEngine_dmasa (s : State) : (stopEngine s).dmasa = s.dmasa := rfl
@[simp] theorem stopEngine_bcnt (s : State) : (stopEngine s).bcnt = s.bcnt := rfl
@[simp] theorem stopEngine_dmainten (s : State) : (stopEngine s).dmainten = s.dmainten := rfl
@[simp] theorem stopEngine_dmaintsts (s : State) : (stopEngine s).dmaintsts = s.dmaintsts := rfl
@[simp] theorem stopEngine_gctl (s : State) : (stopEngine s).gctl = s.gctl := rfl
@[simp] theorem stopEngine_dtaien (s : State) : (stopEngine s).dtaien = s.dtaien := rfl
@[simp] theorem stopEngine_dtaif (s : State) : (stopEngine s).dtaif = s.dtaif := rfl
@[simp] theorem stopEngine_ctl (s : State) :
    (stopEngine s).ctl = { s.ctl with dien := .any, doen := .any } := rfl
@[simp] theorem stopEngine_cmdarg (s : State) : (stopEngine s).cmdarg = s.cmdarg := rfl
@[simp] theorem stopEngine_inten (s : State) : (stopEngine s).inten = s.inten := rfl
@[simp] theorem stopEngine_intsts (s : State) : (stopEngine s).intsts = s.intsts := rfl
@[simp] theorem stopEngine_resp0 (s : State) : (stopEngine s).resp0 = s.resp0 := rfl
@[simp] theorem stopEngine_resp1 (s : State) : (stopEngine s).resp1 = s.resp1 := rfl
@[simp] theorem stopEngine_blen (s : State) : (stopEngine s).blen = s.blen := rfl
@[simp] theorem stopEngine_tout (s : State) : (stopEngine s).tout = s.tout := rfl
@[simp] theorem stopEngine_ectl (s : State) : (stopEngine s).ectl = s.ectl := rfl
@[simp] theorem stopEngine_eng (s : State) : (stopEngine s).eng = { s.eng with halted := true } := rfl
@[simp] theorem stopEngine_dma (s : State) : (stopEngine s).dma = s.dma := rfl
@[simp] theorem stopEngine_cdPrev0 (s : State) : (stopEngine s).cdPrev0 = s.cdPrev0 := rfl
@[simp] theorem stopEngine_cdPrev1 (s : State) : (stopEngine s).cdPrev1 = s.cdPrev1 := rfl
@[simp] theorem stopEngine_pins (s : State) : (stopEngine s).pins = s.pins := rfl
@[simp] theorem stopEngine_history (s : State) : (stopEngine s).history = s.history := rfl
@[simp] theorem stopEngine_mem (s : State) : (stopEngine s).mem = s.mem := rfl
@[simp] theorem stopEngine_lent (s : State) : (stopEngine s).lent = s.lent := rfl
@[simp] theorem stopEngine_busErr (s : State) : (stopEngine s).busErr = s.busErr := rfl
@[simp] theorem stopEngine_overlap (s : State) : (stopEngine s).overlap = s.overlap := rfl
@[simp] theorem stopEngine_card0 (s : State) : (stopEngine s).card0 = s.card0 := rfl
@[simp] theorem stopEngine_card1 (s : State) : (stopEngine s).card1 = s.card1 := rfl
@[simp] theorem stopEngine_prog (s : State) : (stopEngine s).prog = s.prog := rfl
@[simp] theorem stopEngine_rdata (s : State) : (stopEngine s).rdata = s.rdata := rfl
@[simp] theorem stopEngine_turns (s : State) : (stopEngine s).turns = s.turns := rfl
@[simp] theorem stopEngine_inputs (s : State) : (stopEngine s).inputs = s.inputs := rfl
@[simp] theorem stopEngine_draws (s : State) : (stopEngine s).draws = s.draws := rfl

/-! `haltResponse` -/

@[simp] theorem haltResponse_fb (s : State) : (haltResponse s).fb = s.fb := rfl
@[simp] theorem haltResponse_dmactl (s : State) : (haltResponse s).dmactl = s.dmactl := rfl
@[simp] theorem haltResponse_dmasa (s : State) : (haltResponse s).dmasa = s.dmasa := rfl
@[simp] theorem haltResponse_bcnt (s : State) : (haltResponse s).bcnt = s.bcnt := rfl
@[simp] theorem haltResponse_dmainten (s : State) : (haltResponse s).dmainten = s.dmainten := rfl
@[simp] theorem haltResponse_dmaintsts (s : State) : (haltResponse s).dmaintsts = s.dmaintsts := rfl
@[simp] theorem haltResponse_gctl (s : State) : (haltResponse s).gctl = s.gctl := rfl
@[simp] theorem haltResponse_dtaien (s : State) : (haltResponse s).dtaien = s.dtaien := rfl
@[simp] theorem haltResponse_dtaif (s : State) : (haltResponse s).dtaif = s.dtaif := rfl
@[simp] theorem haltResponse_ctl (s : State) :
    (haltResponse s).ctl = { s.ctl with rien := .any, r2en := .any, dien := .any, doen := .any } := rfl
@[simp] theorem haltResponse_cmdarg (s : State) : (haltResponse s).cmdarg = s.cmdarg := rfl
@[simp] theorem haltResponse_inten (s : State) : (haltResponse s).inten = s.inten := rfl
@[simp] theorem haltResponse_intsts (s : State) : (haltResponse s).intsts = s.intsts := rfl
@[simp] theorem haltResponse_resp0 (s : State) : (haltResponse s).resp0 = s.resp0 := rfl
@[simp] theorem haltResponse_resp1 (s : State) : (haltResponse s).resp1 = s.resp1 := rfl
@[simp] theorem haltResponse_blen (s : State) : (haltResponse s).blen = s.blen := rfl
@[simp] theorem haltResponse_tout (s : State) : (haltResponse s).tout = s.tout := rfl
@[simp] theorem haltResponse_ectl (s : State) : (haltResponse s).ectl = s.ectl := rfl
@[simp] theorem haltResponse_eng (s : State) : (haltResponse s).eng = { s.eng with halted := true } := rfl
@[simp] theorem haltResponse_dma (s : State) : (haltResponse s).dma = s.dma := rfl
@[simp] theorem haltResponse_cdPrev0 (s : State) : (haltResponse s).cdPrev0 = s.cdPrev0 := rfl
@[simp] theorem haltResponse_cdPrev1 (s : State) : (haltResponse s).cdPrev1 = s.cdPrev1 := rfl
@[simp] theorem haltResponse_pins (s : State) : (haltResponse s).pins = s.pins := rfl
@[simp] theorem haltResponse_history (s : State) : (haltResponse s).history = s.history := rfl
@[simp] theorem haltResponse_mem (s : State) : (haltResponse s).mem = s.mem := rfl
@[simp] theorem haltResponse_lent (s : State) : (haltResponse s).lent = s.lent := rfl
@[simp] theorem haltResponse_busErr (s : State) : (haltResponse s).busErr = s.busErr := rfl
@[simp] theorem haltResponse_overlap (s : State) : (haltResponse s).overlap = s.overlap := rfl
@[simp] theorem haltResponse_card0 (s : State) : (haltResponse s).card0 = s.card0 := rfl
@[simp] theorem haltResponse_card1 (s : State) : (haltResponse s).card1 = s.card1 := rfl
@[simp] theorem haltResponse_prog (s : State) : (haltResponse s).prog = s.prog := rfl
@[simp] theorem haltResponse_rdata (s : State) : (haltResponse s).rdata = s.rdata := rfl
@[simp] theorem haltResponse_turns (s : State) : (haltResponse s).turns = s.turns := rfl
@[simp] theorem haltResponse_inputs (s : State) : (haltResponse s).inputs = s.inputs := rfl
@[simp] theorem haltResponse_draws (s : State) : (haltResponse s).draws = s.draws := rfl

/-! `loseCount` -/

@[simp] theorem loseCount_fb (s : State) : (loseCount s).fb = s.fb := rfl
@[simp] theorem loseCount_dmactl (s : State) : (loseCount s).dmactl = { s.dmactl with dmabusy := .any } := rfl
@[simp] theorem loseCount_dmasa (s : State) : (loseCount s).dmasa = s.dmasa := rfl
@[simp] theorem loseCount_bcnt (s : State) : (loseCount s).bcnt = .any := rfl
@[simp] theorem loseCount_dmainten (s : State) : (loseCount s).dmainten = s.dmainten := rfl
@[simp] theorem loseCount_dmaintsts (s : State) : (loseCount s).dmaintsts = s.dmaintsts := rfl
@[simp] theorem loseCount_gctl (s : State) : (loseCount s).gctl = s.gctl := rfl
@[simp] theorem loseCount_dtaien (s : State) : (loseCount s).dtaien = s.dtaien := rfl
@[simp] theorem loseCount_dtaif (s : State) : (loseCount s).dtaif = s.dtaif := rfl
@[simp] theorem loseCount_ctl (s : State) : (loseCount s).ctl = s.ctl := rfl
@[simp] theorem loseCount_cmdarg (s : State) : (loseCount s).cmdarg = s.cmdarg := rfl
@[simp] theorem loseCount_inten (s : State) : (loseCount s).inten = s.inten := rfl
@[simp] theorem loseCount_intsts (s : State) : (loseCount s).intsts = s.intsts := rfl
@[simp] theorem loseCount_resp0 (s : State) : (loseCount s).resp0 = s.resp0 := rfl
@[simp] theorem loseCount_resp1 (s : State) : (loseCount s).resp1 = s.resp1 := rfl
@[simp] theorem loseCount_blen (s : State) : (loseCount s).blen = s.blen := rfl
@[simp] theorem loseCount_tout (s : State) : (loseCount s).tout = s.tout := rfl
@[simp] theorem loseCount_ectl (s : State) : (loseCount s).ectl = s.ectl := rfl
@[simp] theorem loseCount_eng (s : State) : (loseCount s).eng = s.eng := rfl
@[simp] theorem loseCount_dma (s : State) : (loseCount s).dma = s.dma := rfl
@[simp] theorem loseCount_cdPrev0 (s : State) : (loseCount s).cdPrev0 = s.cdPrev0 := rfl
@[simp] theorem loseCount_cdPrev1 (s : State) : (loseCount s).cdPrev1 = s.cdPrev1 := rfl
@[simp] theorem loseCount_pins (s : State) : (loseCount s).pins = s.pins := rfl
@[simp] theorem loseCount_history (s : State) : (loseCount s).history = s.history := rfl
@[simp] theorem loseCount_mem (s : State) : (loseCount s).mem = s.mem := rfl
@[simp] theorem loseCount_lent (s : State) : (loseCount s).lent = s.lent := rfl
@[simp] theorem loseCount_busErr (s : State) : (loseCount s).busErr = s.busErr := rfl
@[simp] theorem loseCount_overlap (s : State) : (loseCount s).overlap = s.overlap := rfl
@[simp] theorem loseCount_card0 (s : State) : (loseCount s).card0 = s.card0 := rfl
@[simp] theorem loseCount_card1 (s : State) : (loseCount s).card1 = s.card1 := rfl
@[simp] theorem loseCount_prog (s : State) : (loseCount s).prog = s.prog := rfl
@[simp] theorem loseCount_rdata (s : State) : (loseCount s).rdata = s.rdata := rfl
@[simp] theorem loseCount_turns (s : State) : (loseCount s).turns = s.turns := rfl
@[simp] theorem loseCount_inputs (s : State) : (loseCount s).inputs = s.inputs := rfl
@[simp] theorem loseCount_draws (s : State) : (loseCount s).draws = s.draws := rfl

/-! `resetDma` -/

@[simp] theorem resetDma_fb (s : State) : (resetDma s).fb = fbAny := rfl
@[simp] theorem resetDma_dmactl (s : State) : (resetDma s).dmactl = { s.dmactl with dmabusy := .known false } := rfl
@[simp] theorem resetDma_dmasa (s : State) : (resetDma s).dmasa = s.dmasa := rfl
@[simp] theorem resetDma_bcnt (s : State) : (resetDma s).bcnt = .known 0#26 := rfl
@[simp] theorem resetDma_dmainten (s : State) : (resetDma s).dmainten = s.dmainten := rfl
@[simp] theorem resetDma_dmaintsts (s : State) : (resetDma s).dmaintsts = s.dmaintsts := rfl
@[simp] theorem resetDma_gctl (s : State) : (resetDma s).gctl = s.gctl := rfl
@[simp] theorem resetDma_dtaien (s : State) : (resetDma s).dtaien = s.dtaien := rfl
@[simp] theorem resetDma_dtaif (s : State) : (resetDma s).dtaif = s.dtaif := rfl
@[simp] theorem resetDma_ctl (s : State) : (resetDma s).ctl = s.ctl := rfl
@[simp] theorem resetDma_cmdarg (s : State) : (resetDma s).cmdarg = s.cmdarg := rfl
@[simp] theorem resetDma_inten (s : State) : (resetDma s).inten = s.inten := rfl
@[simp] theorem resetDma_intsts (s : State) : (resetDma s).intsts = s.intsts := rfl
@[simp] theorem resetDma_resp0 (s : State) : (resetDma s).resp0 = s.resp0 := rfl
@[simp] theorem resetDma_resp1 (s : State) : (resetDma s).resp1 = s.resp1 := rfl
@[simp] theorem resetDma_blen (s : State) : (resetDma s).blen = s.blen := rfl
@[simp] theorem resetDma_tout (s : State) : (resetDma s).tout = s.tout := rfl
@[simp] theorem resetDma_ectl (s : State) : (resetDma s).ectl = s.ectl := rfl
@[simp] theorem resetDma_eng (s : State) : (resetDma s).eng = s.eng := rfl
@[simp] theorem resetDma_dma (s : State) :
    (resetDma s).dma = { halted := false, cur := .any, segLeft := 0, padPtr := .any, eotSeen := false, dest := some [] } := rfl
@[simp] theorem resetDma_cdPrev0 (s : State) : (resetDma s).cdPrev0 = s.cdPrev0 := rfl
@[simp] theorem resetDma_cdPrev1 (s : State) : (resetDma s).cdPrev1 = s.cdPrev1 := rfl
@[simp] theorem resetDma_pins (s : State) : (resetDma s).pins = s.pins := rfl
@[simp] theorem resetDma_history (s : State) : (resetDma s).history = s.history := rfl
@[simp] theorem resetDma_mem (s : State) : (resetDma s).mem = s.mem := rfl
@[simp] theorem resetDma_lent (s : State) : (resetDma s).lent = s.lent := rfl
@[simp] theorem resetDma_busErr (s : State) : (resetDma s).busErr = s.busErr := rfl
@[simp] theorem resetDma_overlap (s : State) : (resetDma s).overlap = s.overlap := rfl
@[simp] theorem resetDma_card0 (s : State) : (resetDma s).card0 = s.card0 := rfl
@[simp] theorem resetDma_card1 (s : State) : (resetDma s).card1 = s.card1 := rfl
@[simp] theorem resetDma_prog (s : State) : (resetDma s).prog = s.prog := rfl
@[simp] theorem resetDma_rdata (s : State) : (resetDma s).rdata = s.rdata := rfl
@[simp] theorem resetDma_turns (s : State) : (resetDma s).turns = s.turns := rfl
@[simp] theorem resetDma_inputs (s : State) : (resetDma s).inputs = s.inputs := rfl
@[simp] theorem resetDma_draws (s : State) : (resetDma s).draws = s.draws := rfl

/-! `resetEngine` -/

@[simp] theorem resetEngine_fb (s : State) : (resetEngine s).fb = s.fb := rfl
@[simp] theorem resetEngine_dmactl (s : State) : (resetEngine s).dmactl = s.dmactl := rfl
@[simp] theorem resetEngine_dmasa (s : State) : (resetEngine s).dmasa = s.dmasa := rfl
@[simp] theorem resetEngine_bcnt (s : State) : (resetEngine s).bcnt = s.bcnt := rfl
@[simp] theorem resetEngine_dmainten (s : State) : (resetEngine s).dmainten = s.dmainten := rfl
@[simp] theorem resetEngine_dmaintsts (s : State) : (resetEngine s).dmaintsts = s.dmaintsts := rfl
@[simp] theorem resetEngine_gctl (s : State) : (resetEngine s).gctl = s.gctl := rfl
@[simp] theorem resetEngine_dtaien (s : State) : (resetEngine s).dtaien = s.dtaien := rfl
@[simp] theorem resetEngine_dtaif (s : State) : (resetEngine s).dtaif = s.dtaif := rfl
@[simp] theorem resetEngine_ctl (s : State) : (resetEngine s).ctl = s.ctl.noLaunch := rfl
@[simp] theorem resetEngine_cmdarg (s : State) : (resetEngine s).cmdarg = s.cmdarg := rfl
@[simp] theorem resetEngine_inten (s : State) : (resetEngine s).inten = s.inten := rfl
@[simp] theorem resetEngine_intsts (s : State) :
    (resetEngine s).intsts = { s.intsts with crc7 := .any, crc16 := .any, crcsts := .any } := rfl
@[simp] theorem resetEngine_resp0 (s : State) : (resetEngine s).resp0 = .any := rfl
@[simp] theorem resetEngine_resp1 (s : State) : (resetEngine s).resp1 = .any := rfl
@[simp] theorem resetEngine_blen (s : State) : (resetEngine s).blen = s.blen := rfl
@[simp] theorem resetEngine_tout (s : State) : (resetEngine s).tout = s.tout := rfl
@[simp] theorem resetEngine_ectl (s : State) : (resetEngine s).ectl = s.ectl := rfl
@[simp] theorem resetEngine_eng (s : State) :
    (resetEngine s).eng = { s.eng with blocksLeft := 0, dsub := .send, halted := false, stuck := false } := rfl
@[simp] theorem resetEngine_dma (s : State) : (resetEngine s).dma = s.dma := rfl
@[simp] theorem resetEngine_cdPrev0 (s : State) : (resetEngine s).cdPrev0 = s.cdPrev0 := rfl
@[simp] theorem resetEngine_cdPrev1 (s : State) : (resetEngine s).cdPrev1 = s.cdPrev1 := rfl
@[simp] theorem resetEngine_pins (s : State) : (resetEngine s).pins = s.pins := rfl
@[simp] theorem resetEngine_history (s : State) : (resetEngine s).history = s.history := rfl
@[simp] theorem resetEngine_mem (s : State) : (resetEngine s).mem = s.mem := rfl
@[simp] theorem resetEngine_lent (s : State) : (resetEngine s).lent = [] := rfl
@[simp] theorem resetEngine_busErr (s : State) : (resetEngine s).busErr = s.busErr := rfl
@[simp] theorem resetEngine_overlap (s : State) : (resetEngine s).overlap = s.overlap := rfl
@[simp] theorem resetEngine_card0 (s : State) : (resetEngine s).card0 = s.card0 := rfl
@[simp] theorem resetEngine_card1 (s : State) : (resetEngine s).card1 = s.card1 := rfl
@[simp] theorem resetEngine_prog (s : State) : (resetEngine s).prog = s.prog := rfl
@[simp] theorem resetEngine_rdata (s : State) : (resetEngine s).rdata = s.rdata := rfl
@[simp] theorem resetEngine_turns (s : State) : (resetEngine s).turns = s.turns := rfl
@[simp] theorem resetEngine_inputs (s : State) : (resetEngine s).inputs = s.inputs := rfl
@[simp] theorem resetEngine_draws (s : State) : (resetEngine s).draws = s.draws := rfl

/-! `haltData` -/

@[simp] theorem haltData_fb (s : State) : (haltData s).fb = fbAny := rfl
@[simp] theorem haltData_dmactl (s : State) : (haltData s).dmactl = { s.dmactl with dmabusy := .any } := rfl
@[simp] theorem haltData_dmasa (s : State) : (haltData s).dmasa = s.dmasa := rfl
@[simp] theorem haltData_bcnt (s : State) : (haltData s).bcnt = .any := rfl
@[simp] theorem haltData_dmainten (s : State) : (haltData s).dmainten = s.dmainten := rfl
@[simp] theorem haltData_dmaintsts (s : State) : (haltData s).dmaintsts = s.dmaintsts := rfl
@[simp] theorem haltData_gctl (s : State) : (haltData s).gctl = s.gctl := rfl
@[simp] theorem haltData_dtaien (s : State) : (haltData s).dtaien = s.dtaien := rfl
@[simp] theorem haltData_dtaif (s : State) : (haltData s).dtaif = s.dtaif := rfl
@[simp] theorem haltData_ctl (s : State) :
    (haltData s).ctl = { s.ctl with rien := s.ctl.rien.blur, r2en := s.ctl.r2en.blur, dien := .any, doen := .any } := rfl
@[simp] theorem haltData_cmdarg (s : State) : (haltData s).cmdarg = s.cmdarg := rfl
@[simp] theorem haltData_inten (s : State) : (haltData s).inten = s.inten := rfl
@[simp] theorem haltData_intsts (s : State) : (haltData s).intsts = { s.intsts with blkdif := .any } := rfl
@[simp] theorem haltData_resp0 (s : State) : (haltData s).resp0 = s.resp0 := rfl
@[simp] theorem haltData_resp1 (s : State) : (haltData s).resp1 = s.resp1 := rfl
@[simp] theorem haltData_blen (s : State) : (haltData s).blen = s.blen := rfl
@[simp] theorem haltData_tout (s : State) : (haltData s).tout = s.tout := rfl
@[simp] theorem haltData_ectl (s : State) : (haltData s).ectl = s.ectl := rfl
@[simp] theorem haltData_eng (s : State) : (haltData s).eng = { s.eng with halted := true } := rfl
@[simp] theorem haltData_dma (s : State) : (haltData s).dma = { s.dma with halted := true } := rfl
@[simp] theorem haltData_cdPrev0 (s : State) : (haltData s).cdPrev0 = s.cdPrev0 := rfl
@[simp] theorem haltData_cdPrev1 (s : State) : (haltData s).cdPrev1 = s.cdPrev1 := rfl
@[simp] theorem haltData_pins (s : State) : (haltData s).pins = s.pins := rfl
@[simp] theorem haltData_history (s : State) : (haltData s).history = s.history := rfl
@[simp] theorem haltData_mem (s : State) : (haltData s).mem = if s.ctl.dien.isOn then blurDest s else s.mem := rfl
@[simp] theorem haltData_lent (s : State) : (haltData s).lent = s.lent := rfl
@[simp] theorem haltData_busErr (s : State) : (haltData s).busErr = s.busErr := rfl
@[simp] theorem haltData_overlap (s : State) : (haltData s).overlap = s.overlap := rfl
@[simp] theorem haltData_card0 (s : State) : (haltData s).card0 = s.card0 := rfl
@[simp] theorem haltData_card1 (s : State) : (haltData s).card1 = s.card1 := rfl
@[simp] theorem haltData_prog (s : State) : (haltData s).prog = s.prog := rfl
@[simp] theorem haltData_rdata (s : State) : (haltData s).rdata = s.rdata := rfl
@[simp] theorem haltData_turns (s : State) : (haltData s).turns = s.turns := rfl
@[simp] theorem haltData_inputs (s : State) : (haltData s).inputs = s.inputs := rfl
@[simp] theorem haltData_draws (s : State) : (haltData s).draws = s.draws := rfl

/-! `cutSequencer` -/

@[simp] theorem cutSequencer_fb (s : State) : (cutSequencer s).fb = s.fb := rfl
@[simp] theorem cutSequencer_dmasa (s : State) : (cutSequencer s).dmasa = s.dmasa := rfl
@[simp] theorem cutSequencer_dmainten (s : State) : (cutSequencer s).dmainten = s.dmainten := rfl
@[simp] theorem cutSequencer_dmaintsts (s : State) : (cutSequencer s).dmaintsts = s.dmaintsts := rfl
@[simp] theorem cutSequencer_gctl (s : State) : (cutSequencer s).gctl = s.gctl := rfl
@[simp] theorem cutSequencer_dtaien (s : State) : (cutSequencer s).dtaien = s.dtaien := rfl
@[simp] theorem cutSequencer_dtaif (s : State) : (cutSequencer s).dtaif = s.dtaif := rfl
@[simp] theorem cutSequencer_ctl (s : State) : (cutSequencer s).ctl = s.ctl := rfl
@[simp] theorem cutSequencer_cmdarg (s : State) : (cutSequencer s).cmdarg = s.cmdarg := rfl
@[simp] theorem cutSequencer_inten (s : State) : (cutSequencer s).inten = s.inten := rfl
@[simp] theorem cutSequencer_intsts (s : State) : (cutSequencer s).intsts = s.intsts := rfl
@[simp] theorem cutSequencer_resp0 (s : State) : (cutSequencer s).resp0 = s.resp0 := rfl
@[simp] theorem cutSequencer_resp1 (s : State) : (cutSequencer s).resp1 = s.resp1 := rfl
@[simp] theorem cutSequencer_blen (s : State) : (cutSequencer s).blen = s.blen := rfl
@[simp] theorem cutSequencer_tout (s : State) : (cutSequencer s).tout = s.tout := rfl
@[simp] theorem cutSequencer_ectl (s : State) : (cutSequencer s).ectl = s.ectl := rfl
@[simp] theorem cutSequencer_eng (s : State) : (cutSequencer s).eng = s.eng := rfl
@[simp] theorem cutSequencer_cdPrev0 (s : State) : (cutSequencer s).cdPrev0 = s.cdPrev0 := rfl
@[simp] theorem cutSequencer_cdPrev1 (s : State) : (cutSequencer s).cdPrev1 = s.cdPrev1 := rfl
@[simp] theorem cutSequencer_pins (s : State) : (cutSequencer s).pins = s.pins := rfl
@[simp] theorem cutSequencer_history (s : State) : (cutSequencer s).history = s.history := rfl
@[simp] theorem cutSequencer_mem (s : State) : (cutSequencer s).mem = s.mem := rfl
@[simp] theorem cutSequencer_lent (s : State) : (cutSequencer s).lent = s.lent := rfl
@[simp] theorem cutSequencer_busErr (s : State) : (cutSequencer s).busErr = s.busErr := rfl
@[simp] theorem cutSequencer_overlap (s : State) : (cutSequencer s).overlap = s.overlap := rfl
@[simp] theorem cutSequencer_card0 (s : State) : (cutSequencer s).card0 = s.card0 := rfl
@[simp] theorem cutSequencer_card1 (s : State) : (cutSequencer s).card1 = s.card1 := rfl
@[simp] theorem cutSequencer_prog (s : State) : (cutSequencer s).prog = s.prog := rfl
@[simp] theorem cutSequencer_rdata (s : State) : (cutSequencer s).rdata = s.rdata := rfl
@[simp] theorem cutSequencer_turns (s : State) : (cutSequencer s).turns = s.turns := rfl
@[simp] theorem cutSequencer_inputs (s : State) : (cutSequencer s).inputs = s.inputs := rfl
@[simp] theorem cutSequencer_draws (s : State) : (cutSequencer s).draws = s.draws := rfl
@[simp] theorem cutSequencer_dma (s : State) :
    (cutSequencer s).dma = { s.dma with halted := s.dma.halted || s.dmactl.dmabusy.isOn } := rfl
@[simp] theorem cutSequencer_dmactl (s : State) :
    (cutSequencer s).dmactl = { s.dmactl with
      dmabusy := if !s.dma.halted && s.dmactl.dmabusy.isOn then .any else s.dmactl.dmabusy } := rfl
@[simp] theorem cutSequencer_bcnt (s : State) :
    (cutSequencer s).bcnt = if !s.dma.halted && s.dmactl.dmabusy.isOn then .any else s.bcnt := rfl

/-! `State.setCard` -/

@[simp] theorem State.setCard_fb (s : State) (c : CardScript) :
    (s.setCard c).fb = s.fb := by
  unfold State.setCard; split <;> rfl
@[simp] theorem State.setCard_dmactl (s : State) (c : CardScript) :
    (s.setCard c).dmactl = s.dmactl := by
  unfold State.setCard; split <;> rfl
@[simp] theorem State.setCard_dmasa (s : State) (c : CardScript) :
    (s.setCard c).dmasa = s.dmasa := by
  unfold State.setCard; split <;> rfl
@[simp] theorem State.setCard_bcnt (s : State) (c : CardScript) :
    (s.setCard c).bcnt = s.bcnt := by
  unfold State.setCard; split <;> rfl
@[simp] theorem State.setCard_dmainten (s : State) (c : CardScript) :
    (s.setCard c).dmainten = s.dmainten := by
  unfold State.setCard; split <;> rfl
@[simp] theorem State.setCard_dmaintsts (s : State) (c : CardScript) :
    (s.setCard c).dmaintsts = s.dmaintsts := by
  unfold State.setCard; split <;> rfl
@[simp] theorem State.setCard_gctl (s : State) (c : CardScript) :
    (s.setCard c).gctl = s.gctl := by
  unfold State.setCard; split <;> rfl
@[simp] theorem State.setCard_dtaien (s : State) (c : CardScript) :
    (s.setCard c).dtaien = s.dtaien := by
  unfold State.setCard; split <;> rfl
@[simp] theorem State.setCard_dtaif (s : State) (c : CardScript) :
    (s.setCard c).dtaif = s.dtaif := by
  unfold State.setCard; split <;> rfl
@[simp] theorem State.setCard_ctl (s : State) (c : CardScript) :
    (s.setCard c).ctl = s.ctl := by
  unfold State.setCard; split <;> rfl
@[simp] theorem State.setCard_cmdarg (s : State) (c : CardScript) :
    (s.setCard c).cmdarg = s.cmdarg := by
  unfold State.setCard; split <;> rfl
@[simp] theorem State.setCard_inten (s : State) (c : CardScript) :
    (s.setCard c).inten = s.inten := by
  unfold State.setCard; split <;> rfl
@[simp] theorem State.setCard_intsts (s : State) (c : CardScript) :
    (s.setCard c).intsts = s.intsts := by
  unfold State.setCard; split <;> rfl
@[simp] theorem State.setCard_resp0 (s : State) (c : CardScript) :
    (s.setCard c).resp0 = s.resp0 := by
  unfold State.setCard; split <;> rfl
@[simp] theorem State.setCard_resp1 (s : State) (c : CardScript) :
    (s.setCard c).resp1 = s.resp1 := by
  unfold State.setCard; split <;> rfl
@[simp] theorem State.setCard_blen (s : State) (c : CardScript) :
    (s.setCard c).blen = s.blen := by
  unfold State.setCard; split <;> rfl
@[simp] theorem State.setCard_tout (s : State) (c : CardScript) :
    (s.setCard c).tout = s.tout := by
  unfold State.setCard; split <;> rfl
@[simp] theorem State.setCard_ectl (s : State) (c : CardScript) :
    (s.setCard c).ectl = s.ectl := by
  unfold State.setCard; split <;> rfl
@[simp] theorem State.setCard_eng (s : State) (c : CardScript) :
    (s.setCard c).eng = s.eng := by
  unfold State.setCard; split <;> rfl
@[simp] theorem State.setCard_dma (s : State) (c : CardScript) :
    (s.setCard c).dma = s.dma := by
  unfold State.setCard; split <;> rfl
@[simp] theorem State.setCard_cdPrev0 (s : State) (c : CardScript) :
    (s.setCard c).cdPrev0 = s.cdPrev0 := by
  unfold State.setCard; split <;> rfl
@[simp] theorem State.setCard_cdPrev1 (s : State) (c : CardScript) :
    (s.setCard c).cdPrev1 = s.cdPrev1 := by
  unfold State.setCard; split <;> rfl
@[simp] theorem State.setCard_pins (s : State) (c : CardScript) :
    (s.setCard c).pins = s.pins := by
  unfold State.setCard; split <;> rfl
@[simp] theorem State.setCard_history (s : State) (c : CardScript) :
    (s.setCard c).history = s.history := by
  unfold State.setCard; split <;> rfl
@[simp] theorem State.setCard_mem (s : State) (c : CardScript) :
    (s.setCard c).mem = s.mem := by
  unfold State.setCard; split <;> rfl
@[simp] theorem State.setCard_lent (s : State) (c : CardScript) :
    (s.setCard c).lent = s.lent := by
  unfold State.setCard; split <;> rfl
@[simp] theorem State.setCard_busErr (s : State) (c : CardScript) :
    (s.setCard c).busErr = s.busErr := by
  unfold State.setCard; split <;> rfl
@[simp] theorem State.setCard_overlap (s : State) (c : CardScript) :
    (s.setCard c).overlap = s.overlap := by
  unfold State.setCard; split <;> rfl
@[simp] theorem State.setCard_prog (s : State) (c : CardScript) :
    (s.setCard c).prog = s.prog := by
  unfold State.setCard; split <;> rfl
@[simp] theorem State.setCard_rdata (s : State) (c : CardScript) :
    (s.setCard c).rdata = s.rdata := by
  unfold State.setCard; split <;> rfl
@[simp] theorem State.setCard_turns (s : State) (c : CardScript) :
    (s.setCard c).turns = s.turns := by
  unfold State.setCard; split <;> rfl
@[simp] theorem State.setCard_inputs (s : State) (c : CardScript) :
    (s.setCard c).inputs = s.inputs := by
  unfold State.setCard; split <;> rfl
@[simp] theorem State.setCard_draws (s : State) (c : CardScript) :
    (s.setCard c).draws = s.draws + 1 := by
  unfold State.setCard; split <;> rfl

/-! `tookResp48` -/

@[simp] theorem tookResp48_fb (s : State) : (tookResp48 s).fb = s.fb := State.setCard_fb s _
@[simp] theorem tookResp48_dmactl (s : State) : (tookResp48 s).dmactl = s.dmactl := State.setCard_dmactl s _
@[simp] theorem tookResp48_dmasa (s : State) : (tookResp48 s).dmasa = s.dmasa := State.setCard_dmasa s _
@[simp] theorem tookResp48_bcnt (s : State) : (tookResp48 s).bcnt = s.bcnt := State.setCard_bcnt s _
@[simp] theorem tookResp48_dmainten (s : State) : (tookResp48 s).dmainten = s.dmainten := State.setCard_dmainten s _
@[simp] theorem tookResp48_dmaintsts (s : State) : (tookResp48 s).dmaintsts = s.dmaintsts := State.setCard_dmaintsts s _
@[simp] theorem tookResp48_gctl (s : State) : (tookResp48 s).gctl = s.gctl := State.setCard_gctl s _
@[simp] theorem tookResp48_dtaien (s : State) : (tookResp48 s).dtaien = s.dtaien := State.setCard_dtaien s _
@[simp] theorem tookResp48_dtaif (s : State) : (tookResp48 s).dtaif = s.dtaif := State.setCard_dtaif s _
@[simp] theorem tookResp48_ctl (s : State) : (tookResp48 s).ctl = s.ctl := State.setCard_ctl s _
@[simp] theorem tookResp48_cmdarg (s : State) : (tookResp48 s).cmdarg = s.cmdarg := State.setCard_cmdarg s _
@[simp] theorem tookResp48_inten (s : State) : (tookResp48 s).inten = s.inten := State.setCard_inten s _
@[simp] theorem tookResp48_intsts (s : State) : (tookResp48 s).intsts = s.intsts := State.setCard_intsts s _
@[simp] theorem tookResp48_resp0 (s : State) : (tookResp48 s).resp0 = s.resp0 := State.setCard_resp0 s _
@[simp] theorem tookResp48_resp1 (s : State) : (tookResp48 s).resp1 = s.resp1 := State.setCard_resp1 s _
@[simp] theorem tookResp48_blen (s : State) : (tookResp48 s).blen = s.blen := State.setCard_blen s _
@[simp] theorem tookResp48_tout (s : State) : (tookResp48 s).tout = s.tout := State.setCard_tout s _
@[simp] theorem tookResp48_ectl (s : State) : (tookResp48 s).ectl = s.ectl := State.setCard_ectl s _
@[simp] theorem tookResp48_eng (s : State) : (tookResp48 s).eng = s.eng := State.setCard_eng s _
@[simp] theorem tookResp48_dma (s : State) : (tookResp48 s).dma = s.dma := State.setCard_dma s _
@[simp] theorem tookResp48_cdPrev0 (s : State) : (tookResp48 s).cdPrev0 = s.cdPrev0 := State.setCard_cdPrev0 s _
@[simp] theorem tookResp48_cdPrev1 (s : State) : (tookResp48 s).cdPrev1 = s.cdPrev1 := State.setCard_cdPrev1 s _
@[simp] theorem tookResp48_pins (s : State) : (tookResp48 s).pins = s.pins := State.setCard_pins s _
@[simp] theorem tookResp48_history (s : State) : (tookResp48 s).history = s.history := State.setCard_history s _
@[simp] theorem tookResp48_mem (s : State) : (tookResp48 s).mem = s.mem := State.setCard_mem s _
@[simp] theorem tookResp48_lent (s : State) : (tookResp48 s).lent = s.lent := State.setCard_lent s _
@[simp] theorem tookResp48_busErr (s : State) : (tookResp48 s).busErr = s.busErr := State.setCard_busErr s _
@[simp] theorem tookResp48_overlap (s : State) : (tookResp48 s).overlap = s.overlap := State.setCard_overlap s _
@[simp] theorem tookResp48_prog (s : State) : (tookResp48 s).prog = s.prog := State.setCard_prog s _
@[simp] theorem tookResp48_rdata (s : State) : (tookResp48 s).rdata = s.rdata := State.setCard_rdata s _
@[simp] theorem tookResp48_turns (s : State) : (tookResp48 s).turns = s.turns := State.setCard_turns s _
@[simp] theorem tookResp48_inputs (s : State) : (tookResp48 s).inputs = s.inputs := State.setCard_inputs s _
@[simp] theorem tookResp48_draws (s : State) : (tookResp48 s).draws = s.draws + 1 := State.setCard_draws s _

/-! `tookResp136` -/

@[simp] theorem tookResp136_fb (s : State) : (tookResp136 s).fb = s.fb := State.setCard_fb s _
@[simp] theorem tookResp136_dmactl (s : State) : (tookResp136 s).dmactl = s.dmactl := State.setCard_dmactl s _
@[simp] theorem tookResp136_dmasa (s : State) : (tookResp136 s).dmasa = s.dmasa := State.setCard_dmasa s _
@[simp] theorem tookResp136_bcnt (s : State) : (tookResp136 s).bcnt = s.bcnt := State.setCard_bcnt s _
@[simp] theorem tookResp136_dmainten (s : State) : (tookResp136 s).dmainten = s.dmainten := State.setCard_dmainten s _
@[simp] theorem tookResp136_dmaintsts (s : State) :
    (tookResp136 s).dmaintsts = s.dmaintsts := State.setCard_dmaintsts s _
@[simp] theorem tookResp136_gctl (s : State) : (tookResp136 s).gctl = s.gctl := State.setCard_gctl s _
@[simp] theorem tookResp136_dtaien (s : State) : (tookResp136 s).dtaien = s.dtaien := State.setCard_dtaien s _
@[simp] theorem tookResp136_dtaif (s : State) : (tookResp136 s).dtaif = s.dtaif := State.setCard_dtaif s _
@[simp] theorem tookResp136_ctl (s : State) : (tookResp136 s).ctl = s.ctl := State.setCard_ctl s _
@[simp] theorem tookResp136_cmdarg (s : State) : (tookResp136 s).cmdarg = s.cmdarg := State.setCard_cmdarg s _
@[simp] theorem tookResp136_inten (s : State) : (tookResp136 s).inten = s.inten := State.setCard_inten s _
@[simp] theorem tookResp136_intsts (s : State) : (tookResp136 s).intsts = s.intsts := State.setCard_intsts s _
@[simp] theorem tookResp136_resp0 (s : State) : (tookResp136 s).resp0 = s.resp0 := State.setCard_resp0 s _
@[simp] theorem tookResp136_resp1 (s : State) : (tookResp136 s).resp1 = s.resp1 := State.setCard_resp1 s _
@[simp] theorem tookResp136_blen (s : State) : (tookResp136 s).blen = s.blen := State.setCard_blen s _
@[simp] theorem tookResp136_tout (s : State) : (tookResp136 s).tout = s.tout := State.setCard_tout s _
@[simp] theorem tookResp136_ectl (s : State) : (tookResp136 s).ectl = s.ectl := State.setCard_ectl s _
@[simp] theorem tookResp136_eng (s : State) : (tookResp136 s).eng = s.eng := State.setCard_eng s _
@[simp] theorem tookResp136_dma (s : State) : (tookResp136 s).dma = s.dma := State.setCard_dma s _
@[simp] theorem tookResp136_cdPrev0 (s : State) : (tookResp136 s).cdPrev0 = s.cdPrev0 := State.setCard_cdPrev0 s _
@[simp] theorem tookResp136_cdPrev1 (s : State) : (tookResp136 s).cdPrev1 = s.cdPrev1 := State.setCard_cdPrev1 s _
@[simp] theorem tookResp136_pins (s : State) : (tookResp136 s).pins = s.pins := State.setCard_pins s _
@[simp] theorem tookResp136_history (s : State) : (tookResp136 s).history = s.history := State.setCard_history s _
@[simp] theorem tookResp136_mem (s : State) : (tookResp136 s).mem = s.mem := State.setCard_mem s _
@[simp] theorem tookResp136_lent (s : State) : (tookResp136 s).lent = s.lent := State.setCard_lent s _
@[simp] theorem tookResp136_busErr (s : State) : (tookResp136 s).busErr = s.busErr := State.setCard_busErr s _
@[simp] theorem tookResp136_overlap (s : State) : (tookResp136 s).overlap = s.overlap := State.setCard_overlap s _
@[simp] theorem tookResp136_prog (s : State) : (tookResp136 s).prog = s.prog := State.setCard_prog s _
@[simp] theorem tookResp136_rdata (s : State) : (tookResp136 s).rdata = s.rdata := State.setCard_rdata s _
@[simp] theorem tookResp136_turns (s : State) : (tookResp136 s).turns = s.turns := State.setCard_turns s _
@[simp] theorem tookResp136_inputs (s : State) : (tookResp136 s).inputs = s.inputs := State.setCard_inputs s _
@[simp] theorem tookResp136_draws (s : State) : (tookResp136 s).draws = s.draws + 1 := State.setCard_draws s _

/-! `tookBlock` -/

@[simp] theorem tookBlock_fb (s : State) : (tookBlock s).fb = s.fb := State.setCard_fb s _
@[simp] theorem tookBlock_dmactl (s : State) : (tookBlock s).dmactl = s.dmactl := State.setCard_dmactl s _
@[simp] theorem tookBlock_dmasa (s : State) : (tookBlock s).dmasa = s.dmasa := State.setCard_dmasa s _
@[simp] theorem tookBlock_bcnt (s : State) : (tookBlock s).bcnt = s.bcnt := State.setCard_bcnt s _
@[simp] theorem tookBlock_dmainten (s : State) : (tookBlock s).dmainten = s.dmainten := State.setCard_dmainten s _
@[simp] theorem tookBlock_dmaintsts (s : State) : (tookBlock s).dmaintsts = s.dmaintsts := State.setCard_dmaintsts s _
@[simp] theorem tookBlock_gctl (s : State) : (tookBlock s).gctl = s.gctl := State.setCard_gctl s _
@[simp] theorem tookBlock_dtaien (s : State) : (tookBlock s).dtaien = s.dtaien := State.setCard_dtaien s _
@[simp] theorem tookBlock_dtaif (s : State) : (tookBlock s).dtaif = s.dtaif := State.setCard_dtaif s _
@[simp] theorem tookBlock_ctl (s : State) : (tookBlock s).ctl = s.ctl := State.setCard_ctl s _
@[simp] theorem tookBlock_cmdarg (s : State) : (tookBlock s).cmdarg = s.cmdarg := State.setCard_cmdarg s _
@[simp] theorem tookBlock_inten (s : State) : (tookBlock s).inten = s.inten := State.setCard_inten s _
@[simp] theorem tookBlock_intsts (s : State) : (tookBlock s).intsts = s.intsts := State.setCard_intsts s _
@[simp] theorem tookBlock_resp0 (s : State) : (tookBlock s).resp0 = s.resp0 := State.setCard_resp0 s _
@[simp] theorem tookBlock_resp1 (s : State) : (tookBlock s).resp1 = s.resp1 := State.setCard_resp1 s _
@[simp] theorem tookBlock_blen (s : State) : (tookBlock s).blen = s.blen := State.setCard_blen s _
@[simp] theorem tookBlock_tout (s : State) : (tookBlock s).tout = s.tout := State.setCard_tout s _
@[simp] theorem tookBlock_ectl (s : State) : (tookBlock s).ectl = s.ectl := State.setCard_ectl s _
@[simp] theorem tookBlock_eng (s : State) : (tookBlock s).eng = s.eng := State.setCard_eng s _
@[simp] theorem tookBlock_dma (s : State) : (tookBlock s).dma = s.dma := State.setCard_dma s _
@[simp] theorem tookBlock_cdPrev0 (s : State) : (tookBlock s).cdPrev0 = s.cdPrev0 := State.setCard_cdPrev0 s _
@[simp] theorem tookBlock_cdPrev1 (s : State) : (tookBlock s).cdPrev1 = s.cdPrev1 := State.setCard_cdPrev1 s _
@[simp] theorem tookBlock_pins (s : State) : (tookBlock s).pins = s.pins := State.setCard_pins s _
@[simp] theorem tookBlock_history (s : State) : (tookBlock s).history = s.history := State.setCard_history s _
@[simp] theorem tookBlock_mem (s : State) : (tookBlock s).mem = s.mem := State.setCard_mem s _
@[simp] theorem tookBlock_lent (s : State) : (tookBlock s).lent = s.lent := State.setCard_lent s _
@[simp] theorem tookBlock_busErr (s : State) : (tookBlock s).busErr = s.busErr := State.setCard_busErr s _
@[simp] theorem tookBlock_overlap (s : State) : (tookBlock s).overlap = s.overlap := State.setCard_overlap s _
@[simp] theorem tookBlock_prog (s : State) : (tookBlock s).prog = s.prog := State.setCard_prog s _
@[simp] theorem tookBlock_rdata (s : State) : (tookBlock s).rdata = s.rdata := State.setCard_rdata s _
@[simp] theorem tookBlock_turns (s : State) : (tookBlock s).turns = s.turns := State.setCard_turns s _
@[simp] theorem tookBlock_inputs (s : State) : (tookBlock s).inputs = s.inputs := State.setCard_inputs s _
@[simp] theorem tookBlock_draws (s : State) : (tookBlock s).draws = s.draws + 1 := State.setCard_draws s _

/-! `tookStatus` -/

@[simp] theorem tookStatus_fb (s : State) : (tookStatus s).fb = s.fb := State.setCard_fb s _
@[simp] theorem tookStatus_dmactl (s : State) : (tookStatus s).dmactl = s.dmactl := State.setCard_dmactl s _
@[simp] theorem tookStatus_dmasa (s : State) : (tookStatus s).dmasa = s.dmasa := State.setCard_dmasa s _
@[simp] theorem tookStatus_bcnt (s : State) : (tookStatus s).bcnt = s.bcnt := State.setCard_bcnt s _
@[simp] theorem tookStatus_dmainten (s : State) : (tookStatus s).dmainten = s.dmainten := State.setCard_dmainten s _
@[simp] theorem tookStatus_dmaintsts (s : State) : (tookStatus s).dmaintsts = s.dmaintsts := State.setCard_dmaintsts s _
@[simp] theorem tookStatus_gctl (s : State) : (tookStatus s).gctl = s.gctl := State.setCard_gctl s _
@[simp] theorem tookStatus_dtaien (s : State) : (tookStatus s).dtaien = s.dtaien := State.setCard_dtaien s _
@[simp] theorem tookStatus_dtaif (s : State) : (tookStatus s).dtaif = s.dtaif := State.setCard_dtaif s _
@[simp] theorem tookStatus_ctl (s : State) : (tookStatus s).ctl = s.ctl := State.setCard_ctl s _
@[simp] theorem tookStatus_cmdarg (s : State) : (tookStatus s).cmdarg = s.cmdarg := State.setCard_cmdarg s _
@[simp] theorem tookStatus_inten (s : State) : (tookStatus s).inten = s.inten := State.setCard_inten s _
@[simp] theorem tookStatus_intsts (s : State) : (tookStatus s).intsts = s.intsts := State.setCard_intsts s _
@[simp] theorem tookStatus_resp0 (s : State) : (tookStatus s).resp0 = s.resp0 := State.setCard_resp0 s _
@[simp] theorem tookStatus_resp1 (s : State) : (tookStatus s).resp1 = s.resp1 := State.setCard_resp1 s _
@[simp] theorem tookStatus_blen (s : State) : (tookStatus s).blen = s.blen := State.setCard_blen s _
@[simp] theorem tookStatus_tout (s : State) : (tookStatus s).tout = s.tout := State.setCard_tout s _
@[simp] theorem tookStatus_ectl (s : State) : (tookStatus s).ectl = s.ectl := State.setCard_ectl s _
@[simp] theorem tookStatus_eng (s : State) : (tookStatus s).eng = s.eng := State.setCard_eng s _
@[simp] theorem tookStatus_dma (s : State) : (tookStatus s).dma = s.dma := State.setCard_dma s _
@[simp] theorem tookStatus_cdPrev0 (s : State) : (tookStatus s).cdPrev0 = s.cdPrev0 := State.setCard_cdPrev0 s _
@[simp] theorem tookStatus_cdPrev1 (s : State) : (tookStatus s).cdPrev1 = s.cdPrev1 := State.setCard_cdPrev1 s _
@[simp] theorem tookStatus_pins (s : State) : (tookStatus s).pins = s.pins := State.setCard_pins s _
@[simp] theorem tookStatus_history (s : State) : (tookStatus s).history = s.history := State.setCard_history s _
@[simp] theorem tookStatus_mem (s : State) : (tookStatus s).mem = s.mem := State.setCard_mem s _
@[simp] theorem tookStatus_lent (s : State) : (tookStatus s).lent = s.lent := State.setCard_lent s _
@[simp] theorem tookStatus_busErr (s : State) : (tookStatus s).busErr = s.busErr := State.setCard_busErr s _
@[simp] theorem tookStatus_overlap (s : State) : (tookStatus s).overlap = s.overlap := State.setCard_overlap s _
@[simp] theorem tookStatus_prog (s : State) : (tookStatus s).prog = s.prog := State.setCard_prog s _
@[simp] theorem tookStatus_rdata (s : State) : (tookStatus s).rdata = s.rdata := State.setCard_rdata s _
@[simp] theorem tookStatus_turns (s : State) : (tookStatus s).turns = s.turns := State.setCard_turns s _
@[simp] theorem tookStatus_inputs (s : State) : (tookStatus s).inputs = s.inputs := State.setCard_inputs s _
@[simp] theorem tookStatus_draws (s : State) : (tookStatus s).draws = s.draws + 1 := State.setCard_draws s _

/-! `tookReady` -/

@[simp] theorem tookReady_fb (s : State) : (tookReady s).fb = s.fb := State.setCard_fb s _
@[simp] theorem tookReady_dmactl (s : State) : (tookReady s).dmactl = s.dmactl := State.setCard_dmactl s _
@[simp] theorem tookReady_dmasa (s : State) : (tookReady s).dmasa = s.dmasa := State.setCard_dmasa s _
@[simp] theorem tookReady_bcnt (s : State) : (tookReady s).bcnt = s.bcnt := State.setCard_bcnt s _
@[simp] theorem tookReady_dmainten (s : State) : (tookReady s).dmainten = s.dmainten := State.setCard_dmainten s _
@[simp] theorem tookReady_dmaintsts (s : State) : (tookReady s).dmaintsts = s.dmaintsts := State.setCard_dmaintsts s _
@[simp] theorem tookReady_gctl (s : State) : (tookReady s).gctl = s.gctl := State.setCard_gctl s _
@[simp] theorem tookReady_dtaien (s : State) : (tookReady s).dtaien = s.dtaien := State.setCard_dtaien s _
@[simp] theorem tookReady_dtaif (s : State) : (tookReady s).dtaif = s.dtaif := State.setCard_dtaif s _
@[simp] theorem tookReady_ctl (s : State) : (tookReady s).ctl = s.ctl := State.setCard_ctl s _
@[simp] theorem tookReady_cmdarg (s : State) : (tookReady s).cmdarg = s.cmdarg := State.setCard_cmdarg s _
@[simp] theorem tookReady_inten (s : State) : (tookReady s).inten = s.inten := State.setCard_inten s _
@[simp] theorem tookReady_intsts (s : State) : (tookReady s).intsts = s.intsts := State.setCard_intsts s _
@[simp] theorem tookReady_resp0 (s : State) : (tookReady s).resp0 = s.resp0 := State.setCard_resp0 s _
@[simp] theorem tookReady_resp1 (s : State) : (tookReady s).resp1 = s.resp1 := State.setCard_resp1 s _
@[simp] theorem tookReady_blen (s : State) : (tookReady s).blen = s.blen := State.setCard_blen s _
@[simp] theorem tookReady_tout (s : State) : (tookReady s).tout = s.tout := State.setCard_tout s _
@[simp] theorem tookReady_ectl (s : State) : (tookReady s).ectl = s.ectl := State.setCard_ectl s _
@[simp] theorem tookReady_eng (s : State) : (tookReady s).eng = s.eng := State.setCard_eng s _
@[simp] theorem tookReady_dma (s : State) : (tookReady s).dma = s.dma := State.setCard_dma s _
@[simp] theorem tookReady_cdPrev0 (s : State) : (tookReady s).cdPrev0 = s.cdPrev0 := State.setCard_cdPrev0 s _
@[simp] theorem tookReady_cdPrev1 (s : State) : (tookReady s).cdPrev1 = s.cdPrev1 := State.setCard_cdPrev1 s _
@[simp] theorem tookReady_pins (s : State) : (tookReady s).pins = s.pins := State.setCard_pins s _
@[simp] theorem tookReady_history (s : State) : (tookReady s).history = s.history := State.setCard_history s _
@[simp] theorem tookReady_mem (s : State) : (tookReady s).mem = s.mem := State.setCard_mem s _
@[simp] theorem tookReady_lent (s : State) : (tookReady s).lent = s.lent := State.setCard_lent s _
@[simp] theorem tookReady_busErr (s : State) : (tookReady s).busErr = s.busErr := State.setCard_busErr s _
@[simp] theorem tookReady_overlap (s : State) : (tookReady s).overlap = s.overlap := State.setCard_overlap s _
@[simp] theorem tookReady_prog (s : State) : (tookReady s).prog = s.prog := State.setCard_prog s _
@[simp] theorem tookReady_rdata (s : State) : (tookReady s).rdata = s.rdata := State.setCard_rdata s _
@[simp] theorem tookReady_turns (s : State) : (tookReady s).turns = s.turns := State.setCard_turns s _
@[simp] theorem tookReady_inputs (s : State) : (tookReady s).inputs = s.inputs := State.setCard_inputs s _
@[simp] theorem tookReady_draws (s : State) : (tookReady s).draws = s.draws + 1 := State.setCard_draws s _

/-! `tookDat0` -/

@[simp] theorem tookDat0_fb (s : State) : (tookDat0 s).fb = s.fb := State.setCard_fb s _
@[simp] theorem tookDat0_dmactl (s : State) : (tookDat0 s).dmactl = s.dmactl := State.setCard_dmactl s _
@[simp] theorem tookDat0_dmasa (s : State) : (tookDat0 s).dmasa = s.dmasa := State.setCard_dmasa s _
@[simp] theorem tookDat0_bcnt (s : State) : (tookDat0 s).bcnt = s.bcnt := State.setCard_bcnt s _
@[simp] theorem tookDat0_dmainten (s : State) : (tookDat0 s).dmainten = s.dmainten := State.setCard_dmainten s _
@[simp] theorem tookDat0_dmaintsts (s : State) : (tookDat0 s).dmaintsts = s.dmaintsts := State.setCard_dmaintsts s _
@[simp] theorem tookDat0_gctl (s : State) : (tookDat0 s).gctl = s.gctl := State.setCard_gctl s _
@[simp] theorem tookDat0_dtaien (s : State) : (tookDat0 s).dtaien = s.dtaien := State.setCard_dtaien s _
@[simp] theorem tookDat0_dtaif (s : State) : (tookDat0 s).dtaif = s.dtaif := State.setCard_dtaif s _
@[simp] theorem tookDat0_ctl (s : State) : (tookDat0 s).ctl = s.ctl := State.setCard_ctl s _
@[simp] theorem tookDat0_cmdarg (s : State) : (tookDat0 s).cmdarg = s.cmdarg := State.setCard_cmdarg s _
@[simp] theorem tookDat0_inten (s : State) : (tookDat0 s).inten = s.inten := State.setCard_inten s _
@[simp] theorem tookDat0_intsts (s : State) : (tookDat0 s).intsts = s.intsts := State.setCard_intsts s _
@[simp] theorem tookDat0_resp0 (s : State) : (tookDat0 s).resp0 = s.resp0 := State.setCard_resp0 s _
@[simp] theorem tookDat0_resp1 (s : State) : (tookDat0 s).resp1 = s.resp1 := State.setCard_resp1 s _
@[simp] theorem tookDat0_blen (s : State) : (tookDat0 s).blen = s.blen := State.setCard_blen s _
@[simp] theorem tookDat0_tout (s : State) : (tookDat0 s).tout = s.tout := State.setCard_tout s _
@[simp] theorem tookDat0_ectl (s : State) : (tookDat0 s).ectl = s.ectl := State.setCard_ectl s _
@[simp] theorem tookDat0_eng (s : State) : (tookDat0 s).eng = s.eng := State.setCard_eng s _
@[simp] theorem tookDat0_dma (s : State) : (tookDat0 s).dma = s.dma := State.setCard_dma s _
@[simp] theorem tookDat0_cdPrev0 (s : State) : (tookDat0 s).cdPrev0 = s.cdPrev0 := State.setCard_cdPrev0 s _
@[simp] theorem tookDat0_cdPrev1 (s : State) : (tookDat0 s).cdPrev1 = s.cdPrev1 := State.setCard_cdPrev1 s _
@[simp] theorem tookDat0_pins (s : State) : (tookDat0 s).pins = s.pins := State.setCard_pins s _
@[simp] theorem tookDat0_history (s : State) : (tookDat0 s).history = s.history := State.setCard_history s _
@[simp] theorem tookDat0_mem (s : State) : (tookDat0 s).mem = s.mem := State.setCard_mem s _
@[simp] theorem tookDat0_lent (s : State) : (tookDat0 s).lent = s.lent := State.setCard_lent s _
@[simp] theorem tookDat0_busErr (s : State) : (tookDat0 s).busErr = s.busErr := State.setCard_busErr s _
@[simp] theorem tookDat0_overlap (s : State) : (tookDat0 s).overlap = s.overlap := State.setCard_overlap s _
@[simp] theorem tookDat0_prog (s : State) : (tookDat0 s).prog = s.prog := State.setCard_prog s _
@[simp] theorem tookDat0_rdata (s : State) : (tookDat0 s).rdata = s.rdata := State.setCard_rdata s _
@[simp] theorem tookDat0_turns (s : State) : (tookDat0 s).turns = s.turns := State.setCard_turns s _
@[simp] theorem tookDat0_inputs (s : State) : (tookDat0 s).inputs = s.inputs := State.setCard_inputs s _
@[simp] theorem tookDat0_draws (s : State) : (tookDat0 s).draws = s.draws + 1 := State.setCard_draws s _

end Sys2Proof.Machine
end

