-- ==== Sys2Proof/Laws/Bits.lean ====
section
/-!
SUPPORT. The bits of the register words: of a word with one field, and of `CTL`.
-/

namespace Sys2Proof.Machine

theorem bit_getLsbD (i : Nat) (b : Bool) {j : Nat} (hj : j < 32) : (bit i b).getLsbD j = (b && decide (j = i)) := by
  unfold bit
  cases b <;> simp
  by_cases h : j = i
  · subst h; simp [hj]
  · simp [h]; omega

theorem fld_getLsbD {w : Nat} (i : Nat) (v : BitVec w) {j : Nat} (hj : j < 32) :
    (fld i v).getLsbD j = (decide (i ≤ j) && v.getLsbD (j - i)) := by
  unfold fld
  simp [hj]
  by_cases h : i ≤ j <;> simp [h]

/-- The bits of `CTL` (rules R35, R112). -/
theorem ctlNow_getLsbD (s : State) {j : Nat} (hj : j < 32) : (ctlNow s).getLsbD j =
    (if j = 0 then s.ctl.coen
      else if j = 1 then s.ctl.rien.pick ((Config.anyWord s.draws ctlOff).getLsbD 1)
      else if j = 2 then s.ctl.dien.pick ((Config.anyWord s.draws ctlOff).getLsbD 2)
      else if j = 3 then s.ctl.doen.pick ((Config.anyWord s.draws ctlOff).getLsbD 3)
      else if j = 4 then s.ctl.r2en.pick ((Config.anyWord s.draws ctlOff).getLsbD 4)
      else if j = 5 then s.ctl.clk74oen
      else if j = 6 then s.ctl.clk8oen
      else if j = 7 then s.ctl.clkkeep0
      else if j < 14 then s.ctl.cmdcode.getLsbD (j - 8)
      else if j = 14 then s.ctl.ctlrst
      else if j = 15 then s.ctl.dbw
      else if j < 24 then s.ctl.blkcnt.getLsbD (j - 16)
      else if j < 28 then s.ctl.sdnwr.getLsbD (j - 24)
      else if j = 28 then false
      else if j < 31 then s.ctl.sdport.getLsbD (j - 29)
      else s.ctl.clkkeep1) := by
  simp only [ctlNow, BitVec.getLsbD_or, bit_getLsbD, fld_getLsbD, hj]
  interval_cases j <;> simp

/-- The launch bits of `CTL` that are 1 and known (rule R112). -/
theorem launchBits_getLsbD (c : Ctl) {j : Nat} (hj : j < 32) : (launchBits c).getLsbD j =
    (if j = 0 then c.coen
      else if j = 1 then c.rien.isOn
      else if j = 2 then c.dien.isOn
      else if j = 3 then c.doen.isOn
      else if j = 4 then c.r2en.isOn
      else if j = 5 then c.clk74oen
      else if j = 6 then c.clk8oen
      else false) := by
  simp only [launchBits, BitVec.getLsbD_or, bit_getLsbD, hj]
  interval_cases j <;> simp

end Sys2Proof.Machine
end

