-- ==== Sys2Proof/Laws/Memory.lean ====
section
/-!
SUPPORT. The laws of system memory: reading after storing, and that every operation keeps the canonical form.
-/

namespace Sys2Proof.Machine

theorem memGet_memPut_same (m : List Host.Cell) (a : Nat) (b : Byte) : memGet (memPut m a b) a = some b := by
  induction m with
  | nil => simp [memPut, memGet]
  | cons c m ih =>
    simp only [memPut]
    split
    · simp [memGet]
    · split
      · simp [memGet]
      · simp_all [memGet]

/-- In a canonical list nothing below the bound is listed. -/
theorem memGet_below {lo : Nat} {m : List Host.Cell} (h : memWfFrom lo m = true) {a : Nat} (ha : a < lo) :
    memGet m a = none := by
  induction m generalizing lo with
  | nil => rfl
  | cons c m ih =>
    simp only [memWfFrom, Bool.and_eq_true, decide_eq_true_eq] at h
    have hne : c.1 ≠ a := by omega
    simp only [memGet, hne, if_false]
    exact ih h.2 (by omega)

theorem memGet_memPut_other (m : List Host.Cell) {a a' : Nat} (b : Byte) (h : a' ≠ a) :
    memGet (memPut m a b) a' = memGet m a' := by
  induction m with
  | nil => simp [memPut, memGet, Ne.symm h]
  | cons c m ih =>
    simp only [memPut]
    split
    · simp [memGet, Ne.symm h]
    · split
      · rename_i _ hc
        simp [memGet, Ne.symm h, hc]
      · simp [memGet, ih]

theorem memWfFrom_mono {lo lo' : Nat} {m : List Host.Cell} (h : memWfFrom lo m = true) (hl : lo' ≤ lo) :
    memWfFrom lo' m = true := by
  cases m with
  | nil => rfl
  | cons c m =>
    simp only [memWfFrom, Bool.and_eq_true, decide_eq_true_eq] at h ⊢
    exact ⟨by omega, h.2⟩

theorem memWfFrom_memPut {lo : Nat} {m : List Host.Cell} (h : memWfFrom lo m = true) {a : Nat} (ha : lo ≤ a)
    (b : Byte) : memWfFrom lo (memPut m a b) = true := by
  induction m generalizing lo with
  | nil => simp [memPut, memWfFrom, ha]
  | cons c m ih =>
    simp only [memWfFrom, Bool.and_eq_true, decide_eq_true_eq] at h
    simp only [memPut]
    split
    · simp only [memWfFrom, Bool.and_eq_true, decide_eq_true_eq]
      exact ⟨ha, by omega, h.2⟩
    · split
      · rename_i _ hc
        simp only [memWfFrom, Bool.and_eq_true, decide_eq_true_eq]
        exact ⟨ha, hc ▸ h.2⟩
      · simp only [memWfFrom, Bool.and_eq_true, decide_eq_true_eq]
        exact ⟨h.1, ih h.2 (by omega)⟩

theorem memPut_all {m : List Host.Cell} {P : Host.Cell → Bool} (h : m.all P = true) {a : Nat} {b : Byte}
    (hp : P (a, b) = true) : (memPut m a b).all P = true := by
  induction m with
  | nil => simp [memPut, hp]
  | cons c m ih =>
    simp only [List.all_cons, Bool.and_eq_true] at h
    simp only [memPut]
    split
    · simp_all
    · split <;> simp_all

theorem Memory.wf_memPut {m : List Host.Cell} (h : Memory.wf m = true) {a : Nat} (ha : a < 2 ^ 32) (b : Byte) :
    Memory.wf (memPut m a b) = true := by
  simp only [Memory.wf, Bool.and_eq_true] at h ⊢
  exact ⟨memWfFrom_memPut h.1 (Nat.zero_le a) b, memPut_all h.2 (by simpa using ha)⟩

theorem memWfFrom_filter {lo : Nat} {m : List Host.Cell} (p : Host.Cell → Bool) (h : memWfFrom lo m = true) :
    memWfFrom lo (m.filter p) = true := by
  induction m generalizing lo with
  | nil => rfl
  | cons c m ih =>
    simp only [memWfFrom, Bool.and_eq_true, decide_eq_true_eq] at h
    simp only [List.filter_cons]
    split
    · simp only [memWfFrom, Bool.and_eq_true, decide_eq_true_eq]
      exact ⟨h.1, ih h.2⟩
    · exact memWfFrom_mono (ih h.2) (by omega)

theorem Memory.wf_memErase {m : List Host.Cell} (h : Memory.wf m = true) (lo hi : Nat) :
    Memory.wf (memErase m lo hi) = true := by
  simp only [Memory.wf, Bool.and_eq_true] at h ⊢
  refine ⟨memWfFrom_filter _ h.1, ?_⟩
  simp only [memErase, List.all_eq_true, List.mem_filter] at h ⊢
  exact fun c hc => h.2 c hc.1

theorem byteAddr_lt (a : Word) (k : Nat) : byteAddr a k < 2 ^ 32 := (a + BitVec.ofNat 32 k).isLt

theorem Memory.wf_storeByte {m : List Host.Cell} (h : Memory.wf m = true) (ov : List Word) {a : Nat} (ha : a < 2 ^ 32)
    (b : Byte) : Memory.wf (storeByte ov m a b) = true := by
  unfold storeByte
  split
  · exact wf_memErase h _ _
  · exact wf_memPut h ha b

theorem Memory.wf_storeWord {m : List Host.Cell} (h : Memory.wf m = true) (ov : List Word) (a v : Word) :
    Memory.wf (storeWord ov m a v) = true :=
  wf_storeByte (wf_storeByte (wf_storeByte (wf_storeByte h ov (byteAddr_lt a 0) _) ov (byteAddr_lt a 1) _) ov
    (byteAddr_lt a 2) _) ov (byteAddr_lt a 3) _

theorem Memory.wf_eraseAll (rs : List (Nat × Nat)) {m : List Host.Cell} (h : Memory.wf m = true) :
    Memory.wf (rs.foldl (fun m r => memErase m r.1 (r.1 + r.2)) m) = true := by
  induction rs generalizing m with
  | nil => exact h
  | cons r rs ih => exact ih (wf_memErase h _ _)

theorem Memory.wf_blurDest {s : State} (h : Memory.wf s.mem = true) : Memory.wf (blurDest s) = true := by
  unfold blurDest
  split
  · exact wf_eraseAll _ h
  · rfl

/-- A byte outside the erased range is listed as before. -/
theorem memGet_memErase_outside (m : List Host.Cell) {lo hi a : Nat} (h : a < lo ∨ hi ≤ a) :
    memGet (memErase m lo hi) a = memGet m a := by
  induction m with
  | nil => rfl
  | cons c m ih =>
    simp only [memErase, List.filter_cons] at ih ⊢
    by_cases hc : c.1 = a
    · have : (!(decide (lo ≤ c.1) && decide (c.1 < hi))) = true := by
        simp only [Bool.not_eq_true', Bool.and_eq_false_iff, decide_eq_false_iff_not]
        omega
      rw [if_pos this]
      simp [memGet, hc]
    · split <;> simp only [memGet, hc, if_false, ih]

/-- A byte inside the erased range is `any`: it is not listed. -/
theorem memGet_memErase_inside (m : List Host.Cell) {lo hi a : Nat} (h1 : lo ≤ a) (h2 : a < hi) :
    memGet (memErase m lo hi) a = none := by
  induction m with
  | nil => rfl
  | cons c m ih =>
    simp only [memErase, List.filter_cons] at ih ⊢
    by_cases hc : c.1 = a
    · have : ¬ ((!(decide (lo ≤ c.1) && decide (c.1 < hi))) = true) := by
        simp only [Bool.not_eq_true', Bool.and_eq_false_iff, decide_eq_false_iff_not, not_or, not_not]
        omega
      rw [if_neg this]
      exact ih
    · split
      · simp only [memGet, hc, if_false, ih]
      · exact ih

/-- What is listed after several ranges were erased: nothing inside them, and outside what was listed before. -/
theorem memGet_eraseAll (rs : List (Nat × Nat)) (m : List Host.Cell) (a : Nat) :
    memGet (rs.foldl (fun m r => memErase m r.1 (r.1 + r.2)) m) a =
      if ∃ r ∈ rs, r.1 ≤ a ∧ a < r.1 + r.2 then none else memGet m a := by
  induction rs generalizing m with
  | nil => simp
  | cons r rs ih =>
    rw [List.foldl_cons, ih]
    simp only [List.exists_mem_cons_iff]
    by_cases hr : r.1 ≤ a ∧ a < r.1 + r.2
    · rw [memGet_memErase_inside m hr.1 hr.2, if_pos (Or.inl hr)]
      split <;> rfl
    · rw [memGet_memErase_outside m (by omega)]
      simp only [hr, false_or]

/-- The bytes of a word that does not wrap lie at consecutive addresses. -/
theorem byteAddr_eq {a : Word} {k : Nat} (h : a.toNat + k < 2 ^ 32) : byteAddr a k = a.toNat + k := by
  simp only [byteAddr, BitVec.toNat_add, BitVec.toNat_ofNat]
  omega

/-- What is listed after a byte was stored (rules R86, R344). -/
theorem memGet_storeByte (ov : List Word) (m : List Host.Cell) (a : Nat) (b : Byte) (x : Nat) :
    memGet (storeByte ov m a b) x = if x = a then (if overlapped ov a then none else some b) else memGet m x := by
  unfold storeByte
  by_cases hx : x = a
  · subst hx
    rw [if_pos rfl]
    split
    · exact memGet_memErase_inside m (Nat.le_refl x) (Nat.lt_succ_self x)
    · exact memGet_memPut_same m x b
  · rw [if_neg hx]
    split
    · exact memGet_memErase_outside m (by omega)
    · exact memGet_memPut_other m b hx

theorem memGet_storeWord_other (ov : List Word) (m : List Host.Cell) (a v : Word) {x : Nat}
    (h : ∀ k < 4, x ≠ byteAddr a k) : memGet (storeWord ov m a v) x = memGet m x := by
  simp only [storeWord, memGet_storeByte, h 3 (by omega), h 2 (by omega), h 1 (by omega), h 0 (by omega), if_false]

/-- The bytes of a stored word, little-endian (rule R86); none is listed where the buffers of the two instances overlap
(rule R344). -/
theorem memGet_storeWord (ov : List Word) (m : List Host.Cell) (a v : Word) {k : Nat} (hk : k < 4)
    (h : a.toNat + 4 ≤ 2 ^ 32) : memGet (storeWord ov m a v) (a.toNat + k)
      = if overlapped ov (a.toNat + k) then none else some (v.extractLsb' (8 * k) 8) := by
  have e (j : Nat) (hj : j < 4) : byteAddr a j = a.toNat + j := byteAddr_eq (by omega)
  simp only [storeWord, memGet_storeByte, e 0 (by omega), e 1 (by omega), e 2 (by omega), e 3 (by omega)]
  rcases (by omega : k = 0 ∨ k = 1 ∨ k = 2 ∨ k = 3) with rfl | rfl | rfl | rfl <;> simp

/-- A stored byte leaves an overlap `any` (rule R344). -/
theorem storeByte_overlap {ov : List Word} {m : List Host.Cell} (h : ∀ x, overlapped ov x = true → memGet m x = none)
    (a : Nat) (b : Byte) (x : Nat) (hx : overlapped ov x = true) : memGet (storeByte ov m a b) x = none := by
  rw [memGet_storeByte]
  split
  · rename_i e; rw [← e, hx, if_pos rfl]
  · exact h x hx

/-- A stored word leaves an overlap `any` (rule R344). -/
theorem storeWord_overlap {ov : List Word} {m : List Host.Cell} (h : ∀ x, overlapped ov x = true → memGet m x = none)
    (a v : Word) (x : Nat) (hx : overlapped ov x = true) : memGet (storeWord ov m a v) x = none :=
  storeByte_overlap (storeByte_overlap (storeByte_overlap (storeByte_overlap h _ _) _ _) _ _) _ _ x hx

/-- Erasing lists nothing new. -/
theorem memGet_memErase_none {m : List Host.Cell} {x : Nat} (h : memGet m x = none) (lo hi : Nat) :
    memGet (memErase m lo hi) x = none := by
  by_cases hx : lo ≤ x ∧ x < hi
  · exact memGet_memErase_inside m hx.1 hx.2
  · rw [memGet_memErase_outside m (by omega), h]

/-- A stopped data input lists nothing new. -/
theorem memGet_blurDest_none {s : State} {x : Nat} (h : memGet s.mem x = none) : memGet (blurDest s) x = none := by
  unfold blurDest
  split
  · rw [memGet_eraseAll]; split
    · rfl
    · exact h
  · rfl

/-- What a part of a step may do to system memory: it keeps the canonical form, and what is `any` in an overlap of two
buffers (rule R344). -/
structure MemKept (s t : State) : Prop where
  overlap : t.overlap = s.overlap
  wf : Memory.wf s.mem = true → Memory.wf t.mem = true
  shared : (∀ x, overlapped s.overlap x = true → memGet s.mem x = none) →
    ∀ x, overlapped t.overlap x = true → memGet t.mem x = none

theorem MemKept.of_eq {s t : State} (h : t.overlap = s.overlap) (hm : t.mem = s.mem) : MemKept s t :=
  ⟨h, by rw [hm]; exact id, by rw [h, hm]; exact id⟩

theorem MemKept.refl (s : State) : MemKept s s := .of_eq rfl rfl

theorem MemKept.trans {s t u : State} (h : MemKept s t) (k : MemKept t u) : MemKept s u :=
  ⟨k.overlap.trans h.overlap, k.wf ∘ h.wf, k.shared ∘ h.shared⟩

/-- A stopped data input. -/
theorem MemKept.blur {s t : State} (h : t.overlap = s.overlap) (hm : t.mem = blurDest s) : MemKept s t :=
  ⟨h, by rw [hm]; exact Memory.wf_blurDest, by rw [h, hm]; exact fun k x hx => memGet_blurDest_none (k x hx)⟩

/-! ### Scatter-gather tables -/

/-- A listed byte is a cell of the list. -/
theorem memGet_mem {m : List Host.Cell} {a : Nat} {b : Byte} (h : memGet m a = some b) : ∃ c ∈ m, c.1 = a := by
  induction m with
  | nil => cases h
  | cons c m ih =>
    unfold memGet at h
    split at h
    · exact ⟨c, .head _, ‹_›⟩
    · obtain ⟨d, hd, he⟩ := ih h; exact ⟨d, .tail _ hd, he⟩

/-- A listed word has its first byte listed. -/
theorem memGetWord_mem {m : List Host.Cell} {a : Nat} {w : Word} (h : memGetWord m a = some w) :
    ∃ c ∈ m, c.1 = a := by
  obtain ⟨b, hb⟩ : ∃ b, memGet m a = some b := by
    unfold memGetWord at h
    split at h
    · exact ⟨_, ‹_›⟩
    · cases h
  exact memGet_mem hb

/-- Cells at `p` and above are more than those above `p`, where one lies at `p`. -/
theorem filter_above_lt {m : List Host.Cell} {p q : Nat} (hq : p < q) (h : ∃ c ∈ m, c.1 = p) :
    (m.filter fun c => q ≤ c.1).length < (m.filter fun c => p ≤ c.1).length := by
  obtain ⟨c, hc, he⟩ := h
  have e : (m.filter fun c => q ≤ c.1) = (m.filter fun c => p ≤ c.1).filter fun c => q ≤ c.1 := by
    rw [List.filter_filter]; congr 1; funext x; simp; omega
  rw [e]
  have hm : c ∈ m.filter fun c => p ≤ c.1 := List.mem_filter.2 ⟨hc, by simp [he]⟩
  rcases Nat.lt_or_ge ((m.filter fun c => p ≤ c.1).filter fun c => q ≤ c.1).length
      (m.filter fun c => p ≤ c.1).length with h | h
  · exact h
  · have := List.length_filter_eq_length_iff.1 (Nat.le_antisymm (List.length_filter_le ..) h) c hm
    simp [he] at this; omega

/-- A table whose entries are all known is read to its end mark (rule R128), whatever fuel above its length. -/
theorem tableSegments_known {m : List Host.Cell} : ∀ (fuel p : Nat) (es : List (Word × Word)), es ≠ [] →
    (∀ k e, es[k]? = some e → memGetWord m (p + 8 * k) = some e.1 ∧ memGetWord m (p + 8 * k + 4) = some e.2
      ∧ (e.2.getLsbD 31 = true ↔ k + 1 = es.length)) →
    (m.filter fun c => p ≤ c.1).length < fuel →
    tableSegments m fuel p = some (es.map fun e => (e.1.toNat, (e.2 &&& 0x03FFFFFF#32).toNat))
  | 0, _, _, _, _, hf => absurd hf (Nat.not_lt_zero _)
  | fuel + 1, p, [], hn, _, _ => absurd rfl hn
  | fuel + 1, p, e :: es, _, h, hf => by
    obtain ⟨h0, h1, h2⟩ := h 0 e rfl
    simp only [Nat.mul_zero, Nat.add_zero] at h0 h1
    unfold tableSegments
    simp only [h0, h1]
    cases es with
    | nil => rw [if_pos (h2.2 rfl)]; rfl
    | cons f es =>
      rw [if_neg (by rw [h2]; simp)]
      rw [tableSegments_known fuel (p + 8) (f :: es) (by simp) ?_ ?_]
      · rfl
      · intro k g hg
        obtain ⟨a, b, c⟩ := h (k + 1) g hg
        rw [show p + 8 * (k + 1) = p + 8 + 8 * k by omega] at a b
        refine ⟨a, b, c.trans ?_⟩
        simp
      · have := filter_above_lt (show p < p + 8 by omega) (memGetWord_mem h0)
        omega

/-- A table with an unknown entry before its end mark is not read (assumption log, entry 25). -/
theorem tableSegments_unknown {m : List Host.Cell} : ∀ (n fuel p : Nat),
    (∀ k, k < n → ∃ e, memGetWord m (p + 8 * k + 4) = some e ∧ e.getLsbD 31 = false) →
    (memGetWord m (p + 8 * n) = none ∨ memGetWord m (p + 8 * n + 4) = none) → tableSegments m fuel p = none
  | _, 0, _, _, _ => rfl
  | 0, fuel + 1, p, _, h => by
    unfold tableSegments
    rcases h with h | h <;> simp only [Nat.mul_zero, Nat.add_zero] at h <;> rw [h]
    split <;> rename_i h1 h2 <;> first | cases h2 | rfl
  | n + 1, fuel + 1, p, hk, h => by
    obtain ⟨e, h1, h2⟩ := hk 0 (Nat.succ_pos n)
    simp only [Nat.mul_zero, Nat.add_zero] at h1
    unfold tableSegments
    split
    · rename_i he
      rw [h1] at he
      cases he
      rw [if_neg (by rw [h2]; simp), tableSegments_unknown n fuel (p + 8) ?_ ?_]
      · rfl
      · intro k hk'
        rw [show p + 8 + 8 * k = p + 8 * (k + 1) by omega]
        exact hk (k + 1) (by omega)
      · rw [show p + 8 + 8 * n = p + 8 * (n + 1) by omega]; exact h
    · rfl

end Sys2Proof.Machine
end

