-- ==== Sys2Proof/Laws/Ops.lean ====
section
/-!
SUPPORT. What the shared operations can do, one lemma per operation: setting the flags of an event, raising it, and the DMA
accesses with the computation of their addresses. A proof cites these instead of unfolding the operation.
-/

namespace Sys2Proof.Machine

/-! ### Events (rules R330, R331, R336) -/

/-- What setting the flags of an event can change: the three registers of flags, `DMAEN` and the history. -/
theorem setFlags_spec (e : EventKind) (s : State) :
    setFlags e s = { s with
      intsts := (setFlags e s).intsts, dmaintsts := (setFlags e s).dmaintsts, dtaif := (setFlags e s).dtaif
      dmactl := { s.dmactl with dmaen := (setFlags e s).dmactl.dmaen }, history := (setFlags e s).history } := by
  cases e <;> first | rfl | (rename_i p; cases p <;> rfl)

/-- Raising an event sets its flags, and then halts nothing, or both engines; a response timeout halts the engine
after both or after the loss of the counts alone (rules R195, R330, R331). -/
theorem raise_spec (e : EventKind) (s : State) :
    raise e s = setFlags e s ∨ raise e s = haltData (setFlags e s)
    ∨ raise e s = haltResponse (loseCount (setFlags e s)) ∨ raise e s = haltResponse (haltData (setFlags e s)) := by
  unfold raise applyHalt
  cases e <;> dsimp only <;> first
    | exact .inl rfl
    | exact .inr (.inl rfl)
    | (split <;> first
        | exact .inl rfl
        | exact .inr (.inl rfl)
        | exact .inr (.inr (.inr rfl))
        | exact .inr (.inr (.inl rfl)))

/-- The destination range that a halt makes `any` does not depend on the flags. -/
theorem blurDest_setFlags (e : EventKind) (s : State) : blurDest (setFlags e s) = blurDest s := by
  cases e <;> first | rfl | (rename_i p; cases p <;> rfl)

/-- Memory after an event: unchanged, or the destination range of a `DI` is `any` (rule R331). -/
theorem raise_mem (e : EventKind) (s : State) :
    (raise e s).mem = s.mem ∨ (s.ctl.dien.isOn = true ∧ (raise e s).mem = blurDest s) := by
  have hm : (setFlags e s).mem = s.mem := by rw [setFlags_spec]
  have hc : (setFlags e s).ctl = s.ctl := by rw [setFlags_spec]
  rcases raise_spec e s with h | h | h | h <;> rw [h]
  · exact .inl hm
  · simp only [haltData_mem, blurDest_setFlags, hm, hc]
    split
    · rename_i hd; exact .inr ⟨hd, rfl⟩
    · exact .inl rfl
  · exact .inl (by simp [hm])
  · simp only [haltResponse_mem, haltData_mem, blurDest_setFlags, hm, hc]
    split
    · rename_i hd; exact .inr ⟨hd, rfl⟩
    · exact .inl rfl

/-! ### DMA accesses (rules R88, R248) -/

/-- The events that accesses to system memory leave in the history. -/
def Event.onBus : Event → Bool
  | .memRd _ _ | .memWr _ _ | .memErr _ => true
  | _ => false

/-- What DMA accesses and the computation of their addresses change: the sequencer's position, the history, which
grows by memory events, the counter of draws, and memory if words are stored (`st`). -/
structure Moved (st : Bool) (s u : State) : Prop where
  rest : u = { s with mem := u.mem, dma := u.dma, history := u.history, draws := u.draws }
  halted : u.dma.halted = s.dma.halted
  grows : ∃ es, u.history = s.history ++ es ∧ ∀ e ∈ es, e.onBus = true
  memory : MemKept s u
  kept : st = false → u.mem = s.mem

theorem Moved.refl {st : Bool} (s : State) : Moved st s s := ⟨rfl, rfl, ⟨[], by simp, by simp⟩, .of_eq rfl rfl, fun _ => rfl⟩

theorem Moved.trans {st : Bool} {s u v : State} (h : Moved st s u) (k : Moved st u v) : Moved st s v := by
  refine ⟨?_, k.halted.trans h.halted, ?_, h.memory.trans k.memory, fun e => (k.kept e).trans (h.kept e)⟩
  · have hk := k.rest
    rw [h.rest] at hk
    exact hk
  · obtain ⟨es, h1, h2⟩ := h.grows
    obtain ⟨fs, k1, k2⟩ := k.grows
    exact ⟨es ++ fs, by rw [k1, h1, List.append_assoc], fun e he => (List.mem_append.1 he).elim (h2 e) (k2 e)⟩

/-- How a part of a step that started in `s` may end. -/
def Flow.Spec {α : Type} (st : Bool) (s : State) (f : Flow α) : Prop :=
  match f with
  | .go _ u => Moved st s u
  | .stop u => ∃ e v, Moved st s v ∧ u = raise e v ∧ (e = .wrongEot ∨ ∃ a, e = .targetAbort a)
  | .refuse r => r = .illegalPadEntry ∨ r = .padTableWraps

/-- A part of a step that starts where another one ended. -/
theorem Flow.Spec.after {α : Type} {st : Bool} {s u : State} (h : Moved st s u) {f : Flow α} (k : Flow.Spec st u f) :
    Flow.Spec st s f := by
  cases f with
  | go a v => exact h.trans k
  | stop v =>
    obtain ⟨e, w, hw, rest⟩ := k
    exact ⟨e, w, h.trans hw, rest⟩
  | refuse r => exact k

theorem dmaRead_spec {st : Bool} (a : Word) (s : State) : Flow.Spec st s (dmaRead a s) := by
  unfold dmaRead
  split
  · exact ⟨_, s, Moved.refl s, rfl, .inr ⟨a, rfl⟩⟩
  · exact ⟨rfl, rfl, ⟨[.memRd a (memWord s a)], rfl, by simp [Event.onBus]⟩, .of_eq rfl rfl, fun _ => rfl⟩

theorem dmaWrite_spec (a v : Word) (s : State) : Flow.Spec true s (dmaWrite a v s) := by
  unfold dmaWrite
  split
  · exact ⟨_, s, Moved.refl s, rfl, .inr ⟨a, rfl⟩⟩
  · exact ⟨rfl, rfl, ⟨[.memWr a v], rfl, by simp [Event.onBus]⟩, ⟨rfl, fun w => Memory.wf_storeWord w _ a v,
      fun h => storeWord_overlap h a v⟩, nofun⟩

theorem takeAddr_spec {st : Bool} (s : State) : Flow.Spec st s (takeAddr s) :=
  ⟨rfl, rfl, ⟨[], by simp, by simp⟩, .of_eq rfl rfl, fun _ => rfl⟩

theorem fetchPad_spec {st : Bool} (s : State) : Flow.Spec st s (fetchPad s) := by
  unfold fetchPad
  simp only
  split
  · exact .inr rfl
  · have h1 := dmaRead_spec (st := st) (BitVec.ofNat 32 (s.dma.padPtr.pick (Config.anyHidden s.draws 1).toNat)) s
    split
    · rename_i e0 s1 he
      rw [he] at h1
      have h2 := dmaRead_spec (st := st) (BitVec.ofNat 32 (s.dma.padPtr.pick (Config.anyHidden s.draws 1).toNat + 4)) s1
      split
      · rename_i e1 s2 he2
        rw [he2] at h2
        split
        · exact .inl rfl
        · have h3 : Moved st s s2 := Moved.trans h1 h2
          exact h3.trans ⟨rfl, rfl, ⟨[], by simp, by simp⟩, .of_eq rfl rfl, fun _ => rfl⟩
      · rename_i s2 he2
        rw [he2] at h2
        exact Flow.Spec.after (α := Word) h1 h2
      · rename_i r he2
        rw [he2] at h2
        exact h2
    · rename_i s1 he
      rw [he] at h1; exact h1
    · rename_i r he
      rw [he] at h1; exact h1

theorem nextAddr_spec {st : Bool} (s : State) : Flow.Spec st s (nextAddr s) := by
  unfold nextAddr
  split
  · split
    · exact ⟨_, s, Moved.refl s, rfl, .inl rfl⟩
    · have h := fetchPad_spec (st := st) s
      split
      · rename_i s1 he
        rw [he] at h
        exact Flow.Spec.after h (takeAddr_spec s1)
      · rename_i s1 he
        rw [he] at h; exact h
      · rename_i r he
        rw [he] at h; exact h
  · exact takeAddr_spec s

theorem storeBlock_spec : (d : List Byte) → (s : State) → Flow.Spec true s (storeBlock d s)
  | b0 :: b1 :: b2 :: b3 :: rest, s => by
    simp only [storeBlock]
    have h := nextAddr_spec (st := true) s
    split
    · rename_i a s1 he
      rw [he] at h
      have h2 := dmaWrite_spec a (b3 ++ b2 ++ b1 ++ b0) s1
      split
      · rename_i s2 he2
        rw [he2] at h2
        exact Flow.Spec.after (Moved.trans h h2) (storeBlock_spec rest s2)
      · rename_i s2 he2
        rw [he2] at h2
        exact Flow.Spec.after (α := Unit) h h2
      · rename_i r he2
        rw [he2] at h2; exact h2
    · rename_i s1 he
      rw [he] at h; exact h
    · rename_i r he
      rw [he] at h; exact h
  | [], s | [_], s | [_, _], s | [_, _, _], s => Moved.refl s

theorem loadBlock_spec {st : Bool} (n : Nat) (s : State) : Flow.Spec st s (loadBlock n s) := by
  induction n generalizing s with
  | zero => exact Moved.refl s
  | succ n ih =>
    simp only [loadBlock]
    have h := nextAddr_spec (st := st) s
    split
    · rename_i a s1 he
      rw [he] at h
      have h2 := dmaRead_spec (st := st) a s1
      split
      · rename_i v s2 he2
        rw [he2] at h2
        have h3 := ih s2
        have h12 : Moved st s s2 := Moved.trans h h2
        split
        · rename_i d s3 he3
          rw [he3] at h3
          exact Moved.trans h12 h3
        · rename_i s3 he3
          rw [he3] at h3
          exact Flow.Spec.after (α := List Byte) h12 h3
        · rename_i r he3
          rw [he3] at h3; exact h3
      · rename_i s2 he2
        rw [he2] at h2
        exact Flow.Spec.after (α := Word) h h2
      · rename_i r he2
        rw [he2] at h2; exact h2
    · rename_i s1 he
      rw [he] at h; exact h
    · rename_i r he
      rw [he] at h; exact h

end Sys2Proof.Machine
end

