-- ==== Sys2Proof/Laws/Regs.lean ====
section
/-!
SUPPORT. The register window: which register an offset names, a host operation as the read and write of it, the bits that a
read returns, and the window of a quiet engine (rules R21, R45, R150 to R153, R370, R371).
-/

namespace Sys2Proof.Machine

/-! ### The map (rule R21) -/

/-- `CMDARG`. -/
theorem regAt_824 : regAt 0x824#12 = some .cmdarg := by decide

/-- `DMASA`. -/
theorem regAt_408 : regAt 0x408#12 = some .dmasa := by decide

/-- `BLEN`. -/
theorem regAt_838 : regAt 0x838#12 = some .blen := by decide

/-- `TOUT`. -/
theorem regAt_83C : regAt 0x83C#12 = some .tout := by decide

/-- `DMAINTEN`. -/
theorem regAt_410 : regAt 0x410#12 = some .dmainten := by decide

/-- `GINTEN`. -/
theorem regAt_804 : regAt 0x804#12 = some .ginten := by decide

/-- `INTEN`. -/
theorem regAt_828 : regAt 0x828#12 = some .inten := by decide

/-- `ECTL`. -/
theorem regAt_840 : regAt 0x840#12 = some .ectl := by decide

/-- `DMABCNT`. -/
theorem regAt_40C : regAt 0x40C#12 = some .dmabcnt := by decide

/-- `RESP0`. -/
theorem regAt_830 : regAt 0x830#12 = some .resp0 := by decide

/-- `RESP1`. -/
theorem regAt_834 : regAt 0x834#12 = some .resp1 := by decide

/-- `INTSTS`. -/
theorem regAt_82C : regAt 0x82C#12 = some .intsts := by decide

/-- `CTL`. -/
theorem regAt_820 : regAt 0x820#12 = some .ctl := by decide

/-- `DMACTL`. -/
theorem regAt_400 : regAt 0x400#12 = some .dmactl := by decide

/-- `GCTL`. -/
theorem regAt_800 : regAt 0x800#12 = some .gctl := by decide

/-- `DMAINTSTS`. -/
theorem regAt_414 : regAt 0x414#12 = some .dmaintsts := by decide

/-- `GINTSTS`. -/
theorem regAt_808 : regAt 0x808#12 = some .gintsts := by decide

/-- Word `i` of the shared buffer. -/
theorem regAt_fb (i : Fin 128) : regAt (BitVec.ofNat 12 (4 * i)) = some (.fb i) := by
  have h : (BitVec.ofNat 12 (4 * i)).toNat = 4 * i := by simp; omega
  unfold regAt
  rw [if_neg (by rw [h]; omega), dif_pos (by rw [h]; omega)]
  congr 2
  apply Fin.ext
  show (BitVec.ofNat 12 (4 * ↑i)).toNat / 4 = ↑i
  rw [h]; omega

/-! ### Host operations over a register -/

/-- `WR` of a register: refused, or its write (rule R151). -/
theorem execWr_of {off : Offset} {r : Reg} {w : Word} {s : State} (h : regAt off = some r) :
    exec (.wr off w) s = (match regWriteRefusal r w s with | some x => .refused x | none => .next (regWrite r w
        s).tick) := by
  simp only [exec, execWr, writeRefusal, regOf, h, Option.getD] <;> cases regWriteRefusal r w s <;> rfl

/-- `RD` of a register that may be read (rule R150). -/
theorem execRd_of {off : Offset} {r : Reg} {s : State} (h : regAt off = some r) (hf : (∃ i, r = .fb i)
    → inFlight s = false) :
    exec (.rd off) s = .next { afterRead r s with rdata := regView off r s } := by
  have : readRefusal off s = none := by
    unfold readRefusal; rw [h]
    cases r <;> simp only
    rw [hf ⟨_, rfl⟩]; rfl
  simp only [exec, execRd, this, regOf, h, Option.getD]

/-- `SET` and `CLR` of a register that may be read: refused, or one write of the changed value (rules R152, R153). -/
theorem modify_of {off : Offset} {r : Reg} (f : Word → Word) {s : State} (h : regAt off = some r) (hf : (∃ i,
    r = .fb i) → inFlight s = false) :
    modify off f s = (match regWriteRefusal r (f (rmwBase off r s))
        s with | some x => .refused x | none => .next (afterRead r (regWrite r (f (rmwBase off r s)) s))) := by
  have : readRefusal off s = none := by
    unfold readRefusal; rw [h]
    cases r <;> simp only
    rw [hf ⟨_, rfl⟩]; rfl
  simp only [modify, this, writeRefusal, regOf, h, Option.getD] <;> split <;> rename_i h <;> simp only [h]

/-- A write of a register that the host contract refuses. -/
theorem refused_of {off : Offset} {r : Reg} {w : Word} {s : State} (h : regAt off = some r)
    {x : Refusal} (hx : regWriteRefusal r w s = some x) :
    exec (.wr off w) s = .refused x := by rw [execWr_of h, hx]

/-- The shared buffer may be read unless an operation is in flight (rule R372). -/
theorem readRefusal_fb (i : Fin 128) (s : State) : readRefusal (BitVec.ofNat 12 (4 * i))
    s = if inFlight s then some .bufferInUse else none := by
  unfold readRefusal; rw [regAt_fb]

/-! ### What a read returns -/

/-- The low bits of a word, in the two spellings. -/
theorem setWidth_eq_extract {n : Nat} (w : Word) : w.setWidth n = w.extractLsb' 0 n := by
  apply BitVec.eq_of_getLsbD_eq; intro i hi; simp [hi]

/-- The value of a register has its reserved bits 0. -/
theorem regNow_reserved (off : Offset) (r : Reg) (s : State) : regNow off r s &&& reservedMask r = 0#32 := by
  apply BitVec.eq_of_getLsbD_eq; intro j hj
  rw [BitVec.getLsbD_and]
  cases r
  case ctl =>
    simp only [regNow, ctlNow_getLsbD _ hj, reservedMask]
    interval_cases j <;> simp
  all_goals
    simp only [regNow, reservedMask, dmactlNow, gctlNow, BitVec.getLsbD_or, bit_getLsbD _ _ hj, fld_getLsbD _ _ hj]
    try (interval_cases j <;> simp)

/-- A bit that is not reserved is read as it is. -/
theorem regView_getLsbD (off : Offset) (r : Reg) (s : State) {j : Nat} (h : (reservedMask r).getLsbD j = false) :
    (regView off r s).getLsbD j = (regNow off r s).getLsbD j := by
  simp [regView, h]

/-- A field that nothing hides is read as it is stored. -/
@[simp] theorem Held.hideIf_false {α : Type} (x : Held α) : x.hideIf false = x := rfl

/-- A hidden field reads `any`. -/
@[simp] theorem Held.hideIf_true {α : Type} (x : Held α) : x.hideIf true = .any := rfl

/-- `BLKDIF` as it is stored, where no event keeps the engine halted (rules R46, R331). -/
theorem blkdifNow_known {s : State} {b : Bool} (hh : s.eng.halted = false) (h : s.intsts.blkdif = .known b) :
    blkdifNow s = b := by
  rw [blkdifNow, hh, h]; rfl

/-- The bits of `INTSTS` (rule R38). -/
theorem intstsNow_getLsbD (s : State) {j : Nat} (hj : j < 32) : (regNow 0x82C#12 .intsts s).getLsbD j =
   (if j = 0 then blkdifNow s
    else if j = 1 then s.intsts.crcif
    else if j = 2 then s.intsts.crc7.pick ((Config.anyWord s.draws 0x82C#12).getLsbD 2)
    else if j = 3 then s.intsts.crc16.pick ((Config.anyWord s.draws 0x82C#12).getLsbD 3)
    else if j < 7 then (s.intsts.crcsts.pick ((Config.anyWord s.draws 0x82C#12).extractLsb' 4 3)).getLsbD (j - 4)
    else if j = 7 then dat0Now s
    else if j = 8 then s.intsts.cdif0
    else if j = 9 then s.intsts.cdif1
    else if j = 12 then s.intsts.rtoif
    else if j = 13 then s.intsts.ditoif
    else if j = 16 then cdsts s .p0
    else if j = 17 then cdsts s .p1
    else false) := by
  simp only [regNow, BitVec.getLsbD_or, bit_getLsbD _ _ hj, fld_getLsbD _ _ hj]
  interval_cases j <;> simp

/-- The bits of `INTEN` (rule R37). -/
theorem intenNow_getLsbD (off : Offset) (s : State) {j : Nat} (hj : j < 32) : (regNow off .inten s).getLsbD j =
    (if j = 0 then s.inten.blkdien else if j = 1 then s.inten.crcien else if j = 8 then s.inten.cdien0
     else if j = 9 then s.inten.cdien1 else if j = 12 then s.inten.rtoien else if j = 13 then s.inten.ditoien
     else if j = 30 then s.inten.cdsrc0 else if j = 31 then s.inten.cdsrc1 else false) := by
  simp only [regNow, BitVec.getLsbD_or, bit_getLsbD _ _ hj]
  interval_cases j <;> simp

/-- The bits of `DMACTL` (rule R27). -/
theorem dmactlNow_getLsbD (s : State) {j : Nat} (hj : j < 32) : (dmactlNow s).getLsbD j =
    (if j = 0 then s.dmactl.dmaen else if j = 1 then s.dmactl.dmarst else if j = 3 then s.dmactl.sgen
     else if j = 9 then busyNow s else false) := by
  simp only [dmactlNow, BitVec.getLsbD_or, bit_getLsbD _ _ hj]
  interval_cases j <;> simp

/-- The bits of a register with two one-bit fields. -/
theorem bits2_getLsbD (a b : Bool) : ((bit 0 a ||| bit 1 b).getLsbD 0 = a) ∧ ((bit 0 a ||| bit 1 b).getLsbD 1 = b)
    := by
  constructor
  · rw [BitVec.getLsbD_or, bit_getLsbD _ _ (by decide), bit_getLsbD _ _ (by decide)]; simp
  · rw [BitVec.getLsbD_or, bit_getLsbD _ _ (by decide), bit_getLsbD _ _ (by decide)]; simp

/-! ### Reserved bits of a written word (rule R45) -/

/-- A bit outside a mask survives its clearing. -/
theorem and_mask_getLsbD (w m : Word) {j : Nat} (hm : m.getLsbD j = false) (hj : j < 32)
    : (w &&& ~~~m).getLsbD j = w.getLsbD j := by
  rw [BitVec.getLsbD_and, BitVec.getLsbD_not, hm]; simp [hj]

/-- A mask of ones changes nothing. -/
theorem and_ones (w : Word) : w &&& 4294967295#32 = w := by
  have : (4294967295#32) = BitVec.allOnes 32 := by decide
  rw [this, BitVec.and_allOnes]

/-- A field outside a mask survives its clearing. -/
theorem and_mask_extract (w m : Word) (lo n : Nat) (h : ∀ i, i < n → m.getLsbD (lo + i) = false) (hl : lo + n ≤ 32) :
    (w &&& ~~~m).extractLsb' lo n = w.extractLsb' lo n := by
  apply BitVec.eq_of_getLsbD_eq; intro i hi
  rw [BitVec.getLsbD_extractLsb', BitVec.getLsbD_extractLsb', and_mask_getLsbD w m (h i hi) (by omega)]

/-- Masks that do not meet. -/
theorem and_mask_and (w m k : Word) (h : m &&& k = 0#32) : w &&& ~~~m &&& k = w &&& k := by
  apply BitVec.eq_of_getLsbD_eq; intro j hj
  have := congrArg (fun x => x.getLsbD j) h
  simp only [BitVec.getLsbD_and, BitVec.getLsbD_not, BitVec.getLsbD_zero, hj, decide_true, Bool.true_and] at this ⊢
  revert this
  cases m.getLsbD j <;> cases k.getLsbD j <;> cases w.getLsbD j <;> simp

/-- Masks that do not meet, under a complement. -/
theorem and_mask_not_and (c w m k : Word) (h : m &&& k = 0#32) : c &&& ~~~(w &&& ~~~m) &&& k = c &&& ~~~w &&& k := by
  apply BitVec.eq_of_getLsbD_eq; intro j hj
  have := congrArg (fun x => x.getLsbD j) h
  simp only [BitVec.getLsbD_and, BitVec.getLsbD_not, BitVec.getLsbD_zero, hj, decide_true, Bool.true_and] at this ⊢
  revert this
  cases m.getLsbD j <;> cases k.getLsbD j <;> cases w.getLsbD j <;> simp

/-- Two words that differ in the reserved bit 28 of `CTL` alone are the same write. -/
theorem ctl_word_congr {v w : Word} (hb : ∀ j, j < 32 → j ≠ 28 → v.getLsbD j = w.getLsbD j) (s : State) :
    ctlRefusal v s = ctlRefusal w s ∧ writeCtl v s = writeCtl w s := by
  have hx : ∀ lo n, lo + n ≤ 28 ∨ (29 ≤ lo ∧ lo + n ≤ 32) → v.extractLsb' lo n = w.extractLsb' lo n := by
    intro lo n h
    apply BitVec.eq_of_getLsbD_eq; intro i hi
    rw [BitVec.getLsbD_extractLsb', BitVec.getLsbD_extractLsb', hb _ (by omega) (by omega)]
  have hk : ∀ k : Word, k.getLsbD 28 = false → v &&& k = w &&& k := by
    intro k hk
    apply BitVec.eq_of_getLsbD_eq; intro j hj
    rw [BitVec.getLsbD_and, BitVec.getLsbD_and]
    by_cases h : j = 28
    · subst h; rw [hk]; simp
    · rw [hb j hj h]
  have hn : ∀ c k : Word, k.getLsbD 28 = false → c &&& ~~~v &&& k = c &&& ~~~w &&& k := by
    intro c k hk
    apply BitVec.eq_of_getLsbD_eq; intro j hj
    simp only [BitVec.getLsbD_and, BitVec.getLsbD_not]
    by_cases h : j = 28
    · subst h; rw [hk]; simp
    · rw [hb j hj h]
  have hreq : requested v s = requested w s := by
    unfold requested
    rw [BitVec.and_assoc, BitVec.and_assoc, BitVec.and_comm v, BitVec.and_comm w]
    apply BitVec.eq_of_getLsbD_eq; intro j hj
    simp only [BitVec.getLsbD_and]
    by_cases h : j = 28
    · subst h; simp
    · rw [hb j hj h]
  have hport : portField v = portField w := hx 29 2 (by omega)
  have hleg : legalLaunch v = legalLaunch w := by
    unfold legalLaunch
    rw [hk 0x7F#32 (by decide), hb 1 (by decide) (by decide), hb 2 (by decide) (by decide), hb 3 (by decide)
        (by decide), hb 4 (by decide) (by decide)]
  have hf : ∀ c : Ctl, c.withFields v = c.withFields w := by
    intro c; unfold Ctl.withFields
    rw [hb 7 (by decide) (by decide), hb 15 (by decide) (by decide), hb 31 (by decide) (by decide),
        hx 8 6 (by omega), hx 16 8 (by omega), hx 24 4 (by omega), hport]
  have hl : ∀ c : Ctl, c.launch v = c.launch w := by
    intro c; unfold Ctl.launch
    simp only [hb 0 (by decide) (by decide), hb 1 (by decide) (by decide), hb 2 (by decide) (by decide),
        hb 3 (by decide) (by decide), hb 4 (by decide) (by decide), hb 5 (by decide) (by decide), hb 6 (by decide)
        (by decide)]
  have hlr : launchRefusal v s = launchRefusal w s := by
    unfold launchRefusal
    rw [hport, hb 2 (by decide) (by decide), hb 3 (by decide) (by decide), hx 16 8 (by omega)]
  have ho : s.ctl.operandsDiffer v = s.ctl.operandsDiffer w := by
    unfold Ctl.operandsDiffer
    rw [hx 8 6 (by omega), hb 15 (by decide) (by decide), hx 16 8 (by omega), hport]
  constructor
  · unfold ctlRefusal
    rw [hb 14 (by decide) (by decide), hn _ _ (by decide), hleg, hreq, hlr, ho]
  · unfold writeCtl
    simp only [hb 14 (by decide) (by decide), hreq, hf, hl]

/-! ### Launch bits -/

/-- Legality of a launch set depends on bits 6:0 alone (rule R131). -/
theorem legal_and (w : Word) : legalLaunch (w &&& 0x7F#32) = legalLaunch w := by
  have e : w &&& 0x7F#32 &&& 0x7F#32 = w &&& 0x7F#32 := by rw [BitVec.and_assoc]; rfl
  have e2 : w &&& 0x7F#32 &&& 0x60#32 = w &&& 0x60#32 := by rw [BitVec.and_assoc]; rfl
  have g : ∀ j, j < 7 → (w &&& 0x7F#32).getLsbD j = w.getLsbD j := by
    intro j hj; simp only [BitVec.getLsbD_and]; interval_cases j <;> simp
  have e3 : w &&& 0x7F#32 &&& 0x60#32 = w &&& 0x7F#32 &&& 0x60#32 := rfl
  unfold legalLaunch
  simp only [e, g 1 (by omega), g 2 (by omega), g 3 (by omega), g 4 (by omega)]

/-- Where a word clears no launch bit, the bits it requests with those already 1 are its own (rule R129). -/
theorem requested_union {s : State} {w : Word} (h : ctlNow s &&& ~~~w &&& 0x407F#32 = 0#32) :
    (ctlNow s &&& 0x7F#32) ||| requested w s = w &&& 0x7F#32 := by
  unfold requested
  apply BitVec.eq_of_getLsbD_eq; intro j hj
  have hc := congrArg (fun x => x.getLsbD j) h
  simp only [BitVec.getLsbD_and, BitVec.getLsbD_or, BitVec.getLsbD_not, BitVec.getLsbD_zero, hj, decide_true,
    Bool.true_and] at hc ⊢
  cases hm : (0x7F#32).getLsbD j
  · simp
  · rw [show (0x407F#32).getLsbD j = true by clear hc h; revert hm; revert hj; revert j; decide] at hc
    revert hc
    cases (ctlNow s).getLsbD j <;> cases w.getLsbD j <;> simp

/-- A launch bit that is on holds 1. -/
theorem isOn_eq {x : Held Bool} (h : x.isOn = true) : x = .known true := by
  cases x with
  | any => cases h
  | known b => simp [Held.isOn] at h; simp [h]

/-- A launch bit is on exactly if it holds 1. -/
theorem isOn_iff {x : Held Bool} : x.isOn = true ↔ x = .known true := ⟨isOn_eq, fun h => by rw [h]; rfl⟩

/-- A launch bit that is off and known holds 0. -/
theorem isOn_false {x : Held Bool} (h : x.isOn = false) (hn : x ≠ .any) : x = .known false := by
  cases x with
  | any => exact absurd rfl hn
  | known b => simp [Held.isOn] at h; simp [h]

/-- Whether a known launch bit is on. -/
theorem isOn_known {x : Held Bool} {b : Bool} (h : x = .known b) : x.isOn = b := by rw [h]; rfl

/-- A known launch bit is read as it is. -/
theorem pick_of {x : Held Bool} (h : x ≠ .any) (d : Bool) : x.pick d = x.isOn := by
  cases x with
  | any => exact absurd rfl h
  | known b => rfl

/-- Where `CTL` reads no launch bit, none is on. -/
theorem ctlNow_mask (s : State) (h : ctlNow s &&& 0x407F#32 = 0#32)
    : s.ctl.coen = false ∧ s.ctl.clk74oen = false ∧ s.ctl.clk8oen = false ∧ s.ctl.ctlrst = false ∧ s.ctl.rien.isOn =
    false ∧ s.ctl.dien.isOn = false ∧ s.ctl.doen.isOn = false ∧ s.ctl.r2en.isOn = false := by
  have g : ∀ j, j < 32 → (0x407F#32).getLsbD j = true → (ctlNow s).getLsbD j = false := by
    intro j hj hm
    have := congrArg (fun w => w.getLsbD j) h
    simpa [hm] using this
  have p : ∀ (x : Held Bool) (d : Bool), x.pick d = false → x.isOn = false := by
    intro x d h; cases x <;> simp_all [Held.pick, Held.isOn]
  have g0 := g 0 (by omega) (by decide); have g1 := g 1 (by omega) (by decide); have g2 := g 2 (by omega) (by decide)
  have g3 := g 3 (by omega) (by decide); have g4 := g 4 (by omega) (by decide); have g5 := g 5 (by omega) (by decide)
  have g6 := g 6 (by omega) (by decide); have g14 := g 14 (by omega) (by decide)
  rw [ctlNow_getLsbD _ (by omega)] at g0 g1 g2 g3 g4 g5 g6 g14
  simp at g0 g1 g2 g3 g4 g5 g6 g14
  exact ⟨g0, g5, g6, g14, p _ _ g1, p _ _ g2, p _ _ g3, p _ _ g4⟩

/-! ### A quiet engine (rules R26, R371) -/

/-- No launch bit reads 1. -/
theorem ctlNow_quiet {s : State} (h : Quiet s) : ctlNow s &&& 0x407F#32 = 0#32 := by
  obtain ⟨h0, h1, h2, h3, h4, h5, h6, h14, hb⟩ := h
  apply BitVec.eq_of_getLsbD_eq; intro j hj
  rw [BitVec.getLsbD_and, ctlNow_getLsbD _ hj]
  simp only [h0, h1, h2, h3, h4, h5, h6, h14, Held.pick]
  interval_cases j <;> simp

/-- No launch bit reads 1, bit by bit. -/
theorem ctlNow_quiet_bit {s : State} (h : Quiet s) (j : Nat) (hj : (0x407F#32).getLsbD j = true)
    : (ctlNow s).getLsbD j = false := by
  have := congrArg (fun x => x.getLsbD j) (ctlNow_quiet h)
  simpa [hj] using this

/-- A sequencer that is not busy does not count as busy (rule R371). -/
theorem seqBusy_notBusy {s : State} (h : NotBusy s) : seqBusy s = false := by
  unfold seqBusy
  rcases h with h | ⟨h, hh⟩
  · simp [busyNow, h, Held.pick, Held.isOn]
  · simp [h, hh, Held.isOn]

/-- Nothing is in flight. -/
theorem inFlight_quiet {s : State} (h : Quiet s) : inFlight s = false := by
  simp [inFlight, ctlNow_quiet h, seqBusy_notBusy h.2.2.2.2.2.2.2.2]

/-- Every launch bit of a written word is a request (rule R129). -/
theorem requested_quiet {s : State} (h : Quiet s) (w : Word) : requested w s = w &&& 0x7F#32 := by
  unfold requested
  apply BitVec.eq_of_getLsbD_eq; intro j hj
  simp only [BitVec.getLsbD_and, BitVec.getLsbD_not, hj, decide_true, Bool.true_and]
  cases hm : (0x7F#32).getLsbD j
  · simp
  · have : (0x407F#32).getLsbD j = true := by revert hm; revert hj; revert j; decide
    rw [ctlNow_quiet_bit h j this]; simp

/-- No write clears a launch bit (rule R370). -/
theorem cleared_quiet {s : State} (h : Quiet s) (w : Word) : ctlNow s &&& ~~~w &&& 0x407F#32 = 0#32 := by
  rw [BitVec.and_assoc, BitVec.and_comm (~~~w), ← BitVec.and_assoc, ctlNow_quiet h]; simp

/-- A request that the host contract admits (rules R275, R371, R373 to R375). -/
theorem launchRefusal_none {s : State} {w : Word} (hq : Quiet s) (hh : s.eng.halted = false)
    (hp : (portField w).toNat < 2)
    (hd : (w.getLsbD 2 = true ∨ w.getLsbD 3 = true) → DataLegal (w.extractLsb' 16 8).toNat s)
        : launchRefusal w s = none := by
  unfold launchRefusal
  rw [inFlight_quiet hq, hh]
  simp only [Bool.false_eq_true, if_false, show ¬ (2 ≤ (portField w).toNat) by omega]
  split
  · rfl
  · rename_i hn
    obtain ⟨d1, d2, d3, d4, d5⟩ := hd (by cases h2 : w.getLsbD 2 <;> cases h3 : w.getLsbD 3 <;> simp_all)
    rw [if_neg (by intro hz; rw [hz] at d1; exact d1 rfl), d2]
    simp only [Bool.false_eq_true, if_false]
    rw [if_neg, if_neg (by simpa using d4), if_neg]
    · simp only [Bool.and_eq_true, Bool.not_eq_true', decide_eq_true_eq, not_and, Nat.not_lt]
      exact fun hs => d5 hs
    · simp only [ne_eq, Decidable.not_not]
      apply BitVec.eq_of_toNat_eq
      rw [BitVec.toNat_and]
      have : (3#32).toNat = 2 ^ 2 - 1 := rfl
      rw [this, Nat.and_two_pow_sub_one_eq_mod]; simpa using d3

/-- A request that the host contract refuses (rules R275, R373 to R375). -/
theorem launchRefusal_some {s : State} {w : Word} (h : 2 ≤ (portField w).toNat ∨ s.eng.halted = true
      ∨ ((w.getLsbD 2 = true ∨ w.getLsbD 3 = true) ∧ ¬DataLegal (w.extractLsb' 16 8).toNat s)) : ∃ r,
          launchRefusal w s = some r := by
  unfold launchRefusal
  split
  · exact ⟨_, rfl⟩
  · split
    · exact ⟨_, rfl⟩
    · rename_i hp
      · split
        · exact ⟨_, rfl⟩
        · rename_i hh
          rcases h with h | h | ⟨h, hd⟩
          · exact absurd h hp
          · exact absurd h hh
          · rw [if_neg (by rcases h with h | h <;> simp only [h, Bool.true_or, Bool.or_true, Bool.not_true,
                Bool.false_eq_true, not_false_eq_true])]
            split
            · exact ⟨_, rfl⟩
            · rename_i d1
              split
              · exact ⟨_, rfl⟩
              · rename_i d2
                split
                · exact ⟨_, rfl⟩
                · rename_i d3
                  split
                  · exact ⟨_, rfl⟩
                  · rename_i d4
                    split
                    · exact ⟨_, rfl⟩
                    · rename_i d5
                      exfalso; apply hd
                      refine ⟨?_, by simpa using d2, ?_, by simpa using d4, ?_⟩
                      · intro hz; apply d1; apply BitVec.eq_of_toNat_eq; simpa using hz
                      · simp only [ne_eq, Decidable.not_not] at d3
                        have := congrArg BitVec.toNat d3
                        rw [BitVec.toNat_and] at this
                        have h3 : (3#32).toNat = 2 ^ 2 - 1 := rfl
                        rw [h3, Nat.and_two_pow_sub_one_eq_mod] at this; simpa using this
                      · intro hs
                        simp only [hs, Bool.not_false, Bool.true_and, decide_eq_true_eq, not_lt] at d5
                        exact d5

/-- The fields of `CTL` are kept where a word has them as `CTL` reads. -/
theorem withFields_now (s : State) (m : Word) (hm : m &&& 0xFFFF_BF80#32 = 0#32) : s.ctl.withFields (ctlNow s ||| m)
    = s.ctl := by
  have hb : ∀ j, j < 32 → (0xFFFF_BF80#32).getLsbD j = true → (ctlNow s ||| m).getLsbD j = (ctlNow s).getLsbD j := by
    intro j hj hk
    have := congrArg (fun x => x.getLsbD j) hm
    simp only [BitVec.getLsbD_and, hk, Bool.and_true, BitVec.getLsbD_zero] at this
    rw [BitVec.getLsbD_or, this, Bool.or_false]
  have e : ∀ lo n, lo + n ≤ 32 → (∀ i, i < n → (0xFFFF_BF80#32).getLsbD (lo + i) = true)
      → (ctlNow s ||| m).extractLsb' lo n = (ctlNow s).extractLsb' lo n := by
    intro lo n hl h
    apply BitVec.eq_of_getLsbD_eq; intro i hi
    rw [BitVec.getLsbD_extractLsb', BitVec.getLsbD_extractLsb', hb _ (by omega) (h i hi)]
  have g := fun j (hj : j < 32) => ctlNow_getLsbD s hj
  have x8 : (ctlNow s).extractLsb' 8 6 = s.ctl.cmdcode := by
    apply BitVec.eq_of_getLsbD_eq; intro i hi; rw [BitVec.getLsbD_extractLsb',
        g _ (by omega)]; interval_cases i <;> simp
  have x16 : (ctlNow s).extractLsb' 16 8 = s.ctl.blkcnt := by
    apply BitVec.eq_of_getLsbD_eq; intro i hi; rw [BitVec.getLsbD_extractLsb',
        g _ (by omega)]; interval_cases i <;> simp
  have x24 : (ctlNow s).extractLsb' 24 4 = s.ctl.sdnwr := by
    apply BitVec.eq_of_getLsbD_eq; intro i hi; rw [BitVec.getLsbD_extractLsb',
        g _ (by omega)]; interval_cases i <;> simp
  have x29 : (ctlNow s).extractLsb' 29 2 = s.ctl.sdport := by
    apply BitVec.eq_of_getLsbD_eq; intro i hi; rw [BitVec.getLsbD_extractLsb',
        g _ (by omega)]; interval_cases i <;> simp
  simp only [Ctl.withFields, portField]
  rw [hb 7 (by decide) (by decide), hb 15 (by decide) (by decide), hb 31 (by decide) (by decide), e 8 6 (by decide)
      (by decide), e 16 8 (by decide) (by decide), e 24 4 (by decide) (by decide), e 29 2 (by decide) (by decide),
      x8, x16, x24, x29,
    show (ctlNow s).getLsbD 7 = s.ctl.clkkeep0 from g 7 (by decide),
        show (ctlNow s).getLsbD 15 = s.ctl.dbw from g 15 (by decide),
        show (ctlNow s).getLsbD 31 = s.ctl.clkkeep1 from g 31 (by decide)]

end Sys2Proof.Machine
end

