-- ==== Sys2Proof/Laws/Engine.lean ====
section
/-!
SUPPORT. The operations of the engine without data: when they are held, what a response leads to, and the counts after a block
(rules R176, R190 to R197, R237, R331).
-/

namespace Sys2Proof.Machine

/-! ### Held operations (rule R176) -/

/-- The conditions of the steps launched from `CTL`, as a proposition. -/
theorem enabled_iff (s : State) : engineEnabled s = true ↔ EngineReady s := by
  simp [engineEnabled, EngineReady, and_assoc]

/-- The conditions of the steps of a data operation, as a proposition. -/
theorem dataEnabled_iff (s : State) : dataEnabled s = true ↔ DataReady s := by
  simp [dataEnabled, DataReady, enabled_iff, and_assoc]

/-- Where the conditions do not hold. -/
theorem not_ready {s : State} (h : ¬EngineReady s) : engineEnabled s = false := by
  rw [Bool.eq_false_iff]; exact fun hh => h ((enabled_iff s).1 hh)

/-- An operation of an engine that is not ready does nothing. -/
theorem held (s : State) (he : engineEnabled s = false) : ∀ i, IsCtlOp i → exec i s = .next s := by
  intro i hi
  rcases hi with rfl | rfl | rfl | rfl | rfl | rfl | rfl
  · show execClk74o s = _; simp [execClk74o, he]
  · show execClk8o s = _; simp [execClk8o, he]
  · show execCo s = _; simp [execCo, coEnabled, he]
  · show execRi s = _; simp [execRi, riEnabled, he]
  · show execR2i s = _; simp [execR2i, r2iEnabled, he]
  · show execDi s = _; simp [execDi, dataEnabled, he]
  · show execDout s = _; simp [execDout, dataEnabled, he]

/-- A stuck engine is not ready. -/
theorem stuck_off {s : State} (h : s.eng.stuck = true) : engineEnabled s = false := by simp [engineEnabled, h]

/-! ### The card oracle (rule R12) -/

/-- Asking for a short response touches the card scripts and the draws alone. -/
theorem took48_eq (s : State)
    : tookResp48 s = { s with card0 := (tookResp48 s).card0, card1 := (tookResp48 s).card1, draws := s.draws + 1 } :=
    by
  unfold tookResp48 State.setCard; split <;> rfl

/-- Asking for a long response touches the card scripts and the draws alone. -/
theorem took136_eq (s : State)
    : tookResp136 s = { s with card0 := (tookResp136 s).card0, card1 := (tookResp136 s).card1, draws := s.draws + 1 }
    := by
  unfold tookResp136 State.setCard; split <;> rfl

/-- Asking for a block touches the card scripts and the draws alone. -/
theorem tookBlock_eq (s : State)
    : tookBlock s = { s with card0 := (tookBlock s).card0, card1 := (tookBlock s).card1, draws := s.draws + 1 } := by
  unfold tookBlock State.setCard; split <;> rfl

/-- Asking for a status token touches the card scripts and the draws alone. -/
theorem tookStatus_eq (s : State)
    : tookStatus s = { s with card0 := (tookStatus s).card0, card1 := (tookStatus s).card1, draws := s.draws + 1 } :=
    by
  unfold tookStatus State.setCard; split <;> rfl

/-- Asking whether the card is ready touches the card scripts and the draws alone. -/
theorem tookReady_eq (s : State)
    : tookReady s = { s with card0 := (tookReady s).card0, card1 := (tookReady s).card1, draws := s.draws + 1 } := by
  unfold tookReady State.setCard; split <;> rfl

/-! ### Responses (rules R190 to R197) -/

/-- A short response that arrives is taken. -/
theorem ri_frame {s : State} {f : BitVec 48} (h : EngineReady s) (h1 : s.ctl.rien = .known true)
    (h0 : s.ctl.coen = false) (h5 : s.ctl.clk74oen = false)
    (ha : askResp48 s = some f) : exec .ri s = .next (riFrame f (tookResp48 s)) := by
  have he := (enabled_iff s).2 h
  show execRi s = _
  simp [execRi, riEnabled, he, h1, h0, h5, ha, Held.isOn]

/-- A long response that arrives is taken. -/
theorem r2i_frame {s : State} {f : BitVec 136} (h : EngineReady s) (h1 : s.ctl.r2en = .known true)
    (h0 : s.ctl.coen = false) (h5 : s.ctl.clk74oen = false)
    (ha : askResp136 s = some f) : exec .r2i s = .next (r2iFrame f (tookResp136 s)) := by
  have he := (enabled_iff s).2 h
  show execR2i s = _
  simp [execR2i, r2iEnabled, he, h1, h0, h5, ha, Held.isOn]

/-- The verdict on a short response (rule R191). -/
theorem ok48 (f : BitVec 48) : respOk48 f = decide (crc7 (bitsMsb (f.extractLsb' 8 40)) = f.extractLsb' 1 7) := by
  rw [respOk48]; exact beq_eq_decide _ _

/-- The verdict on a long response (rule R194). -/
theorem ok136 (f : BitVec 136) : respOk136 f = decide (crc7 (bitsMsb (f.extractLsb' 8 120)) = f.extractLsb' 1 7) := by
  rw [respOk136]; exact beq_eq_decide _ _

/-- The engine goes on after a response unless it is halted. -/
theorem after_go {s : State} (h : s.eng.halted = false) : afterResponse s = s.goOn := by
  rw [afterResponse, h]; rfl

/-- A halted engine stays where it is after a response. -/
theorem after_halt {s : State} (h : s.eng.halted = true) : afterResponse s = s := by
  rw [afterResponse, h]; rfl

/-- Whether a data phase is pending. -/
theorem dataPending_iff (s : State)
    : dataPending s = true ↔ s.ctl.dien.isOn = true ∨ s.ctl.doen.isOn = true := by simp [dataPending]

/-- A mismatch without a data phase sets the flag alone (rule R197). -/
theorem raise_crc_nodata {s : State} (h : dataPending s = false)
    : raise .responseCrc s = setFlags .responseCrc s := by
  have : dataPending (setFlags .responseCrc s) = false := h
  simp [raise, applyHalt, this]

/-- A mismatch with a data phase pending halts both engines (rule R197). -/
theorem raise_crc_data {s : State} (h : dataPending s = true)
    : raise .responseCrc s = haltData (setFlags .responseCrc s) := by
  have : dataPending (setFlags .responseCrc s) = true := h
  simp [raise, applyHalt, this]

/-- A correct CRC is recorded. -/
theorem judge_ok (s : State) : judgeResponse true s = recordCrc7 true s := rfl

/-- A mismatch without a data phase is recorded and flagged. -/
theorem judge_bad {s : State} (h : dataPending s = false)
    : judgeResponse false s = setFlags .responseCrc (recordCrc7 false s) :=
  raise_crc_nodata h

/-- A mismatch with a data phase pending is recorded and flagged, and halts. -/
theorem judge_halt {s : State} (h : dataPending s = true)
    : judgeResponse false s = haltData (setFlags .responseCrc (recordCrc7 false s)) :=
  raise_crc_data h

/-- A short response taken, before its verdict. -/
def riTaken (f : BitVec 48) (s : State) : State := { s.log (.respIn (selPort s) f) with
    resp0 := .known (f.extractLsb' 16 32)
    resp1 := .known (f.extractLsb' 8 8)
    ctl := { s.ctl with rien := .known false } }

/-- A short response is taken, judged, and the engine goes on. -/
theorem riFrame_eq (f s) : riFrame f s = afterResponse (judgeResponse (respOk48 f) (riTaken f s)) := rfl

/-- A long response taken, before its verdict. -/
def r2iTaken (f : BitVec 136) (s : State) : State := { s.log (.resp2In (selPort s) f) with
    fb := longBuffer f
    resp0 := .any
    resp1 := .any
    ctl := { s.ctl with r2en := .known false } }

/-- A long response is taken, judged, and the engine goes on. -/
theorem r2iFrame_eq (f s) : r2iFrame f s = afterResponse (judgeResponse (respOk136 f) (r2iTaken f s)) := rfl

/-- The response timeout sets its flag and halts the engine, or both (rule R195). -/
theorem raise_timeout (s : State)
    : raise .responseTimeout s = haltResponse (if dataPending s then
        haltData { s with intsts := { s.intsts with rtoif := true } }
      else loseCount { s with intsts := { s.intsts with rtoif := true } }) := rfl

/-- No response and a timeout set (rule R195). -/
theorem timeout_eq {s u : State} (hu : u = { s with card0 := u.card0, card1 := u.card1, draws := s.draws + 1 })
    (ht : s.tout ≠ 0#24) :
    noResponse u = haltResponse (if dataPending s then
          haltData { u with intsts := { s.intsts with rtoif := true }
                            history := s.history ++ [.respNone (selPort s)] }
        else loseCount { u with intsts := { s.intsts with rtoif := true }
                                history := s.history ++ [.respNone (selPort s)] }) := by
  rw [hu]
  rw [noResponse, if_pos ht, raise_timeout]
  rfl

/-! ### The buffer after a long response (rules R84, R193) -/

/-- The bytes of a word put together of four. -/
theorem word_bytes (b0 b1 b2 b3 : Byte) :
    (b3 ++ b2 ++ b1 ++ b0 : Word).extractLsb' 0 8 = b0 ∧ (b3 ++ b2 ++ b1 ++ b0 : Word).extractLsb' 8 8 = b1
    ∧ (b3 ++ b2 ++ b1 ++ b0 : Word).extractLsb' 16 8 = b2 ∧ (b3 ++ b2 ++ b1 ++ b0 : Word).extractLsb' 24 8 = b3 := by
  refine ⟨?_, ?_, ?_, ?_⟩ <;>
  · apply BitVec.eq_of_getLsbD_eq; intro i hi
    simp only [BitVec.getLsbD_extractLsb', BitVec.getLsbD_append, hi, decide_true, Bool.true_and]
    interval_cases i <;> simp

/-- The bytes of a word of the long response. -/
theorem longByte_word (f : BitVec 136) (k j : Nat) (_hk : k < 4) (hj : j < 4) : (longWord f k).extractLsb' (8 * j)
    8 = f.extractLsb' (128 - 8 * (4 * k + j)) 8 := by
  obtain ⟨h0, h1, h2, h3⟩ := word_bytes (longByte f (4 * k)) (longByte f (4 * k + 1)) (longByte f (4 * k + 2))
      (longByte f (4 * k + 3))
  interval_cases j
  · exact h0
  · exact h1
  · exact h2
  · exact h3

/-- The first four words of the buffer. -/
theorem longBuffer_low (f : BitVec 136) (k : Nat) (hk : k < 4) : (longBuffer f)[k] = .known (longWord f k) := by
  interval_cases k <;> simp [longBuffer]

/-- The other words of the buffer. -/
theorem longBuffer_high (f : BitVec 136) (k : Nat) (h : k < 128) (hk : 4 ≤ k) : (longBuffer f)[k] = .any := by
  simp only [longBuffer, Vector.getElem_set]
  rw [if_neg (by omega), if_neg (by omega), if_neg (by omega), if_neg (by omega)]; simp [fbAny]

/-! ### Halts (rule R331) -/

/-- The destination ranges depend on the operands, and once the operation has started on those noted. -/
theorem blurDest_congr {u s : State} (h1 : u.dmactl.sgen = s.dmactl.sgen) (h2 : u.mem = s.mem)
    (h3 : u.dmasa = s.dmasa) (h4 : u.ctl.blkcnt = s.ctl.blkcnt) (h5 : u.blen = s.blen)
    (h7 : u.dmactl.dmabusy = s.dmactl.dmabusy) (h8 : u.dma.dest = s.dma.dest) : blurDest u = blurDest s := by
  simp only [blurDest, destRanges, byteCount, blockLen, h1, h2, h3, h4, h5, h7, h8]

/-- A halt of both engines, by a state with the same operands. -/
theorem halt_as {u s : State} (h1 : u.dmactl.sgen = s.dmactl.sgen) (h2 : u.mem = s.mem) (h3 : u.dmasa = s.dmasa)
    (h4 : u.ctl.blkcnt = s.ctl.blkcnt) (h5 : u.blen = s.blen) (h6 : u.ctl.dien = s.ctl.dien)
    (h7 : u.dmactl.dmabusy = s.dmactl.dmabusy) (h8 : u.dma.dest = s.dma.dest) :
    haltData u = { stopEngine u with
      ctl := { u.ctl with rien := u.ctl.rien.blur, r2en := u.ctl.r2en.blur, dien := .any, doen := .any }
      mem := if s.ctl.dien.isOn then blurDest s else s.mem
      dma := { u.dma with halted := true }
      intsts := { u.intsts with blkdif := .any }
      dmactl := { u.dmactl with dmabusy := .any }
      bcnt := .any
      fb := fbAny } := by
  rw [← blurDest_congr h1 h2 h3 h4 h5 h7 h8, ← h2, ← h6]; rfl

/-- What is listed after the destination was made `any`: nothing inside its ranges, outside what was listed before, and
nothing at all where a range is unknown (rule R331). -/
theorem memGet_blurDest (s : State) (a : Nat) :
    memGet (blurDest s) a = match (if s.dmactl.sgen && s.dmactl.dmabusy.isOn then s.dma.dest else destRanges s) with
      | some rs => if ∃ r ∈ rs, r.1 ≤ a ∧ a < r.1 + r.2 then none else memGet s.mem a
      | none => none := by
  unfold blurDest
  generalize (if s.dmactl.sgen && s.dmactl.dmabusy.isOn then s.dma.dest else destRanges s) = d
  cases d with
  | some rs => exact memGet_eraseAll _ _ _
  | none => rfl

/-- A byte that is still listed after a halt was listed before. -/
theorem memGet_blurDest_some {s : State} {a : Nat} {b : Byte} (h : memGet (blurDest s) a = some b) :
    memGet s.mem a = some b := by
  rw [memGet_blurDest] at h
  split at h
  · split at h
    · cases h
    · exact h
  · cases h

/-! ### Counts (rule R237) -/

/-- After a block: the end of the data phase, or what follows. -/
theorem moved_if (after : State → State) (s : State) : blockMoved after s = if s.eng.blocksLeft - 1 = 0 then
    { s with eng := { s.eng with blocksLeft := s.eng.blocksLeft - 1, phase := .dataEnd }, bcnt := .known (bcntNow s - BitVec.ofNat 26 (blockLen s)) }
    else after { s with eng := { s.eng with blocksLeft := s.eng.blocksLeft - 1 }, bcnt := .known (bcntNow s - BitVec.ofNat 26 (blockLen s)) } := rfl

end Sys2Proof.Machine
end

