-- ==== Sys2Proof/Laws/Blocks.lean ====
section
/-!
SUPPORT. Blocks: the addresses of their words, the scatter-gather entries, and a block stored, loaded and aborted in both
modes (rules R86, R90, R236, R241, R245, R248).
-/

namespace Sys2Proof.Machine

/-! ### Addresses (rule R248) -/

/-- Inside a segment or a contiguous buffer the next address is the current one. -/
theorem nextAddr_take {s : State} (h : (s.dmactl.sgen && s.dma.segLeft == 0) = false) : nextAddr s = takeAddr s := by
  rw [nextAddr, h, if_neg (by simp)]

/-- At the end of a segment the next entry is fetched. -/
theorem nextAddr_new {s : State} (hs : s.dmactl.sgen = true) (hl : s.dma.segLeft = 0) (he : s.dma.eotSeen = false)
    : nextAddr s = match fetchPad s with
      | .go _ s1 => takeAddr s1
      | .stop s1 => .stop s1
      | .refuse r => .refuse r := by
  rw [nextAddr, if_pos (by simp [hs, hl]), he, if_neg (by simp)] <;> rfl

/-- The two low bits of a word as a remainder. -/
theorem and3 (w : Word) : (w &&& 3#32 != 0#32) = decide (w.toNat % 4 ≠ 0) := by
  have : (w &&& 3#32).toNat = w.toNat % 4 := by
    rw [BitVec.toNat_and]
    exact Nat.and_two_pow_sub_one_eq_mod (n := 2) _
  rw [Bool.eq_iff_iff]
  simp only [bne_iff_ne, ne_eq, decide_eq_true_eq]
  rw [← this, not_iff_not]
  exact ⟨fun h => by rw [h]; rfl, fun h => BitVec.eq_of_toNat_eq h⟩

/-- The byte count of a table entry as a field. -/
theorem and26 (w : Word) : (w &&& 0x03FFFFFF#32).toNat = (w.extractLsb' 0 26).toNat := by
  rw [BitVec.toNat_and, BitVec.extractLsb'_toNat, Nat.shiftRight_zero]
  exact Nat.and_two_pow_sub_one_eq_mod (n := 26) _

/-- The reserved bits of a table entry as a field. -/
theorem and5 (w : Word) : (w &&& 0x7C000000#32 != 0#32) = decide (w.extractLsb' 26 5 ≠ 0#5) := by
  rw [Bool.eq_iff_iff]
  simp only [bne_iff_ne, ne_eq, decide_eq_true_eq, not_iff_not]
  constructor
  · intro h
    apply BitVec.eq_of_getLsbD_eq; intro i hi
    have := congrArg (fun x => x.getLsbD (26 + i)) h
    have hm : (0x7C000000#32).getLsbD (26 + i) = true := by interval_cases i <;> decide
    simp only [BitVec.getLsbD_and, hm, Bool.and_true, BitVec.getLsbD_zero] at this
    simp [hi, this]
  · intro h
    apply BitVec.eq_of_getLsbD_eq; intro j hj
    rw [BitVec.getLsbD_and]
    by_cases hm : (0x7C000000#32).getLsbD j = true
    · have h2 : 26 ≤ j ∧ j < 31 := by clear h; revert hm; revert hj; revert j; decide
      have := congrArg (fun x => x.getLsbD (j - 26)) h
      simp only [BitVec.getLsbD_extractLsb', BitVec.getLsbD_zero] at this
      rw [show 26 + (j - 26) = j by omega, show decide (j - 26 < 5) = true from decide_eq_true (by omega),
          Bool.true_and] at this
      rw [this]; simp
    · rw [Bool.not_eq_true] at hm; rw [hm]; simp

/-- The malformed entries, in the words of rule R128. -/
theorem padIllegal_iff (e0 e1 : Word)
    : padIllegal e0 e1 = true ↔ (e0.toNat % 4 ≠ 0 ∨ (e1.extractLsb' 0 26).toNat = 0 ∨ (e1.extractLsb' 0 26).toNat % 4
    ≠ 0
          ∨ e1.extractLsb' 26 5 ≠ 0#5 ∨ 2 ^ 32 < e0.toNat + (e1.extractLsb' 0 26).toNat) := by
  have h26 : (e1 &&& 0x03FFFFFF#32 == 0#32) = decide ((e1.extractLsb' 0 26).toNat = 0) := by
    rw [Bool.eq_iff_iff]
    simp only [beq_iff_eq, decide_eq_true_eq]
    rw [← and26]
    exact ⟨fun h => by rw [h]; rfl, fun h => BitVec.eq_of_toNat_eq h⟩
  have h4 : e1.toNat % 4 = (e1.extractLsb' 0 26).toNat % 4 := by
    rw [BitVec.extractLsb'_toNat, Nat.shiftRight_zero]; omega
  rw [padIllegal, and3, and3, and5, h26, and26, h4]
  simp only [Bool.or_eq_true, decide_eq_true_eq, or_assoc]

/-! ### Words of memory (rule R86) -/

/-- A word is its four bytes, lowest last. -/
theorem word_of_bytes (e : Word)
    : e.extractLsb' 24 8 ++ e.extractLsb' 16 8 ++ e.extractLsb' 8 8 ++ e.extractLsb' 0 8 = e := by
  apply BitVec.eq_of_getLsbD_eq; intro j hj
  simp only [BitVec.getLsbD_append, BitVec.getLsbD_extractLsb']
  interval_cases j <;> simp

/-- A byte that no other master changed during a `DO` is read as it is listed (rule R95). -/
theorem memByte_listed {s : State} {a : Nat} {b : Byte} (h : memGet s.mem a = some b) (hl : ∀ c ∈ s.lent, c.1 ≠ a) :
    memByte s a = b := by
  have hf : s.lent.filter (fun c => c.1 == a) = [] := by
    simp only [List.filter_eq_nil_iff, beq_iff_eq]; exact hl
  simp only [memByte, hf, h]
  rfl

/-- A value that a read of the byte at `a` can give (rules R12, R95): the listed one, any where none is listed, and
where another master changed the byte during the running `DO` one that it replaced. -/
def Seen (s : State) (a : Nat) (b : Byte) : Prop :=
  (∃ c ∈ s.lent, c.1 = a ∧ (c.2 = none ∨ c.2 = some b)) ∨ memGet s.mem a = none ∨ memGet s.mem a = some b

/-- What a read of a byte gives (rule R95). -/
theorem memByte_seen (s : State) (a : Nat) : Seen s a (memByte s a) := by
  simp only [Seen, memByte]
  split
  · rename_i c hc
    have hm := List.mem_of_getElem? hc
    simp only [List.mem_filter, beq_iff_eq] at hm
    refine .inl ⟨c, hm.1, hm.2, ?_⟩
    cases hv : c.2 with
    | none => exact .inl rfl
    | some v => exact .inr rfl
  · right
    cases hv : memGet s.mem a with
    | none => exact .inl rfl
    | some v => exact .inr rfl

/-- What a read of a word gives, byte for byte (rules R86, R95). -/
theorem memWord_seen (s : State) {a : Word} (h : a.toNat + 4 ≤ 2 ^ 32) {j : Nat} (hj : j < 4) :
    Seen s (a.toNat + j) ((memWord s a).extractLsb' (8 * j) 8) := by
  have hb : (memWord s a).extractLsb' (8 * j) 8 = memByte s (byteAddr a j) := by
    obtain ⟨g0, g1, g2, g3⟩ := word_bytes (memByte s (byteAddr a 0)) (memByte s (byteAddr a 1))
      (memByte s (byteAddr a 2)) (memByte s (byteAddr a 3))
    interval_cases j
    · exact g0
    · exact g1
    · exact g2
    · exact g3
  rw [hb, byteAddr_eq (by omega)]
  exact memByte_seen s _

/-- A word of listed bytes. -/
theorem memWord_eq {s : State} {p : Nat} (hp : p + 4 ≤ 2 ^ 32) {e : Word} (h : ∀ j, j < 4 → memGet s.mem (p + j)
    = some (e.extractLsb' (8 * j) 8)) (hl : Unlent p (p + 4) s) :
    memWord s (BitVec.ofNat 32 p) = e := by
  have hb : ∀ j, j < 4 → byteAddr (BitVec.ofNat 32 p) j = p + j := by
    intro j hj
    have : (BitVec.ofNat 32 p).toNat = p := by rw [BitVec.toNat_ofNat]; omega
    rw [byteAddr_eq (by omega), this]
  have hm : ∀ j, j < 4 → memByte s (p + j) = e.extractLsb' (8 * j) 8 := fun j hj =>
    memByte_listed (h j hj) fun c hc => by have := hl c hc; omega
  simp only [memWord]
  rw [hb 0 (by decide), hb 1 (by decide), hb 2 (by decide), hb 3 (by decide), hm 0 (by decide), hm 1 (by decide),
      hm 2 (by decide), hm 3 (by decide)]
  exact word_of_bytes e

/-- The four bytes of a word listed at an address. -/
theorem memGetWord_bytes {m : List Host.Cell} {p : Nat} {e : Word} (h : memGetWord m p = some e) :
    ∀ j, j < 4 → memGet m (p + j) = some (e.extractLsb' (8 * j) 8) := by
  unfold memGetWord at h
  split at h
  · rename_i b0 b1 b2 b3 h0 h1 h2 h3
    injection h with h
    subst h
    obtain ⟨g0, g1, g2, g3⟩ := word_bytes b0 b1 b2 b3
    intro j hj
    interval_cases j
    · rw [Nat.mul_zero, g0]; exact h0
    · rw [Nat.mul_one, g1]; exact h1
    · rw [show 8 * 2 = 16 from rfl, g2]; exact h2
    · rw [show 8 * 3 = 24 from rfl, g3]; exact h3
  · cases h

/-- Words listed alike. -/
theorem memGetWord_congr {m n : List Host.Cell} {p : Nat} (h : ∀ j, j < 4 → memGet m (p + j) = memGet n (p + j)) :
    memGetWord m p = memGetWord n p := by
  have h0 := h 0 (by decide); have h1 := h 1 (by decide); have h2 := h 2 (by decide); have h3 := h 3 (by decide)
  simp only [Nat.add_zero] at h0
  simp only [memGetWord, h0, h1, h2, h3]

/-- A word that is not answered with a bus error. -/
theorem dmaRead_ok {a : Word} {s : State} (h : a ∉ s.busErr) : dmaRead a s = .go (memWord s a)
    ((s.log (.memRd a (memWord s a))).tick) := by
  rw [dmaRead, if_neg h]

/-! ### Blocks (rules R236, R241) -/

/-- A list made to fit has the length asked for. -/
theorem fitTo_length {α : Type} (d : Nat → α) (n : Nat) (l : List α) : (fitTo d n l).length = n := by
  induction n generalizing l with
  | zero => rfl
  | succ n ih => cases l <;> simp [fitTo, ih]

/-- A received block has the length of a block (rule R12). -/
theorem askBlock_length {s : State} {b : Block} (h : askBlock s = some b) : b.bytes.length = blockLen s := by
  unfold askBlock at h
  simp only [Option.map_eq_some_iff] at h
  obtain ⟨c, _, rfl⟩ := h
  exact fitTo_length _ _ _

/-- Inside a block the conditions of a data operation hold. -/
theorem inBlock_enabled {s : State} {p} (h : InBlock p s) : dataEnabled s = true := (dataEnabled_iff s).2 h.1

/-- `DI` inside a block moves one. -/
theorem di_inBlock {s : State} (h : InBlock .dataIn s) : exec .di s = diBlock s := by
  have he := inBlock_enabled h
  obtain ⟨_, hp, hb, hl⟩ := h
  show execDi s = _
  simp only [execDi, he, hp, hb, Held.isOn, Bool.not_true, Bool.false_eq_true, if_false, reduceCtorEq,
    ne_eq, not_true_eq_false]
  rw [if_neg (by omega)]

/-- `DO` inside a block performs its next part. -/
theorem dout_inBlock {s : State} (h : DataReady s) (hp : s.eng.phase = .dataOut)
    (hb : s.dmactl.dmabusy = .known true) : exec .dout s = doInBlock s := by
  have he := (dataEnabled_iff s).2 h
  show execDout s = _
  simp only [execDout, he, hp, hb, Held.isOn, Bool.not_true, Bool.false_eq_true, if_false, reduceCtorEq, ne_eq,
      not_true_eq_false]

/-! ### The words of a block, in both modes (rules R245, R248) -/

/-- A state that differs from `s` in what accesses to system memory change, with the bytes of `T` listed alike. -/
def Like (T : Nat → Prop) (s u : State) : Prop :=
  u = { s with mem := u.mem, dma := u.dma, history := u.history, draws := u.draws }
    ∧ ∀ x, T x → memGet u.mem x = memGet s.mem x

/-- From the sequencer's position `d`, and whatever else the accesses before have changed, these accesses come next
and lead to the position at the end. -/
inductive Walk (T : Nat → Prop) (s : State) : Dma → List Access → Dma → Prop where
  | nil (d : Dma) : Walk T s d [] d
  | cons (d d' d'' : Dma) (r : Access) (rs : List Access)
      (h : ∀ u, Like T s u → u.dma = d → nextAddr u = .go r.2
        { u with dma := d', history := u.history ++ r.1, draws := u.draws + r.1.length })
      (k : Walk T s d' rs d'') : Walk T s d (r :: rs) d''

/-- The state after accesses that write these words. -/
def wrote (rs : List Access) (ws : List Word) (d : Dma) (s : State) : State :=
  { s with mem := putWords s.overlap s.mem rs ws, dma := d, history := s.history ++ writeEvents rs ws
           draws := s.draws + fetchReads rs }

/-- The state after accesses that read these words. -/
def didRead (rs : List Access) (ws : List Word) (d : Dma) (s : State) : State :=
  { s with dma := d, history := s.history ++ readEvents rs ws, draws := s.draws + fetchReads rs + rs.length }

/-- The first words of a block are stored at the addresses of a walk, and then the rest of the block follows. -/
theorem storeBlock_walk {T : Nat → Prop} {s : State} {d d' : Dma} {rs : List Access} (hw : Walk T s d rs d') :
    (∀ r ∈ rs, r.2 ∉ s.busErr ∧ ∀ k, k < 4 → ¬T (byteAddr r.2 k)) →
    ∀ (u : State), Like T s u → u.dma = d → ∀ (pre post : List Byte), pre.length = 4 * rs.length →
    storeBlock (pre ++ post) u = storeBlock post (wrote rs (leWords pre) d' u) := by
  induction hw with
  | nil d =>
    intro _ u _ hd pre post hl
    have : pre = [] := List.eq_nil_of_length_eq_zero hl
    subst this
    subst hd
    simp [wrote, putWords, writeEvents, fetchReads, leWords]
  | cons d d' d'' r rs h k ih =>
    intro hr u hu hd pre post hl
    match pre, hl with
    | b0 :: b1 :: b2 :: b3 :: rest, hl =>
      have hrest : rest.length = 4 * rs.length := by simp at hl; omega
      obtain ⟨hb, hT⟩ := hr r List.mem_cons_self
      have hub : u.busErr = s.busErr := by rw [hu.1]
      rw [show b0 :: b1 :: b2 :: b3 :: rest ++ post = b0 :: b1 :: b2 :: b3 :: (rest ++ post) from rfl]
      simp only [storeBlock]
      rw [h u hu hd]
      simp only
      rw [dmaWrite, if_neg (show ¬ r.2 ∈ u.busErr by rw [hub]; exact hb)]
      simp only
      rw [ih (fun x hx => hr x (List.mem_cons_of_mem _ hx)) _ ?_ rfl rest post hrest]
      · simp [wrote, putWords, writeEvents, fetchReads, leWords, State.log, Nat.add_assoc]
      · refine ⟨?_, fun x hx => ?_⟩
        · rw [hu.1]; rfl
        · show memGet (storeWord u.overlap u.mem r.2 (b3 ++ b2 ++ b1 ++ b0)) x = _
          rw [memGet_storeWord_other _ _ _ _ (fun k hk he => hT k hk (he ▸ hx))]
          exact hu.2 x hx

/-- The bytes of words, lowest first (rule R86). -/
def leBytes (ws : List Word) : List Byte :=
  ws.flatMap fun v => [v.extractLsb' 0 8, v.extractLsb' 8 8, v.extractLsb' 16 8, v.extractLsb' 24 8]

/-- A block is the bytes of its words. -/
theorem leBytes_leWords : ∀ (n : Nat) (d : List Byte), d.length = 4 * n →
    leBytes (leWords d) = d ∧ (leWords d).length = n := by
  intro n
  induction n with
  | zero => intro d hl; have : d = [] := List.eq_nil_of_length_eq_zero hl; subst this; exact ⟨rfl, rfl⟩
  | succ n ih =>
    intro d hl
    match d, hl with
    | b0 :: b1 :: b2 :: b3 :: rest, hl =>
      obtain ⟨h1, h2⟩ := ih rest (by simp at hl; omega)
      obtain ⟨g0, g1, g2, g3⟩ := word_bytes b0 b1 b2 b3
      refine ⟨?_, by simp [leWords, h2]⟩
      have : leBytes (leWords (b0 :: b1 :: b2 :: b3 :: rest)) = b0 :: b1 :: b2 :: b3 :: leBytes (leWords rest) := by
        simp only [leWords, leBytes, List.flatMap_cons, g0, g1, g2, g3]; rfl
      rw [this, h1]

/-- The bytes of words by number. -/
theorem leBytes_getElem (ws : List Word) (k : Nat) {j : Nat} (hj : j < 4) :
    (leBytes ws)[4 * k + j]? = ws[k]?.map fun w => w.extractLsb' (8 * j) 8 := by
  induction ws generalizing k with
  | nil => simp [leBytes]
  | cons w ws ih =>
    have hc : leBytes (w :: ws) = w.extractLsb' 0 8 :: w.extractLsb' 8 8 :: w.extractLsb' 16 8 :: w.extractLsb' 24 8
        :: leBytes ws := rfl
    rw [hc]
    cases k with
    | zero => interval_cases j <;> rfl
    | succ k =>
      rw [show 4 * (k + 1) + j = 4 * k + j + 4 by omega]
      simp only [List.getElem?_cons_succ]
      exact ih k

/-- Words are read back from their bytes. -/
theorem leWords_leBytes (ws : List Word) : leWords (leBytes ws) = ws := by
  induction ws with
  | nil => rfl
  | cons w ws ih =>
    have hc : leBytes (w :: ws) = w.extractLsb' 0 8 :: w.extractLsb' 8 8 :: w.extractLsb' 16 8 :: w.extractLsb' 24 8
        :: leBytes ws := rfl
    rw [hc, leWords, ih, word_of_bytes]

/-- The number of the bytes of words. -/
theorem leBytes_length (ws : List Word) : (leBytes ws).length = 4 * ws.length := by
  induction ws with
  | nil => rfl
  | cons w ws ih => simp only [leBytes, List.flatMap_cons, List.length_append, List.length_cons] at ih ⊢; simp [ih]; omega

/-- The first words of a block are loaded from the addresses of a walk, and then the rest of the block follows. -/
theorem loadBlock_walk {s : State} {d d' : Dma} {rs : List Access} (hw : Walk (fun _ => True) s d rs d') :
    (∀ r ∈ rs, r.2 ∉ s.busErr ∧ r.2.toNat + 4 ≤ 2 ^ 32) →
    ∀ (u : State), Like (fun _ => True) s u → u.mem = s.mem → u.dma = d →
    ∃ ws : List Word, ws.length = rs.length
      ∧ (∀ (k : Nat) (r : Access) (w : Word), rs[k]? = some r → ws[k]? = some w → ∀ j, j < 4 →
          Seen s (r.2.toNat + j) (w.extractLsb' (8 * j) 8))
      ∧ ∀ m : Nat, loadBlock (rs.length + m) u = match loadBlock m (didRead rs ws d' u) with
        | .go x v => .go (leBytes ws ++ x) v
        | .stop v => .stop v
        | .refuse e => .refuse e := by
  induction hw with
  | nil d =>
    intro _ u _ _ hd
    subst hd
    refine ⟨[], rfl, by simp, fun n => ?_⟩
    have : didRead [] [] u.dma u = u := by simp [didRead, readEvents, fetchReads]
    simp only [List.length_nil, Nat.zero_add, this, leBytes, List.flatMap_nil, List.nil_append]
    cases loadBlock n u <;> rfl
  | cons d d' d'' r rs h k ih =>
    intro hr u hu hum hd
    obtain ⟨hb, hlt⟩ := hr r List.mem_cons_self
    have hub : u.busErr = s.busErr := by rw [hu.1]
    have hul : u.lent = s.lent := by rw [hu.1]
    let u1 : State := { u with dma := d', history := u.history ++ r.1, draws := u.draws + r.1.length }
    obtain ⟨ws, hl, hs, hm⟩ := ih (fun x hx => hr x (List.mem_cons_of_mem _ hx))
      ((State.log u1 (.memRd r.2 (memWord u1 r.2))).tick) ⟨by simp only [u1]; rw [hu.1]; rfl, fun x hx => hu.2 x hx⟩ hum rfl
    refine ⟨memWord u1 r.2 :: ws, by simp [hl], ?_, fun n => ?_⟩
    · intro k x w hx hw j hj
      cases k with
      | zero =>
        simp only [List.getElem?_cons_zero, Option.some.injEq] at hx hw
        subst hx; subst hw
        have := memWord_seen u1 hlt hj
        simpa only [Seen, show u1.lent = s.lent from hul, show u1.mem = s.mem from hum] using this
      | succ k => exact hs k x w (by simpa using hx) (by simpa using hw) j hj
    · rw [show (r :: rs).length + n = (rs.length + n) + 1 by simp; omega]
      simp only [loadBlock]
      rw [h u hu hd]
      simp only
      rw [dmaRead, if_neg (show ¬ r.2 ∈ u.busErr by rw [hub]; exact hb)]
      simp only
      rw [hm n]
      have he : didRead rs ws d'' ((State.log u1 (.memRd r.2 (memWord u1 r.2))).tick)
          = didRead (r :: rs) (memWord u1 r.2 :: ws) d'' u := by
        simp only [didRead, readEvents, fetchReads, State.log, State.tick, List.zipWith_cons_cons, List.flatten_cons,
          List.map_cons, List.sum_cons, List.length_cons, List.append_assoc, u1]
        congr 1
        omega
      rw [he]
      cases loadBlock n (didRead (r :: rs) (memWord u1 r.2 :: ws) d'' u) <;> simp [leBytes, u1]

/-- The words of a contiguous buffer. -/
theorem contig_walk (T : Nat → Prop) {s : State} (hs : s.dmactl.sgen = false) :
    ∀ (n : Nat) (a : Word) (d : Dma), d.cur = .known a →
    Walk T s d (contigWords a n) { d with cur := .known (a + BitVec.ofNat 32 (4 * n)) } := by
  intro n
  induction n with
  | zero => intro a d hd; simp only [Nat.mul_zero, BitVec.ofNat_eq_ofNat, BitVec.add_zero, ← hd]; exact .nil d
  | succ n ih =>
    intro a d hd
    have := ih (a + 4#32) { d with cur := .known (a + 4#32) } rfl
    rw [show a + 4#32 + BitVec.ofNat 32 (4 * n) = a + BitVec.ofNat 32 (4 * (n + 1)) by
      apply BitVec.eq_of_toNat_eq; simp only [BitVec.toNat_add, BitVec.toNat_ofNat]; omega] at this
    refine .cons _ _ _ _ _ ?_ this
    intro u hu hud
    have hus : u.dmactl.sgen = false := by rw [hu.1]; exact hs
    subst hud
    rw [nextAddr_take (by simp [hus])]
    simp [takeAddr, hd, Held.pick, hus]

/-- The number of words of a contiguous buffer. -/
theorem contigWords_length (a : Word) (n : Nat) : (contigWords a n).length = n := by
  induction n generalizing a with
  | zero => rfl
  | succ n ih => simp [contigWords, ih]

/-- The addresses of a contiguous buffer. -/
theorem contigWords_mem {a : Word} {n : Nat} (h : a.toNat + 4 * n ≤ 2 ^ 32) {r : Access} (hr : r ∈ contigWords a n) :
    ∃ k, k < n ∧ r = ([], a + BitVec.ofNat 32 (4 * k)) ∧ r.2.toNat = a.toNat + 4 * k := by
  induction n generalizing a with
  | zero => cases hr
  | succ n ih =>
    rcases List.mem_cons.1 hr with rfl | hr
    · exact ⟨0, by omega, by simp, by simp⟩
    · by_cases hn : n = 0
      · subst hn; cases hr
      · have ha : (a + 4#32).toNat = a.toNat + 4 := by rw [BitVec.toNat_add]; simp; omega
        obtain ⟨k, hk, h1, h2⟩ := ih (by omega) hr
        refine ⟨k + 1, by omega, ?_, by omega⟩
        rw [h1]
        congr 1
        apply BitVec.eq_of_toNat_eq; simp only [BitVec.toNat_add, BitVec.toNat_ofNat]; omega

/-- A legal entry is not malformed (rule R248). -/
theorem padIllegal_of_legal {e0 e1 : Word} (h : EntryLegal e0 e1) : padIllegal e0 e1 = false := by
  rw [Bool.eq_false_iff, ne_eq, padIllegal_iff]
  obtain ⟨h1, h2, h3, h4, h5⟩ := h
  simp only [entryCount] at h2 h3 h5
  rintro (g | g | g | g | g)
  · exact g h1
  · exact h2 g
  · exact g h3
  · exact g h4
  · omega

/-- The words of a scatter-gather table. -/
theorem scatter_walk (T : Nat → Prop) {s : State} (hs : s.dmactl.sgen = true) :
    ∀ (n : Nat) (d : Dma) (es : List (Word × Word)) (rs : List Access) (d' : Dma),
    scatterWords n d es = some (rs, d') →
    (∀ p, d.padPtr = .known p → p + 8 * es.length ≤ 2 ^ 32
      ∧ (∀ k e, es[k]? = some e →
        memGetWord s.mem (p + 8 * k) = some e.1 ∧ memGetWord s.mem (p + 8 * k + 4) = some e.2)
      ∧ (∀ x ∈ s.busErr, x.toNat < p ∨ p + 8 * es.length ≤ x.toNat) ∧ Unlent p (p + 8 * es.length) s
      ∧ ∀ x, p ≤ x → x < p + 8 * es.length → T x) →
    Walk T s d rs d' := by
  intro n
  induction n with
  | zero => intro d es rs d' h _; injection h with h; injection h with h1 h2; subst h1; subst h2; exact .nil d
  | succ n ih =>
    intro d es rs d' h ht
    unfold scatterWords at h
    by_cases hl : d.segLeft ≠ 0
    · rw [if_pos hl] at h
      split at h
      · rename_i a ha
        simp only [Option.map_eq_some_iff] at h
        obtain ⟨⟨rs', d1⟩, h1, h2⟩ := h
        injection h2 with h2 h3
        subst h2; subst h3
        refine .cons _ _ _ _ _ ?_ (ih _ es rs' d1 h1 ht)
        intro u hu hud
        have hus : u.dmactl.sgen = true := by rw [hu.1]; exact hs
        subst hud
        rw [nextAddr_take (by simp [hl])]
        simp [takeAddr, ha, Held.pick, hus]
      · cases h
    · rw [if_neg hl] at h
      split at h
      · rename_i e0 e1 rest p hp
        split at h
        · rename_i hc
          obtain ⟨hc1, hc2⟩ := hc
          simp only [Option.map_eq_some_iff] at h
          obtain ⟨⟨rs', d1⟩, h1, h2⟩ := h
          injection h2 with h2 h3
          subst h2; subst h3
          obtain ⟨t1, t2, t3, t4, t5⟩ := ht p hp
          have t1' : p + 8 * (rest.length + 1) ≤ 2 ^ 32 := t1
          refine .cons _ _ _ _ _ ?_ (ih _ rest rs' d1 h1 ?_)
          · intro u hu hud
            have hus : u.dmactl.sgen = true := by rw [hu.1]; exact hs
            have hub : u.busErr = s.busErr := by rw [hu.1]
            have hul : u.lent = s.lent := by rw [hu.1]
            subst hud
            have hp0 : (BitVec.ofNat 32 p).toNat = p := by rw [BitVec.toNat_ofNat]; omega
            have hp4 : (BitVec.ofNat 32 (p + 4)).toNat = p + 4 := by rw [BitVec.toNat_ofNat]; omega
            have hlen : ((e0, e1) :: rest).length = rest.length + 1 := rfl
            have hn0 : BitVec.ofNat 32 p ∉ u.busErr := by
              rw [hub]; intro hx; have := t3 _ hx; rw [hp0] at this; omega
            have hn4 : BitVec.ofNat 32 (p + 4) ∉ u.busErr := by
              rw [hub]; intro hx; have := t3 _ hx; rw [hp4] at this; omega
            obtain ⟨m0, m4⟩ := t2 0 (e0, e1) rfl
            have l0 : memGetWord u.mem p = some e0 := by
              rw [← m0, Nat.mul_zero, Nat.add_zero]
              exact memGetWord_congr fun j hj => hu.2 _ (t5 _ (by omega) (by omega))
            have l4 : memGetWord u.mem (p + 4) = some e1 := by
              rw [← m4, Nat.mul_zero, Nat.add_zero]
              exact memGetWord_congr fun j hj => hu.2 _ (t5 _ (by omega) (by omega))
            have w0 : memWord u (BitVec.ofNat 32 p) = e0 := memWord_eq (by omega) (memGetWord_bytes l0)
              (fun c hcc => by rw [hul] at hcc; have := t4 c hcc; omega)
            have w4 : memWord ((u.log (.memRd (BitVec.ofNat 32 p) e0)).tick) (BitVec.ofNat 32 (p + 4)) = e1 :=
              memWord_eq (s := (u.log (.memRd (BitVec.ofNat 32 p) e0)).tick) (by omega) (memGetWord_bytes l4)
                (fun c hcc => by
                  have hcc : c ∈ u.lent := hcc
                  rw [hul] at hcc; have := t4 c hcc; omega)
            rw [nextAddr_new hus (by simpa using hl) hc1, fetchPad]
            simp only [hp, Held.pick]
            rw [if_neg (by omega), dmaRead_ok hn0, w0]
            simp only
            rw [dmaRead_ok (show BitVec.ofNat 32 (p + 4) ∉ ((u.log (.memRd (BitVec.ofNat 32 p) e0)).tick).busErr from hn4),
              w4]
            simp only [padIllegal_of_legal hc2, Bool.false_eq_true, if_false, and26]
            simp [takeAddr, hus, Held.pick, State.log, State.tick, entryCount]
          · intro q hq
            injection hq with hq
            subst hq
            refine ⟨by omega, ?_, ?_, ?_, ?_⟩
            · intro k e hk
              have := t2 (k + 1) e (by simpa using hk)
              rw [show p + 8 * (k + 1) = p + 8 + 8 * k by omega] at this
              exact this
            · intro x hx; have := t3 x hx; simp only [List.length_cons] at this; omega
            · intro c hcc; have := t4 c hcc; simp only [List.length_cons] at this; omega
            · intro x h1 h2; exact t5 x (by omega) (by simp only [List.length_cons]; omega)
        · cases h
      · cases h

/-- The number of words of a scatter-gather walk. -/
theorem scatterWords_length : ∀ (n : Nat) (d : Dma) (es : List (Word × Word)) (rs : List Access) (d' : Dma),
    scatterWords n d es = some (rs, d') → rs.length = n := by
  intro n
  induction n with
  | zero => intro d es rs d' h; injection h with h; injection h with h1 h2; subst h1; rfl
  | succ n ih =>
    intro d es rs d' h
    unfold scatterWords at h
    repeat' split at h
    all_goals first
      | cases h
      | (simp only [Option.map_eq_some_iff] at h
         obtain ⟨⟨rs', d1⟩, h1, h2⟩ := h
         injection h2 with h2 h3
         subst h2
         simp [ih _ _ _ _ h1])

/-- A byte outside the stored words is listed as before. -/
theorem memGet_putWords_other (ov : List Word) (rs : List Access) (ws : List Word) (m : List Host.Cell) {x : Nat}
    (h : ∀ r ∈ rs, r.2.toNat + 4 ≤ 2 ^ 32 ∧ (x < r.2.toNat ∨ r.2.toNat + 4 ≤ x)) :
    memGet (putWords ov m rs ws) x = memGet m x := by
  induction rs generalizing ws m with
  | nil => rfl
  | cons r rs ih =>
    cases ws with
    | nil => rfl
    | cons w ws =>
      have hr := h r List.mem_cons_self
      have := ih ws (storeWord ov m r.2 w) fun x hx => h x (List.mem_cons_of_mem _ hx)
      simp only [putWords, List.zip_cons_cons, List.foldl_cons] at this ⊢
      rw [this]
      exact memGet_storeWord_other _ _ _ _ fun k hk => by rw [byteAddr_eq (by omega)]; omega

/-- A stored word that no later one of the block overwrites is found at its address, but for the bytes where the buffers
of the two instances overlap (rule R344). -/
theorem memGet_putWords (ov : List Word) : ∀ (rs : List Access) (ws : List Word) (m : List Host.Cell) (k : Nat) (r : Access) (w : Word),
    rs[k]? = some r → ws[k]? = some w → (∀ x ∈ rs, x.2.toNat + 4 ≤ 2 ^ 32) →
    (∀ i x, k < i → rs[i]? = some x → x.2.toNat + 4 ≤ r.2.toNat ∨ r.2.toNat + 4 ≤ x.2.toNat) →
    ∀ j, j < 4 → memGet (putWords ov m rs ws) (r.2.toNat + j)
      = if overlapped ov (r.2.toNat + j) then none else some (w.extractLsb' (8 * j) 8) := by
  intro rs
  induction rs with
  | nil => intro ws m k r w h; cases h
  | cons r0 rs ih =>
    intro ws m k r w hr hw hb ho j hj
    cases ws with
    | nil => cases hw
    | cons w0 ws =>
      simp only [putWords, List.zip_cons_cons, List.foldl_cons]
      cases k with
      | zero =>
        simp only [List.getElem?_cons_zero, Option.some.injEq] at hr hw
        subst hr; subst hw
        have := memGet_putWords_other ov rs ws (storeWord ov m r0.2 w0) (x := r0.2.toNat + j) fun x hx => by
          obtain ⟨i, hi⟩ := List.getElem?_of_mem hx
          have := ho (i + 1) x (by omega) (by simpa using hi)
          have := hb x (List.mem_cons_of_mem _ hx)
          omega
        rw [putWords] at this
        rw [this]
        exact memGet_storeWord _ _ _ _ hj (hb r0 List.mem_cons_self)
      | succ k =>
        exact ih ws (storeWord ov m r0.2 w0) k r w (by simpa using hr) (by simpa using hw)
          (fun x hx => hb x (List.mem_cons_of_mem _ hx))
          (fun i x hi hx => ho (i + 1) x (by omega) (by simpa using hx)) j hj

/-! ### Blocks in parts -/

/-- The last access of a walk. -/
theorem Walk.snoc {T : Nat → Prop} {s : State} {d d'' : Dma} {rs : List Access} {r : Access}
    (h : Walk T s d (rs ++ [r]) d'') : ∃ d', Walk T s d rs d' ∧ ∀ u, Like T s u → u.dma = d' →
      nextAddr u = .go r.2 { u with dma := d'', history := u.history ++ r.1, draws := u.draws + r.1.length } := by
  induction rs generalizing d with
  | nil =>
    cases h with
    | cons _ d1 _ _ _ h k => cases k; exact ⟨d, .nil d, h⟩
  | cons r0 rs ih =>
    cases h with
    | cons _ d1 _ _ _ h k =>
      obtain ⟨d', k1, k2⟩ := ih k
      exact ⟨d', .cons _ _ _ _ _ h k1, k2⟩

/-- The words of a block in two parts. -/
theorem leWords_append : ∀ (n : Nat) (pre post : List Byte), pre.length = 4 * n →
    leWords (pre ++ post) = leWords pre ++ leWords post
  | 0, pre, post, h => by have : pre = [] := List.eq_nil_of_length_eq_zero h; subst this; rfl
  | n + 1, pre, post, h => by
    match pre, h with
    | b0 :: b1 :: b2 :: b3 :: rest, h =>
      have := leWords_append n rest post (by simp at h; omega)
      simp only [List.cons_append, leWords, this]

/-- Only as many of the longer list count. -/
theorem zip_first {α β : Type} : ∀ (xs : List α) (ys zs : List β), ys.length = xs.length →
    xs.zip (ys ++ zs) = xs.zip ys
  | [], _, _, _ => by simp
  | x :: xs, [], _, h => by simp at h
  | x :: xs, y :: ys, zs, h => by simp [zip_first xs ys zs (by simpa using h)]

/-- Only as many of the longer list count. -/
theorem zipWith_first {α β γ : Type} (f : α → β → γ) : ∀ (xs : List α) (ys zs : List β), ys.length = xs.length →
    List.zipWith f xs (ys ++ zs) = List.zipWith f xs ys
  | [], _, _, _ => by simp
  | x :: xs, [], _, h => by simp at h
  | x :: xs, y :: ys, zs, h => by simp [zipWith_first f xs ys zs (by simpa using h)]

/-- Only the words that have an access are written. -/
theorem wrote_first {rs : List Access} {pre post : List Byte} (h : pre.length = 4 * rs.length) (d : Dma) (s : State) :
    wrote rs (leWords (pre ++ post)) d s = wrote rs (leWords pre) d s := by
  rw [leWords_append _ _ _ h]
  have := (leBytes_leWords _ _ h).2
  simp only [wrote, putWords, writeEvents, zip_first _ _ _ this, zipWith_first _ _ _ _ this]

/-- The first words of a block are stored, and the rest of it follows. -/
theorem storeBlock_first {T : Nat → Prop} {s : State} {d' : Dma} {rs : List Access} (hw : Walk T s s.dma rs d')
    (hr : ∀ r ∈ rs, r.2 ∉ s.busErr ∧ ∀ k, k < 4 → ¬T (byteAddr r.2 k)) {bytes : List Byte}
    (hl : 4 * rs.length ≤ bytes.length) :
    storeBlock bytes s = storeBlock (bytes.drop (4 * rs.length)) (wrote rs (leWords bytes) d' s) := by
  have h : (bytes.take (4 * rs.length)).length = 4 * rs.length := by rw [List.length_take]; omega
  have e := List.take_append_drop (4 * rs.length) bytes
  have := storeBlock_walk hw hr s ⟨rfl, fun _ _ => rfl⟩ rfl (bytes.take (4 * rs.length)) (bytes.drop (4 * rs.length)) h
  rw [← wrote_first h (post := bytes.drop (4 * rs.length)), e] at this
  exact this

/-- The state after a good block was taken from the card (rule R236). -/
def diTaken (b : Block) (s : State) : State :=
  recordCrc16 true ((tookBlock s).log (.blockIn (selPort s) (blockIndex s) b.bytes))

/-- What the block taken from the card leaves. -/
theorem diTaken_eq (b : Block) (s : State) : diTaken b s = { tookBlock s with
    history := s.history ++ [.blockIn (selPort s) (blockIndex s) b.bytes]
    intsts := { s.intsts with crc16 := .known true } } := by
  have hu := tookBlock_eq s
  unfold diTaken
  generalize tookBlock s = v at *
  rw [hu]; rfl

/-- `DI` with a good block stores it (rule R236). -/
theorem di_first {s : State} {b : Block} (hb : InBlock .dataIn s) (ha : askBlock s = some b)
    (hc : b.crcs = lineCrcs s.ctl.dbw b.bytes) : exec .di s = match storeBlock b.bytes (diTaken b s) with
    | .go _ u => .next (blockMoved id u)
    | .stop u => .next u
    | .refuse r => .refused r := by
  rw [di_inBlock hb]
  have hu := tookBlock_eq s
  simp only [diBlock, ha, diTaken]
  generalize tookBlock s = v at *
  have hcb : (b.crcs == lineCrcs v.ctl.dbw b.bytes) = true := by rw [hu]; simpa using hc
  unfold diFrame
  simp only [hcb, if_true]
  have h1 : selPort v = selPort s := by rw [hu]; rfl
  have h2 : blockIndex v = blockIndex s := by rw [hu]; rfl
  rw [h1, h2] <;> generalize storeBlock _ _ = f <;> cases f <;> rfl

/-- `DO` before a block sends it (rule R241). -/
theorem dout_first {s : State} (hb : InBlock .dataOut s) (hds : s.eng.dsub = .send) :
    exec .dout s = doBlock s := by
  rw [dout_inBlock hb.1 hb.2.1 hb.2.2.1, doInBlock, hds]
  simp only
  rw [if_neg (by have := hb.2.2.2; omega)]

/-- After a block of `DI`: the counts (rule R237). -/
theorem moved_eq (s : State) : blockMoved id s = { s with
    eng := { s.eng with blocksLeft := s.eng.blocksLeft - 1
                        phase := if s.eng.blocksLeft - 1 = 0 then .dataEnd else s.eng.phase }
    bcnt := .known (bcntNow s - BitVec.ofNat 26 (blockLen s)) } := by
  rw [moved_if]; split <;> rfl

/-- A byte of a block in its word. -/
theorem word_byte {bytes : List Byte} {n : Nat} (hl : bytes.length = 4 * n) {k j : Nat} (hk : k < n) (hj : j < 4) :
    ∃ w, (leWords bytes)[k]? = some w ∧ some (w.extractLsb' (8 * j) 8) = bytes[4 * k + j]? := by
  obtain ⟨h1, h2⟩ := leBytes_leWords n bytes hl
  refine ⟨(leWords bytes)[k]'(by omega), by simp [h2, hk], ?_⟩
  conv_rhs => rw [← h1]
  rw [leBytes_getElem _ _ hj]
  simp [h2, hk]

/-- A contiguous buffer has no table to read. -/
theorem fetchReads_contig (n : Nat) (a : Word) : fetchReads (contigWords a n) = 0 := by
  induction n generalizing a with
  | zero => rfl
  | succ n ih =>
    have := ih (a + 4#32)
    simp only [fetchReads, contigWords, List.map_cons, List.sum_cons, List.length_nil, Nat.zero_add] at this ⊢
    exact this

/-- The address of a word of a contiguous buffer. -/
theorem contigWords_get {n : Nat} {a : Word} {k : Nat} {r : Access} (hn : a.toNat + 4 * n ≤ 2 ^ 32)
    (h : (contigWords a n)[k]? = some r) : r.2.toNat = a.toNat + 4 * k := by
  induction n generalizing a k with
  | zero => simp [contigWords] at h
  | succ n ih =>
    cases k with
    | zero => simp [contigWords] at h; subst h; simp
    | succ k =>
      by_cases hz : n = 0
      · subst hz; simp [contigWords] at h
      · have ha : (a + 4#32).toNat = a.toNat + 4 := by rw [BitVec.toNat_add]; simp; omega
        have := ih (a := a + 4#32) (k := k) (by omega) (by simpa [contigWords] using h)
        omega

/-- The first words of a block are loaded, and the rest of it follows. -/
theorem loadBlock_first {s : State} {d' : Dma} {rs : List Access} (hw : Walk (fun _ => True) s s.dma rs d')
    (hr : ∀ r ∈ rs, r.2 ∉ s.busErr ∧ r.2.toNat + 4 ≤ 2 ^ 32) :
    ∃ ws : List Word, ws.length = rs.length
      ∧ (∀ (k : Nat) (r : Access) (w : Word), rs[k]? = some r → ws[k]? = some w → ∀ j, j < 4 →
          Seen s (r.2.toNat + j) (w.extractLsb' (8 * j) 8))
      ∧ ∀ m : Nat, loadBlock (rs.length + m) s = match loadBlock m (didRead rs ws d' s) with
        | .go x v => .go (leBytes ws ++ x) v
        | .stop v => .stop v
        | .refuse e => .refuse e :=
  loadBlock_walk hw hr s ⟨rfl, fun _ _ => rfl⟩ rfl rfl

/-- A listed word that no other master changed is what a read gives. -/
theorem seen_word {s : State} {a : Nat} {w x : Word} (hl : s.lent = [])
    (h : ∀ j, j < 4 → Seen s (a + j) (x.extractLsb' (8 * j) 8)) (hm : memGetWord s.mem a = some w) : x = w := by
  have hb : ∀ j, j < 4 → x.extractLsb' (8 * j) 8 = w.extractLsb' (8 * j) 8 := by
    intro j hj
    have e := memGetWord_bytes hm j hj
    rcases h j hj with ⟨c, h1, -⟩ | h1 | h1
    · rw [hl] at h1; cases h1
    · rw [h1] at e; cases e
    · rw [h1] at e; exact (Option.some.inj e)
  rw [← word_of_bytes x, ← word_of_bytes w]
  have h0 := hb 0 (by decide); have h1 := hb 1 (by decide); have h2 := hb 2 (by decide); have h3 := hb 3 (by decide)
  simp only [Nat.mul_zero, Nat.mul_one, Nat.reduceMul] at h0 h1 h2 h3
  rw [h0, h1, h2, h3]

/-- A block with a further word. -/
theorem storeBlock_cons {bytes : List Byte} {k : Nat} (h : 4 * (k + 1) ≤ bytes.length) :
    ∃ b0 b1 b2 b3 rest, bytes.drop (4 * k) = b0 :: b1 :: b2 :: b3 :: rest := by
  have hl : 4 ≤ (bytes.drop (4 * k)).length := by rw [List.length_drop]; omega
  match hb : bytes.drop (4 * k), hl with
  | b0 :: b1 :: b2 :: b3 :: rest, _ => exact ⟨b0, b1, b2, b3, rest, rfl⟩
  | [], h => simp at h
  | [_], h => simp at h
  | [_, _], h => simp at h
  | [_, _, _], h => simp at h

/-- A word that cannot be stored after others were (rule R247). -/
theorem store_abort {T : Nat → Prop} {s u : State} {d' : Dma} {rs : List Access} (hw : Walk T s s.dma rs d')
    (hr : ∀ r ∈ rs, r.2 ∉ s.busErr ∧ ∀ k, k < 4 → ¬T (byteAddr r.2 k)) {bytes : List Byte}
    (hl : 4 * (rs.length + 1) ≤ bytes.length) {a : Word}
    (hn : nextAddr (wrote rs (leWords bytes) d' s) = .go a u) (ha : a ∈ u.busErr) :
    storeBlock bytes s = .stop (raise (.targetAbort a) u) := by
  rw [storeBlock_first hw hr (by omega)]
  obtain ⟨b0, b1, b2, b3, rest, he⟩ := storeBlock_cons hl
  rw [he, storeBlock, hn]
  simp only
  rw [dmaWrite, if_pos ha]

/-- A word without an address after others were stored (rule R248). -/
theorem store_ends {T : Nat → Prop} {s : State} {d' : Dma} {rs : List Access} (hw : Walk T s s.dma rs d')
    (hr : ∀ r ∈ rs, r.2 ∉ s.busErr ∧ ∀ k, k < 4 → ¬T (byteAddr r.2 k)) {bytes : List Byte}
    (hl : 4 * (rs.length + 1) ≤ bytes.length) :
    (∀ u, nextAddr (wrote rs (leWords bytes) d' s) = .stop u → storeBlock bytes s = .stop u)
    ∧ ∀ e, nextAddr (wrote rs (leWords bytes) d' s) = .refuse e → storeBlock bytes s = .refuse e := by
  rw [storeBlock_first hw hr (by omega)]
  obtain ⟨b0, b1, b2, b3, rest, he⟩ := storeBlock_cons hl
  rw [he, storeBlock]
  exact ⟨fun u h => by rw [h], fun e h => by rw [h]⟩

/-- A word that cannot be loaded (rule R247). -/
theorem load_abort {s u : State} {m : Nat} {a : Word} (hn : nextAddr s = .go a u) (ha : a ∈ u.busErr) :
    loadBlock (m + 1) s = .stop (raise (.targetAbort a) u) := by
  rw [loadBlock, hn]
  simp only
  rw [dmaRead, if_pos ha]

/-- The next address of a contiguous buffer (rule R248). -/
theorem contig_next {s : State} (hs : s.dmactl.sgen = false) (a : Word) (hc : s.dma.cur = .known a) :
    nextAddr s = .go a { s with dma := { s.dma with cur := .known (a + 4#32) } } := by
  rw [nextAddr_take (by simp [hs])]
  simp [takeAddr, hc, Held.pick, hs]

/-- A listed word that no other master changed is loaded. -/
theorem seen_ws {s : State} {rs : List Access} {ws : List Word}
    (h : ∀ (k : Nat) (r : Access) (w : Word), rs[k]? = some r → ws[k]? = some w → ∀ j, j < 4 →
          Seen s (r.2.toNat + j) (w.extractLsb' (8 * j) 8)) (hl : ws.length = rs.length) (hle : s.lent = [])
    {k : Nat} {r : Access} {w : Word} (hr : rs[k]? = some r) (hm : memGetWord s.mem r.2.toNat = some w) :
    ws[k]? = some w := by
  have hk : k < ws.length := by rw [hl]; exact (List.getElem?_eq_some_iff.1 hr).1
  have hw : ws[k]? = some ws[k] := List.getElem?_eq_getElem hk
  rw [hw, seen_word hle (h k r _ hr hw) hm]

/-- The walk over a table that is ready (rules R245, R248). -/
theorem table_walk {p : Nat} {es : List (Word × Word)} {s : State} (h : TableReady p es s) {n : Nat} {rs : List Access}
    {d : Dma} (hs : scatterWords n s.dma es = some (rs, d)) (T : Nat → Prop)
    (hT : ∀ x, p ≤ x → x < p + 8 * es.length → T x) : Walk T s s.dma rs d := by
  obtain ⟨h1, h2, h3, h4, h5, h6⟩ := h
  refine scatter_walk T h1 n s.dma es rs d hs fun q hq => ?_
  rw [h2] at hq
  cases hq
  exact ⟨h3, h4, h5, h6, hT⟩

/-- A table is ready after the block was taken from the card. -/
theorem tableReady_taken {p : Nat} {es : List (Word × Word)} {s : State} {b : Block} (h : TableReady p es s) :
    TableReady p es (diTaken b s) := by
  rw [diTaken_eq]
  have hu := tookBlock_eq s
  generalize tookBlock s = v at *
  rw [hu]
  exact h

/-- The state after the first words of a block taken from the card were stored. -/
theorem wrote_taken {s : State} {b : Block} (rs : List Access) (d : Dma) :
    wrote rs (leWords b.bytes) d (diTaken b s) = { tookBlock s with
        dma := d, mem := putWords s.overlap s.mem rs (leWords b.bytes)
        history := s.history ++ [.blockIn (selPort s) (blockIndex s) b.bytes] ++ writeEvents rs (leWords b.bytes)
        intsts := { s.intsts with crc16 := .known true }
        draws := s.draws + 1 + fetchReads rs } := by
  have hu := tookBlock_eq s
  rw [diTaken_eq]
  generalize tookBlock s = v at *
  rw [hu]; rfl

end Sys2Proof.Machine
end

