-- ==== Sys2Proof/Laws/Commands.lean ====
section
/-!
SUPPORT. The control word of a command and the submission of one to a quiet engine (rules R286, R290).
-/

namespace Sys2Proof.Machine

/-- The bits of the control word of a command (rule R290). -/
theorem commandWord_getLsbD (base : Word) (idx : BitVec 6) (l : Word) (hl : ∀ j, 7 ≤ j → l.getLsbD j = false)
    {j : Nat} (hj : j < 32) :
    (commandWord base idx l).getLsbD j = if j < 7 then l.getLsbD j else if j = 7 then base.getLsbD 7 else if j < 14
        then idx.getLsbD (j - 8) else if j = 14 then false else base.getLsbD j := by
  simp only [commandWord, BitVec.getLsbD_or, BitVec.getLsbD_and, fld_getLsbD _ _ hj]
  by_cases h7 : j < 7
  · simp only [h7, if_true]
    have : (0xFFFF8080#32).getLsbD j = false := by clear hl; revert h7; revert hj; revert j; decide
    rw [this]; simp; omega
  · rw [hl j (by omega)]
    simp only [h7, if_false]
    interval_cases j <;> simp

/-- The bits of the control word of a command that moves one block (rules R290, R300, R302). -/
theorem oneBlockWord_getLsbD (base : Word) (idx : BitVec 6) (l : Word) (hl : ∀ j, 7 ≤ j → l.getLsbD j = false)
    {j : Nat} (hj : j < 32) :
    (oneBlockWord base idx l).getLsbD j = if j < 7 then l.getLsbD j else if j = 7 then base.getLsbD 7 else if j < 14
        then idx.getLsbD (j - 8)
        else if j = 14 then false else if j = 15 then base.getLsbD 15 else if j = 16 then true else if j < 24 then
        false else base.getLsbD j := by
  simp only [oneBlockWord, BitVec.getLsbD_or, BitVec.getLsbD_and, fld_getLsbD _ _ hj]
  by_cases h7 : j < 7
  · simp only [h7, if_true]
    have : (0xFF008080#32).getLsbD j = false := by clear hl; revert h7; revert hj; revert j; decide
    have h2 : (0x00010000#32).getLsbD j = false := by clear hl this; revert h7; revert hj; revert j; decide
    rw [this, h2]; simp; omega
  · rw [hl j (by omega)]
    simp only [h7, if_false]
    interval_cases j <;> simp

/-- What the control word `w` of a command holds: the index `idx`, the block count `n`, the launch bits `l`, and
otherwise the fields that `CTL` has. -/
structure IsCmd (w : Word) (idx : BitVec 6) (n : BitVec 8) (l : Word) (s : State) : Prop where
  low : ∀ j, j < 7 → w.getLsbD j = l.getLsbD j
  b14 : w.getLsbD 14 = false
  b7 : w.getLsbD 7 = s.ctl.clkkeep0
  b15 : w.getLsbD 15 = s.ctl.dbw
  b31 : w.getLsbD 31 = s.ctl.clkkeep1
  code : w.extractLsb' 8 6 = idx
  cnt : w.extractLsb' 16 8 = n
  nwr : w.extractLsb' 24 4 = s.ctl.sdnwr
  port : w.extractLsb' 29 2 = s.ctl.sdport

/-- The control word of a command that keeps the block count. -/
theorem isCmd_many (s : State) (idx : BitVec 6) (l : Word) (hl : ∀ j, 7 ≤ j → l.getLsbD j = false) :
    IsCmd (commandWord (ctlNow s) idx l) idx s.ctl.blkcnt l s := by
  have g := fun j (hj : j < 32) => commandWord_getLsbD (ctlNow s) idx l hl hj
  constructor
  · intro j hj; rw [g j (by omega)]; simp [hj]
  · rw [g 14 (by decide)]; simp
  · exact (g 7 (by decide)).trans (ctlNow_getLsbD s (by decide))
  · exact (g 15 (by decide)).trans (ctlNow_getLsbD s (by decide))
  · exact (g 31 (by decide)).trans (ctlNow_getLsbD s (by decide))
  · apply BitVec.eq_of_getLsbD_eq; intro i hi
    rw [BitVec.getLsbD_extractLsb', g _ (by omega)]; interval_cases i <;> simp
  · apply BitVec.eq_of_getLsbD_eq; intro i hi
    have hc := ctlNow_getLsbD s (show (16 + i) < 32 by omega); rw [BitVec.getLsbD_extractLsb', g _ (by omega),
        if_neg (by omega), if_neg (by omega), if_neg (by omega), if_neg (by omega), hc]; interval_cases i <;> simp
  · apply BitVec.eq_of_getLsbD_eq; intro i hi
    have hc := ctlNow_getLsbD s (show (24 + i) < 32 by omega); rw [BitVec.getLsbD_extractLsb', g _ (by omega),
        if_neg (by omega), if_neg (by omega), if_neg (by omega), if_neg (by omega), hc]; interval_cases i <;> simp
  · apply BitVec.eq_of_getLsbD_eq; intro i hi
    have hc := ctlNow_getLsbD s (show (29 + i) < 32 by omega); rw [BitVec.getLsbD_extractLsb', g _ (by omega),
        if_neg (by omega), if_neg (by omega), if_neg (by omega), if_neg (by omega), hc]; interval_cases i <;> simp

/-- The control word of a command that moves one block. -/
theorem isCmd_one (s : State) (idx : BitVec 6) (l : Word) (hl : ∀ j, 7 ≤ j → l.getLsbD j = false) :
    IsCmd (oneBlockWord (ctlNow s) idx l) idx 1#8 l s := by
  have g := fun j (hj : j < 32) => oneBlockWord_getLsbD (ctlNow s) idx l hl hj
  constructor
  · intro j hj; rw [g j (by omega)]; simp [hj]
  · rw [g 14 (by decide)]; simp
  · exact (g 7 (by decide)).trans (ctlNow_getLsbD s (by decide))
  · exact (g 15 (by decide)).trans (ctlNow_getLsbD s (by decide))
  · exact (g 31 (by decide)).trans (ctlNow_getLsbD s (by decide))
  · apply BitVec.eq_of_getLsbD_eq; intro i hi
    rw [BitVec.getLsbD_extractLsb', g _ (by omega)]; interval_cases i <;> simp
  · apply BitVec.eq_of_getLsbD_eq; intro i hi
    rw [BitVec.getLsbD_extractLsb', g _ (by omega)]; interval_cases i <;> simp
  · apply BitVec.eq_of_getLsbD_eq; intro i hi
    have hc := ctlNow_getLsbD s (show (24 + i) < 32 by omega); rw [BitVec.getLsbD_extractLsb', g _ (by omega),
        if_neg (by omega), if_neg (by omega), if_neg (by omega), if_neg (by omega), if_neg (by omega),
        if_neg (by omega), if_neg (by omega), hc]; interval_cases i <;> simp
  · apply BitVec.eq_of_getLsbD_eq; intro i hi
    have hc := ctlNow_getLsbD s (show (29 + i) < 32 by omega); rw [BitVec.getLsbD_extractLsb', g _ (by omega),
        if_neg (by omega), if_neg (by omega), if_neg (by omega), if_neg (by omega), if_neg (by omega),
        if_neg (by omega), if_neg (by omega), hc]; interval_cases i <;> simp

/-- The launch bits of the control word of a command. -/
theorem IsCmd.lowWord {w : Word} {idx n l s} (h : IsCmd w idx n l s) (hl : ∀ j, 7 ≤ j → l.getLsbD j = false)
    : w &&& 0x7F#32 = l := by
  apply BitVec.eq_of_getLsbD_eq; intro j hj
  rw [BitVec.getLsbD_and]
  by_cases h7 : j < 7
  · rw [h.low j h7]
    have : (0x7F#32).getLsbD j = true := by clear hl h; revert h7; revert hj; revert j; decide
    rw [this]; simp
  · rw [hl j (by omega)]
    have : (0x7F#32).getLsbD j = false := by clear hl h; revert h7; revert hj; revert j; decide
    rw [this]; simp

/-- A word without bits above its launch bits, bit by bit. -/
theorem low_ok (l : Word) (h : l &&& 0xFFFFFF80#32 = 0#32) : ∀ j, 7 ≤ j → l.getLsbD j = false := by
  intro j hj
  by_cases h32 : j < 32
  · have := congrArg (fun x => x.getLsbD j) h
    have hm : (0xFFFFFF80#32).getLsbD j = true := by clear this h; revert hj; revert h32; revert j; decide
    simpa only [BitVec.getLsbD_and, hm, Bool.and_true, BitVec.getLsbD_zero] using this
  · exact BitVec.getLsbD_of_ge _ _ (by omega)

/-- The state between the two writes of a submission. -/
def argWritten (arg : Word) (s : State) : State := { s with cmdarg := arg, draws := s.draws + 1 }

/-- A submission to a quiet engine ends as the host contract says of its control word. -/
theorem submitted_eq {word : Word → Word} {arg : Word} {s : State} (hq : Quiet s)
    {idx : BitVec 6} {n : State → BitVec 8} {l : Word} (hw : ∀ t : State, IsCmd (word (ctlNow t)) idx (n t) l t)
    (hl : ∀ j, 7 ≤ j → l.getLsbD j = false) (hne : l ≠ 0#32) (hlg : legalLaunch l = true) :
    submitted word arg s = (match launchRefusal (word (ctlNow (argWritten arg s))) (argWritten arg s) with
      | some r => (Except.error r : Except Refusal State)
      | none => Except.ok (writeCtl (word (ctlNow (argWritten arg s))) (argWritten arg s)).tick) := by
  have hc : regWriteRefusal .cmdarg arg s = none := by simp [regWriteRefusal, inFlight_quiet hq]
  have hq1 : Quiet (argWritten arg s) := hq
  have hcmd := hw (argWritten arg s)
  unfold submitted
  rw [hc]
  show (match regWriteRefusal .ctl (word (ctlNow (argWritten arg s))) (argWritten arg s) with
    | some r => (Except.error r : Except Refusal State)
    | none => Except.ok (regWrite .ctl (word (ctlNow (argWritten arg s))) (argWritten arg s)).tick) = _
  have : regWriteRefusal .ctl (word (ctlNow (argWritten arg s))) (argWritten arg s)
      = launchRefusal (word (ctlNow (argWritten arg s))) (argWritten arg s) := by
    have hlw : legalLaunch (word (ctlNow (argWritten arg s))) = true := by rw [← legal_and, hcmd.lowWord hl, hlg]
    simp only [regWriteRefusal, ctlRefusal, hcmd.b14, cleared_quiet hq1, requested_quiet hq1, hcmd.lowWord hl, hlw,
        ne_eq, hne, not_true_eq_false, not_false_eq_true, if_true, Bool.false_eq_true, if_false, Bool.not_true]
  rw [this]; rfl

/-- A command that the host contract refuses (rules R275, R373 to R375). -/
theorem command_refused {word : Word → Word} {arg : Word} {s : State} (hq : Quiet s)
    {idx : BitVec 6} {n : State → BitVec 8} {l : Word} (hw : ∀ t : State, IsCmd (word (ctlNow t)) idx (n t) l t)
    (hl : ∀ j, 7 ≤ j → l.getLsbD j = false) (hne : l ≠ 0#32) (hlg : legalLaunch l = true)
    (h : 2 ≤ s.ctl.sdport.toNat ∨ s.eng.halted = true ∨ ((l.getLsbD 2 = true ∨ l.getLsbD 3 = true)
        ∧ ¬DataLegal (n (argWritten arg s)).toNat s)) :
    ∃ r, command word arg s = .refused r := by
  have hcmd := hw (argWritten arg s)
  obtain ⟨r, hr⟩ := launchRefusal_some (s := argWritten arg s) (w := word (ctlNow (argWritten arg s))) (by
    rcases h with h | h | ⟨h, hd⟩
    · left
      show 2 ≤ ((word (ctlNow (argWritten arg s))).extractLsb' 29 2).toNat
      rw [hcmd.port]; exact h
    · right; left; exact h
    · right; right
      refine ⟨?_, ?_⟩
      · rwa [hcmd.low 2 (by decide), hcmd.low 3 (by decide)]
      · rw [hcmd.cnt]; exact hd)
  refine ⟨r, ?_⟩
  unfold command
  rw [submitted_eq hq hw hl hne hlg, hr]

end Sys2Proof.Machine
end

