-- ==== Sys2Proof/Laws/Steps.lean ====
section
/-!
SUPPORT. The inversions: which operation each agent can perform, what a command is made of, and everything a step can do,
once. A proof about every step cites `step_cases` instead of unfolding `step`.
-/

namespace Sys2Proof.Machine

/-- What the engine performs (rules R129, R175): the reset where its bit is 1, otherwise an operation of `CTL`. -/
theorem decodeCtl_ok {w : Word} {i : Instr} (h : decodeCtl w = .ok i) :
    (w.getLsbD 14 = true ∧ i = .ctlrst) ∨ (w.getLsbD 14 = false ∧ IsCtlOp i) := by
  unfold decodeCtl at h
  cases h14 : w.getLsbD 14
  · rw [h14] at h
    refine .inr ⟨rfl, ?_⟩
    simp only [Bool.false_eq_true, if_false] at h
    repeat' split at h
    all_goals cases h <;> simp [IsCtlOp]
  · rw [h14, if_pos rfl] at h
    cases h
    exact .inl ⟨rfl, rfl⟩

/-- What a bus transaction is (rules R111, R156). -/
theorem decodeBus_ok {k : BusKind} {sz : AccessSize} {off : Offset} {d : Word} {i : Instr}
    (h : decodeBus k sz off d = .ok i) : IsBusOp i := by
  unfold decodeBus at h
  split at h
  · cases h
  · split at h
    · cases h
    · cases k <;> simp only at h
      · cases h; exact .inl ⟨_, rfl⟩
      · split at h <;> cases h
        · exact .inr (.inr (.inr (.inr ⟨_, _, rfl⟩)))
        · exact .inr (.inl ⟨_, _, rfl⟩)
      · cases h; exact .inr (.inr (.inl ⟨_, _, rfl⟩))
      · cases h; exact .inr (.inr (.inr (.inl ⟨_, _, rfl⟩)))

/-- What an index of a command frame stands for (rule R134). -/
theorem commandOf_some {idx : BitVec 6} {arg : Word} {i : Instr} (h : commandOf idx arg = some i) : IsCommand i := by
  unfold commandOf at h
  split at h
  case h_16 => cases h
  all_goals injection h with h; exact ⟨arg, by simp [← h]⟩

/-- What a command frame is (rule R134). -/
theorem decodeFrame_ok {f : BitVec 48} {i : Instr} (h : decodeFrame f = .ok i) : IsCommand i := by
  unfold decodeFrame at h
  split at h
  · cases h
  · split at h
    · rename_i j hj
      cases h
      exact commandOf_some hj
    · cases h

/-- A command is a submission and the step `CO` (rules R172, R290). -/
theorem exec_command {i : Instr} (h : IsCommand i) : ∃ word arg, ∀ s, exec i s = command word arg s := by
  obtain ⟨arg, h⟩ := h
  rcases h with h | h | h | h | h | h | h | h | h | h | h | h | h | h | h <;> subst h <;> exact ⟨_, arg, fun _ => rfl⟩

/-- How a submission ends: the argument is written, then the control word (rule R286). -/
theorem submitted_ok {word : Word → Word} {arg : Word} {s t : State} (h : submitted word arg s = .ok t) :
    ∃ w, regWriteRefusal .cmdarg arg s = none
      ∧ regWriteRefusal .ctl w (regWrite .cmdarg arg s).tick = none
      ∧ t = (regWrite .ctl w (regWrite .cmdarg arg s).tick).tick := by
  unfold submitted at h
  split at h
  · cases h
  · rename_i h1
    simp only at h
    split at h
    · cases h
    · rename_i h2
      cases h
      exact ⟨_, h1, h2, rfl⟩

/-- Everything a step can do: an agent without an operation only takes its turn; otherwise the operation is the head
of the host's program, or the one launched from the agent's register, or the step is a detector's or the outside
world's. -/
theorem step_cases {s t : State} (h : step s = .next t) :
    (nextTurn s = .host ∧ (t = takeTurn s ∨ ∃ c rest i, s.prog = c :: rest ∧ decode c = .ok i
        ∧ (IsBusOp i ∨ IsCommand i) ∧ exec i { takeTurn s with prog := rest } = .next t))
    ∨ (nextTurn s = .engine ∧ (t = takeTurn s
        ∨ ∃ i, (IsCtlOp i ∨ (i = .ctlrst ∧ s.ctl.ctlrst = true)) ∧ exec i (takeTurn s) = .next t))
    ∨ (nextTurn s = .dmaReset ∧ (t = takeTurn s ∨ (s.dmactl.dmarst = true ∧ exec .dmarst (takeTurn s) = .next t)))
    ∨ (nextTurn s = .globalReset ∧ (t = takeTurn s ∨ (s.gctl.gctlrst = true ∧ exec .gctlrst (takeTurn s) = .next t)))
    ∨ (∃ p, nextTurn s = .cd p ∧ t = cdStep p (takeTurn s))
    ∨ (nextTurn s = .env ∧ t = envStep (takeTurn s)) := by
  unfold step at h
  cases hn : nextTurn s with
  | host =>
    rw [hn] at h
    refine .inl ⟨rfl, ?_⟩
    simp only [fetch, fetchHost] at h
    cases hp : s.prog with
    | nil =>
      rw [show (takeTurn s).prog = [] from hp] at h
      injection h with h
      exact .inl h.symm
    | cons c rest =>
      refine .inr ⟨c, rest, ?_⟩
      cases c with
      | word r w => simp only [takeTurn, hp] at h; cases h
      | bus k sz off d =>
        simp only [takeTurn, hp] at h
        cases hd : decode (.bus k sz off d) with
        | error e => rw [hd] at h; cases h
        | ok i => rw [hd] at h; exact ⟨i, rfl, rfl, .inl (decodeBus_ok hd), h⟩
      | frame f =>
        simp only [takeTurn, hp] at h
        cases hd : decode (.frame f) with
        | error e => rw [hd] at h; cases h
        | ok i => rw [hd] at h; exact ⟨i, rfl, rfl, .inr (decodeFrame_ok hd), h⟩
  | engine =>
    rw [hn] at h
    refine .inr (.inl ⟨rfl, ?_⟩)
    simp only [fetch, fetchLaunch] at h
    cases hd : decode (.word .ctl (ctlNow (takeTurn s))) with
    | error e => rw [hd] at h; injection h with h; exact .inl h.symm
    | ok i =>
      rw [hd] at h
      refine .inr ⟨i, ?_, h⟩
      rcases decodeCtl_ok hd with ⟨h14, hi⟩ | ⟨_, hi⟩
      · rw [ctlNow_getLsbD _ (by decide)] at h14
        exact .inr ⟨hi, h14⟩
      · exact .inl hi
  | dmaReset =>
    rw [hn] at h
    refine .inr (.inr (.inl ⟨rfl, ?_⟩))
    simp only [fetch, fetchLaunch, decode, decodeLaunch] at h
    have hb : (dmactlNow (takeTurn s)).getLsbD 1 = s.dmactl.dmarst := by
      rw [dmactlNow]
      simp only [BitVec.getLsbD_or, bit_getLsbD _ _ (show 1 < 32 by decide)]
      simp [takeTurn]
    rw [hb] at h
    cases hd : s.dmactl.dmarst with
    | false => rw [hd] at h; injection h with h; exact .inl h.symm
    | true => rw [hd] at h; exact .inr ⟨rfl, h⟩
  | globalReset =>
    rw [hn] at h
    refine .inr (.inr (.inr (.inl ⟨rfl, ?_⟩)))
    simp only [fetch, fetchLaunch, decode, decodeLaunch] at h
    have hb : (gctlNow (takeTurn s)).getLsbD 0 = s.gctl.gctlrst := by
      rw [gctlNow]
      simp only [BitVec.getLsbD_or, bit_getLsbD _ _ (show 0 < 32 by decide)]
      simp [takeTurn]
    rw [hb] at h
    cases hd : s.gctl.gctlrst with
    | false => rw [hd] at h; injection h with h; exact .inl h.symm
    | true => rw [hd] at h; exact .inr ⟨rfl, h⟩
  | cd p =>
    rw [hn] at h
    injection h with h
    exact .inr (.inr (.inr (.inr (.inl ⟨p, rfl, h.symm⟩))))
  | env =>
    rw [hn] at h
    injection h with h
    exact .inr (.inr (.inr (.inr (.inr ⟨rfl, h.symm⟩))))

end Sys2Proof.Machine
end

