-- ==== Sys2Proof/Laws/Frames.lean ====
section
/-!
SUPPORT. What the steps of the engine keep (`Fwd`), what a host operation may change (`BusFrame`), and what the resets keep. A proof
about every operation cites these, one per operation.
-/

namespace Sys2Proof.Machine

/-! ### The steps launched from `CTL`, but for its reset -/

/-- What every step of the engine keeps: the port, the flags that are set, the halts, what `MemKept` says of memory, the
card of the other port; the history grows, by events that name the selected port or none. -/
structure Fwd (s t : State) : Prop where
  port : t.ctl.sdport = s.ctl.sdport
  hist : ∃ es, t.history = s.history ++ es ∧ ∀ e ∈ es, ∀ p, e.port = some p → p = selPort s
  memory : MemKept s t
  crcif : s.intsts.crcif = true → t.intsts.crcif = true
  rtoif : s.intsts.rtoif = true → t.intsts.rtoif = true
  ditoif : s.intsts.ditoif = true → t.intsts.ditoif = true
  cdif0 : s.intsts.cdif0 = true → t.intsts.cdif0 = true
  cdif1 : s.intsts.cdif1 = true → t.intsts.cdif1 = true
  abortif : s.dmaintsts.abortif = true → t.dmaintsts.abortif = true
  weotif : s.dmaintsts.weotif = true → t.dmaintsts.weotif = true
  dtaif : s.dtaif = true → t.dtaif = true
  blkdif : s.intsts.blkdif ≠ .known false → t.intsts.blkdif ≠ .known false
  eh : s.eng.halted = true → t.eng.halted = true
  dh : s.dma.halted = true → t.dma.halted = true
  c0 : selPort s = .p1 → t.card0 = s.card0
  c1 : selPort s = .p0 → t.card1 = s.card1

/-- The selected port is a function of `SDPORT`. -/
theorem selPort_of {s t : State} (h : t.ctl.sdport = s.ctl.sdport) : selPort t = selPort s := by simp [selPort, h]

/-- Nothing happened. -/
theorem Fwd.refl (s : State) : Fwd s s := ⟨rfl, ⟨[], by simp, by simp⟩, .refl s, id, id, id, id, id, id, id, id, id, id,
    id, fun _ => rfl, fun _ => rfl⟩

/-- One part of a step after another. -/
theorem Fwd.trans {s t u : State} (a : Fwd s t) (b : Fwd t u) : Fwd s u := by
  have hp := selPort_of a.port
  refine ⟨b.port.trans a.port, ?_, a.memory.trans b.memory, b.crcif ∘ a.crcif, b.rtoif ∘ a.rtoif, b.ditoif ∘ a.ditoif,
      b.cdif0 ∘ a.cdif0, b.cdif1 ∘ a.cdif1,
    b.abortif ∘ a.abortif, b.weotif ∘ a.weotif, b.dtaif ∘ a.dtaif, b.blkdif ∘ a.blkdif, b.eh ∘ a.eh, b.dh ∘ a.dh, ?_,
        ?_⟩
  · obtain ⟨es, h1, h2⟩ := a.hist
    obtain ⟨fs, h3, h4⟩ := b.hist
    refine ⟨es ++ fs, by rw [h3, h1, List.append_assoc], ?_⟩
    intro e hm p he
    rcases List.mem_append.1 hm with h | h
    · exact h2 e h p he
    · rw [← hp]; exact h4 e h p he
  · intro h; exact (b.c0 (hp.trans h)).trans (a.c0 h)
  · intro h; exact (b.c1 (hp.trans h)).trans (a.c1 h)

/-- A part of a step that touches none of it. -/
theorem Fwd.same {s t : State} (h1 : t.ctl.sdport = s.ctl.sdport) (h2 : t.history = s.history) (h3 : t.mem = s.mem)
    (h0 : t.overlap = s.overlap)
    (h4 : (t.intsts.crcif, t.intsts.rtoif, t.intsts.ditoif, t.intsts.cdif0, t.intsts.cdif1, t.intsts.blkdif)
        = (s.intsts.crcif, s.intsts.rtoif, s.intsts.ditoif, s.intsts.cdif0, s.intsts.cdif1, s.intsts.blkdif))
    (h5 : t.dmaintsts = s.dmaintsts) (h6 : t.dtaif = s.dtaif) (h7 : t.eng.halted = s.eng.halted)
        (h8 : t.dma.halted = s.dma.halted)
    (h9 : t.card0 = s.card0) (h10 : t.card1 = s.card1) : Fwd s t := by
  simp only [Prod.mk.injEq] at h4
  obtain ⟨k1, k2, k3, k4, k5, k6⟩ := h4
  refine ⟨h1, ⟨[], by rw [h2]; simp, by simp⟩, .of_eq h0 h3, by rw [k1]; exact id, by rw [k2]; exact id,
      by rw [k3]; exact id, by rw [k4]; exact id, by rw [k5]; exact id,
    by rw [h5]; exact id, by rw [h5]; exact id, by rw [h6]; exact id, by rw [k6]; exact id, by rw [h7]; exact id,
        by rw [h8]; exact id, fun _ => h9, fun _ => h10⟩

/-- An event is appended that names the port another state selects. -/
theorem selPort_card (s : State) (c : CardScript) : selPort (s.setCard c) = selPort s := by
  unfold State.setCard; split <;> rfl

/-- An event is appended. -/
theorem Fwd.log (s : State) (e : Event) (he : ∀ p, e.port = some p → p = selPort s) : Fwd s (s.log e) :=
  ⟨rfl, ⟨[e], rfl, fun x h p hp => he p (by rw [← List.mem_singleton.1 h]; exact hp)⟩, .of_eq rfl rfl, id, id, id, id, id, id, id, id, id, id,
      id, fun _ => rfl, fun _ => rfl⟩

/-- The card was asked. -/
theorem Fwd.card (s : State) (c : CardScript) : Fwd s (s.setCard c) := by
  have hh : ∃ es, (s.setCard c).history = s.history ++ es ∧ ∀ e ∈ es, ∀ p, e.port = some p → p = selPort s :=
    ⟨[], by simp, by simp⟩
  refine ⟨by simp, hh, .of_eq (by simp) (by simp), ?_, ?_, ?_, ?_, ?_, ?_, ?_, ?_, ?_, ?_, ?_, ?_, ?_⟩
  all_goals
    unfold State.setCard
    split
  all_goals first
    | exact id
    | exact fun _ => rfl
    | (rename_i h; intro h'; rw [h] at h'; cases h')

/-- DMA accesses. -/
theorem Fwd.moved {st : Bool} {s u : State} (h : Moved st s u) : Fwd s u := by
  obtain ⟨es, h1, h2⟩ := h.grows
  have hr := h.rest
  refine ⟨by rw [hr], ⟨es, h1, fun e hm p hp => by have := h2 _ hm; cases e <;> first | (cases this; done) | cases hp⟩, h.memory, ?_, ?_, ?_, ?_,
      ?_, ?_, ?_, ?_, ?_, ?_, by rw [h.halted]; exact id, ?_, ?_⟩
  all_goals rw [hr]; first | exact id | exact fun _ => rfl

/-- The flags of an event are set. -/
theorem Fwd.setFlags (e : EventKind) (s : State) : Fwd s (setFlags e s) := by
  cases e
  case targetAbort a => exact ⟨rfl, ⟨[.memErr a], rfl, by simp [Event.port]⟩, .of_eq rfl rfl, id, id, id, id, id, fun _ => rfl, id,
      fun _ => rfl, id, id, id, fun _ => rfl, fun _ => rfl⟩
  case cardDetect p => cases p <;> exact ⟨rfl, ⟨[], by simp [Machine.setFlags], by simp⟩, .of_eq rfl rfl,
      by simp [Machine.setFlags], by simp [Machine.setFlags], by simp [Machine.setFlags], by simp [Machine.setFlags],
      by simp [Machine.setFlags], id, id, id, by simp [Machine.setFlags], id, id, fun _ => rfl, fun _ => rfl⟩
  all_goals exact ⟨rfl, ⟨[], by simp [Machine.setFlags], by simp⟩, .of_eq rfl rfl, by simp [Machine.setFlags],
      by simp [Machine.setFlags], by simp [Machine.setFlags], by simp [Machine.setFlags], by simp [Machine.setFlags],
      by simp [Machine.setFlags], by simp [Machine.setFlags], by simp [Machine.setFlags], by simp [Machine.setFlags],
      id, id, fun _ => rfl, fun _ => rfl⟩

/-- The engine is halted. -/
theorem Fwd.haltResponse (s : State) : Fwd s (haltResponse s) :=
  ⟨rfl, ⟨[], by simp, by simp⟩, .of_eq rfl rfl, id, id, id, id, id, id, id, id, id, fun _ => rfl, id, fun _ => rfl,
    fun _ => rfl⟩

/-- The sequencer's status is lost. -/
theorem Fwd.loseCount (s : State) : Fwd s (loseCount s) := .same rfl rfl rfl rfl rfl rfl rfl rfl rfl rfl rfl

/-- Both engines are halted. -/
theorem Fwd.haltData (s : State) : Fwd s (haltData s) := by
  refine ⟨rfl, ⟨[], by simp, by simp⟩, ?_, id, id, id, id, id, id, id, id, ?_, fun _ => rfl, fun _ => rfl,
      fun _ => rfl, fun _ => rfl⟩
  · cases hd : s.ctl.dien.isOn
    · exact .of_eq rfl (by simp [hd])
    · exact .blur rfl (by simp [hd])
  · intro _; simp

/-- An event is raised. -/
theorem Fwd.raise (e : EventKind) (s : State) : Fwd s (raise e s) := by
  rcases raise_spec e s with h | h | h | h <;> rw [h]
  · exact Fwd.setFlags e s
  · exact (Fwd.setFlags e s).trans (Fwd.haltData _)
  · exact (Fwd.setFlags e s).trans ((Fwd.loseCount _).trans (Fwd.haltResponse _))
  · exact (Fwd.setFlags e s).trans ((Fwd.haltData _).trans (Fwd.haltResponse _))

/-- The engine goes on. -/
theorem Fwd.goOn (s : State) : Fwd s s.goOn := .same rfl rfl rfl rfl rfl rfl rfl rfl rfl rfl rfl

/-- `CLK74O`. -/
theorem fwd_clk74o {s t : State} (h : execClk74o s = .next t) : Fwd s t := by
  injection h with h; subst h
  split
  · exact (Fwd.log s _ (by rintro p h; cases h; rfl)).trans (.same rfl rfl rfl rfl rfl rfl rfl
        rfl rfl rfl rfl)
  · exact .refl s

/-- `CLK8O`. -/
theorem fwd_clk8o {s t : State} (h : execClk8o s = .next t) : Fwd s t := by
  injection h with h; subst h
  split
  · exact (Fwd.log s _ (by rintro p h; cases h; rfl)).trans (.same rfl rfl rfl rfl rfl rfl rfl
        rfl rfl rfl rfl)
  · exact .refl s

/-- The step `CO`. -/
theorem fwd_coStep (s : State) : Fwd s (coStep s) :=
  (Fwd.log s (.cmdOut (selPort s) (commandFrame s.ctl.cmdcode s.cmdarg)) (by rintro p h; cases h; rfl)).trans (.same rfl rfl
      rfl rfl rfl rfl rfl rfl rfl rfl rfl)

/-- `CO`. -/
theorem fwd_co {s t : State} (h : execCo s = .next t) : Fwd s t := by
  injection h with h; subst h
  split
  · exact fwd_coStep s
  · exact .refl s

/-- After a response. -/
theorem fwd_after (s : State) : Fwd s (afterResponse s) := by
  unfold afterResponse; split
  · exact .refl s
  · exact .goOn s

/-- The verdict on a response. -/
theorem fwd_judge (ok : Bool) (s : State) : Fwd s (judgeResponse ok s) := by
  unfold judgeResponse
  split
  · exact .same rfl rfl rfl rfl rfl rfl rfl rfl rfl rfl rfl
  · exact Fwd.trans (t := recordCrc7 false s) (.same rfl rfl rfl rfl rfl rfl rfl rfl rfl rfl rfl) (.raise _ _)

/-- No response. -/
theorem fwd_noResponse (s : State) : Fwd s (noResponse s) := by
  unfold noResponse
  split
  · exact (Fwd.log s (.respNone (selPort s)) (by rintro p h; cases h; rfl)).trans (.raise _ _)
  · exact .same rfl rfl rfl rfl rfl rfl rfl rfl rfl rfl rfl

/-- `RI`. -/
theorem fwd_ri {s t : State} (h : execRi s = .next t) : Fwd s t := by
  injection h with h; subst h
  split
  · split
    · rename_i f hf
      refine Fwd.trans (t := tookResp48 s) (Fwd.card s _) ?_
      rw [riFrame_eq]
      refine Fwd.trans (t := riTaken f _) ?_ ((fwd_judge _ _).trans (fwd_after _))
      exact (Fwd.log _ (.respIn _ f) (by rintro p h; cases h; rfl)).trans (.same rfl rfl rfl rfl rfl rfl rfl rfl rfl rfl rfl)
    · exact Fwd.trans (t := tookResp48 s) (Fwd.card s _) (fwd_noResponse _)
  · exact .refl s

/-- `R2I`. -/
theorem fwd_r2i {s t : State} (h : execR2i s = .next t) : Fwd s t := by
  injection h with h; subst h
  split
  · split
    · rename_i f hf
      refine Fwd.trans (t := tookResp136 s) (Fwd.card s _) ?_
      rw [r2iFrame_eq]
      refine Fwd.trans (t := r2iTaken f _) ?_ ((fwd_judge _ _).trans (fwd_after _))
      exact (Fwd.log _ (.resp2In _ f) (by rintro p h; cases h; rfl)).trans (.same rfl rfl rfl rfl rfl rfl rfl rfl rfl rfl
          rfl)
    · exact Fwd.trans (t := tookResp136 s) (Fwd.card s _) (fwd_noResponse _)
  · exact .refl s

/-- The start of a data phase. -/
theorem fwd_dstart (s : State) : Fwd s (dstart s) := by
  refine .same rfl rfl rfl rfl rfl rfl rfl rfl ?_ rfl rfl
  show (if s.dmactl.sgen then _ else _ : Dma).halted = _
  split <;> rfl

/-- A block has been moved. -/
theorem fwd_moved (after : State → State) (ha : ∀ x, Fwd x (after x)) (s : State) : Fwd s (blockMoved after s) := by
  rw [moved_if]; split
  · exact .same rfl rfl rfl rfl rfl rfl rfl rfl rfl rfl rfl
  · refine Fwd.trans ?_ (ha _); exact .same rfl rfl rfl rfl rfl rfl rfl rfl rfl rfl rfl

/-- A data operation is complete. -/
theorem fwd_done (s : State) : Fwd s (dataDone s) :=
  (Fwd.raise .blockDone s).trans (.same rfl rfl rfl rfl rfl rfl rfl rfl rfl rfl rfl)

/-- Both ways in which a part of a step changes the state. -/
theorem fwd_flow {α : Type} {st : Bool} {s : State} {f : Flow α} (h : Flow.Spec st s f) : (∀ a u,
    f = .go a u → Fwd s u) ∧ (∀ u, f = .stop u → Fwd s u) := by
  refine ⟨?_, ?_⟩
  · rintro a u rfl; exact Fwd.moved h
  · rintro u rfl
    obtain ⟨e, v, hv, rfl, _⟩ := h
    exact (Fwd.moved hv).trans (.raise e v)

/-- `DI`. -/
theorem fwd_di {s t : State} (h : execDi s = .next t) : Fwd s t := by
  unfold execDi at h
  split at h
  · injection h with h; subst h; exact .refl s
  · split at h
    · injection h with h; subst h
      split
      · exact Fwd.trans (t := { s with ctl := { s.ctl with dien := .known false } })
            (.same rfl rfl rfl rfl rfl rfl rfl rfl rfl rfl rfl) (fwd_done _)
      · exact .refl s
    · split at h
      · injection h with h; subst h; exact .refl s
      · split at h
        · injection h with h; subst h; exact fwd_dstart s
        · split at h
          · injection h with h; subst h; exact .refl s
          · unfold diBlock at h
            split at h
            · rename_i b hb
              refine Fwd.trans (t := tookBlock s) (Fwd.card s _) ?_
              change diFrame b (tookBlock s) = _ at h
              generalize tookBlock s = v at h ⊢
              unfold diFrame at h
              simp only at h
              have h0 : ∀ ok, Fwd v (recordCrc16 ok (v.log (.blockIn (selPort v) (blockIndex v) b.bytes)))
                  := fun ok =>
                (Fwd.log _ (.blockIn _ _ _) (by rintro p h; cases h; rfl)).trans (.same rfl rfl rfl rfl rfl rfl rfl rfl rfl
                    rfl rfl)
              split at h
              · rename_i hok
                have hf := fwd_flow (storeBlock_spec b.bytes (recordCrc16 (b.crcs == lineCrcs v.ctl.dbw b.bytes)
                    (v.log (.blockIn (selPort v) (blockIndex v) b.bytes))))
                split at h
                · rename_i a u hu; injection h with h; subst h
                  exact (h0 _).trans ((hf.1 _ _ hu).trans (fwd_moved id (fun _ => .refl _) _))
                · rename_i u hu; injection h with h; subst h
                  exact (h0 _).trans (hf.2 _ hu)
                · cases h
              · injection h with h; subst h
                exact (h0 _).trans (.raise _ _)
            · injection h with h; subst h
              refine Fwd.trans (t := tookBlock s) (Fwd.card s _) ?_
              split
              · exact (Fwd.log _ (.blockNone _ _) (by rintro p h; cases h; exact (selPort_card s _).symm)).trans (.raise _ _)
              · exact .same rfl rfl rfl rfl rfl rfl rfl rfl rfl rfl rfl

/-- `DO`. -/
theorem fwd_dout {s t : State} (h : execDout s = .next t) : Fwd s t := by
  unfold execDout at h
  split at h
  · injection h with h; subst h; exact .refl s
  · split at h
    · injection h with h; subst h
      split
      · exact Fwd.trans (t :=
            { s with ctl := { s.ctl with doen := .known false }, eng := { s.eng with dsub := .send }, lent := [] })
            (.same rfl rfl rfl rfl rfl rfl rfl rfl rfl rfl rfl) (fwd_done _)
      · exact .refl s
    · split at h
      · injection h with h; subst h; exact .refl s
      · split at h
        · injection h with h; subst h; exact fwd_dstart s
        · unfold doInBlock at h
          split at h
          · split at h
            · injection h with h; subst h; exact .refl s
            · unfold doBlock at h
              have hf := fwd_flow (loadBlock_spec (st := false) (blockLen s / 4) s)
              split at h
              · rename_i d u hu; injection h with h; subst h
                exact (hf.1 _ _ hu).trans
                    ((Fwd.log _ (.blockOut _ _ _ _) (by rintro p h; cases h; exact (selPort_of (hf.1 _ _ hu).port).symm)).trans (.same rfl rfl rfl rfl rfl rfl rfl rfl rfl rfl rfl))
              · rename_i u hu; injection h with h; subst h; exact hf.2 _ hu
              · cases h
          · injection h with h; subst h
            unfold doStatus
            refine Fwd.trans (t := tookStatus s) (Fwd.card s _) ?_
            simp only
            split
            · exact .same rfl rfl rfl rfl rfl rfl rfl rfl rfl rfl rfl
            · rename_i v hv
              refine (Fwd.log (tookStatus s) (.crcStatus (selPort s) (blockIndex s) v)
                (by rintro p h; cases h; exact (selPort_card s _).symm)).trans ?_
              refine Fwd.trans (t := recordCrcStatus v ((tookStatus s).log (.crcStatus (selPort s) (blockIndex s)
                  v))) (.same rfl rfl rfl rfl rfl rfl rfl rfl rfl rfl rfl) ?_
              split
              · exact .raise _ _
              · refine fwd_moved _ ?_ _
                intro x; exact .same rfl rfl rfl rfl rfl rfl rfl rfl rfl rfl rfl
          · injection h with h; subst h
            unfold doReady
            refine Fwd.trans (t := tookReady s) (Fwd.card s _) ?_
            simp only
            split
            · exact .same rfl rfl rfl rfl rfl rfl rfl rfl rfl rfl rfl
            · exact .refl _

/-- Every operation launched from `CTL`, but for its reset. -/
theorem fwd_ctlOp {i : Instr} (hi : IsCtlOp i) {s t : State} (h : exec i s = .next t) : Fwd s t := by
  rcases hi with rfl | rfl | rfl | rfl | rfl | rfl | rfl
  · exact fwd_clk74o h
  · exact fwd_clk8o h
  · exact fwd_co h
  · exact fwd_ri h
  · exact fwd_r2i h
  · exact fwd_di h
  · exact fwd_dout h

/-! ### The operations of the host -/

/-- What a host operation may change: the registers, the phase, the data returned, the scripts that a read of the
level of DAT0 shortens, and the counter of draws; no result or verdict of the engine. -/
def BusFrame (s t : State) : Prop :=
    t = { s with
      fb := t.fb, dmactl := t.dmactl, dmasa := t.dmasa, dmainten := t.dmainten, dmaintsts := t.dmaintsts
      gctl := t.gctl, dtaien := t.dtaien, dtaif := t.dtaif, ctl := t.ctl, cmdarg := t.cmdarg, inten := t.inten
      intsts := t.intsts, blen := t.blen, tout := t.tout, ectl := t.ectl
      eng := { s.eng with phase := t.eng.phase }, card0 := t.card0, card1 := t.card1, rdata := t.rdata
      draws := t.draws }
    ∧ t.dmactl.dmabusy = s.dmactl.dmabusy ∧ t.intsts.crc7 = s.intsts.crc7 ∧ t.intsts.crc16 = s.intsts.crc16
    ∧ t.intsts.crcsts = s.intsts.crcsts

/-- A write of `CTL` changes `CTL` and the phase. -/
theorem writeCtl_frame (w : Word) (s : State)
    : writeCtl w s = { s with ctl := (writeCtl w s).ctl, eng := { s.eng with phase := (writeCtl w s).eng.phase } } :=
    by
  unfold writeCtl; simp only; split
  · rfl
  · split
    · split <;> rfl
    · rfl

/-- A write of `GCTL` changes `GCTL` and the phase. -/
theorem writeGctl_frame (w : Word) (s : State)
    : writeGctl w s =
    { s with gctl := (writeGctl w s).gctl, eng := { s.eng with phase := (writeGctl w s).eng.phase } } := by
  unfold writeGctl; simp only; split <;> rfl

/-- A write of a register. -/
theorem regWrite_frame (r : Reg) (w : Word) (s : State) : BusFrame s (regWrite r w s)
    ∧ (regWrite r w s).draws = s.draws := by
  cases r
  case ctl =>
    have := writeCtl_frame w s
    simp only [regWrite]
    generalize writeCtl w s = t at *
    rw [this]; exact ⟨⟨rfl, rfl, rfl, rfl, rfl⟩, rfl⟩
  case gctl =>
    have := writeGctl_frame w s
    simp only [regWrite]
    generalize writeGctl w s = t at *
    rw [this]; exact ⟨⟨rfl, rfl, rfl, rfl, rfl⟩, rfl⟩
  all_goals exact ⟨⟨rfl, rfl, rfl, rfl, rfl⟩, rfl⟩

/-- One part of an operation after another. -/
theorem BusFrame.trans {s t u : State} (h : BusFrame s t) (k : BusFrame t u) : BusFrame s u := by
  obtain ⟨a, a1, a2, a3, a4⟩ := h
  obtain ⟨b, b1, b2, b3, b4⟩ := k
  refine ⟨?_, b1.trans a1, b2.trans a2, b3.trans a3, b4.trans a4⟩
  rw [a] at b; exact b

/-- The counter of draws advances. -/
theorem tick_frame (s : State) : BusFrame s s.tick := ⟨rfl, rfl, rfl, rfl, rfl⟩

/-- The card was asked. -/
theorem setCard_frame (s : State) (c : CardScript) : BusFrame s (s.setCard c) := by
  unfold State.setCard; split <;> exact ⟨rfl, rfl, rfl, rfl, rfl⟩

/-- A register was read. -/
theorem afterRead_frame (r : Reg) (s : State) : BusFrame s (afterRead r s) ∧ (afterRead r s).draws = s.draws + 1 := by
  unfold afterRead; split
  · exact ⟨setCard_frame _ _, by simp [tookDat0]⟩
  · exact ⟨tick_frame _, rfl⟩

/-- `SET` and `CLR`. -/
theorem modify_frame {off : Offset} {f : Word → Word} {s t : State} (h : modify off f s = .next t)
    : BusFrame s t ∧ t.draws = s.draws + 1 := by
  unfold modify at h
  split at h
  · cases h
  · simp only at h
    split at h
    · cases h
    · injection h with h; subst h
      have a := regWrite_frame (regOf off) (f (rmwBase off (regOf off) s)) s
      have b := afterRead_frame (regOf off) (regWrite (regOf off) (f (rmwBase off (regOf off) s)) s)
      exact ⟨a.1.trans b.1, by rw [b.2, a.2]⟩

/-- A command: two writes of the host, and the step `CO` or nothing. -/
theorem command_split {word : Word → Word} {arg : Word} {s t : State} (h : command word arg s = .next t) :
    ∃ u, BusFrame s u ∧ (t = u ∨ t = coStep u) := by
  unfold command at h
  split at h
  · cases h
  · rename_i u hu
    obtain ⟨w, _, _, rfl⟩ := submitted_ok hu
    injection h with h
    refine ⟨(regWrite .ctl w (regWrite .cmdarg arg s).tick).tick, ?_, ?_⟩
    · exact ((regWrite_frame _ _ _).1.trans (tick_frame _)).trans ((regWrite_frame _ _ _).1.trans (tick_frame _))
    · split at h
      · exact .inr h.symm
      · exact .inl h.symm

/-! ### The resets and the detectors -/

/-- The resets keep the flags and what `MemKept` says of memory, the history grows, and memory changes only by a `DI`
that is cut. -/
theorem resets_flags (i : Instr) (hi : i = .ctlrst ∨ i = .dmarst ∨ i = .gctlrst)
    {s t : State} (h : exec i s = .next t) :
    (s.intsts.crcif = true → t.intsts.crcif = true) ∧ (s.intsts.rtoif = true → t.intsts.rtoif = true)
    ∧ (s.intsts.ditoif = true → t.intsts.ditoif = true) ∧ (s.intsts.cdif0 = true → t.intsts.cdif0 = true)
    ∧ (s.intsts.cdif1 = true → t.intsts.cdif1 = true) ∧ (s.dmaintsts.abortif = true → t.dmaintsts.abortif = true)
    ∧ (s.dmaintsts.weotif = true → t.dmaintsts.weotif = true) ∧ (s.dtaif = true → t.dtaif = true)
    ∧ (s.intsts.blkdif = .known true → t.intsts.blkdif ≠ .known false) ∧ (∃ es, t.history = s.history ++ es)
    ∧ MemKept s t ∧ (s.ctl.dien.isOn = false → t.mem = s.mem) := by
  have nk : ∀ x : Held Bool, x = .known true → x ≠ .known false := by rintro x rfl; simp
  rcases hi with rfl | rfl | rfl
  · injection h with h; subst h
    split
    · exact ⟨id, id, id, id, id, id, id, id, nk _, ⟨_, rfl⟩, .of_eq rfl rfl, fun _ => rfl⟩
    · exact ⟨id, id, id, id, id, id, id, id, nk _, ⟨[], by simp⟩, .of_eq rfl rfl, fun _ => rfl⟩
  · injection h with h; subst h
    split
    · simp only; split
      · refine ⟨id, id, id, id, id, id, id, id, fun _ => by simp, ⟨_, rfl⟩, ?_, ?_⟩
        · cases hd : s.ctl.dien.isOn
          · exact .of_eq rfl (by simp [hd])
          · exact .blur rfl (by simp [hd])
        · intro hd; simp [hd]
      · exact ⟨id, id, id, id, id, id, id, id, nk _, ⟨_, rfl⟩, .of_eq rfl rfl, fun _ => rfl⟩
    · exact ⟨id, id, id, id, id, id, id, id, nk _, ⟨[], by simp⟩, .of_eq rfl rfl, fun _ => rfl⟩
  · injection h with h; subst h
    split
    · refine ⟨id, id, id, id, id, id, id, id, nk _, ⟨_, rfl⟩, ?_, ?_⟩
      · by_cases hc : (s.dmactl.dmabusy.isOn && !s.dma.halted && s.ctl.dien.isOn) = true
        · exact .blur rfl (if_pos hc)
        · exact .of_eq rfl (if_neg hc)
      · intro hd; show (if _ then _ else _) = _; simp [hd]
    · exact ⟨id, id, id, id, id, id, id, id, nk _, ⟨[], by simp⟩, .of_eq rfl rfl, fun _ => rfl⟩

/-- A detector touches neither memory nor the history. -/
theorem cd_mem (p : Port) (s : State) : (cdStep p s).mem = s.mem ∧ (cdStep p s).history = s.history := by
  cases p <;> simp only [cdStep] <;> split <;> exact ⟨rfl, rfl⟩

/-! ### Memory and the outside world -/

/-- What a store by another master replaces is noted, and nothing else of the state changes by that (rule R95). -/
theorem lend_eq (a : Nat) (s : State) (old : Option Byte) : lend a s old = { s with lent := (lend a s old).lent } := by
  unfold lend; split <;> rfl

/-- An event of the outside world that is not the start or the end of an overlap keeps what `MemKept` says of memory. -/
theorem applyInput_memory {i : Input} (hi : ∀ a on, i ≠ .overlap a on) (s : State) : MemKept s (applyInput i s) := by
  cases i with
  | cdDed p b | cdGpio p b => cases p <;> exact .of_eq rfl rfl
  | memStore a b =>
    have e := lend_eq a.toNat { s with mem := storeByte s.overlap s.mem a.toNat b } (memGet s.mem a.toNat)
    simp only [applyInput]
    rw [e]
    exact ⟨rfl, fun h => Memory.wf_storeByte h _ a.isLt b, fun h => storeByte_overlap h _ b⟩
  | busError a f => exact .of_eq rfl rfl
  | overlap a on => exact absurd rfl (hi a on)
  | hardwareReset => exact .of_eq rfl rfl

/-- A byte of a word whose address is a multiple of 4. -/
theorem word_covers (a : Word) (x : Nat) :
    (decide ((a &&& 0xFFFFFFFC#32).toNat ≤ x ∧ x < (a &&& 0xFFFFFFFC#32).toNat + 4)) = decide (x / 4 = a.toNat / 4) := by
  have h : (a &&& 0xFFFFFFFC#32).toNat = a.toNat / 4 * 4 := by
    have e : a &&& 0xFFFFFFFC#32 = (a >>> 2) <<< 2 := by
      apply BitVec.eq_of_getLsbD_eq
      intro i hi
      simp only [BitVec.getLsbD_and, BitVec.getLsbD_shiftLeft, BitVec.getLsbD_ushiftRight]
      interval_cases i <;> simp
    rw [e, BitVec.toNat_shiftLeft, BitVec.toNat_ushiftRight, Nat.shiftRight_eq_div_pow, Nat.shiftLeft_eq]
    have := a.isLt
    omega
  rw [h]
  exact decide_eq_decide.2 (by omega)

/-- The start and the end of an overlap keep memory canonical, and what is `any` in the other overlaps (rule R344). -/
theorem setOverlap_memory (w : Word) (on : Bool) (s : State) :
    (Memory.wf s.mem = true → Memory.wf (setOverlap w on s).mem = true)
    ∧ (OverlapAny s → OverlapAny (setOverlap w on s)) := by
  cases on
  · refine ⟨id, fun h x hx => h x ?_⟩
    simp only [setOverlap, overlapped, List.any_eq_true, List.mem_filter, Bool.false_eq_true, if_false] at hx ⊢
    obtain ⟨v, hv, hc⟩ := hx
    exact ⟨v, hv.1, hc⟩
  · refine ⟨fun h => Memory.wf_memErase h _ _, fun h x hx => ?_⟩
    simp only [setOverlap, overlapped, List.any_cons, Bool.or_eq_true, decide_eq_true_eq, if_true] at hx ⊢
    rcases hx with hx | hx
    · exact memGet_memErase_inside _ hx.1 hx.2
    · exact memGet_memErase_none (h x hx) _ _

/-! ### Memory where no `DI` is pending -/

/-- No response. -/
theorem noResp_mem {s : State} (h : s.ctl.dien.isOn = false) : (noResponse s).mem = s.mem := by
  unfold noResponse
  split
  · rcases raise_mem .responseTimeout (s.log (.respNone (selPort s))) with hm | ⟨hd, _⟩
    · exact hm
    · rw [show (s.log (.respNone (selPort s))).ctl = s.ctl from rfl, h] at hd; cases hd
  · rfl

/-- After a response. -/
theorem after_mem (s : State) : (afterResponse s).mem = s.mem := by unfold afterResponse; split <;> rfl

/-- The verdict on a response. -/
theorem judge_mem (ok : Bool) {s : State} (h : s.ctl.dien.isOn = false) : (judgeResponse ok s).mem = s.mem := by
  unfold judgeResponse
  split
  · rfl
  · rcases raise_mem .responseCrc (recordCrc7 false s) with hm | ⟨hd, _⟩
    · exact hm
    · rw [show (recordCrc7 false s).ctl = s.ctl from rfl, h] at hd; cases hd

/-! ### Fair runs (rule R10) -/

/-- The turn of a pending `DMARST` performs it. -/
theorem fetch_dmarst {s : State} (h : s.dmactl.dmarst = true) : fetch .dmaReset s = .run .dmarst s := by
  have hb : (dmactlNow s).getLsbD 1 = true := by
    simp only [dmactlNow, BitVec.getLsbD_or, bit_getLsbD _ _ (show 1 < 32 by decide)]; simp [h]
  simp only [fetch, fetchLaunch, decode, decodeLaunch, hb]; rfl

/-- A pending `DMARST` is performed in every fair run: after every moment there is one at which it is 0 (rules R10,
R251). -/
theorem fair_dmarst {r : Nat → State} (hr : IsRun r) (hf : WeaklyFair r) (n : Nat) :
    ∃ m, n ≤ m ∧ (r m).dmactl.dmarst = false := by
  by_contra hc
  have hp : ∀ m, n ≤ m → (r m).dmactl.dmarst = true := by
    intro m hm
    cases hx : (r m).dmactl.dmarst
    · exact absurd ⟨m, hm, hx⟩ hc
    · rfl
  have he : ∀ m, n ≤ m → exec .dmarst (takeTurn (r m)) ≠ .next (takeTurn (r m)) := by
    intro m hm hx
    have hd : (takeTurn (r m)).dmactl.dmarst = true := hp m hm
    have : (takeTurn (r m)).dmactl.dmarst = false := by
      simp only [exec, execDmarst, hd, if_true] at hx
      injection hx with hx
      rw [← hx]
    rw [hd] at this; cases this
  obtain ⟨m, hm, ht⟩ := hf .dmaReset (by simp) n fun m hm => by
    simp only [TurnEnabled]
    rw [fetch_dmarst (show (takeTurn (r m)).dmactl.dmarst = true from hp m hm)]
    exact he m hm
  have hs := hr m
  unfold step at hs
  rw [ht] at hs
  simp only [fetch_dmarst (show (takeTurn (r m)).dmactl.dmarst = true from hp m hm)] at hs
  have h1 := hp (m + 1) (by omega)
  simp only [exec, execDmarst, show (takeTurn (r m)).dmactl.dmarst = true from hp m hm, if_true] at hs
  injection hs with hs
  rw [← hs] at h1
  cases h1

/-- Under weak fairness a change of a card-detect level that lasts is flagged (rule R272): after every moment there is
one at which the level is the remembered one, or the flag is set. -/
theorem fair_cd {r : Nat → State} (hr : IsRun r) (hf : WeaklyFair r) (p : Port) (n : Nat) :
    ∃ m, n ≤ m ∧ (cdsts (r m) p = cdPrev (r m) p ∨ cdFlag (r m) p = true) := by
  by_contra hc
  obtain ⟨m, hm, ht⟩ := hf (.cd p) (by simp) n fun m hm he => hc ⟨m, hm, .inl he⟩
  have hs := hr m
  unfold step at hs
  rw [ht] at hs
  refine hc ⟨m + 1, by omega, .inr ?_⟩
  injection hs with hs
  rw [← hs, cdStep, if_pos (show cdsts (takeTurn (r m)) p ≠ cdPrev (takeTurn (r m)) p from
    fun he => hc ⟨m, hm, .inl (by cases p <;> exact he)⟩)]
  cases p <;> rfl

end Sys2Proof.Machine
end

