-- ==== Sys2Proof/Laws/Consistent.lean ====
section
/-!
SUPPORT. The invariants of rule R66, kept by every part of a step: one lemma per operation.
-/

namespace Sys2Proof.Machine

/-- What the invariants speak about. -/
def coreOf (s : State) := (s.ctl, s.eng.phase, s.eng.halted, s.eng.blocksLeft, s.dma.halted, s.dmactl.dmabusy,
    s.bcnt, s.gctl.gctlrst, s.blen)

/-- The invariants depend on that alone. -/
theorem Consistent.congr {s t : State} (h : coreOf s = coreOf t) (hs : Consistent s) : Consistent t := by
  simp only [coreOf, Prod.mk.injEq] at h
  obtain ⟨h1, h2, h3, h4, h5, h6, h7, h8, h9⟩ := h
  simp only [Consistent, LegalSet, LaunchKnown, CountOk, PhaseOk, BusyOk, HaltOk, BlocksOk, ResetOk, blockLen, h1,
      h2, h3, h4, h5, h6, h7, h8, h9] at hs ⊢
  exact hs

/-- A read changes none of it. -/
theorem core_reads (r : Reg) (s : State) : coreOf (afterRead r s) = coreOf s := by
  cases r <;> simp [afterRead, coreOf]

/-- Clearing flags changes none of it. -/
theorem core_clear (r : W1cReg) (m : Word) (s : State) : coreOf (clearFlags r m s) = coreOf s := by
  cases r <;> rfl

/-- A detector changes none of it. -/
theorem core_cd (p : Port) (s : State) : coreOf (cdStep p s) = coreOf s := by
  unfold cdStep; split <;> cases p <;> rfl

/-- A blurred launch bit is not on. -/
theorem Held.blur_isOn (x : Held Bool) : x.blur.isOn = false := by
  cases x with
  | any => rfl
  | known b => cases b <;> rfl

/-- A blurred launch bit does not hold 1. -/
theorem Held.blur_ne (x : Held Bool) : x.blur ≠ .known true := by
  cases x with
  | any => decide
  | known b => cases b <;> decide

/-- The legal launch sets as a function of the seven bits (rule R131). -/
def legalB (a b c d e f g : Bool) : Bool :=
  (!f && !g && !(b && e) && !(c && d)) || (f && !a && !b && !c && !d && !e && !g)
      || (g && !a && !b && !c && !d && !e && !f)

/-- The launch bits of a state form a legal set exactly if that function says so. -/
theorem legalLaunch_eq (c : Ctl) : legalLaunch (launchBits c) =
    legalB c.coen c.rien.isOn c.dien.isOn c.doen.isOn c.r2en.isOn c.clk74oen c.clk8oen := by
  unfold launchBits
  generalize c.coen = a; generalize c.rien.isOn = b; generalize c.dien.isOn = x; generalize c.doen.isOn = d
  generalize c.r2en.isOn = e; generalize c.clk74oen = f; generalize c.clk8oen = g
  revert a b x d e f g; decide

/-- The flags of an event are none of it. -/
theorem core_setFlags (e : EventKind) (s : State) : coreOf (setFlags e s) = coreOf s := by
  cases e <;> first | rfl | (rename_i p; cases p <;> rfl)

/-- A halt of both engines. -/
theorem Consistent.haltData {s : State} (hs : Consistent s) : Consistent (haltData s) := by
  obtain ⟨h1, h2, h3, h4, h5, h6, h7, h8⟩ := hs
  refine ⟨?_, ?_, ?_, ?_, ?_, ?_, ?_, ?_⟩
  · simp only [LegalSet, legalLaunch_eq, haltData_ctl, Held.blur_isOn] at h1 ⊢
    revert h1
    generalize s.ctl.coen = a; generalize s.ctl.rien.isOn = b; generalize s.ctl.dien.isOn = x; generalize
        s.ctl.doen.isOn = d
    generalize s.ctl.r2en.isOn = e; generalize s.ctl.clk74oen = f; generalize s.ctl.clk8oen = g
    revert a b x d e f g; decide
  · simp [LaunchKnown]
  · simp [CountOk]
  · simp [PhaseOk]
  · simp [BusyOk]
  · simp [HaltOk]
  · simp [BlocksOk]
  · simpa [ResetOk] using h8

/-- The loss of the sequencer's status, by a halt of the engine on a response timeout. -/
theorem Consistent.haltResponse {s : State} (hs : Consistent s) :
    Consistent (haltResponse s) ∧ Consistent (haltResponse (loseCount s)) := by
  obtain ⟨h1, h2, h3, h4, h5, h6, h7, h8⟩ := hs
  have hl : legalLaunch (launchBits (Machine.haltResponse s).ctl) = true := by
    simp only [LegalSet, legalLaunch_eq, haltResponse_ctl] at h1 ⊢
    revert h1
    show _ → legalB s.ctl.coen false false false false s.ctl.clk74oen s.ctl.clk8oen = true
    generalize s.ctl.coen = a; generalize s.ctl.rien.isOn = b; generalize s.ctl.dien.isOn = x; generalize
        s.ctl.doen.isOn = d
    generalize s.ctl.r2en.isOn = e; generalize s.ctl.clk74oen = f; generalize s.ctl.clk8oen = g
    revert a b x d e f g; decide
  constructor
  · refine ⟨hl, by simp [LaunchKnown], ?_, by simp [PhaseOk], by simp [BusyOk], by simp [HaltOk], by simp [BlocksOk],
      by simpa [ResetOk] using h8⟩
    simp only [CountOk] at h3 ⊢
    intro hd
    rcases h3 hd with h | h | h
    · exact .inl h
    · exact .inr (.inl ⟨h.1, by simp⟩)
    · exact .inr (.inr h)
  · exact ⟨hl, by simp [LaunchKnown], fun _ => .inr (.inr ⟨rfl, rfl⟩), by simp [PhaseOk], by simp [BusyOk],
      by simp [HaltOk], by simp [BlocksOk], by simpa [ResetOk] using h8⟩

/-- An event. -/
theorem Consistent.raise {s : State} (e : EventKind) (hs : Consistent s) : Consistent (raise e s) := by
  have hf : Consistent (setFlags e s) := Consistent.congr (core_setFlags e s).symm hs
  unfold Machine.raise applyHalt
  cases e <;> simp only <;> first | exact hf | exact hf.haltData |
      (split <;> first | exact hf.haltData | exact hf.haltData.haltResponse.1 | exact hf.haltResponse.2 | exact hf)

/-- No reset is pending where the engine is ready, and so the phase is not `RESET`. -/
theorem Consistent.notReset {s : State} (hs : Consistent s) (he : EngineReady s) : s.eng.phase ≠ .reset := by
  intro h
  rcases hs.2.2.2.2.2.2.2.2 h with k | k
  · rw [he.2.2.2.1] at k; cases k
  · rw [he.2.2.2.2.1] at k; cases k

/-- The engine goes on after an operation without data. -/
theorem goOn_consistent {s t : State} (hs : Consistent s) (he : EngineReady s)
    (hp : nextPhase s.ctl ≠ .dataIn) (hp' : nextPhase s.ctl ≠ .dataOut)
    (hl : legalLaunch (launchBits t.ctl) = true)
    (hk : t.ctl.rien ≠ .any ∧ t.ctl.dien ≠ .any ∧ t.ctl.doen ≠ .any ∧ t.ctl.r2en ≠ .any)
    (hdi : t.ctl.dien = s.ctl.dien) (hdo : t.ctl.doen = s.ctl.doen) (hb : t.ctl.blkcnt = s.ctl.blkcnt)
    (hr : t.ctl.ctlrst = s.ctl.ctlrst) (hph : t.eng.phase = nextPhase t.ctl)
    (hrest : t.eng.halted = s.eng.halted ∧ t.eng.blocksLeft = s.eng.blocksLeft ∧ t.dma.halted = s.dma.halted ∧
      t.dmactl.dmabusy = s.dmactl.dmabusy ∧ t.bcnt = s.bcnt ∧ t.gctl.gctlrst = s.gctl.gctlrst ∧ t.blen = s.blen) :
    Consistent t := by
  have hz := hs.notReset he
  obtain ⟨h1, h2, h3, h4, h5, h6, h7, h8⟩ := hs
  obtain ⟨e1, e2, e3, e4, e5, e6⟩ := he
  obtain ⟨r1, r2, r3, r4, r5, r6, r7⟩ := hrest
  have hphase : s.eng.phase = nextPhase s.ctl := by
    rcases h4 e2 hz with h | ⟨_, h | h⟩
    · exact h
    · exact absurd h hp
    · exact absurd h hp'
  have hnr : ∀ c, nextPhase c ≠ .dataEnd ∧ nextPhase c ≠ .reset := by
    intro c; unfold nextPhase; repeat' split
    all_goals decide
  refine ⟨hl, fun _ => hk, ?_, ?_, ?_, ?_, ?_, ?_⟩
  · simp only [CountOk, blockLen, r1, r2, r3, r4, r5, r7] at h3 ⊢; exact h3
  · exact fun _ _ => .inl hph
  · simp only [BusyOk, r1, r2, r3, r4] at h5 ⊢
    intro a b _
    refine ⟨fun hbu => ?_, fun h => absurd (hph ▸ h) (hnr _).1⟩
    rcases (h5 a b hz).1 hbu with ⟨h | h, _⟩ | ⟨h, _⟩
    · exact absurd (hphase ▸ h) hp
    · exact absurd (hphase ▸ h) hp'
    · exact absurd (hphase ▸ h) (hnr _).1
  · simp only [HaltOk, r1, r3, hdi, hdo] at h6 ⊢; exact h6
  · simp only [BlocksOk, hdi, hdo, hb, hr] at h7 ⊢; exact h7
  · refine ⟨fun h => ?_, fun h => absurd (hph ▸ h) (hnr _).2⟩
    rw [hr, e4] at h; cases h

/-- `CLK74O`. -/
theorem step_clk74o {s t : State} (hs : Consistent s) (h : execClk74o s = .next t) : Consistent t := by
  unfold execClk74o at h
  split at h
  · rename_i hc
    simp only [Bool.and_eq_true, enabled_iff] at hc
    cases h
    have hn : nextPhase s.ctl = .clk74 := by simp [nextPhase, hc.2]
    have hk := hs.2.1 hc.1.2.1
    have hl := hs.1
    refine goOn_consistent hs hc.1 (by simp [hn]) (by simp [hn]) ?_ hk rfl rfl rfl rfl rfl ⟨rfl, rfl, rfl, rfl, rfl,
        rfl, rfl⟩
    simp only [LegalSet, legalLaunch_eq, State.goOn_ctl, hc.2] at hl ⊢
    revert hl
    generalize s.ctl.coen = a; generalize s.ctl.rien.isOn = b; generalize s.ctl.dien.isOn = x; generalize
        s.ctl.doen.isOn = d
    generalize s.ctl.r2en.isOn = e; generalize s.ctl.clk8oen = g
    revert a b x d e g; decide
  · cases h; exact hs

/-- `CLK8O`. -/
theorem step_clk8o {s t : State} (hs : Consistent s) (h : execClk8o s = .next t) : Consistent t := by
  unfold execClk8o at h
  split at h
  · rename_i hc
    simp only [Bool.and_eq_true, enabled_iff] at hc
    cases h
    have hk := hs.2.1 hc.1.2.1
    have hl := hs.1
    have hn : nextPhase s.ctl = .clk8 := by
      simp only [LegalSet, legalLaunch_eq, hc.2, legalB] at hl
      simp at hl
      simp [nextPhase, hc.2, hl]
    refine goOn_consistent hs hc.1 (by simp [hn]) (by simp [hn]) ?_ hk rfl rfl rfl rfl rfl ⟨rfl, rfl, rfl, rfl, rfl,
        rfl, rfl⟩
    simp only [LegalSet, legalLaunch_eq, State.goOn_ctl, hc.2] at hl ⊢
    revert hl
    generalize s.ctl.coen = a; generalize s.ctl.rien.isOn = b; generalize s.ctl.dien.isOn = x; generalize
        s.ctl.doen.isOn = d
    generalize s.ctl.r2en.isOn = e; generalize s.ctl.clk74oen = g
    revert a b x d e g; decide
  · cases h; exact hs

/-- The step `CO`. -/
theorem coStep_consistent {s : State} (hs : Consistent s) (hc : coEnabled s = true) : Consistent (coStep s) := by
  simp only [coEnabled, Bool.and_eq_true, enabled_iff, Bool.not_eq_true'] at hc
  have hk := hs.2.1 hc.1.1.2.1
  have hl := hs.1
  have hn : nextPhase s.ctl = .cmdOut := by simp [nextPhase, hc.1.2, hc.2]
  refine goOn_consistent hs hc.1.1 (by simp [hn]) (by simp [hn]) ?_ hk rfl rfl rfl rfl rfl ⟨rfl, rfl, rfl, rfl, rfl,
      rfl, rfl⟩
  simp only [LegalSet, legalLaunch_eq, coStep, State.goOn_ctl, hc.1.2] at hl ⊢
  revert hl
  generalize s.ctl.clk8oen = a; generalize s.ctl.rien.isOn = b; generalize s.ctl.dien.isOn = x; generalize
      s.ctl.doen.isOn = d
  generalize s.ctl.r2en.isOn = e; generalize s.ctl.clk74oen = g
  revert a b x d e g; decide

/-- `CO`. -/
theorem step_co {s t : State} (hs : Consistent s) (h : execCo s = .next t) : Consistent t := by
  unfold execCo at h
  split at h
  · cases h; exact coStep_consistent hs ‹_›
  · cases h; exact hs

/-- A short response was asked for. -/
theorem core_ask48 (s : State) : coreOf (tookResp48 s) = coreOf s := by simp [coreOf]

/-- A long response was asked for. -/
theorem core_ask136 (s : State) : coreOf (tookResp136 s) = coreOf s := by simp [coreOf]

/-- No response. -/
theorem noResponse_consistent {s : State} (hs : Consistent s) : Consistent (noResponse s) := by
  unfold noResponse
  split
  · exact Consistent.raise _ (Consistent.congr (s := s) rfl hs)
  · exact Consistent.congr (s := s) rfl hs

/-- A response was taken. -/
theorem resp_consistent {s u : State} (ok : Bool) (hs : Consistent s) (he : EngineReady s)
    (hp : nextPhase s.ctl ≠ .dataIn) (hp' : nextPhase s.ctl ≠ .dataOut)
    (hl : legalLaunch (launchBits u.ctl) = true)
    (hk : u.ctl.rien ≠ .any ∧ u.ctl.dien ≠ .any ∧ u.ctl.doen ≠ .any ∧ u.ctl.r2en ≠ .any)
    (hdi : u.ctl.dien = s.ctl.dien) (hdo : u.ctl.doen = s.ctl.doen) (hb : u.ctl.blkcnt = s.ctl.blkcnt)
    (hr : u.ctl.ctlrst = s.ctl.ctlrst)
    (hrest : u.eng = s.eng ∧ u.dma.halted = s.dma.halted ∧
      u.dmactl.dmabusy = s.dmactl.dmabusy ∧ u.bcnt = s.bcnt ∧ u.gctl.gctlrst = s.gctl.gctlrst ∧ u.blen = s.blen) :
    Consistent (afterResponse (judgeResponse ok u)) := by
  obtain ⟨r1, r3, r4, r5, r6, r7⟩ := hrest
  have hgo : ∀ v : State, coreOf v = coreOf u → Consistent v.goOn := by
    intro v hv
    simp only [coreOf, Prod.mk.injEq] at hv
    obtain ⟨c1, c2, c3, c4, c5, c6, c7, c8, c9⟩ := hv
    refine goOn_consistent hs he hp hp' ?_ ?_ ?_ ?_ ?_ ?_ rfl ?_
    · simpa [c1] using hl
    · simpa [c1] using hk
    · simpa [c1] using hdi
    · simpa [c1] using hdo
    · simpa [c1] using hb
    · simpa [c1] using hr
    · simp [c3, c4, c5, c6, c7, c8, c9, r1, r3, r4, r5, r6, r7]
  have hh : ∀ v : State, v.eng.halted = u.eng.halted → afterResponse v = v.goOn := by
    intro v hv
    simp [afterResponse, hv, r1, he.2.1]
  cases ok with
  | true =>
    simp only [judgeResponse, if_true]
    rw [hh (recordCrc7 true u) rfl]; exact hgo _ rfl
  | false =>
    simp only [judgeResponse, Bool.false_eq_true, if_false]
    cases hd : dataPending (recordCrc7 false u) with
    | false => rw [raise_crc_nodata hd, hh (setFlags .responseCrc (recordCrc7 false u)) rfl]; exact hgo _ rfl
    | true =>
      rw [raise_crc_data hd]
      have : afterResponse (haltData (setFlags .responseCrc (recordCrc7 false u)))
          = haltData (setFlags .responseCrc (recordCrc7 false u)) := by simp [afterResponse]
      rw [this]
      -- consistency of u itself, up to the phase: use goOn'd version
      have := (hgo u rfl).haltData
      refine ⟨?_, ?_, ?_, ?_, ?_, ?_, ?_, ?_⟩
      · have q := this.1
        simpa [LegalSet, setFlags] using q
      · simp [LaunchKnown]
      · simp [CountOk]
      · simp [PhaseOk]
      · simp [BusyOk]
      · simp [HaltOk]
      · simp [BlocksOk]
      · have := hs.2.2.2.2.2.2.2
        simpa [ResetOk, setFlags, r1, hr, r6] using this

/-- `RI`. -/
theorem step_ri {s t : State} (hs : Consistent s) (h : execRi s = .next t) : Consistent t := by
  unfold execRi at h
  split at h
  · rename_i hc
    simp only [riEnabled, Bool.and_eq_true, enabled_iff, Bool.not_eq_true'] at hc
    obtain ⟨⟨⟨he, hri⟩, hco⟩, h74⟩ := hc
    have hs' : Consistent (tookResp48 s) := Consistent.congr (core_ask48 s).symm hs
    have he' : EngineReady (tookResp48 s) := by simpa [EngineReady] using he
    split at h
    · cases h
      rename_i f hf
      have hn : nextPhase s.ctl = .respIn := by simp [nextPhase, hco, h74, hri]
      have hk := hs.2.1 he.2.1
      have hl := hs.1
      refine resp_consistent _ hs' he' (by simp [hn]) (by simp [hn]) ?_ ?_ rfl rfl rfl rfl ?_
      · simp only [LegalSet, legalLaunch_eq, tookResp48_ctl] at hl ⊢
        rw [hri, hco, h74] at hl
        simp only [hco, h74]
        revert hl
        generalize s.ctl.clk8oen = a; generalize s.ctl.dien.isOn = x; generalize s.ctl.doen.isOn = d
        generalize s.ctl.r2en.isOn = e
        revert a x d e; decide
      · simpa using ⟨hk.2.1, hk.2.2.1, hk.2.2.2⟩
      · exact ⟨rfl, rfl, rfl, rfl, rfl, rfl⟩
    · cases h; exact noResponse_consistent hs'
  · cases h; exact hs

/-- `R2I`. -/
theorem step_r2i {s t : State} (hs : Consistent s) (h : execR2i s = .next t) : Consistent t := by
  unfold execR2i at h
  split at h
  · rename_i hc
    simp only [r2iEnabled, Bool.and_eq_true, enabled_iff, Bool.not_eq_true'] at hc
    obtain ⟨⟨⟨he, hri⟩, hco⟩, h74⟩ := hc
    have hs' : Consistent (tookResp136 s) := Consistent.congr (core_ask136 s).symm hs
    have he' : EngineReady (tookResp136 s) := by simpa [EngineReady] using he
    split at h
    · cases h
      rename_i f hf
      have hk := hs.2.1 he.2.1
      have hl := hs.1
      have hroff : s.ctl.rien.isOn = false := by
        simp only [LegalSet, legalLaunch_eq] at hl
        rw [hri, hco, h74] at hl
        revert hl
        generalize s.ctl.clk8oen = a; generalize s.ctl.dien.isOn = x; generalize s.ctl.doen.isOn = d
        generalize s.ctl.rien.isOn = e
        revert a x d e; decide
      have hn : nextPhase s.ctl = .resp2In := by simp [nextPhase, hco, h74, hri, hroff]
      refine resp_consistent _ hs' he' (by simp [hn]) (by simp [hn]) ?_ ?_ rfl rfl rfl rfl ?_
      · simp only [LegalSet, legalLaunch_eq, tookResp136_ctl] at hl ⊢
        rw [hri, hco, h74] at hl
        simp only [hco, h74]
        revert hl
        generalize s.ctl.clk8oen = a; generalize s.ctl.dien.isOn = x; generalize s.ctl.doen.isOn = d
        generalize s.ctl.rien.isOn = e
        revert a x d e; decide
      · simpa using ⟨hk.1, hk.2.1, hk.2.2.1⟩
      · exact ⟨rfl, rfl, rfl, rfl, rfl, rfl⟩
    · cases h; exact noResponse_consistent hs'
  · cases h; exact hs

/-- DMA accesses. -/
theorem Moved.core {st : Bool} {s u : State} (h : Moved st s u) : coreOf u = coreOf s := by
  have := h.rest
  rw [this]
  simp [coreOf, h.halted]

/-- A part of a step that ended with an event. -/
theorem Flow.Spec.consistent_stop {α} {st : Bool} {s u : State} {f : Flow α} (hs : Consistent s)
    (h : Flow.Spec st s f) (hf : f = .stop u) : Consistent u := by
  subst hf
  obtain ⟨e, v, hm, rfl, _⟩ := h
  exact Consistent.raise e (Consistent.congr hm.core.symm hs)

/-- The fixed order never gives the end of a data phase, nor a reset. -/
theorem np_ne (c : Ctl) : nextPhase c ≠ .dataEnd ∧ nextPhase c ≠ .reset := by
    unfold nextPhase; repeat' split
    all_goals decide

/-- The start of a data phase. -/
theorem dstart_consistent {s : State} (hs : Consistent s) (hd : DataReady s)
    (hp : s.eng.phase = .dataIn ∨ s.eng.phase = .dataOut) : Consistent (dstart s) := by
  have hnz := hs.notReset hd.1
  obtain ⟨h1, h2, h3, h4, h5, h6, h7, h8⟩ := hs
  obtain ⟨⟨e1, e2, e3, e4, e5, e6⟩, d1, d2, d3⟩ := hd
  have hdh : (dstart s).dma.halted = false := by simp only [dstart]; split <;> exact d2
  refine ⟨h1, h2, ?_, ?_, ?_, ?_, h7, h8⟩
  · intro _
    exact .inr (.inl ⟨rfl, fun _ => rfl⟩)
  · exact h4
  · intro a b c
    refine ⟨fun _ => .inl ⟨hp, ?_⟩, fun _ => rfl⟩
    have hne : s.ctl.blkcnt ≠ 0#8 := by
      refine h7 e4 ?_
      have hk := h2 e2
      rcases h4 e2 hnz with hq | ⟨hq, _⟩
      · rw [hq] at hp
        rcases hp with hp | hp
        · refine .inl (isOn_eq ?_)
          unfold nextPhase at hp
          repeat' split at hp
          all_goals first | assumption | cases hp
        · refine .inr (isOn_eq ?_)
          unfold nextPhase at hp
          repeat' split at hp
          all_goals first | assumption | cases hp
      · rw [hq] at hp; rcases hp with hp | hp <;> cases hp
    show 0 < s.ctl.blkcnt.toNat
    rcases Nat.eq_zero_or_pos s.ctl.blkcnt.toNat with h | h
    · exact absurd (BitVec.eq_of_toNat_eq (by simpa using h)) hne
    · exact h
  · intro a b
    rw [hdh] at b; cases b

/-- A block has been moved. -/
theorem blockMoved_consistent {s : State} (after : State → State) (hafter : ∀ x, coreOf (after x) = coreOf x)
    (hs : Consistent s) (hd : DataReady s) (hp : s.eng.phase = .dataIn ∨ s.eng.phase = .dataOut)
    (hb : s.dmactl.dmabusy = .known true) : Consistent (blockMoved after s) := by
  have hnz := hs.notReset hd.1
  obtain ⟨h1, h2, h3, h4, h5, h6, h7, h8⟩ := hs
  obtain ⟨⟨e1, e2, e3, e4, e5, e6⟩, d1, d2, d3⟩ := hd
  have hpos : 0 < s.eng.blocksLeft := by
    rcases (h5 e2 d2 hnz).1 hb with ⟨_, h⟩ | ⟨h, _⟩
    · exact h
    · rw [h] at hp; rcases hp with hp | hp <;> cases hp
  have hphase : s.eng.phase = nextPhase s.ctl := by
    rcases h4 e2 hnz with h | ⟨h, _⟩
    · exact h
    · rw [h] at hp; rcases hp with hp | hp <;> cases hp
  have hcnt : s.bcnt = .known (BitVec.ofNat 26 (s.eng.blocksLeft * blockLen s)) := by
    rcases h3 d2 with h | h | h
    · rw [hb] at h; cases h.1
    · exact h.2 e2
    · rw [hb] at h; cases h.1
  have hnew : bcntNow s - BitVec.ofNat 26 (blockLen s) = BitVec.ofNat 26 ((s.eng.blocksLeft - 1) * blockLen s) := by
    have : bcntNow s = BitVec.ofNat 26 (s.eng.blocksLeft * blockLen s) := by simp [bcntNow, hcnt, Held.pick]
    rw [this]
    obtain ⟨n, hn⟩ : ∃ n, s.eng.blocksLeft = n + 1 := ⟨s.eng.blocksLeft - 1, by omega⟩
    rw [hn]
    simp [Nat.add_mul, BitVec.ofNat_add]
  simp only [blockMoved]
  split
  · rename_i hz
    refine ⟨h1, h2, ?_, ?_, ?_, ?_, h7, ?_⟩
    · intro _; exact .inr (.inl ⟨hb, fun _ => by
        show Held.known _ = _
        rw [hnew]; rfl⟩)
    · intro _ _; exact .inr ⟨rfl, by rw [hphase] at hp; exact hp⟩
    · intro _ _ _; exact ⟨fun _ => .inr ⟨rfl, hz⟩, fun _ => hb⟩
    · exact h6
    · refine ⟨fun h => ?_, fun h => by cases (show Phase.dataEnd = Phase.reset from h)⟩
      rw [show s.ctl.ctlrst = true from h] at e4; cases e4
  · rename_i hz
    refine Consistent.congr (hafter _).symm ?_
    refine ⟨h1, h2, ?_, h4, ?_, h6, h7, h8⟩
    · intro _; exact .inr (.inl ⟨hb, fun _ => by
        show Held.known _ = _
        rw [hnew]; rfl⟩)
    · intro _ _ _
      refine ⟨fun _ => .inl ⟨hp, by show 0 < s.eng.blocksLeft - 1; have : s.eng.blocksLeft - 1 ≠ 0 := hz; omega⟩,
          fun h => ?_⟩
      rw [show s.eng.phase = .dataEnd from h] at hp
      rcases hp with hp | hp <;> cases hp

/-- The conditions of a data operation after DMA accesses. -/
theorem moved_ready {st : Bool} {s u : State} (h : Moved st s u) (hd : DataReady s) : DataReady u := by
  obtain ⟨⟨e1, e2, e3, e4, e5, e6⟩, d1, d2, d3⟩ := hd
  have hr := h.rest
  have hh := h.halted
  rw [hr]
  refine ⟨⟨e1, e2, e3, e4, e5, e6⟩, d1, ?_, d3⟩
  exact hh.trans d2

/-- A block of `DI`. -/
theorem diBlock_consistent {s t : State} (hs : Consistent s) (hd : DataReady s) (hp : s.eng.phase = .dataIn)
    (hb : s.dmactl.dmabusy = .known true)
    (h : diBlock s = .next t) : Consistent t := by
  have hs' : Consistent (tookBlock s) := Consistent.congr (by simp [coreOf]) hs
  unfold diBlock at h
  split at h
  · rename_i b hbk
    unfold diFrame at h
    simp only at h
    generalize hok : (b.crcs == lineCrcs (tookBlock s).ctl.dbw b.bytes) = ok at h
    have hs2 : Consistent (recordCrc16 ok ((tookBlock s).log (.blockIn (selPort (tookBlock s))
        (blockIndex (tookBlock s)) b.bytes))) :=
      Consistent.congr (s := tookBlock s) rfl hs'
    have hd2 : DataReady (recordCrc16 ok ((tookBlock s).log (.blockIn (selPort (tookBlock s))
        (blockIndex (tookBlock s)) b.bytes))) := by simpa [DataReady, EngineReady] using hd
    have hsp := storeBlock_spec b.bytes (recordCrc16 ok ((tookBlock s).log (.blockIn (selPort (tookBlock s))
        (blockIndex (tookBlock s)) b.bytes)))
    split at h
    · split at h
      · rename_i u hu
        rw [hu] at hsp
        cases h
        have hm : Moved _ _ _ := hsp
        refine blockMoved_consistent id (fun _ => rfl) (Consistent.congr hm.core.symm hs2) (moved_ready hm hd2) ?_ ?_
        · left; rw [hm.rest]; simpa using hp
        · rw [hm.rest]; simpa using hb
      · rename_i u hu
        cases h
        exact Flow.Spec.consistent_stop hs2 hsp hu
      · cases h
    · cases h
      exact Consistent.raise _ hs2
  · split at h
    · cases h; exact Consistent.raise _ (Consistent.congr (s := tookBlock s) rfl hs')
    · cases h; exact Consistent.congr (s := tookBlock s) rfl hs'

/-- A data operation is complete. -/
theorem dataDone_consistent {s u : State} (hs : Consistent s) (hd : DataReady s) (hph : s.eng.phase = .dataEnd)
    (hl : legalLaunch (launchBits u.ctl) = true)
    (hk : u.ctl.rien ≠ .any ∧ u.ctl.dien ≠ .any ∧ u.ctl.doen ≠ .any ∧ u.ctl.r2en ≠ .any)
    (hdi : u.ctl.dien = .known false) (hdo : u.ctl.doen = .known false) (hcr : u.ctl.ctlrst = s.ctl.ctlrst)
    (hrest : u.eng.halted = s.eng.halted ∧ u.eng.blocksLeft = s.eng.blocksLeft ∧ u.dma.halted = s.dma.halted ∧
      u.bcnt = s.bcnt ∧ u.blen = s.blen ∧ u.gctl = s.gctl) :
    Consistent (dataDone u) := by
  have hnz := hs.notReset hd.1
  obtain ⟨h1, h2, h3, h4, h5, h6, h7, h8⟩ := hs
  obtain ⟨⟨e1, e2, e3, e4, e5, e6⟩, d1, d2, d3⟩ := hd
  obtain ⟨r1, r2, r3, r4, r5, r6⟩ := hrest
  have hbusy := (h5 e2 d2 hnz).2 hph
  have hz : s.eng.blocksLeft = 0 := by
    rcases (h5 e2 d2 hnz).1 hbusy with ⟨h, _⟩ | ⟨_, h⟩
    · rw [hph] at h; rcases h with h | h <;> cases h
    · exact h
  have hcnt : s.bcnt = .known 0#26 := by
    rcases h3 d2 with h | h | h
    · exact h.2
    · rw [h.2 e2, hz]; simp
    · rw [hbusy] at h; cases h.1
  refine ⟨hl, fun _ => hk, ?_, ?_, ?_, ?_, ?_, ?_⟩
  · intro _; exact .inl ⟨rfl, by show u.bcnt = _; rw [r4, hcnt]⟩
  · intro _ _; exact .inl rfl
  · intro _ _ _; exact ⟨fun h => (by cases (show Held.known false = Held.known true from h)),
        fun h => absurd h (np_ne _).1⟩
  · intro _ _; exact ⟨hdi, hdo⟩
  · intro _ h
    rcases h with h | h
    · rw [show u.ctl.dien = _ from h] at hdi; cases hdi
    · rw [show u.ctl.doen = _ from h] at hdo; cases hdo
  · refine ⟨fun h => ?_, fun h => absurd h (np_ne _).2⟩
    rw [show u.ctl.ctlrst = true from h, e4] at hcr; cases hcr

/-- `DI`. -/
theorem step_di {s t : State} (hs : Consistent s) (h : execDi s = .next t) : Consistent t := by
  unfold execDi at h
  split at h
  · cases h; exact hs
  · rename_i hc
    have hd : DataReady s := (dataEnabled_iff s).1 (by simpa using hc)
    split at h
    · rename_i hph
      split at h
      · rename_i hon
        cases h
        have hk := hs.2.1 hd.1.2.1
        have hl := hs.1
        have hdo : s.ctl.doen.isOn = false := by
          simp only [LegalSet, legalLaunch_eq] at hl
          rw [hon] at hl
          revert hl
          generalize s.ctl.coen = a; generalize s.ctl.rien.isOn = b; generalize s.ctl.clk74oen = x; generalize
              s.ctl.doen.isOn = d
          generalize s.ctl.r2en.isOn = e; generalize s.ctl.clk8oen = g
          revert a b x d e g; decide
        refine dataDone_consistent hs hd hph ?_ ?_ rfl (isOn_false hdo hk.2.2.1) rfl
            ⟨rfl, rfl, rfl, rfl, rfl, rfl⟩
        · simp only [LegalSet, legalLaunch_eq] at hl ⊢
          rw [hon] at hl
          revert hl
          show _ → legalB s.ctl.coen s.ctl.rien.isOn false s.ctl.doen.isOn s.ctl.r2en.isOn s.ctl.clk74oen
              s.ctl.clk8oen = true
          generalize s.ctl.coen = a; generalize s.ctl.rien.isOn = b; generalize s.ctl.clk74oen = x; generalize
              s.ctl.doen.isOn = d
          generalize s.ctl.r2en.isOn = e; generalize s.ctl.clk8oen = g
          revert a b x d e g; decide
        · exact ⟨hk.1, by simp, hk.2.2.1, hk.2.2.2⟩
      · cases h; exact hs
    · split at h
      · cases h; exact hs
      · rename_i _ hph
        have hph : s.eng.phase = .dataIn := by simpa using hph
        split at h
        · cases h; exact dstart_consistent hs hd (.inl hph)
        · rename_i hb
          replace hb : s.dmactl.dmabusy = .known true := isOn_eq (by simpa using hb)
          split at h
          · cases h; exact hs
          · exact diBlock_consistent hs hd hph hb h

/-- The status token. -/
theorem doStatus_consistent {s : State} (hs : Consistent s) (hd : DataReady s) (hp : s.eng.phase = .dataOut)
    (hb : s.dmactl.dmabusy = .known true) : Consistent (doStatus s) := by
  have hs' : Consistent (tookStatus s) := Consistent.congr (by simp [coreOf]) hs
  unfold doStatus
  simp only
  split
  · exact Consistent.congr (s := tookStatus s) rfl hs'
  · split
    · exact Consistent.raise _ (Consistent.congr (s := tookStatus s) rfl hs')
    · refine blockMoved_consistent _ (fun _ => rfl) (Consistent.congr (s := tookStatus s) rfl hs') ?_ ?_ ?_
      · simpa [DataReady, EngineReady] using hd
      · right; simpa using hp
      · simpa using hb

/-- `DO`. -/
theorem step_dout {s t : State} (hs : Consistent s) (h : execDout s = .next t) : Consistent t := by
  unfold execDout at h
  split at h
  · cases h; exact hs
  · rename_i hc
    have hd : DataReady s := (dataEnabled_iff s).1 (by simpa using hc)
    split at h
    · rename_i hph
      split at h
      · rename_i hon
        cases h
        have hk := hs.2.1 hd.1.2.1
        have hl := hs.1
        have hdo : s.ctl.dien.isOn = false := by
          simp only [LegalSet, legalLaunch_eq] at hl
          rw [hon] at hl
          revert hl
          generalize s.ctl.coen = a; generalize s.ctl.rien.isOn = b; generalize s.ctl.clk74oen = x; generalize
              s.ctl.dien.isOn = d
          generalize s.ctl.r2en.isOn = e; generalize s.ctl.clk8oen = g
          revert a b x d e g; decide
        refine dataDone_consistent hs hd hph ?_ ?_ (isOn_false hdo hk.2.1) rfl rfl
            ⟨rfl, rfl, rfl, rfl, rfl, rfl⟩
        · simp only [LegalSet, legalLaunch_eq] at hl ⊢
          rw [hon] at hl
          revert hl
          show _ → legalB s.ctl.coen s.ctl.rien.isOn s.ctl.dien.isOn false s.ctl.r2en.isOn s.ctl.clk74oen
              s.ctl.clk8oen = true
          generalize s.ctl.coen = a; generalize s.ctl.rien.isOn = b; generalize s.ctl.clk74oen = x; generalize
              s.ctl.dien.isOn = d
          generalize s.ctl.r2en.isOn = e; generalize s.ctl.clk8oen = g
          revert a b x d e g; decide
        · exact ⟨hk.1, hk.2.1, by simp, hk.2.2.2⟩
      · cases h; exact hs
    · split at h
      · cases h; exact hs
      · rename_i _ hph
        have hph : s.eng.phase = .dataOut := by simpa using hph
        split at h
        · cases h; exact dstart_consistent hs hd (.inr hph)
        · rename_i hb
          replace hb : s.dmactl.dmabusy = .known true := isOn_eq (by simpa using hb)
          unfold doInBlock at h
          split at h
          · split at h
            · cases h; exact hs
            · unfold doBlock at h
              have hsp := loadBlock_spec (st := false) (blockLen s / 4) s
              split at h
              · rename_i d t hl
                rw [hl] at hsp
                cases h
                have hm : Moved _ _ _ := hsp
                exact Consistent.congr (s := t) rfl (Consistent.congr hm.core.symm hs)
              · rename_i u hu
                cases h
                exact Flow.Spec.consistent_stop hs hsp hu
              · cases h
          · cases h; exact doStatus_consistent hs hd hph hb
          · cases h
            unfold doReady; simp only; split <;> exact Consistent.congr (by simp [coreOf]) hs

/-- The empty launch set is legal. -/
theorem noLaunch_legal (c : Ctl) : legalLaunch (launchBits c.noLaunch) = true := by
  simp only [legalLaunch_eq, Ctl.noLaunch]; decide

/-- With no launch bit the engine is idle. -/
theorem np_noLaunch (c : Ctl) : nextPhase c.noLaunch = .idle := by simp [nextPhase, Ctl.noLaunch, Held.isOn]

/-- `CTLRST`. -/
theorem step_ctlrst {s t : State} (hs : Consistent s) (h : execCtlrst s = .next t) : Consistent t := by
  unfold execCtlrst at h
  split at h
  · cases h
    obtain ⟨h1, h2, h3, h4, h5, h6, h7, h8⟩ := hs
    refine ⟨noLaunch_legal s.ctl, ?_, ?_, ?_, ?_, ?_, ?_, ?_⟩
    · intro _; simp [Ctl.noLaunch]
    · intro hh
      replace hh : (s.dma.halted || s.dmactl.dmabusy.isOn) = false := hh
      rw [Bool.or_eq_false_iff] at hh
      rcases h3 hh.1 with k | k | k
      · left; simp [k.1, k.2, Held.isOn]
      · rw [k.1] at hh; cases hh.2
      · right; right; simp [k.1, k.2, Held.isOn]
    · intro _ _; left; exact (np_noLaunch s.ctl).symm
    · intro _ hh _
      replace hh : (s.dma.halted || s.dmactl.dmabusy.isOn) = false := hh
      rw [Bool.or_eq_false_iff] at hh
      refine ⟨fun hb => ?_, fun hp => (by cases (show Phase.idle = Phase.dataEnd from hp))⟩
      replace hb : (if !s.dma.halted && s.dmactl.dmabusy.isOn then Held.any
        else s.dmactl.dmabusy) = Held.known true := hb
      rw [hh.1, hh.2] at hb
      rw [show s.dmactl.dmabusy = .known true from hb] at hh
      cases hh.2
    · intro _ _; exact ⟨rfl, rfl⟩
    · intro _ hh; rcases hh with hh | hh <;> cases (show Held.known false = Held.known true from hh)
    · exact ⟨fun hh => (by cases (show false = true from hh)), fun hh => (by cases (show Phase.idle = Phase.reset from hh))⟩
  · cases h; exact hs

/-- `GCTLRST`. -/
theorem step_gctlrst {s t : State} (hs : Consistent s) (h : execGctlrst s = .next t) : Consistent t := by
  unfold execGctlrst at h
  split at h
  · cases h
    simp only
    refine ⟨?_, ?_, ?_, ?_, ?_, ?_, ?_, ?_⟩
    · exact noLaunch_legal s.ctl
    · intro _; simp [Ctl.noLaunch]
    · intro _; exact .inl ⟨rfl, rfl⟩
    · intro _ _; left; exact (np_noLaunch s.ctl).symm
    · intro _ _ _
      exact ⟨fun hb => (by cases (show Held.known false = Held.known true from hb)),
          fun hp => (by cases (show Phase.idle = Phase.dataEnd from hp))⟩
    · intro _ _; exact ⟨rfl, rfl⟩
    · intro _ hh; rcases hh with hh | hh <;> cases (show Held.known false = Held.known true from hh)
    · exact ⟨fun hh => (by cases (show false = true from hh)), fun hh => (by cases (show Phase.idle = Phase.reset from hh))⟩
  · cases h; exact hs

/-- Whether the engine is in a data phase. -/
theorem dataPhase_iff (s : State)
    : dataPhase s = true ↔ s.eng.phase = .dataIn ∨ s.eng.phase = .dataOut ∨ s.eng.phase = .dataEnd := by
  simp [dataPhase, or_assoc]

/-- `DMARST`. -/
theorem step_dmarst {s t : State} (hs : Consistent s) (h : execDmarst s = .next t) : Consistent t := by
  unfold execDmarst at h
  split at h
  · cases h
    obtain ⟨h1, h2, h3, h4, h5, h6, h7, h8⟩ := hs
    simp only
    split
    · rename_i hw
      have hl : legalLaunch (launchBits (stopEngine s).ctl) = true := by
        simp only [LegalSet, legalLaunch_eq, stopEngine_ctl] at h1 ⊢
        revert h1
        show _ → legalB s.ctl.coen s.ctl.rien.isOn false false s.ctl.r2en.isOn s.ctl.clk74oen s.ctl.clk8oen = true
        generalize s.ctl.coen = a; generalize s.ctl.rien.isOn = b; generalize s.ctl.dien.isOn = x; generalize
            s.ctl.doen.isOn = d
        generalize s.ctl.r2en.isOn = e; generalize s.ctl.clk74oen = f; generalize s.ctl.clk8oen = g
        revert a b x d e f g; decide
      refine ⟨hl, ?_, ?_, ?_, ?_, ?_, ?_, h8⟩
      · intro hh; cases (show true = false from hh)
      · intro _; exact .inl ⟨rfl, rfl⟩
      · intro hh; cases (show true = false from hh)
      · intro hh; cases (show true = false from hh)
      · intro hh; cases (show true = false from hh)
      · intro _ hh; rcases hh with hh | hh <;> cases (show Held.any = Held.known true from hh)
    · rename_i hw
      refine ⟨h1, h2, ?_, h4, ?_, ?_, h7, h8⟩
      · intro _; exact .inl ⟨rfl, rfl⟩
      · intro ha _ _
        have ha : s.eng.halted = false := ha
        refine ⟨fun hb => (by cases (show Held.known false = Held.known true from hb)), fun hp => ?_⟩
        exfalso; apply hw
        have : s.eng.phase = .dataEnd := hp
        simp [dataPhase, this, ha]
      · intro _ hh; cases (show false = true from hh)
  · cases h; exact hs

/-! host -/

/-- A busy sequencer is in flight. -/
theorem inFlight_of_busy {s : State} (h : s.dmactl.dmabusy = .known true) : inFlight s = true := by
  simp [inFlight, seqBusy, busyNow, h, Held.pick, Held.isOn]

/-- A write of the fields of `CTL`. -/
theorem withFields_core (s : State) (w : Word) (hs : Consistent s)
    (hb : (s.ctl.dien = .known true ∨ s.ctl.doen = .known true)
    → s.ctl.ctlrst = false → s.ctl.blkcnt = w.extractLsb' 16 8) :
    Consistent { s with ctl := s.ctl.withFields w } := by
  obtain ⟨h1, h2, h3, h4, h5, h6, h7, h8⟩ := hs
  refine ⟨h1, h2, h3, h4, h5, h6, ?_, h8⟩
  intro a b
  have := h7 a b
  rw [hb b a] at this
  exact this

/-- The launch bits after a launch from a quiet engine. -/
theorem launch_bits (c : Ctl) (w : Word) (h0 : c.coen = false) (h5 : c.clk74oen = false) (h6 : c.clk8oen = false)
    (k1 : c.rien = .known false) (k2 : c.dien = .known false) (k3 : c.doen = .known false)
    (k4 : c.r2en = .known false) :
    launchBits (c.launch w) = w &&& 0x7F#32 := by
  apply BitVec.eq_of_getLsbD_eq
  intro j hj
  rw [launchBits_getLsbD _ hj]
  simp only [BitVec.getLsbD_and]
  have q : ∀ b : Bool, (if (b && !(Held.known false).isOn)
      = true then Held.known true else Held.known false).isOn = b := by decide
  simp only [Ctl.launch, h0, h5, h6, k1, k2, k3, k4, q]
  interval_cases j <;> simp

/-- What it means that nothing is in flight. -/
theorem inFlight_false {s : State} (h : inFlight s = false) : (ctlNow s &&& 0x407F#32 = 0#32)
    ∧ seqBusy s = false := by
  simpa [inFlight] using h

/-- A pending data operation is in flight. -/
theorem inFlight_of_data {s : State} (h : s.ctl.dien = .known true ∨ s.ctl.doen = .known true)
    : inFlight s = true := by
  by_contra hn
  have := ctlNow_mask s (inFlight_false (by simpa using hn)).1
  rcases h with h | h
  · have := this.2.2.2.2.2.1; rw [h] at this; cases this
  · have := this.2.2.2.2.2.2.1; rw [h] at this; cases this

/-- A word that changes no operand keeps the block count. -/
theorem operands_blkcnt {c : Ctl} {w : Word} (h : c.operandsDiffer w = false) : c.blkcnt = w.extractLsb' 16 8 := by
  simp [Ctl.operandsDiffer] at h; exact h.1.2

/-- A write of `CTL`. -/
theorem writeCtl_consistent {s : State} {w : Word} (hs : Consistent s) (hr : ctlRefusal w s = none)
    : Consistent (writeCtl w s) := by
  unfold writeCtl
  unfold ctlRefusal at hr
  simp only
  by_cases h14 : w.getLsbD 14 = true
  · simp only [h14, if_true]
    obtain ⟨h1, h2, h3, h4, h5, h6, h7, h8⟩ := hs
    refine ⟨h1, h2, h3, ?_, ?_, h6, ?_, ?_⟩
    · exact fun _ hh => absurd rfl hh
    · exact fun _ _ hh => absurd rfl hh
    · intro hh; cases (show true = false from hh)
    · exact ⟨fun _ => rfl, fun _ => .inl rfl⟩
  · have h14 : w.getLsbD 14 = false := by simpa using h14
    simp only [h14, Bool.false_eq_true, if_false] at hr ⊢
    split at hr
    · cases hr
    · rename_i hcl
      have hlg : legalLaunch w = true := by
        by_contra hn
        rw [Bool.not_eq_true] at hn
        simp [hn] at hr
      simp only [hlg, Bool.not_true, Bool.false_eq_true, if_false] at hr
      by_cases hq : requested w s ≠ 0#32
      · rw [if_pos hq] at hr ⊢
        unfold launchRefusal at hr
        by_cases hi : inFlight s = true
        · simp [hi] at hr
        · have hi : inFlight s = false := by simpa using hi
          simp only [hi, Bool.false_eq_true, if_false] at hr
          by_cases hpf : 2 ≤ (portField w).toNat
          · simp [hpf] at hr
          · simp only [hpf, if_false] at hr
            by_cases hh : s.eng.halted = true
            · simp [hh] at hr
            · have hh : s.eng.halted = false := by simpa using hh
              simp only [hh, Bool.false_eq_true, if_false] at hr
              obtain ⟨hm, hbz⟩ := inFlight_false (by simpa using hi)
              obtain ⟨m0, m5, m6, m14, m1, m2, m3, m4⟩ := ctlNow_mask s hm
              obtain ⟨h1, h2, h3, h4, h5, h6, h7, h8⟩ := hs
              have hk := h2 hh
              have k1 := isOn_false m1 hk.1
              have k2 := isOn_false m2 hk.2.1
              have k3 := isOn_false m3 hk.2.2.1
              have k4 := isOn_false m4 hk.2.2.2
              have hlegal : legalLaunch (launchBits ((s.ctl.withFields w).launch w)) = true := by
                rw [launch_bits (s.ctl.withFields w) w m0 m5 m6 k1 k2 k3 k4, legal_and]; exact hlg
              have hne : ∀ (x : Held Bool) (b : Bool), x ≠ .any → (if (b && !x.isOn)
                  = true then Held.known true else x) ≠ .any := by
                intro x b hx; split
                · simp
                · exact hx
              have hknown : ((s.ctl.withFields w).launch w).rien ≠ .any ∧ ((s.ctl.withFields w).launch w).dien ≠
                  .any ∧ ((s.ctl.withFields w).launch w).doen ≠ .any ∧ ((s.ctl.withFields w).launch w).r2en ≠ .any
                  :=
                ⟨hne _ _ hk.1, hne _ _ hk.2.1, hne _ _ hk.2.2.1, hne _ _ hk.2.2.2⟩
              have hdata : (w.getLsbD 2 = true ∨ w.getLsbD 3 = true)
                  → w.extractLsb' 16 8 ≠ 0#8 ∧ s.dma.halted = false := by
                intro hd
                have : (!(w.getLsbD 2 || w.getLsbD 3)) = false := by rcases hd with hd | hd <;> simp [hd]
                simp only [this, Bool.false_eq_true, if_false] at hr
                by_cases hz : w.extractLsb' 16 8 = 0#8
                · simp [hz] at hr
                · refine ⟨hz, ?_⟩
                  by_contra hdh
                  rw [if_neg hz, if_pos (by simpa using hdh)] at hr; cases hr
              have hd2 : ((s.ctl.withFields w).launch w).dien = .known true → w.getLsbD 2 = true := by
                intro hx
                have : (if (w.getLsbD 2 && !s.ctl.dien.isOn) = true then Held.known true else s.ctl.dien)
                    = .known true := hx
                rw [k2] at this
                by_contra hb
                rw [Bool.not_eq_true] at hb; rw [hb] at this; cases this
              have hd3 : ((s.ctl.withFields w).launch w).doen = .known true → w.getLsbD 3 = true := by
                intro hx
                have : (if (w.getLsbD 3 && !s.ctl.doen.isOn) = true then Held.known true else s.ctl.doen)
                    = .known true := hx
                rw [k3] at this
                by_contra hb
                rw [Bool.not_eq_true] at hb; rw [hb] at this; cases this
              have hHalt : s.dma.halted = true → ((s.ctl.withFields w).launch w).dien = .known false ∧
                  ((s.ctl.withFields w).launch w).doen = .known false := by
                intro hdh
                have n2 : w.getLsbD 2 = false := by
                  by_contra hb
                  have := (hdata (.inl (by simpa using hb))).2; rw [this] at hdh; cases hdh
                have n3 : w.getLsbD 3 = false := by
                  by_contra hb
                  have := (hdata (.inr (by simpa using hb))).2; rw [this] at hdh; cases hdh
                refine ⟨?_, ?_⟩
                · show (if (w.getLsbD 2 && !s.ctl.dien.isOn) = true then Held.known true else s.ctl.dien)
                      = .known false
                  rw [n2, k2]; rfl
                · show (if (w.getLsbD 3 && !s.ctl.doen.isOn) = true then Held.known true else s.ctl.doen)
                      = .known false
                  rw [n3, k3]; rfl
              have hBlocks : (((s.ctl.withFields w).launch w).dien = .known true ∨ ((s.ctl.withFields w).launch
                  w).doen = .known true) → ((s.ctl.withFields w).launch w).blkcnt ≠ 0#8 := by
                intro hx
                refine (hdata ?_).1
                rcases hx with hx | hx
                · exact .inl (hd2 hx)
                · exact .inr (hd3 hx)
              have hnb : s.dmactl.dmabusy ≠ .known true := by
                intro hb; simp [seqBusy, busyNow, hb, Held.pick, Held.isOn] at hbz
              have hnpi : nextPhase s.ctl = .idle := by
                simp [nextPhase, m0, m5, m6, m1, m2, m3, m4]
              split
              · refine ⟨hlegal, fun _ => hknown, h3, ?_, ?_, fun _ => hHalt, fun _ => hBlocks, ?_⟩
                · intro _ _; exact .inl rfl
                · intro _ _ _; exact ⟨fun hb => absurd hb hnb, fun hp => absurd hp (np_ne _).1⟩
                · refine ⟨fun hc => ?_, fun hp => absurd hp (np_ne _).2⟩
                  have := h8.1 hc
                  rename_i hidle; rw [hidle] at this; cases this
              · rename_i hidle
                -- the engine is not idle: a reset is pending, or it is halted
                refine ⟨hlegal, fun _ => hknown, h3, ?_, ?_, fun _ => hHalt, fun _ => hBlocks, ?_⟩
                · intro a b
                  exfalso
                  rcases h4 hh b with hx | ⟨_, hx⟩
                  · exact hidle (hx.trans hnpi)
                  · rw [hnpi] at hx; rcases hx with hx | hx <;> cases hx
                · intro a b c
                  exfalso
                  rcases h4 hh c with hx | ⟨_, hx⟩
                  · exact hidle (hx.trans hnpi)
                  · rw [hnpi] at hx; rcases hx with hx | hx <;> cases hx
                · exact h8
      · rw [if_neg hq] at hr ⊢
        refine withFields_core s w hs ?_
        intro hd _
        have hi := inFlight_of_data hd
        simp [hi] at hr
        exact operands_blkcnt hr

/-- A state with the same core. -/
theorem core_same_next {s t : State} (hs : Consistent s) (h : coreOf t = coreOf s)
    : Consistent t := Consistent.congr h.symm hs

/-- A write of `GCTL`. -/
theorem writeGctl_consistent {s : State} {w : Word} (hs : Consistent s) : Consistent (writeGctl w s) := by
  unfold writeGctl
  simp only
  split
  · rename_i hw
    obtain ⟨h1, h2, h3, h4, h5, h6, h7, h8⟩ := hs
    have hg : (s.gctl.gctlrst || w.getLsbD 0) = true := by simp_all
    exact ⟨h1, h2, h3, fun _ hh => absurd rfl hh, fun _ _ hh => absurd rfl hh, h6, h7, fun _ => rfl, fun _ => .inr hg⟩
  · rename_i hw
    have : (s.gctl.gctlrst || w.getLsbD 0) = s.gctl.gctlrst := by
      cases hg : s.gctl.gctlrst <;> simp_all
    rw [this]
    exact core_same_next hs rfl

/-- A write of a register. -/
theorem regWrite_consistent {s : State} {w : Word} {r : Reg} (hs : Consistent s) (hr : regWriteRefusal r w s = none)
    : Consistent (regWrite r w s) := by
  cases r <;> simp only [regWrite, regWriteRefusal] at hr ⊢
  case ctl => exact writeCtl_consistent hs hr
  case gctl => exact writeGctl_consistent hs
  case dmactl => exact core_same_next hs rfl
  case blen =>
    by_cases he : s.blen = w.setWidth 11
    · rw [← he]; exact hs
    · have hi : inFlight s = false := by
        by_contra hi; simp [he, hi] at hr
      obtain ⟨h1, h2, h3, h4, h5, h6, h7, h8⟩ := hs
      refine ⟨h1, h2, ?_, h4, h5, h6, h7, h8⟩
      intro hd
      rcases h3 hd with k | k | k
      · exact .inl k
      · rw [inFlight_of_busy k.1] at hi; cases hi
      · exact .inr (.inr k)
  all_goals exact hs

/-- The counter of draws advances. -/
theorem tick_consistent {s : State} (hs : Consistent s) : Consistent s.tick := core_same_next hs rfl

/-- `RD`. -/
theorem step_rd {off : Offset} {s t : State} (hs : Consistent s) (h : execRd off s = .next t) : Consistent t := by
  unfold execRd at h; split at h
  · cases h
  · cases h; exact core_same_next hs (core_reads (regOf off) s)

/-- A write at an offset is refused as the write of its register. -/
theorem writeRefusal_reg {off : Offset} {w : Word} {s : State} (h : writeRefusal off w s = none)
    : regWriteRefusal (regOf off) w s = none := by
  unfold writeRefusal at h; unfold regOf
  split at h
  · cases h
  · rename_i r hr; rw [hr]; exact h

/-- `WR`. -/
theorem step_wr {off : Offset} {w : Word} {s t : State} (hs : Consistent s) (h : execWr off w s = .next t)
    : Consistent t := by
  unfold execWr at h; split at h
  · cases h
  · rename_i hr; cases h; exact tick_consistent (regWrite_consistent hs (writeRefusal_reg hr))

/-- `SET` and `CLR`. -/
theorem step_modify {off : Offset} {f : Word → Word} {s t : State} (hs : Consistent s) (h : modify off f s = .next t)
    : Consistent t := by
  unfold modify at h; split at h
  · cases h
  · simp only at h
    split at h
    · cases h
    · rename_i hr; cases h; exact core_same_next (regWrite_consistent hs (writeRefusal_reg hr)) (core_reads _ _)

/-- `W1C`. -/
theorem step_w1c {r : W1cReg} {m : Word} {s t : State} (hs : Consistent s) (h : execW1c r m s = .next t)
    : Consistent t := by
  unfold execW1c at h; cases h; exact tick_consistent (core_same_next hs (core_clear _ _ _))

/-- A submission. -/
theorem submitted_consistent {word : Word → Word} {arg : Word} {s t : State} (hs : Consistent s)
    (h : submitted word arg s = .ok t) : Consistent t := by
  unfold submitted at h; split at h
  · cases h
  · rename_i h1
    simp only at h
    split at h
    · cases h
    · rename_i h2; cases h
      exact tick_consistent (regWrite_consistent (tick_consistent (regWrite_consistent hs h1)) h2)

/-- A command. -/
theorem step_command {word : Word → Word} {arg : Word} {s t : State} (hs : Consistent s)
    (h : command word arg s = .next t) : Consistent t := by
  unfold command at h; split at h
  · cases h
  · rename_i u hu
    have := submitted_consistent hs hu
    cases h
    split
    · exact coStep_consistent this ‹_›
    · exact this

/-- An event of the outside world other than the hardware reset. -/
theorem env_consistent {i : Input} {s : State} (hi : i ≠ .hardwareReset) (hs : Consistent s)
    : Consistent (applyInput i s) := by
  cases i with
  | cdDed p b => cases p <;> exact core_same_next hs rfl
  | cdGpio p b => cases p <;> exact core_same_next hs rfl
  | memStore a b => exact core_same_next hs (by unfold applyInput lend; simp only; split <;> rfl)
  | busError a f => exact core_same_next hs rfl
  | overlap a on => cases on <;> exact core_same_next hs rfl
  | hardwareReset => exact absurd rfl hi

/-- Taking an operation. -/
theorem fetch_core {tn : Turn} {s u : State} {i : Instr} (h : fetch tn s = .run i u) : coreOf u = coreOf s := by
  unfold fetch at h
  cases tn <;> simp only [fetchHost, fetchLaunch] at h
  · split at h
    · cases h
    · cases h
    · split at h
      · cases h; rfl
      · cases h
  all_goals first | (split at h <;> cases h; rfl) | cases h

end Sys2Proof.Machine
end

