-- ==== Sys2Proof/Laws/Crc.lean ====
section
/-!
SUPPORT. Steps and folds of the two CRC functions (rules R210 to R214).
-/

namespace Sys2Proof.Machine

/-- The CRC-7 register stays 0 over zero bits (rule R211). -/
theorem crc7_fold_zero (n : Nat) : (List.replicate n false).foldl crc7Step 0#7 = 0#7 := by
  induction n with
  | zero => rfl
  | succ n ih => rw [List.replicate_succ, List.foldl_cons, show crc7Step 0#7 false = 0#7 by decide]; exact ih

/-- One step of the CRC-7 register is linear. -/
theorem crc7Step_xor : ∀ (c d : BitVec 7) (a b : Bool), crc7Step (c ^^^ d) (xor a b)
    = crc7Step c a ^^^ crc7Step d b := by
  intro c d a b
  have : ∀ (x : BitVec 7) (p : Bool), crc7Step x p = (x <<< 1) ^^^ (if (x.getLsbD 6 ^^ p) then 0x09#7 else 0#7) := by
    intro x p; unfold crc7Step; split <;> simp
  rw [this, this, this]
  have hs : (c ^^^ d) <<< 1 = (c <<< 1) ^^^ (d <<< 1) := by
    apply BitVec.eq_of_getLsbD_eq; intro i hi
    by_cases h : i = 0
    · subst h; simp
    · simp [h, hi]
  rw [hs, BitVec.getLsbD_xor]
  cases c.getLsbD 6 <;> cases d.getLsbD 6 <;> cases a <;> cases b
  all_goals
    apply BitVec.eq_of_getLsbD_eq
    intro i hi
    simp only [BitVec.getLsbD_xor, BitVec.getLsbD_zero, Bool.xor_false, if_true,
      if_false, Bool.false_eq_true, bne_self_eq_false, Bool.xor_true, Bool.not_false]
  all_goals try cases (c <<< 1).getLsbD i <;> cases (d <<< 1).getLsbD i <;> cases (9#7).getLsbD i <;> rfl

/-- The CRC-7 register is linear over two sequences of one length. -/
theorem crc7_fold_xor : ∀ (a b : List Bool) (c d : BitVec 7), a.length = b.length →
    (List.zipWith xor a b).foldl crc7Step (c ^^^ d) = a.foldl crc7Step c ^^^ b.foldl crc7Step d := by
  intro a
  induction a with
  | nil => intro b c d h; cases b; rfl; cases h
  | cons x xs ih =>
    intro b c d h
    cases b with
    | nil => cases h
    | cons y ys =>
      simp only [List.zipWith_cons_cons, List.foldl_cons]
      rw [crc7Step_xor]; exact ih ys _ _ (by simpa using h)

/-- Shifting in its own value leaves the CRC-7 register 0, from every value. -/
theorem crc7_residue : ∀ c : BitVec 7, (bitsMsb c).foldl crc7Step c = 0#7 := by decide +kernel

/-- The CRC-16 register stays 0 over zero bits. -/
theorem crc16_fold_zero (n : Nat) : (List.replicate n false).foldl crc16Step 0#16 = 0#16 := by
  induction n with
  | zero => rfl
  | succ n ih => rw [List.replicate_succ, List.foldl_cons, show crc16Step 0#16 false = 0#16 by decide]; exact ih

end Sys2Proof.Machine
end

