-- ==== Sys2Proof/Laws/Driver.lean ====
section
/-!
SUPPORT. Bounds on the number of host operations of the driver's parts (rule R317).
-/

namespace Sys2Proof.Machine

/-- A larger bound. -/
theorem atMost_mono : ∀ {p : HostProg Answer} {a b : Nat}, HostProg.AtMost a p → a ≤ b → HostProg.AtMost b p := by
  intro p a b h
  induction h generalizing b with
  | done n x => intro _; exact .done _ _
  | op n i f _ ih =>
    intro hb
    obtain ⟨c, rfl⟩ : ∃ c, b = c + 1 := ⟨b - 1, by omega⟩
    exact .op _ _ _ fun d => ih d (by omega)
  | sleep n k _ ih => intro hb; exact .sleep _ _ (ih hb)

/-- A poll (rule R137). -/
theorem poll_atMost (off : Offset) (mask want : Word) (k : PollEnd → HostProg Answer) (m : Nat) (hk : ∀ e,
    HostProg.AtMost m (k e)) :
    ∀ n, HostProg.AtMost (n + m) (hPoll off mask want k n) := by
  intro n
  induction n with
  | zero => exact atMost_mono (hk _) (by omega)
  | succ n ih =>
    rw [show n + 1 + m = n + m + 1 by omega]
    refine .op _ _ _ fun d => ?_
    split
    · exact atMost_mono (hk _) (by omega)
    · exact ih

/-- The wait of a submission (rule R286). -/
theorem wait_atMost (l : Word) (k : PollEnd → HostProg Answer) (m : Nat) (hk : ∀ e, HostProg.AtMost m (k e)) :
    ∀ n, HostProg.AtMost (2 * n + m) (submitWait l k n) := by
  intro n
  induction n with
  | zero => exact atMost_mono (hk _) (by omega)
  | succ n ih =>
    rw [show 2 * (n + 1) + m = 2 * n + m + 1 + 1 by omega]
    refine .op _ _ _ fun d => .op _ _ _ fun d' => ?_
    split
    · exact atMost_mono (hk _) (by omega)
    · split
      · exact atMost_mono (hk _) (by omega)
      · exact ih

/-- The failure path of a submission (rule R286). -/
theorem fail_atMost (bound : Nat) (b : Bool) (k : Answer → HostProg Answer) (m : Nat) (hk : ∀ e,
    HostProg.AtMost m (k e)) :
    HostProg.AtMost (bound + m + 2) (submitFail bound b k) := by
  rw [show bound + m + 2 = bound + (m + 1) + 1 by omega]
  refine .op _ _ _ fun d => poll_atMost _ _ _ _ _ (fun e => .op _ _ _ fun d => hk _) _

/-- The reading of a response (rule R198). -/
theorem read_atMost (ty : ResponseType) (k : Answer → HostProg Answer) (m : Nat) (hk : ∀ e, HostProg.AtMost m (k e)) :
    HostProg.AtMost (m + 5) (submitRead ty k) := by
  cases ty
  case none => exact atMost_mono (hk _) (by omega)
  case r2 => exact .op _ _ _ fun _ => .op _ _ _ fun _ => .op _ _ _ fun _ => .op _ _ _ fun _ => .op _ _ _ fun _ => hk _
  all_goals exact atMost_mono (a := m + 2) (.op _ _ _ fun _ => .op _ _ _ fun _ => hk _) (by omega)

end Sys2Proof.Machine
end

