-- ==== Sys2Proof/Laws/Encoding.lean ====
section
/-!
SUPPORT. The bits of a command frame (rules R115, R172), the maps of the register window (rule R21) and what the decoder says of
them.
-/

namespace Sys2Proof.Machine

/-- The forty leading bits of a command frame: argument, index, transmission bit, start bit. -/
theorem head_getLsbD (idx : BitVec 6) (arg : Word) (i : Nat) :
    (0#1 ++ 1#1 ++ idx ++ arg : BitVec 40).getLsbD i =
      if i < 32 then arg.getLsbD i else if i < 38 then idx.getLsbD (i - 32) else if i = 38 then true else false := by
  have e : (0#1 ++ 1#1 ++ idx ++ arg : BitVec 40).getLsbD i = (((0#1 ++ 1#1 : BitVec (1+1)) ++ idx : BitVec (1+1+6))
      ++ arg : BitVec (1+1+6+32)).getLsbD i := rfl
  rw [e]
  simp only [BitVec.getLsbD_append]
  split
  · rfl
  · by_cases h : i < 38
    · simp only [h, if_true, show i - 32 < 6 by omega]
    · simp only [h, if_false, show ¬ (i - 32 < 6) by omega]
      by_cases h' : i = 38
      · subst h'; decide
      · simp only [h', if_false, show ¬ (i - 32 - 6 < 1) by omega]; simp

/-- The bits of a frame: end bit, CRC, and the forty bits before it. -/
theorem frame_getLsbD (h : BitVec 40) (c : BitVec 7) (i : Nat) :
    (h ++ c ++ 1#1 : BitVec 48).getLsbD i = if i = 0 then true else if i < 8 then c.getLsbD (i - 1)
        else h.getLsbD (i - 8) := by
  have e : (h ++ c ++ 1#1 : BitVec 48).getLsbD i = ((h ++ c : BitVec (40+7))
      ++ 1#1 : BitVec (40+7+1)).getLsbD i := rfl
  rw [e]
  simp only [BitVec.getLsbD_append]
  by_cases h0 : i = 0
  · subst h0; simp
  · rw [if_neg (by omega), if_neg h0]
    by_cases h8 : i < 8
    · rw [if_pos (by omega), if_pos h8]
    · rw [if_neg (by omega), if_neg h8, Nat.sub_sub]

/-- The fields of a frame put together of its parts. -/
theorem frame_fields (idx : BitVec 6) (arg : Word) (c : BitVec 7) :
    let f : BitVec 48 := (0#1 ++ 1#1 ++ idx ++ arg : BitVec 40) ++ c ++ 1#1
    f.getLsbD 47 = false ∧ f.getLsbD 46 = true ∧ f.getLsbD 0 = true ∧ f.extractLsb' 40 6 = idx ∧ f.extractLsb' 8 32 =
        arg ∧ f.extractLsb' 8 40 = (0#1 ++ 1#1 ++ idx ++ arg : BitVec 40) ∧ f.extractLsb' 1 7 = c := by
  refine ⟨?_, ?_, ?_, ?_, ?_, ?_, ?_⟩
  · rw [frame_getLsbD, head_getLsbD]; simp
  · rw [frame_getLsbD, head_getLsbD]; simp
  · rw [frame_getLsbD]; simp
  · apply BitVec.eq_of_getLsbD_eq; intro i hi
    rw [BitVec.getLsbD_extractLsb', frame_getLsbD, head_getLsbD]
    simp [hi, show ¬ (40 + i < 8) by omega, show ¬ (40 + i - 8 < 32) by omega, show (40 + i - 8 < 38) by omega,
        show 40 + i - 8 - 32 = i by omega]
  · apply BitVec.eq_of_getLsbD_eq; intro i hi
    rw [BitVec.getLsbD_extractLsb', frame_getLsbD, head_getLsbD]
    simp [hi, show ¬ (8 + i < 8) by omega]
  · apply BitVec.eq_of_getLsbD_eq; intro i hi
    rw [BitVec.getLsbD_extractLsb', frame_getLsbD]
    simp [hi]
  · apply BitVec.eq_of_getLsbD_eq; intro i hi
    rw [BitVec.getLsbD_extractLsb', frame_getLsbD]
    simp [hi, show (1 + i < 8) by omega]

/-- The fixed bits of a command frame, under the mask that opcode_table.json has for every command. -/
theorem frame_masked (idx : BitVec 6) (arg : Word) :
    commandFrame idx arg &&& 0xFF0000000001#48 = (idx.setWidth 48 <<< 40) ||| 0x400000000001#48 := by
  apply BitVec.eq_of_getLsbD_eq
  intro i hi
  rw [BitVec.getLsbD_and, BitVec.getLsbD_or, commandFrame]
  rw [frame_getLsbD, head_getLsbD]
  rcases (by omega : i = 0 ∨ (0 < i ∧ i < 40) ∨ 40 ≤ i) with h | h | h
  · subst h; simp
  · have hm : (0xFF0000000001#48).getLsbD i = false ∧ (0x400000000001#48).getLsbD i = false := by
      revert h; revert hi; revert i; decide
    rw [hm.1, hm.2]; simp; omega
  · interval_cases i <;> simp

/-- A frame with the index of a command decodes to the command, whatever its CRC. -/
theorem decode_command (idx : BitVec 6) (arg : Word) (i : Instr) (h : commandOf idx arg = some i) :
    decode (.frame (commandFrame idx arg)) = .ok i := by
  obtain ⟨a, b, c, d, e, -, -⟩ := frame_fields idx arg (crc7 (bitsMsb (0#1 ++ 1#1 ++ idx ++ arg : BitVec 40)))
  simp only [decode, decodeFrame, commandFrame, a, b, c, d, e, h]
  rfl

/-- The command of an index is encoded with that index. -/
theorem commandOf_encode {idx : BitVec 6} {arg : Word} {i : Instr} (h : commandOf idx arg = some i) :
    i.wellFormed = true ∧ encode i = .frame (commandFrame idx arg) := by
  have hb : ∀ n (hn : n < 64), idx.toNat = n → idx = BitVec.ofNat 6 n := by
    intro n hn h; apply BitVec.eq_of_toNat_eq; rw [h]; simp; omega
  unfold commandOf at h
  split at h
  all_goals first | (cases h; rename_i hn; rw [hb _ (by omega) hn]; exact ⟨rfl, rfl⟩) | cases h

/-- The three registers of flags are where `w1cOffset` says. -/
theorem regAt_w1cOffset (r : W1cReg) : (regAt (w1cOffset r)).isSome = true ∧ w1cAt (w1cOffset r) = some r := by
  cases r <;> decide

/-- An offset of a register of flags is the offset of that register. -/
theorem w1cAt_some {off : Offset} {r : W1cReg} (h : w1cAt off = some r) : off = w1cOffset r := by
  unfold w1cAt at h
  split at h
  · cases h; assumption
  · split at h
    · cases h; assumption
    · split at h
      · cases h; assumption
      · cases h

end Sys2Proof.Machine
end

