-- ==== Sys2Proof/Laws/PerInstr.lean ====
section
/-!
SUPPORT. What spec/opcode_table.json says of every operation, constructor by constructor: the kind, offset and data of a
bus operation (rule R111), the register with match and mask of a launch bit (rules R112, R113), and match, mask, argument
and CRC of a command frame (rules R115, R134).
-/

namespace Sys2Proof.Laws.Encoded

open Sys2Proof.Machine

/-- A launch bit of the register `reg`: the row's mask and match select the encoding, and nothing else is set in it. -/
def launched (reg : LaunchReg) (row : Word) (i : Instr) : Prop :=
  ∃ w, encode i = .word reg w ∧ w &&& row = row ∧ w &&& ~~~row = 0#32

/-- A command frame: the row's mask and match select it; it carries the argument and the CRC-7 of its forty bits. -/
def framed (row : BitVec 48) (arg : Word) (i : Instr) : Prop :=
  ∃ f, encode i = .frame f ∧ f &&& 0xFF0000000001#48 = row ∧ f.extractLsb' 8 32 = arg
    ∧ f.extractLsb' 1 7 = crc7 (bitsMsb (f.extractLsb' 8 40))

/-- What the opcode table says of an operation's encoding. -/
def Statement : Instr → Prop
  | .rd off => encode (.rd off) = .bus .rd .word off 0#32
  | .wr off data => encode (.wr off data) = .bus .wr .word off data
  | .set off mask => encode (.set off mask) = .bus .set .word off mask
  | .clr off mask => encode (.clr off mask) = .bus .clr .word off mask
  | .co => launched .ctl 0x00000001#32 .co
  | .ri => launched .ctl 0x00000002#32 .ri
  | .di => launched .ctl 0x00000004#32 .di
  | .dout => launched .ctl 0x00000008#32 .dout
  | .r2i => launched .ctl 0x00000010#32 .r2i
  | .clk74o => launched .ctl 0x00000020#32 .clk74o
  | .clk8o => launched .ctl 0x00000040#32 .clk8o
  | .ctlrst => launched .ctl 0x00004000#32 .ctlrst
  | .dmarst => launched .dmactl 0x00000002#32 .dmarst
  | .gctlrst => launched .gctl 0x00000001#32 .gctlrst
  | .w1c reg mask => ∃ off, encode (.w1c reg mask) = .bus .wr .word off mask
      ∧ (off = 0x82C#12 ∨ off = 0x414#12 ∨ off = 0x808#12) ∧ w1cAt off = some reg
  | .cmd0 arg => framed 0x400000000001#48 arg (.cmd0 arg)
  | .cmd1 arg => framed 0x410000000001#48 arg (.cmd1 arg)
  | .cmd2 arg => framed 0x420000000001#48 arg (.cmd2 arg)
  | .cmd3 arg => framed 0x430000000001#48 arg (.cmd3 arg)
  | .cmd7 arg => framed 0x470000000001#48 arg (.cmd7 arg)
  | .cmd8 arg => framed 0x480000000001#48 arg (.cmd8 arg)
  | .cmd9 arg => framed 0x490000000001#48 arg (.cmd9 arg)
  | .cmd12 arg => framed 0x4C0000000001#48 arg (.cmd12 arg)
  | .cmd13 arg => framed 0x4D0000000001#48 arg (.cmd13 arg)
  | .cmd17 arg => framed 0x510000000001#48 arg (.cmd17 arg)
  | .cmd18 arg => framed 0x520000000001#48 arg (.cmd18 arg)
  | .cmd24 arg => framed 0x580000000001#48 arg (.cmd24 arg)
  | .cmd25 arg => framed 0x590000000001#48 arg (.cmd25 arg)
  | .acmd41 arg => framed 0x690000000001#48 arg (.acmd41 arg)
  | .cmd55 arg => framed 0x770000000001#48 arg (.cmd55 arg)

/-- Every command is encoded as its row says, given its index. -/
theorem framed_of {idx : BitVec 6} {row : BitVec 48} {arg : Word} {i : Instr}
    (h : encode i = .frame (commandFrame idx arg)) (hr : (idx.setWidth 48 <<< 40) ||| 0x400000000001#48 = row) :
    framed row arg i := by
  obtain ⟨_, _, _, _, ha, h40, hc⟩ :=
    frame_fields idx arg (crc7 (bitsMsb (0#1 ++ 1#1 ++ idx ++ arg : BitVec 40)))
  exact ⟨_, h, (frame_masked idx arg).trans hr, ha, hc.trans (congrArg (fun b => crc7 (bitsMsb b)) h40.symm)⟩

theorem rd (off : Offset) : Statement (.rd off) := rfl
theorem wr (off : Offset) (data : Word) : Statement (.wr off data) := rfl
theorem set (off : Offset) (mask : Word) : Statement (.set off mask) := rfl
theorem clr (off : Offset) (mask : Word) : Statement (.clr off mask) := rfl
theorem co : Statement .co := ⟨_, rfl, by decide⟩
theorem ri : Statement .ri := ⟨_, rfl, by decide⟩
theorem di : Statement .di := ⟨_, rfl, by decide⟩
theorem dout : Statement .dout := ⟨_, rfl, by decide⟩
theorem r2i : Statement .r2i := ⟨_, rfl, by decide⟩
theorem clk74o : Statement .clk74o := ⟨_, rfl, by decide⟩
theorem clk8o : Statement .clk8o := ⟨_, rfl, by decide⟩
theorem ctlrst : Statement .ctlrst := ⟨_, rfl, by decide⟩
theorem dmarst : Statement .dmarst := ⟨_, rfl, by decide⟩
theorem gctlrst : Statement .gctlrst := ⟨_, rfl, by decide⟩
theorem w1c (reg : W1cReg) (mask : Word) : Statement (.w1c reg mask) :=
  ⟨_, rfl, by cases reg <;> decide, (regAt_w1cOffset reg).2⟩
theorem cmd0 (arg : Word) : Statement (.cmd0 arg) := framed_of (idx := 0#6) rfl (by decide)
theorem cmd1 (arg : Word) : Statement (.cmd1 arg) := framed_of (idx := 1#6) rfl (by decide)
theorem cmd2 (arg : Word) : Statement (.cmd2 arg) := framed_of (idx := 2#6) rfl (by decide)
theorem cmd3 (arg : Word) : Statement (.cmd3 arg) := framed_of (idx := 3#6) rfl (by decide)
theorem cmd7 (arg : Word) : Statement (.cmd7 arg) := framed_of (idx := 7#6) rfl (by decide)
theorem cmd8 (arg : Word) : Statement (.cmd8 arg) := framed_of (idx := 8#6) rfl (by decide)
theorem cmd9 (arg : Word) : Statement (.cmd9 arg) := framed_of (idx := 9#6) rfl (by decide)
theorem cmd12 (arg : Word) : Statement (.cmd12 arg) := framed_of (idx := 12#6) rfl (by decide)
theorem cmd13 (arg : Word) : Statement (.cmd13 arg) := framed_of (idx := 13#6) rfl (by decide)
theorem cmd17 (arg : Word) : Statement (.cmd17 arg) := framed_of (idx := 17#6) rfl (by decide)
theorem cmd18 (arg : Word) : Statement (.cmd18 arg) := framed_of (idx := 18#6) rfl (by decide)
theorem cmd24 (arg : Word) : Statement (.cmd24 arg) := framed_of (idx := 24#6) rfl (by decide)
theorem cmd25 (arg : Word) : Statement (.cmd25 arg) := framed_of (idx := 25#6) rfl (by decide)
theorem acmd41 (arg : Word) : Statement (.acmd41 arg) := framed_of (idx := 41#6) rfl (by decide)
theorem cmd55 (arg : Word) : Statement (.cmd55 arg) := framed_of (idx := 55#6) rfl (by decide)

end Sys2Proof.Laws.Encoded
end

