-- ==== Sys2Proof/Tests/Slice0.lean ====
section
/-!
SUPPORT. The model's own tests. Expected results are the spec's: the vectors V<n> of spec/95_test_vectors.md, the masks and
matches of spec/opcode_table.json, or hand calculation from a rule. Then, for every statement with hypotheses, states and
operands that meet them (`witness_…`), at the ends of their ranges.
-/

open Sys2Proof Sys2Proof.Machine

namespace Sys2Proof.Tests

set_option Elab.async false

/-! ### Small states -/

/-- A test of the next state of an operation; false if it stops. -/
def ends (o : Out) (p : State → Bool) : Bool :=
  match o with
  | .next t => p t
  | _ => false

/-- The base state B0 of spec/95_test_vectors.md, as far as the tests look at it: `CTL` = 0x01010000, `BLEN` = 0x1FF,
the engines enabled. -/
def on : State :=
  { State.reset with
    gctl := { gctlrst := false, sden := true }, dmactl := { State.reset.dmactl with dmaen := true }
    tout := 0xFFFFFF#24 }

/-- `CTL` written with a word, as the launch rules leave it. -/
def launchedBy (w : Word) : State :=
  { on with ctl := wordCtl w, eng := { on.eng with phase := nextPhase (wordCtl w) } }

/-- A state in which a 48-bit answer is awaited. -/
def awaits (w : Word) (a : Option (BitVec 48)) : State :=
  { launchedBy w with card0 := { CardScript.silent with resp48 := [a] } }

/-- A state in which a 136-bit answer is awaited. -/
def awaitsLong (w : Word) (a : Option (BitVec 136)) : State :=
  { launchedBy w with card0 := { CardScript.silent with resp136 := [a] } }

/-- Inside a data operation of one block of four bytes on four data lines, at `DMASA` = `a`. -/
def moving (w a : Word) : State :=
  { launchedBy w with
    dmactl := { dmaen := true, dmarst := false, sgen := false, dmabusy := .known true }
    dmasa := a, bcnt := .known 4#26, blen := 3#11
    eng := { phase := nextPhase (wordCtl w), blocksLeft := 1, dsub := .send, halted := false, stuck := false }
    dma := { on.dma with cur := .known a } }

/-- The block of vector V62b. -/
def beef : Block :=
  { bytes := [0xDE#8, 0xAD#8, 0xBE#8, 0xEF#8], crcs := [0x1EF0#16, 0xBB9A#16, 0x9D49#16, 0x1290#16] }

/-- A `DI` that waits for its block. -/
def receiving (a : Word) (b : Option Block) : State :=
  { moving 0x01018004#32 a with card0 := { CardScript.silent with blocks := [b] } }

/-- A `DO` whose block stands in memory at `DMASA`. -/
def sending (a : Word) : State :=
  { moving 0x01018008#32 a with
    mem := [(a.toNat, 0xDE#8), (a.toNat + 1, 0xAD#8), (a.toNat + 2, 0xBE#8), (a.toNat + 3, 0xEF#8)] }

/-- A `DO` that waits for the status token of its block. -/
def answered (v : Option (BitVec 3)) : State :=
  { sending 0x00800000#32 with
    eng := { (sending 0#32).eng with dsub := .waitStatus }, card0 := { CardScript.silent with status := [v] } }

/-- A word address that answers `BusError` (rule R81). -/
def failing (a : Word) (s : State) : State := { s with busErr := [a] }

/-- Scatter-gather mode at the entry `e0`, `e1` of a table at address `p` (rule R128). -/
def atEntry (p : Nat) (e0 e1 : Word) : State :=
  { moving 0x01018004#32 0#32 with
    dmactl := { dmaen := true, dmarst := false, sgen := true, dmabusy := .known true }
    dma := { halted := false, cur := .any, segLeft := 0, padPtr := .known p, eotSeen := false, dest := some [] }
    mem := storeWord [] (storeWord [] [] (BitVec.ofNat 32 p) e0) (BitVec.ofNat 32 (p + 4)) e1 }

/-- The block of vector V63b. -/
def eights : Block :=
  { bytes := [0x11#8, 0x22#8, 0x33#8, 0x44#8, 0x55#8, 0x66#8, 0x77#8, 0x88#8]
    crcs := [0x3063#16, 0x7BC0#16, 0xB727#16, 0x4BF9#16] }

/-- A block of eight bytes instead of four. -/
def eightBytes (s : State) : State := { s with blen := 7#11, bcnt := .known 8#26 }

/-- A block of eight bytes in scatter-gather mode: the table of V90 at 0x00900000 with segments of four bytes, and the
second word of the second entry as given. -/
def scattering (f1 : Word) (s : State) : State :=
  { eightBytes s with
    dmasa := 0x00900000#32
    dmactl := { dmaen := true, dmarst := false, sgen := true, dmabusy := .known true }
    dma := { halted := false, cur := .any, segLeft := 0, padPtr := .known 0x00900000, eotSeen := false, dest := some [] }
    mem := storeWord [] (storeWord [] (storeWord [] (storeWord [] [] 0x00900000#32 0x00800000#32) 0x00900004#32 0x00000004#32)
      0x00900008#32 0x00810000#32) 0x0090000C#32 f1 }

/-- There is no next address: the step ends with an event. -/
def stops (f : Flow Word) : Bool :=
  match f with
  | .stop _ => true
  | _ => false

/-- There is no next address: the table is malformed. -/
def refuses (f : Flow Word) : Bool :=
  match f with
  | .refuse _ => true
  | _ => false

/-- The accesses of such a block to its two words. -/
def scatterAccesses : List Access :=
  [([.memRd 0x00900000#32 0x00800000#32, .memRd 0x00900004#32 0x00000004#32], 0x00800000#32),
    ([.memRd 0x00900008#32 0x00810000#32, .memRd 0x0090000C#32 0x80000004#32], 0x00810000#32)]

/-- Where the sequencer stands after them. -/
def scatterEnd : Dma :=
  { halted := false, cur := .known 0x00810004#32, segLeft := 0, padPtr := .known 0x00900010, eotSeen := true
    dest := some [(0x00810000, 4), (0x00800000, 4)] }

/-- Two entries, one by one. -/
theorem two_entries {P : Nat → Word × Word → Prop} {a b : Word × Word} (h0 : P 0 a) (h1 : P 1 b) :
    ∀ k e, [a, b][k]? = some e → P k e
  | 0, _, h => by cases h; exact h0
  | 1, _, h => by cases h; exact h1

/-- Nothing in a list that is empty. -/
theorem nil_all {α : Type} {P : α → Prop} {l : List α} (h : l = []) : ∀ x ∈ l, P x := by subst h; simp

/-- A single entry. -/
theorem one_entry {P : Nat → Word × Word → Prop} {a : Word × Word} (h0 : P 0 a) : ∀ k e, [a][k]? = some e → P k e
  | 0, _, h => by cases h; exact h0

/-! ### Well-formedness: an ill-formed term for each check -/

theorem test_ill_formed_misaligned : (Instr.rd 0x822#12).wellFormed = false := by decide

theorem test_ill_formed_beyond_window : (Instr.set 0x844#12 1#32).wellFormed = false := by decide

theorem test_ill_formed_clr : (Instr.clr 0x001#12 1#32).wellFormed = false := by decide

theorem test_ill_formed_wr_of_flags : (Instr.wr 0x82C#12 2#32).wellFormed = false := by decide

theorem test_ill_formed_wr_offset : (Instr.wr 0x842#12 2#32).wellFormed = false := by decide

theorem test_well_formed_ends :
    (Instr.rd 0x840#12).wellFormed = true ∧ (Instr.rd 0x000#12).wellFormed = true
      ∧ (Instr.wr 0x1FC#12 0#32).wellFormed = true := by decide

/-! ### Decoding: words written out from the encodings (rules R111 to R115, R134) -/

theorem test_decode_rd : decode (.bus .rd .word 0x82C#12 0#32) = .ok (.rd 0x82C#12) := by rfl

theorem test_decode_wr : decode (.bus .wr .word 0x824#12 0x1AA#32) = .ok (.wr 0x824#12 0x1AA#32) := by rfl

theorem test_decode_set : decode (.bus .set .word 0x400#12 2#32) = .ok (.set 0x400#12 2#32) := by rfl

theorem test_decode_clr : decode (.bus .clr .word 0x828#12 0x3303#32) = .ok (.clr 0x828#12 0x3303#32) := by rfl

theorem test_decode_w1c :
    decode (.bus .wr .word 0x82C#12 2#32) = .ok (.w1c .intsts 2#32)
      ∧ decode (.bus .wr .word 0x414#12 3#32) = .ok (.w1c .dmaintsts 3#32)
      ∧ decode (.bus .wr .word 0x808#12 1#32) = .ok (.w1c .gintsts 1#32) := ⟨rfl, rfl, rfl⟩

theorem test_decode_launch_words :
    decodeTableWord 32 0x00000001 = some .co ∧ decodeTableWord 32 0x00000002 = some .ri
      ∧ decodeTableWord 32 0x00000004 = some .di ∧ decodeTableWord 32 0x00000008 = some .dout
      ∧ decodeTableWord 32 0x00000010 = some .r2i ∧ decodeTableWord 32 0x00000020 = some .clk74o
      ∧ decodeTableWord 32 0x00000040 = some .clk8o ∧ decodeTableWord 32 0x00004000 = some .ctlrst := by
  decide +kernel

theorem test_decode_dmarst : decode (.word .dmactl 0x00000003#32) = .ok .dmarst := by rfl

theorem test_decode_gctlrst : decode (.word .gctl 0x00000003#32) = .ok .gctlrst := by rfl

/-- V30 to V39i: the frames as 48-bit numbers of the opcode table. -/
theorem test_decode_frames :
    decodeTableWord 48 0x400000000095 = some (.cmd0 0#32)
      ∧ decodeTableWord 48 0x4140FF80000B = some (.cmd1 0x40FF8000#32)
      ∧ decodeTableWord 48 0x42000000004D = some (.cmd2 0#32)
      ∧ decodeTableWord 48 0x430000000021 = some (.cmd3 0#32)
      ∧ decodeTableWord 48 0x471234000059 = some (.cmd7 0x12340000#32)
      ∧ decodeTableWord 48 0x48000001AA87 = some (.cmd8 0x000001AA#32)
      ∧ decodeTableWord 48 0x491234000075 = some (.cmd9 0x12340000#32)
      ∧ decodeTableWord 48 0x4C0000000061 = some (.cmd12 0#32)
      ∧ decodeTableWord 48 0x4D12340000D7 = some (.cmd13 0x12340000#32)
      ∧ decodeTableWord 48 0x5100000064B1 = some (.cmd17 0x00000064#32)
      ∧ decodeTableWord 48 0x520000006405 = some (.cmd18 0x00000064#32)
      ∧ decodeTableWord 48 0x58000000648B = some (.cmd24 0x00000064#32)
      ∧ decodeTableWord 48 0x5900000064E7 = some (.cmd25 0x00000064#32)
      ∧ decodeTableWord 48 0x6940FF800017 = some (.acmd41 0x40FF8000#32)
      ∧ decodeTableWord 48 0x770000000065 = some (.cmd55 0#32) := by
  decide +kernel

/-- V39c, V39l, V29: indices that are no row; and a response's transmission bit 0 is no command. -/
theorem test_decode_refuses_frames :
    decode (.frame 0x500000020015#48) = .error .unknownCommand
      ∧ decode (.frame 0x7FFFFFFFFF19#48) = .error .unknownCommand
      ∧ decode (.frame 0x08000001AA13#48) = .error .notACommandFrame := ⟨rfl, rfl, rfl⟩

/-- V22, V23, V24, V26: illegal launch sets and a reserved port. -/
theorem test_decode_refuses_words :
    decode (.word .ctl 0x01010021#32) = .error .illegalLaunchSet
      ∧ decode (.word .ctl 0x01010012#32) = .error .illegalLaunchSet
      ∧ decode (.word .ctl 0x0101000C#32) = .error .illegalLaunchSet
      ∧ decode (.word .ctl 0x41010001#32) = .error .reservedPort := ⟨rfl, rfl, rfl, rfl⟩

theorem test_decode_refuses_length : decodeBytes [1#8, 2#8] = .error .badLength ∧ decodeTableWord 64 1 = none := by
  decide

/-- The frames of V30 to V39i are also what the encoder gives. -/
theorem test_encode_frames :
    encode (.cmd0 0xFFFFFFFF#32) = .frame 0x40FFFFFFFFBF#48
      ∧ encode (.cmd8 0x155#32) = .frame 0x480000015575#48
      ∧ encode (.cmd17 0xC800#32) = .frame 0x510000C80099#48
      ∧ encode (.cmd55 0x12340000#32) = .frame 0x7712340000BF#48 := by
  decide +kernel

/-! ### CRCs -/

/-- V59b, V59c, V59d. -/
theorem test_crc7 :
    crc7 [true] = 0x09#7 ∧ crc7 (bitsMsb 0x8000000000#40) = 0x1D#7
      ∧ crc7 (bitsMsb 0x035344535530384780123456780123#120) = 0x2D#7 := by
  decide +kernel

/-- V60d, V63, V63b. -/
theorem test_crc16 :
    crc16 (serialBits [0xA5#8]) = 0xE54F#16
      ∧ lineCrcs false [0x11#8, 0x22#8, 0x33#8, 0x44#8, 0x55#8, 0x66#8, 0x77#8, 0x88#8] = [0x6C8B#16]
      ∧ lineCrcs true [0x11#8, 0x22#8, 0x33#8, 0x44#8, 0x55#8, 0x66#8, 0x77#8, 0x88#8]
        = [0x3063#16, 0x7BC0#16, 0xB727#16, 0x4BF9#16] := by
  decide +kernel

set_option maxRecDepth 20000 in
/-- V64, V64b: the ramp. -/
theorem test_crc16_ramp :
    lineCrcs false ((List.range 512).map fun j => BitVec.ofNat 8 j) = [0x40DA#16]
      ∧ lineCrcs true ((List.range 512).map fun j => BitVec.ofNat 8 j)
        = [0x7357#16, 0x10B5#16, 0xA97D#16, 0x6AA3#16] := by
  decide +kernel

/-! ### Host operations -/

/-- V3, V5, V11. -/
theorem test_rd_mode_bits :
    regNow 0x400#12 .dmactl on = 0x001#32 ∧ regNow 0x800#12 .gctl on = 0x2#32 ∧ regNow 0x40C#12 .dmabcnt on = 0#32
      ∧ regNow 0x820#12 .ctl on = 0x01010000#32 := by
  decide +kernel

/-- V2: the last word of the buffer. -/
theorem test_wr_buffer :
    ends (exec (.wr 0x1FC#12 0xA5A5A5A5#32) on) (fun t => t.fb[127] == .known 0xA5A5A5A5#32) = true := by
  decide +kernel

/-- V6: the power outputs. -/
theorem test_wr_power : ends (exec (.wr 0x840#12 1#32) on) (fun t => !power t .p0 && power t .p1) = true := by
  decide +kernel

/-- V8, V9: refused offsets. -/
theorem test_wr_refused_offsets :
    exec (.wr 0x404#12 0#32) on = .refused .reservedOffset ∧ exec (.wr 0x80C#12 0#32) on = .refused .reservedOffset
      ∧ exec (.wr 0x200#12 0#32) on = .refused .reservedOffset ∧ exec (.rd 0x822#12) on = .refused .badOffset
      ∧ exec (.rd 0x844#12) on = .refused .badOffset := ⟨rfl, rfl, rfl, rfl, rfl⟩

/-- V27: a word with `CTLRST` launches the reset alone. -/
theorem test_wr_ctlrst :
    ends (exec (.wr 0x820#12 0x01014003#32) on) (fun t => ctlNow t == 0x01014000#32 && t.eng.phase == .reset) = true := by
  decide +kernel

/-- V68c, V68d: the end of the address space. -/
theorem test_wr_range :
    ends (exec (.wr 0x820#12 0x09019107#32) { on with dmasa := 0xFFFFFE00#32 }) (fun t => ctlNow t == 0x09019107#32)
        = true
      ∧ exec (.wr 0x820#12 0x09019107#32) { on with dmasa := 0xFFFFFE04#32 } = .refused .rangeWraps :=
  ⟨by decide +kernel, rfl⟩

/-- V17, V18. -/
theorem test_set :
    ends (exec (.set 0x820#12 0x20#32) on) (fun t => ctlNow t == 0x01010020#32) = true
      ∧ ends (exec (.set 0x82C#12 0#32) { on with intsts := { on.intsts with cdif0 := true } })
        (fun t => t.intsts.cdif0) = true := by
  decide +kernel

/-- V15, V16: `CLR` clears no flag, and clears enables but not the source bits. -/
theorem test_clr :
    ends (exec (.clr 0x82C#12 1#32) { on with intsts := { on.intsts with blkdif := .known true } })
        (fun t => t.intsts.blkdif == .known true) = true
      ∧ ends (exec (.clr 0x828#12 0x3303#32) { on with inten := { on.inten with cdsrc1 := true, crcien := true } })
        (fun t => !t.inten.cdien1 && !t.inten.crcien && t.inten.cdsrc1) = true := by
  decide +kernel

/-- V13. -/
theorem test_w1c :
    ends (exec (.w1c .intsts 2#32) { on with intsts := { on.intsts with crcif := true, rtoif := true } })
      (fun t => !t.intsts.crcif && t.intsts.rtoif) = true := by
  decide +kernel

/-! ### Engine operations -/

/-- V29 (V39k): the frame of index 63 with an argument of ones. -/
theorem test_co :
    ends (exec .co { launchedBy 0x01013F01#32 with cmdarg := 0xFFFFFFFF#32 })
      (fun t => t.history == [.cmdOut .p0 0x7FFFFFFFFF19#48] && ctlNow t == 0x01013F00#32) = true := by
  decide +kernel

/-- V20, V116: the clocks go to the selected port. -/
theorem test_clk74o :
    ends (exec .clk74o (launchedBy 0x21010020#32))
      (fun t => t.history == [.clk .p1 74] && ctlNow t == 0x21010000#32) = true := by
  decide +kernel

/-- V21. -/
theorem test_clk8o :
    ends (exec .clk8o (launchedBy 0x01010040#32))
      (fun t => t.history == [.clk .p0 8] && ctlNow t == 0x01010000#32 && t.eng.phase == .idle) = true := by
  decide +kernel

/-- V40; and V44: a response without a CRC halts nothing. -/
theorem test_ri :
    ends (exec .ri (awaits 0x01010802#32 (some 0x08000001AA13#48)))
      (fun t => t.resp0 == .known 0x08000001#32 && t.resp1 == .known 0xAA#8 && t.intsts.crc7 == .known true
        && !t.intsts.crcif && t.eng.phase == .idle) = true
    ∧ ends (exec .ri (awaits 0x01012902#32 (some 0x3FC0FF8000FF#48)))
      (fun t => t.resp0 == .known 0x3FC0FF80#32 && t.resp1 == .known 0x00#8 && t.intsts.crc7 == .known false
        && t.intsts.crcif && !t.eng.halted && t.eng.phase == .idle) = true := by
  decide +kernel

/-- V48, V101, with rules R59 and R361: a timeout without a data phase, and the reset after it, which keeps `DMABUSY`
and `BCNT`; a new launch is legal then, and a data operation starts (rule R233). -/
theorem test_ri_timeout :
    ends (exec .ri (awaits 0x01013702#32 none))
      (fun t => t.intsts.rtoif && t.eng.halted && !t.dma.halted && t.ctl.rien == .any && t.ctl.r2en == .any
        && t.ctl.dien == .any && t.ctl.doen == .any && t.dmactl.dmabusy == .any && t.fb == State.reset.fb
        && t.history == [.respNone .p0]
        && ends (exec .ctlrst { t with ctl := { t.ctl with ctlrst := true } })
          (fun u => u.dmactl.dmabusy == .any && u.bcnt == .any && u.fb == State.reset.fb
            && !u.eng.halted && u.ctl.dien == .known false && !inFlight u)) = true
    ∧ ends (exec .di { launchedBy 0x01018004#32 with dmactl := { on.dmactl with dmabusy := .any }, bcnt := .any })
      (fun t => t.dmactl.dmabusy == .known true && t.bcnt == .known 512#26) = true := by
  decide +kernel

/-- R129, R131, R132: an illegal set of launch bits is refused also where every bit of it is 1 already. -/
theorem test_illegal_standing :
    regWriteRefusal .ctl 0x01010012#32 (launchedBy 0x01010012#32) = some .illegalLaunchSet := by
  decide +kernel

/-- V50. -/
theorem test_r2i :
    ends (exec .r2i (awaitsLong 0x01010210#32 (some 0x3F0353445355303847801234567801235B#136)))
      (fun t => t.fb[0] == .known 0x4453033F#32 && t.fb[1] == .known 0x38305553#32 && t.fb[2] == .known 0x34128047#32
        && t.fb[3] == .known 0x23017856#32 && t.fb[4] == .any && t.fb[127] == .any && t.resp0 == .any
        && t.intsts.crc7 == .known true && ctlNow t == 0x01010200#32) = true := by
  decide +kernel

/-- V62b with rules R86, R236, R238: four bytes on four lines, in memory lowest address first; and as V71, one line's
CRC differs. -/
theorem test_di_block :
    ends (exec .di (receiving 0x00800000#32 (some beef)))
      (fun t => t.mem == [(0x800000, 0xDE#8), (0x800001, 0xAD#8), (0x800002, 0xBE#8), (0x800003, 0xEF#8)]
        && t.history == [.blockIn .p0 0 [0xDE#8, 0xAD#8, 0xBE#8, 0xEF#8], .memWr 0x00800000#32 0xEFBEADDE#32]
        && t.intsts.crc16 == .known true && t.bcnt == .known 0#26 && t.eng.phase == .dataEnd) = true
    ∧ ends (exec .di (receiving 0x00800000#32 (some { beef with
          crcs := [0x1EF0#16, 0xBB9A#16, 0x9D49#16, 0x1291#16] })))
      (fun t => t.intsts.crc16 == .known false && t.intsts.crcif && t.eng.halted && t.dma.halted && t.bcnt == .any) = true
      := by
  decide +kernel

/-- V90 with the block of V63b: the table's words and the block's in the order of the accesses; and V96 with the second
word of that block failing. -/
theorem test_di_words :
    ends (exec .di (scattering 0x80000004#32 (receiving 0#32 (some eights))))
      (fun t => t.history == [.blockIn .p0 0 eights.bytes, .memRd 0x00900000#32 0x00800000#32,
            .memRd 0x00900004#32 0x00000004#32, .memWr 0x00800000#32 0x44332211#32, .memRd 0x00900008#32 0x00810000#32,
            .memRd 0x0090000C#32 0x80000004#32, .memWr 0x00810000#32 0x88776655#32]
        && memGetWord t.mem 0x00810000 == some 0x88776655#32 && t.dma == scatterEnd && t.eng.phase == .dataEnd) = true
    ∧ ends (exec .di (failing 0x00800004#32 (eightBytes (receiving 0x00800000#32 (some eights)))))
      (fun t => t.history == [.blockIn .p0 0 eights.bytes, .memWr 0x00800000#32 0x44332211#32, .memErr 0x00800004#32]
        && t.dmaintsts.abortif && t.dtaif && !t.dmactl.dmaen && t.eng.halted && t.dma.halted
        && memGetWord t.mem 0x00800000 == none) = true := by
  decide +kernel

/-- As V80 with the block of V62b. -/
theorem test_dout_block :
    ends (exec .dout (sending 0x00800000#32))
      (fun t => t.history == [.memRd 0x00800000#32 0xEFBEADDE#32,
          .blockOut .p0 0 [0xDE#8, 0xAD#8, 0xBE#8, 0xEF#8] [0x1EF0#16, 0xBB9A#16, 0x9D49#16, 0x1290#16]]
        && t.eng.dsub == .waitStatus) = true := by
  decide +kernel

/-- V81: a bad status token. -/
theorem test_dout_status :
    ends (exec .dout (answered (some 0b101#3)))
      (fun t => t.intsts.crcsts == .known 0b101#3 && t.intsts.crcif && t.eng.halted && t.dma.halted
        && t.intsts.blkdif == .any && t.ctl.doen == .any) = true := by
  decide +kernel

/-- Rule R95: another master stores to the buffer of a running `DO`. -/
theorem test_store_during_dout :
    ends (step { sending 0x00800000#32 with turns := [.env], inputs := [.memStore 0x00800001#32 0x77#8] })
      (fun t => memGet t.mem 0x800001 == some 0x77#8 && t.lent == [(0x800001, some 0xAD#8)]) = true := by
  decide +kernel

/-- Rule R344: in a word that the buffers of both instances share neither the block's word nor a byte that the other
instance stores is known. -/
theorem test_overlap :
    ends (exec .di { receiving 0x00800000#32 (some beef) with overlap := [0x00800000#32] })
      (fun t => memGetWord t.mem 0x00800000 == none && t.history.contains (.memWr 0x00800000#32 0xEFBEADDE#32)) = true
    ∧ ends (step { on with
        overlap := [0x00800000#32], turns := [.env], inputs := [.memStore 0x00800003#32 0x77#8] })
      (fun t => memGet t.mem 0x800003 == none) = true := by
  decide +kernel

/-! ### Resets -/

/-- V104: `CTLRST` cuts a stuck data operation. -/
theorem test_ctlrst :
    ends (exec .ctlrst
        { receiving 0x00800000#32 none with ctl := { wordCtl 0x09029204#32 with ctlrst := true } })
      (fun t => ctlNow t == 0x09029200#32 && !t.eng.halted && t.dma.halted && t.dmactl.dmabusy == .any && t.bcnt == .any)
      = true := by
  decide +kernel

/-- Rules R250, R361: `CTLRST` while `GCTLRST` is pending too. -/
theorem test_ctlrst_in_gctlrst :
    ends (exec .ctlrst { on with
        gctl := { gctlrst := true, sden := true }, ctl := { on.ctl with ctlrst := true }
        eng := { on.eng with phase := .reset } })
      (fun t => t.eng.phase == .idle && !t.ctl.ctlrst && t.gctl.gctlrst) = true := by
  decide +kernel

/-- V105: `DMARST` first. -/
theorem test_dmarst :
    ends (exec .dmarst
        { receiving 0x00800000#32 none with
          dmactl := { dmaen := true, dmarst := true, sgen := false, dmabusy := .known true } })
      (fun t => t.dmactl.dmabusy == .known false && t.bcnt == .known 0#26 && !t.dma.halted && t.eng.halted
        && t.ctl.dien == .any && t.intsts.blkdif == .any) = true := by
  decide +kernel

/-- V106. -/
theorem test_gctlrst :
    ends (exec .gctlrst
        { receiving 0x00800000#32 none with
          gctl := { gctlrst := true, sden := true }
          dmactl := { dmaen := true, dmarst := true, sgen := true, dmabusy := .known true } })
      (fun t => gctlNow t == 0x2#32 && ctlNow t &&& 0x407F#32 == 0#32 && dmactlNow t == 0x009#32
        && t.bcnt == .known 0#26 && !t.eng.halted && !t.dma.halted) = true := by
  decide +kernel

/-! ### Commands: V30 to V39i, the frame and `CTL` after it -/

/-- The frame that a command sends, and what `CTL` holds then. -/
def sends (i : Instr) (f : BitVec 48) (w : Word) : Bool :=
  ends (exec i { on with dmasa := 0x00800000#32 }) fun t => t.history == [.cmdOut .p0 f] && ctlNow t == w

theorem test_cmd0 : sends (.cmd0 0#32) 0x400000000095#48 0x01010000#32 = true := by decide +kernel

theorem test_cmd1 : sends (.cmd1 0x40FF8000#32) 0x4140FF80000B#48 0x01010102#32 = true := by decide +kernel

theorem test_cmd2 : sends (.cmd2 0#32) 0x42000000004D#48 0x01010210#32 = true := by decide +kernel

theorem test_cmd3 : sends (.cmd3 0#32) 0x430000000021#48 0x01010302#32 = true := by decide +kernel

theorem test_cmd7 : sends (.cmd7 0x12340000#32) 0x471234000059#48 0x01010702#32 = true := by decide +kernel

theorem test_cmd8 : sends (.cmd8 0x1AA#32) 0x48000001AA87#48 0x01010802#32 = true := by decide +kernel

theorem test_cmd9 : sends (.cmd9 0x12340000#32) 0x491234000075#48 0x01010910#32 = true := by decide +kernel

theorem test_cmd12 : sends (.cmd12 0#32) 0x4C0000000061#48 0x01010C02#32 = true := by decide +kernel

theorem test_cmd13 : sends (.cmd13 0x12340000#32) 0x4D12340000D7#48 0x01010D02#32 = true := by decide +kernel

theorem test_cmd17 : sends (.cmd17 100#32) 0x5100000064B1#48 0x01011106#32 = true := by decide +kernel

theorem test_cmd18 : sends (.cmd18 100#32) 0x520000006405#48 0x01011206#32 = true := by decide +kernel

theorem test_cmd24 : sends (.cmd24 100#32) 0x58000000648B#48 0x0101180A#32 = true := by decide +kernel

theorem test_cmd25 : sends (.cmd25 100#32) 0x5900000064E7#48 0x0101190A#32 = true := by decide +kernel

theorem test_acmd41 : sends (.acmd41 0x40FF8000#32) 0x6940FF800017#48 0x01012902#32 = true := by decide +kernel

theorem test_cmd55 : sends (.cmd55 0#32) 0x770000000065#48 0x01013702#32 = true := by decide +kernel

/-! ### The driver -/

/-- V50: the words of rule R198, of the buffer that the response left. -/
theorem test_longRegister :
    longRegister [0x4453033F#32, 0x38305553#32, 0x34128047#32, 0x23017856#32, 0x0000005B#32]
      = [0x03534453#32, 0x55303847#32, 0x80123456#32, 0x7801235B#32] := by
  decide +kernel

/-- Rule R308: the write-protect test comes first; rule R306 for a read. -/
theorem test_transferRefusal :
    let c : Session := { cardType := .sd true, inTransfer := true, writeProtected := true, totalSectors := 8 }
    transferRefusal false c 0#32 0 0 = some .writeProtect ∧ transferRefusal true c 0#32 0 0 = some .fail
      ∧ transferRefusal true c 0#32 7 2 = some .fail ∧ transferRefusal true c 0#32 7 1 = none := by
  decide

/-! ### Detectors, request, placed operations -/

/-- V110 to V113. -/
theorem test_card_present :
    cardPresent { on with pins := { on.pins with ded0 := true } } .p0 = true ∧ cardPresent on .p0 = false
      ∧ cardPresent { on with inten := { on.inten with cdsrc0 := true } } .p0 = true
      ∧ cardPresent { on with inten := { on.inten with cdsrc0 := true }, pins := { on.pins with gpio0 := true } } .p0
        = false := by
  decide +kernel

/-- V123, V124. -/
theorem test_irq :
    irq { on with dtaien := false, intsts := { on.intsts with crcif := true } } = false
      ∧ irq { on with inten := { on.inten with crcien := true }, intsts := { on.intsts with crcif := true } } = true
      ∧ irq { on with dtaien := true, dtaif := true } = true := by
  decide +kernel

/-- A launch word runs as the first operation after reset. -/
theorem test_placed_word :
    ends (step (State.reset.withFetchWord 32 0x00000020)) (fun t => t.history == [.clk .p0 74]) = true
      ∧ ends (step (State.reset.withFetchWord 32 0x00004000)) (fun t => t.history == [.reset .ctl]) = true := by
  decide +kernel

/-- A frame runs as the first operation after reset; the table's bits may leave its CRC 0. -/
theorem test_placed_frame :
    ends (step (State.reset.withFetchWord 48 0x400000000001))
      (fun t => t.history == [.cmdOut .p0 0x400000000095#48]) = true := by
  decide +kernel

/-! ### Witnesses: states and operands that meet the hypotheses of the statements -/

theorem witness_hardwareReset :
    nextTurn { on with turns := [.env], inputs := [.hardwareReset, .hardwareReset], eng := { on.eng with halted := true } }
      = .env := rfl

/-- `DecodeEncode`: the ends of the window, and operands of ones. -/
theorem witness_decodeEncode :
    (Instr.rd 0x840#12).wellFormed = true ∧ (Instr.wr 0x000#12 0xFFFFFFFF#32).wellFormed = true
      ∧ (Instr.set 0x1FC#12 0#32).wellFormed = true ∧ (Instr.clr 0x840#12 0xFFFFFFFF#32).wellFormed = true
      ∧ (Instr.w1c .gintsts 0xFFFFFFFF#32).wellFormed = true ∧ (Instr.cmd55 0xFFFFFFFF#32).wellFormed = true := by
  decide

theorem witness_decodedIsWellFormed :
    decode (.bus .clr .word 0x840#12 3#32) = .ok (.clr 0x840#12 3#32)
      ∧ decode (.frame 0x40FFFFFFFFBF#48) = .ok (.cmd0 0xFFFFFFFF#32)
      ∧ (0x40FFFFFFFFBF#48).extractLsb' 1 7 = crc7 (bitsMsb ((0x40FFFFFFFFBF#48).extractLsb' 8 40)) :=
  ⟨rfl, rfl, by decide +kernel⟩

/-- `EngineOrder`, with the other port: every case of the order, the last bits of each set still waiting. -/
theorem witness_engineOrder :
    ∀ s ∈ [launchedBy 0x21010020#32, launchedBy 0x21010007#32, launchedBy 0x2101000A#32, launchedBy 0x21010014#32,
        launchedBy 0x21010004#32, launchedBy 0x21010008#32, launchedBy 0x21010040#32, launchedBy 0x21010000#32],
      LegalSet s ∧ LaunchKnown s ∧ s.eng.halted = false ∧ s.ctl.sdport.toNat < 2 ∧ s.ctl.ctlrst = false := by
  decide +kernel

/-- `StepRunsDecoded`: an operation of the host. -/
theorem witness_stepHost :
    nextTurn { on with turns := [.host], prog := [.frame 0x400000000095#48] } = .host
      ∧ decode (.frame 0x400000000095#48) = .ok (.cmd0 0#32) := ⟨rfl, rfl⟩

/-- `StepRunsDecoded`: the operations of the engine and the two resets of their own registers. -/
theorem witness_stepLaunched :
    nextTurn { launchedBy 0x01010001#32 with turns := [.engine] } = .engine
      ∧ decode (.word .ctl (ctlNow (takeTurn { launchedBy 0x01010001#32 with turns := [.engine] }))) = .ok .co
      ∧ nextTurn { on with turns := [.dmaReset] } = .dmaReset
      ∧ decode (.word .dmactl (dmactlNow (takeTurn
          { on with turns := [.dmaReset], dmactl := { on.dmactl with dmarst := true } }))) = .ok .dmarst
      ∧ nextTurn { on with turns := [.globalReset] } = .globalReset
      ∧ decode (.word .gctl (gctlNow (takeTurn
          { on with turns := [.globalReset], gctl := { gctlrst := true, sden := false } }))) = .ok .gctlrst :=
  ⟨rfl, rfl, rfl, rfl, rfl, rfl⟩

/-- `StepRunsDecoded`: the agents that have nothing to do, and a detector. -/
theorem witness_stepNothing :
    (nextTurn { on with turns := [.host] } = .host ∧ on.prog = [])
      ∧ decode (.word .ctl (ctlNow (takeTurn { on with turns := [.engine] }))) = .error .noOperation
      ∧ on.dmactl.dmarst = false ∧ on.gctl.gctlrst = false ∧ on.inputs = []
      ∧ nextTurn { on with turns := [.cd .p1] } = .cd .p1 := ⟨⟨rfl, rfl⟩, rfl, rfl, rfl, rfl, rfl⟩

/-- `RdCompletes`: the last register, the last word of the buffer with nothing in flight, and `INTSTS` in flight. -/
theorem witness_rdCompletes :
    regAt 0x840#12 = some .ectl ∧ (regAt 0x1FC#12 = some (.fb 127) ∧ inFlight on = false)
      ∧ regAt 0x82C#12 = some .intsts ∧ inFlight (launchedBy 0x01010002#32) = true := by
  decide +kernel

/-- `RdFields`: every field of the registers it names is known. -/
theorem witness_rdFields :
    on.intsts.blkdif = .known false ∧ on.intsts.crc7 = .known true ∧ on.intsts.crc16 = .known true
      ∧ on.intsts.crcsts = .known 0#3 ∧ on.ctl.rien = .known false ∧ on.ctl.dien = .known false
      ∧ on.ctl.doen = .known false ∧ on.ctl.r2en = .known false ∧ on.dmactl.dmabusy = .known false
      ∧ on.bcnt = .known 0#26 ∧ on.eng.halted = false
      ∧ { on with resp0 := .known 0x120#32 }.resp0 = .known 0x120#32
      ∧ { on with resp1 := .known 0xAA#8 }.resp1 = .known 0xAA#8 :=
  ⟨rfl, rfl, rfl, rfl, rfl, rfl, rfl, rfl, rfl, rfl, rfl, rfl, rfl⟩

/-- `WrStoresFields`: nothing in flight, or the value already held. -/
theorem witness_wrStoresFields :
    inFlight on = false
      ∧ (inFlight (launchedBy 2#32) = true ∧ (launchedBy 2#32).cmdarg = 0#32 ∧ (launchedBy 2#32).dmasa = 0#32
        ∧ (launchedBy 2#32).blen = (0xFFFFF9FF#32).extractLsb' 0 11
        ∧ (launchedBy 2#32).tout = (0xFFFFFFFF#32).extractLsb' 0 24) := by
  decide +kernel

theorem witness_sharedBuffer :
    (Quiet on ∧ on.eng.halted = false) ∧ inFlight (launchedBy 0x01011107#32) = true := by decide +kernel

/-- `ReservedSpace`: the first and the last reserved offset. -/
theorem witness_reservedSpace :
    regAt 0x200#12 = some .reserved ∧ regAt 0x81C#12 = some .reserved ∧ regAt 0x840#12 = some .ectl := by decide

/-- `WrControlWord`: 255 blocks at the highest place for them; a clock operation; and a word without launch
bits. -/
theorem witness_wrControlWord :
    Quiet { on with dmasa := 0xFFFE0200#32 } ∧ on.eng.halted = false
      ∧ ((0x29FF9207#32).getLsbD 14 = false ∧ 0x29FF9207#32 &&& 0x7F#32 ≠ 0#32 ∧ legalLaunch 0x29FF9207#32 = true
        ∧ (portField 0x29FF9207#32).toNat < 2
        ∧ DataLegal ((0x29FF9207#32).extractLsb' 16 8).toNat { on with dmasa := 0xFFFE0200#32 })
      ∧ (legalLaunch 0x01000020#32 = true ∧ ¬((0x01000020#32).getLsbD 2 = true ∨ (0x01000020#32).getLsbD 3 = true))
      ∧ 0xEFFFBF80#32 &&& 0x407F#32 = 0#32 := by
  decide +kernel

/-- `WrModeAndReset`: the three resets with and without the other bits; and the mode bits, in flight too. -/
theorem witness_wrModeAndReset :
    ((0x4000#32).getLsbD 14 = true ∧ (0x0002#32).getLsbD 1 = true ∧ (0x0001#32).getLsbD 0 = true)
      ∧ (inFlight (launchedBy 0x01011107#32) = true ∧ SameOperands 0x8F01510F#32 (launchedBy 0x01011107#32)
        ∧ (0x8F01510F#32).getLsbD 14 = true)
      ∧ ((launchedBy 0x01011107#32).dmactl.sgen = (3#32).getLsbD 3 ∧ (3#32).getLsbD 0 = true
        ∧ (3#32).getLsbD 1 = true)
      ∧ (on.dmactl.dmarst = false ∧ (0x9#32).getLsbD 1 = false ∧ inFlight on = false)
      ∧ (inFlight (launchedBy 2#32) = true ∧ (launchedBy 2#32).dmactl.sgen = (1#32).getLsbD 3
        ∧ (1#32).getLsbD 0 = true)
      ∧ (on.gctl.gctlrst = false ∧ (0#32).getLsbD 0 = false ∧ (2#32).getLsbD 1 = true)
      ∧ inFlight { on with gctl := { gctlrst := true, sden := true } } = false := by
  decide +kernel

/-- `SetCompletes`, `ClrCompletes`: nothing in flight, or nothing changed; a known word of the buffer; a quiet engine.
-/
theorem witness_setClrComplete :
    inFlight on = false ∧ (launchedBy 2#32).cmdarg = (launchedBy 2#32).cmdarg ||| 0#32
      ∧ (launchedBy 2#32).dmasa = (launchedBy 2#32).dmasa ||| 0#32
      ∧ (launchedBy 2#32).cmdarg = (launchedBy 2#32).cmdarg &&& ~~~0xFFFFFFFF#32
      ∧ on.dmactl.dmarst = false ∧ (0x3#32).getLsbD 3 = false ∧ on.fb[127] = .known 0#32
      ∧ Quiet on ∧ on.eng.halted = false ∧ on.ctl.sdport.toNat < 2 := by
  decide +kernel

/-- `RefuseBadAccess`: a half-word, offsets next to the ends, and the last offset of all. -/
theorem witness_refuseBadAccess :
    (nextTurn { on with turns := [.host], prog := [.bus .rd .half 0x820#12 0#32] } = .host ∧ AccessSize.half ≠ .word)
      ∧ (0x841#12).toNat % 4 ≠ 0 ∧ 0x840 < (0x844#12).toNat ∧ (0x001#12).toNat % 4 ≠ 0 ∧ 0x840 < (0xFFF#12).toNat := by
  decide +kernel

/-- `RefuseClearingLaunchBit`: the word of V14; the resets' bits; and `CLR` of `COEN` beside another bit. -/
theorem witness_refuseClearing :
    ((0x01010802#32).getLsbD 14 = false ∧ ctlNow (launchedBy 0x01010803#32) &&& ~~~0x01010802#32 &&& 0x407F#32 ≠ 0#32)
      ∧ ({ on with dmactl := { on.dmactl with dmarst := true } }.dmactl.dmarst = true ∧ (1#32).getLsbD 1 = false)
      ∧ ({ on with gctl := { gctlrst := true, sden := true } }.gctl.gctlrst = true ∧ (2#32).getLsbD 0 = false)
      ∧ ((0x4000#32).getLsbD 14 = true ∧ inFlight on = false)
      ∧ (inFlight (launchedBy 0x01010803#32) = true ∧ SameOperands 0x01014800#32 (launchedBy 0x01010803#32))
      ∧ ((launchedBy 0x01010803#32).ctl.ctlrst = false
        ∧ ctlNow (launchedBy 0x01010803#32) &&& 0x00000081#32 &&& 0x407F#32 ≠ 0#32)
      ∧ ((0x4000#32).getLsbD 14 = true
        ∧ ctlNow { on with ctl := { on.ctl with ctlrst := true } } &&& 0x4000#32 &&& 0x407F#32 ≠ 0#32)
      ∧ ((2#32).getLsbD 1 = true ∧ (1#32).getLsbD 0 = true) := by
  decide +kernel

/-- `OneTransactionInFlight`: V19's state; a further request, one changed operand in each field, each operand register,
the mode bit and the enables. -/
theorem witness_oneInFlight :
    inFlight (launchedBy 0x01011107#32) = true
      ∧ requested 0x0101114F#32 (launchedBy 0x01011107#32) ≠ 0#32
      ∧ (¬SameOperands 0x01025107#32 (launchedBy 0x01011107#32) ∧ (0x01025107#32).getLsbD 14 = true)
      ∧ ((launchedBy 0x01011107#32).dmactl.dmaen = true ∧ (1#32).getLsbD 0 = true)
      ∧ (launchedBy 0x01011107#32).ctl.cmdcode ≠ (0x01011207#32).extractLsb' 8 6
      ∧ (launchedBy 0x01011107#32).ctl.dbw ≠ (0x01019107#32).getLsbD 15
      ∧ (launchedBy 0x01011107#32).ctl.blkcnt ≠ (0x01021107#32).extractLsb' 16 8
      ∧ (launchedBy 0x01011107#32).ctl.sdport ≠ (0x21011107#32).extractLsb' 29 2
      ∧ (launchedBy 0x01011107#32).cmdarg ≠ 5#32 ∧ (launchedBy 0x01011107#32).dmasa ≠ 4#32
      ∧ (launchedBy 0x01011107#32).blen ≠ (0x1FE#32).extractLsb' 0 11
      ∧ (launchedBy 0x01011107#32).tout ≠ (0#32).extractLsb' 0 24
      ∧ ((0x9#32).getLsbD 1 = false ∧ (launchedBy 0x01011107#32).dmactl.sgen ≠ (0x9#32).getLsbD 3)
      ∧ ((launchedBy 0x01011107#32).dmactl.dmaen = true ∧ (0#32).getLsbD 0 = false ∧ (0#32).getLsbD 1 = false)
      ∧ (launchedBy 0x01011107#32).gctl.sden = true := by
  decide +kernel

/-- `OneTransactionInFlight`, what is allowed: a register that is not of the buffer, and a word of `CTL` that changes
`SDNWR` and the clock bits, in flight and while `CTLRST` is pending. -/
theorem witness_allowedInFlight :
    (regAt 0x834#12 = some .resp1 ∧ ∀ i, Reg.resp1 ≠ .fb i)
      ∧ legalLaunch (ctlNow (launchedBy 0x01011107#32)) = true
      ∧ legalLaunch (ctlNow { on with ctl := { on.ctl with ctlrst := true } }) = true
      ∧ ((0x8F011187#32).getLsbD 14 = (launchedBy 0x01011107#32).ctl.ctlrst
        ∧ 0x8F011187#32 &&& 0x60FFBF7F#32 = ctlNow (launchedBy 0x01011107#32) &&& 0x60FFBF7F#32)
      ∧ ((0x81014000#32).getLsbD 14 = { on with ctl := { on.ctl with ctlrst := true } }.ctl.ctlrst
        ∧ 0x81014000#32 &&& 0x60FFBF7F#32
          = ctlNow { on with ctl := { on.ctl with ctlrst := true } } &&& 0x60FFBF7F#32) := by
  refine ⟨⟨rfl, ?_⟩, by decide +kernel⟩
  intro i h
  cases h

/-- `RefuseIllegalLaunch`: an illegal set requested and one standing (V22), V26, V100, and the data launches V67, V68,
V68b, V68d and one while the sequencer alone is halted. -/
theorem witness_refuseIllegalLaunch :
    (∀ n ∈ [0x01010021, 0x41010001, 0x01010803, 0x09009107, 0x09019107],
        (BitVec.ofNat 32 n).getLsbD 14 = false ∧ requested (BitVec.ofNat 32 n) on ≠ 0#32)
      ∧ legalLaunch ((ctlNow on &&& 0x7F#32) ||| requested 0x01010021#32 on) = false
      ∧ (let s := launchedBy 0x01010012#32
        requested 0x01010012#32 s = 0#32
          ∧ legalLaunch ((ctlNow s &&& 0x7F#32) ||| requested 0x01010012#32 s) = false)
      ∧ 2 ≤ (portField 0x41010001#32).toNat
      ∧ { on with eng := { on.eng with halted := true } }.eng.halted = true
      ∧ ¬DataLegal ((0x09009107#32).extractLsb' 16 8).toNat on
      ∧ ¬DataLegal 1 { on with dmasa := 0x00800002#32 } ∧ ¬DataLegal 1 { on with blen := 0x1FE#11 }
      ∧ ¬DataLegal 1 { on with dmasa := 0xFFFFFE04#32 } ∧ ¬DataLegal 1 { on with dma := { on.dma with halted := true } }
      := by
  decide +kernel

/-- `RefuseIllegalLaunch`, the commands. -/
theorem witness_refuseCommand :
    Quiet { on with eng := { on.eng with halted := true } }
      ∧ (Quiet { on with ctl := { on.ctl with sdport := 2#2 } }
        ∧ 2 ≤ { on with ctl := { on.ctl with sdport := 2#2 } }.ctl.sdport.toNat)
      ∧ (Quiet { on with dmasa := 2#32 } ∧ ¬DataLegal 1 { on with dmasa := 2#32 })
      ∧ (Quiet { on with ctl := { on.ctl with blkcnt := 0#8 } }
        ∧ ¬DataLegal { on with ctl := { on.ctl with blkcnt := 0#8 } }.ctl.blkcnt.toNat
          { on with ctl := { on.ctl with blkcnt := 0#8 } }) := by
  refine ⟨?_, ⟨?_, ?_⟩, ⟨?_, ?_⟩, ?_, ?_⟩ <;> decide +kernel

/-- `ClocksAndCommandOutput`: the three operations, on both ports. -/
theorem witness_clocksAndCommand :
    (EngineReady (launchedBy 0x21010020#32) ∧ (launchedBy 0x21010020#32).ctl.clk74oen = true)
      ∧ (EngineReady (launchedBy 0x01010040#32) ∧ (launchedBy 0x01010040#32).ctl.clk8oen = true)
      ∧ (EngineReady (launchedBy 0x21013F47#32) ∧ (launchedBy 0x21013F47#32).ctl.coen = true
        ∧ (launchedBy 0x21013F47#32).ctl.clk74oen = false) := by
  decide +kernel

/-- `HeldOperations`: each condition missing on its own, and the three resets without `SDEN`. -/
theorem witness_heldOperations :
    ¬EngineReady State.reset ∧ ¬EngineReady { on with ctl := { on.ctl with sdport := 2#2 } }
      ∧ ¬EngineReady { on with eng := { on.eng with halted := true } }
      ∧ ¬EngineReady { on with eng := { on.eng with stuck := true } }
      ∧ ¬EngineReady { on with ctl := { on.ctl with ctlrst := true } }
      ∧ ¬EngineReady { on with gctl := { gctlrst := true, sden := true } }
      ∧ (EngineReady { on with dmactl := { on.dmactl with dmaen := false } }
        ∧ ¬DataReady { on with dmactl := { on.dmactl with dmaen := false } })
      ∧ { State.reset with ctl := { on.ctl with ctlrst := true } }.ctl.ctlrst = true
      ∧ { State.reset with dmactl := { on.dmactl with dmarst := true } }.dmactl.dmarst = true
      ∧ { State.reset with gctl := { gctlrst := true, sden := false } }.gctl.gctlrst = true := by
  decide +kernel

/-- `HeldOperations`, `StuckWithoutTimeout`, `OtherPortUntouched`: an operation of the group. -/
theorem witness_isCtlOp : IsCtlOp .clk74o ∧ IsCtlOp .dout := by
  simp [IsCtlOp]

/-- `ShortResponse`: a correct frame with a data phase pending, and V44's without. -/
theorem witness_shortResponse :
    let s := awaits 0x01011106#32 (some 0x110000090067#48)
    let u := awaits 0x01012942#32 (some 0x3FC0FF8000FF#48)
    (EngineReady s ∧ s.ctl.rien = .known true ∧ s.ctl.coen = false ∧ s.ctl.clk74oen = false
        ∧ askResp48 s = some 0x110000090067#48
        ∧ crc7 (bitsMsb ((0x110000090067#48).extractLsb' 8 40)) = (0x110000090067#48).extractLsb' 1 7)
      ∧ (EngineReady u ∧ u.ctl.rien = .known true ∧ u.ctl.coen = false ∧ u.ctl.clk74oen = false
        ∧ askResp48 u = some 0x3FC0FF8000FF#48 ∧ dataPending u = false) := by
  decide +kernel

/-- `LongResponse`: V50 with a data phase pending, V51 without. -/
theorem witness_longResponse :
    let f := 0x3F0353445355303847801234567801235B#136
    let s := awaitsLong 0x01010214#32 (some f)
    let u := awaitsLong 0x01010210#32 (some 0x3F0353445355303847801234567801235F#136)
    (EngineReady s ∧ s.ctl.r2en = .known true ∧ s.ctl.coen = false ∧ s.ctl.clk74oen = false ∧ askResp136 s = some f
        ∧ crc7 (bitsMsb (f.extractLsb' 8 120)) = f.extractLsb' 1 7)
      ∧ (EngineReady u ∧ u.ctl.r2en = .known true ∧ u.ctl.coen = false ∧ u.ctl.clk74oen = false
        ∧ askResp136 u = some 0x3F0353445355303847801234567801235F#136 ∧ dataPending u = false) := by
  decide +kernel

/-- `MismatchWithDataHalts`: V47, and V51 with a data phase pending. -/
theorem witness_mismatchWithData :
    let s := awaits 0x01011106#32 (some 0x110000190067#48)
    let f := 0x3F0353445355303847801234567801235F#136
    let u := awaitsLong 0x01010218#32 (some f)
    (EngineReady s ∧ s.ctl.rien = .known true ∧ s.ctl.coen = false ∧ s.ctl.clk74oen = false
        ∧ askResp48 s = some 0x110000190067#48
        ∧ crc7 (bitsMsb ((0x110000190067#48).extractLsb' 8 40)) ≠ (0x110000190067#48).extractLsb' 1 7
        ∧ dataPending s = true)
      ∧ (EngineReady u ∧ u.ctl.r2en = .known true ∧ u.ctl.coen = false ∧ u.ctl.clk74oen = false ∧ askResp136 u = some f
        ∧ crc7 (bitsMsb (f.extractLsb' 8 120)) ≠ f.extractLsb' 1 7 ∧ dataPending u = true) := by
  decide +kernel

/-- `ResponseTimeout`: V48 with and without a data phase pending, V52 too, the smallest timeout. -/
theorem witness_responseTimeout :
    (∀ s ∈ [{ awaits 0x01013702#32 none with tout := 1#24 }, awaits 0x01011106#32 none],
        EngineReady s ∧ s.ctl.coen = false ∧ s.ctl.clk74oen = false ∧ s.tout ≠ 0#24 ∧ s.ctl.rien = .known true
          ∧ askResp48 s = none)
      ∧ ∀ s ∈ [awaitsLong 0x01010210#32 none, awaitsLong 0x01010218#32 none],
        EngineReady s ∧ s.ctl.coen = false ∧ s.ctl.clk74oen = false ∧ s.tout ≠ 0#24 ∧ s.ctl.r2en = .known true
          ∧ askResp136 s = none := by
  decide +kernel

/-- `StuckWithoutTimeout`: V49, V70's kind, and a stuck engine. -/
theorem witness_stuck :
    let s := { awaits 0x01013702#32 none with tout := 0#24 }
    let u := { awaitsLong 0x01010210#32 none with tout := 0#24 }
    let v := { receiving 0x00800000#32 none with tout := 0#24 }
    (EngineReady s ∧ s.tout = 0#24 ∧ s.ctl.rien = .known true ∧ s.ctl.coen = false ∧ s.ctl.clk74oen = false
        ∧ askResp48 s = none)
      ∧ (EngineReady u ∧ u.tout = 0#24 ∧ u.ctl.r2en = .known true ∧ u.ctl.coen = false ∧ u.ctl.clk74oen = false
        ∧ askResp136 u = none)
      ∧ (EngineReady v ∧ v.tout = 0#24 ∧ (DataReady v ∧ v.eng.phase = .dataIn ∧ v.dmactl.dmabusy = .known true
        ∧ 0 < v.eng.blocksLeft) ∧ askBlock v = none)
      ∧ { on with eng := { on.eng with stuck := true } }.eng.stuck = true := by
  decide +kernel

/-- `HaltDataEffect`: with and without `DIEN`; a listed byte inside the destination and one next to it. -/
theorem witness_haltData :
    let s := { receiving 0xFFFFFFFC#32 none with mem := [(0xFFFFFFFB, 1#8), (0xFFFFFFFF, 2#8)] }
    (s.ctl.dien = .known true ∧ s.dmactl.sgen = false
        ∧ (s.dmasa.toNat ≤ 0xFFFFFFFF ∧ 0xFFFFFFFF < s.dmasa.toNat + s.ctl.blkcnt.toNat * (s.blen.toNat + 1))
        ∧ memGet (haltData s).mem 0xFFFFFFFB = some 1#8 ∧ memGet s.mem 0xFFFFFFFB = some 1#8
        ∧ memGet (haltData s).mem 0xFFFFFFFF = none)
      ∧ (sending 0#32).ctl.dien ≠ .known true := by
  decide +kernel

/-- The table of `scattering` has two known entries, the end mark on the last. -/
theorem tableAt_scattering (s : State) :
    TableAt 0x00900000 [(0x00800000#32, 0x00000004#32), (0x00810000#32, 0x80000004#32)]
      (scattering 0x80000004#32 s).mem :=
  ⟨by simp, two_entries (P := fun k e =>
      memGetWord (scattering 0x80000004#32 on).mem (0x00900000 + 8 * k) = some e.1
        ∧ memGetWord (scattering 0x80000004#32 on).mem (0x00900000 + 8 * k + 4) = some e.2
        ∧ (e.2.getLsbD 31 = true ↔ k + 1 = 2)) (by decide +kernel) (by decide +kernel)⟩

/-- A table of two entries without an end mark, after which memory is unknown. -/
theorem tableUnknown_scattering : TableUnknown 0x00900000 (scattering 0x00000004#32 on).mem := by
  have h : memGetWord (scattering 0x00000004#32 on).mem (0x00900000 + 8 * 2) = none := by decide +kernel
  have h0 : memGetWord (scattering 0x00000004#32 on).mem (0x00900000 + 8 * 0 + 4) = some 0x00000004#32 := by
    decide +kernel
  have h1 : memGetWord (scattering 0x00000004#32 on).mem (0x00900000 + 8 * 1 + 4) = some 0x00000004#32 := by
    decide +kernel
  refine ⟨2, fun k hk => ⟨0x00000004#32, ?_, by decide⟩, .inl h⟩
  rcases (by omega : k = 0 ∨ k = 1) with rfl | rfl
  · exact h0
  · exact h1

/-- `HaltDataEffect`, `DataStart`: scatter-gather mode, with noted segments, with none, and before the start. -/
theorem witness_haltScatter :
    let s := scattering 0x80000004#32 (receiving 0#32 none)
    let u := { s with dmactl := { s.dmactl with dmabusy := .known false } }
    (s.ctl.dien = .known true ∧ s.dmactl.sgen = true ∧ s.dmactl.dmabusy = .known true ∧ s.dma.dest = some [])
      ∧ { s with dma := { s.dma with dest := none } }.dma.dest = none
      ∧ (u.ctl.dien = .known true ∧ u.dmactl.sgen = true ∧ u.dmactl.dmabusy ≠ .known true)
      ∧ (u.dmasa.toNat = 0x00900000
        ∧ TableAt 0x00900000 [(0x00800000#32, 0x00000004#32), (0x00810000#32, 0x80000004#32)] u.mem)
      ∧ (DataReady u ∧ u.dmactl.dmabusy = .known false ∧ u.eng.phase = .dataIn) := by
  intro s u
  refine ⟨⟨rfl, rfl, rfl, rfl⟩, rfl, ⟨rfl, rfl, by decide⟩, ⟨by decide +kernel, tableAt_scattering (receiving 0#32 none)⟩, ?_, rfl, by decide⟩
  decide +kernel

/-- `DataStart`: V66b, both directions, both modes, also after a response timeout. -/
theorem witness_dataStart :
    (∀ u ∈ [launchedBy 0x09FF9204#32, launchedBy 0x09FF9908#32], ∀ b ∈ [false, true],
      ∀ x ∈ [Held.known false, Held.any],
      let s := { u with blen := 0x7FF#11, dmactl := { dmaen := true, dmarst := false, sgen := b, dmabusy := x } }
      DataReady s ∧ NotBusy s ∧ (s.eng.phase = .dataIn ∨ s.eng.phase = .dataOut)
        ∧ byteCount s = 522240) := by
  decide +kernel

/-- A block step of `DI` may run (`BlockInStored`, `BlockInFails`, `BlockAborts`, `StuckWithoutTimeout`). -/
theorem inBlock_receiving (a : Word) (b : Option Block) : InBlock .dataIn (receiving a b) := by
  exact ⟨⟨⟨rfl, rfl, rfl, rfl, rfl, (by decide : (0#2).toNat < 2)⟩, rfl, rfl, rfl⟩, rfl, rfl, (by decide : 0 < 1)⟩

/-- A block step of `DO` may run (`BlockOutSent`, `BlockAborts`). -/
theorem inBlock_sending (a : Word) : InBlock .dataOut (sending a) := by
  exact ⟨⟨⟨rfl, rfl, rfl, rfl, rfl, (by decide : (0#2).toNat < 2)⟩, rfl, rfl, rfl⟩, rfl, rfl, (by decide : 0 < 1)⟩

/-- `BlockInStored`: the last word of the address space, with the words below it and at 0 failing. -/
theorem witness_blockIn :
    let s := { receiving 0xFFFFFFFC#32 (some beef) with busErr := [0xFFFFFFF8#32, 0#32] }
    InBlock .dataIn s ∧ BlockRange 0xFFFFFFFC#32 s ∧ askBlock s = some beef
      ∧ beef.crcs = lineCrcs s.ctl.dbw beef.bytes := by
  refine ⟨inBlock_receiving 0xFFFFFFFC#32 (some beef), ⟨rfl, rfl, rfl, by decide +kernel, ?_⟩, rfl, by decide +kernel⟩
  exact List.forall_mem_cons.mpr ⟨by decide, List.forall_mem_cons.mpr ⟨by decide, by simp⟩⟩

/-- The table of `scattering` is ready. -/
theorem tableReady_scattering (s : State) (hl : s.lent = []) (hb : s.busErr = []) :
    TableReady 0x00900000 [(0x00800000#32, 0x00000004#32), (0x00810000#32, 0x80000004#32)]
      (scattering 0x80000004#32 s) := by
  refine ⟨rfl, rfl, by decide, fun k e h => ?_, fun x hx => ?_, fun c hc => ?_⟩
  · obtain ⟨h1, h2, _⟩ := (tableAt_scattering s).2 k e h
    exact ⟨h1, h2⟩
  · rw [show (scattering 0x80000004#32 s).busErr = s.busErr from rfl, hb] at hx; cases hx
  · rw [show (scattering 0x80000004#32 s).lent = s.lent from rfl, hl] at hc; cases hc

/-- `BlockInStored`: V90 with segments of four bytes. -/
theorem witness_blockInScatter :
    let s := scattering 0x80000004#32 (receiving 0#32 (some eights))
    InBlock .dataIn s
      ∧ TableReady 0x00900000 [(0x00800000#32, 0x00000004#32), (0x00810000#32, 0x80000004#32)] s
      ∧ blockLen s % 4 = 0
      ∧ scatterWords (blockLen s / 4) s.dma [(0x00800000#32, 0x00000004#32), (0x00810000#32, 0x80000004#32)]
        = some (scatterAccesses, scatterEnd)
      ∧ (∀ r ∈ scatterAccesses, r.2 ∉ s.busErr ∧ r.2.toNat + 4 ≤ 2 ^ 32
        ∧ (r.2.toNat + 4 ≤ 0x00900000 ∨ 0x00900000 + 8 * 2 ≤ r.2.toNat))
      ∧ askBlock s = some eights ∧ eights.crcs = lineCrcs s.ctl.dbw eights.bytes := by
  intro s
  refine ⟨?_, tableReady_scattering _ rfl rfl, by decide, by decide +kernel, by decide +kernel, by decide +kernel,
    by decide +kernel⟩
  exact ⟨⟨⟨rfl, rfl, rfl, rfl, rfl, (by decide : (0#2).toNat < 2)⟩, rfl, rfl, rfl⟩, rfl, rfl, (by decide : 0 < 1)⟩

/-- `BlockInFails`: one line's CRC wrong; and no block. -/
theorem witness_blockInFails :
    let b : Block := { beef with crcs := [0x1EF0#16, 0xBB9A#16, 0x9D49#16, 0x1291#16] }
    (InBlock .dataIn (receiving 0#32 (some b)) ∧ askBlock (receiving 0#32 (some b)) = some b
        ∧ b.crcs ≠ lineCrcs (receiving 0#32 (some b)).ctl.dbw b.bytes)
      ∧ (InBlock .dataIn (receiving 0#32 none) ∧ askBlock (receiving 0#32 none) = none
        ∧ (receiving 0#32 none).tout ≠ 0#24) :=
  ⟨⟨inBlock_receiving _ _, rfl, by decide +kernel⟩, inBlock_receiving _ _, rfl, by decide⟩

/-- `DataDone`: both directions. -/
theorem witness_dataDone :
    (∀ s ∈ [receiving 0#32 none, sending 0#32],
      let u := { s with eng := { s.eng with phase := .dataEnd, blocksLeft := 0 } }
      DataReady u ∧ u.eng.phase = .dataEnd ∧ (u.ctl.dien = .known true ∨ u.ctl.doen = .known true)) := by
  decide +kernel

/-- `BlockOutSent`: the last word of the address space, a table as V90's, and a store by another master. -/
theorem witness_blockOut :
    (InBlock .dataOut (sending 0xFFFFFFFC#32) ∧ (sending 0xFFFFFFFC#32).eng.dsub = .send
      ∧ BlockRange 0xFFFFFFFC#32 (sending 0xFFFFFFFC#32))
    ∧ (let s := scattering 0x80000004#32 (sending 0#32)
      InBlock .dataOut s ∧ s.eng.dsub = .send
        ∧ TableReady 0x00900000 [(0x00800000#32, 0x00000004#32), (0x00810000#32, 0x80000004#32)] s
        ∧ blockLen s % 4 = 0
        ∧ scatterWords (blockLen s / 4) s.dma [(0x00800000#32, 0x00000004#32), (0x00810000#32, 0x80000004#32)]
          = some (scatterAccesses, scatterEnd)
        ∧ ∀ r ∈ scatterAccesses, r.2 ∉ s.busErr ∧ r.2.toNat + 4 ≤ 2 ^ 32)
    ∧ nextTurn { sending 0#32 with turns := [.env], inputs := [.memStore 0xFFFFFFFF#32 1#8] } = .env := by
  refine ⟨⟨inBlock_sending _, rfl, ⟨rfl, rfl, rfl, by decide +kernel, fun _ h => nomatch h⟩⟩, ?_, rfl⟩
  intro s
  refine ⟨?_, rfl, tableReady_scattering _ rfl rfl, by decide, by decide +kernel, by decide +kernel⟩
  exact ⟨⟨⟨rfl, rfl, rfl, rfl, rfl, (by decide : (0#2).toNat < 2)⟩, rfl, rfl, rfl⟩, rfl, rfl, (by decide : 0 < 1)⟩

/-- `StatusAndReady`: the tokens of V80, V82, V82b, V83, and the wait of V84. -/
theorem witness_statusAndReady :
    (∀ v ∈ [some 0b010#3, some 0b111#3, some 0b000#3, none],
      DataReady (answered v) ∧ (answered v).eng.phase = .dataOut ∧ (answered v).dmactl.dmabusy = .known true
        ∧ 0 < (answered v).eng.blocksLeft ∧ (answered v).eng.dsub = .waitStatus ∧ askStatus (answered v) = v)
      ∧ (let s := { sending 0#32 with eng := { (sending 0#32).eng with dsub := .waitReady } }
        DataReady s ∧ s.eng.phase = .dataOut ∧ s.dmactl.dmabusy = .known true ∧ s.eng.dsub = .waitReady) := by
  decide +kernel

/-- `BlockAborts`: V97's first word (`k` = 0), and V96's later one (`k` = 1) with the block of V63b. -/
theorem witness_blockAborts :
    let s := failing 0x00800000#32 (sending 0x00800000#32)
    let u := failing 0x00800004#32 (eightBytes (receiving 0x00800000#32 (some eights)))
    (s.dmactl.sgen = false ∧ s.dma.cur = .known 0x00800000#32 ∧ 4 * (0 + 1) ≤ blockLen s
        ∧ (∀ x ∈ s.busErr, x.toNat < 0x00800000 ∨ 0x00800000 + 4 * 0 ≤ x.toNat)
        ∧ 0x00800000#32 + BitVec.ofNat 32 (4 * 0) ∈ s.busErr ∧ InBlock .dataOut s ∧ s.eng.dsub = .send)
      ∧ (u.dmactl.sgen = false ∧ u.dma.cur = .known 0x00800000#32 ∧ 4 * (1 + 1) ≤ blockLen u
        ∧ (∀ x ∈ u.busErr, x.toNat < 0x00800000 ∨ 0x00800000 + 4 * 1 ≤ x.toNat)
        ∧ 0x00800000#32 + BitVec.ofNat 32 (4 * 1) ∈ u.busErr
        ∧ InBlock .dataIn u ∧ askBlock u = some eights ∧ eights.crcs = lineCrcs u.ctl.dbw eights.bytes) := by
  intro s u
  refine ⟨⟨rfl, rfl, by decide, fun x hx => ?_, by decide +kernel, inBlock_sending 0x00800000#32, rfl⟩,
    rfl, rfl, by decide, fun x hx => ?_, by decide +kernel, ?_, by decide +kernel, by decide +kernel⟩
  · cases List.mem_singleton.1 hx; decide
  · cases List.mem_singleton.1 hx; decide
  exact ⟨⟨⟨rfl, rfl, rfl, rfl, rfl, (by decide : (0#2).toNat < 2)⟩, rfl, rfl, rfl⟩, rfl, rfl, (by decide : 0 < 1)⟩

/-- `BlockAborts`, scatter-gather: the second word of V90 failing, both directions. -/
theorem witness_blockAbortsScatter :
    let es := [(0x00800000#32, 0x00000004#32), (0x00810000#32, 0x80000004#32)]
    ∀ s ∈ [scattering 0x80000004#32 (receiving 0#32 (some eights)), scattering 0x80000004#32 (sending 0#32)],
      let u := failing 0x00810000#32 s
      TableReady 0x00900000 es u ∧ 4 * (1 + 1) ≤ blockLen u
        ∧ scatterWords (1 + 1) u.dma es = some ([scatterAccesses[0]] ++ [scatterAccesses[1]], scatterEnd)
        ∧ (∀ x ∈ [scatterAccesses[0]], x.2 ∉ u.busErr ∧ x.2.toNat + 4 ≤ 2 ^ 32
          ∧ (x.2.toNat + 4 ≤ 0x00900000 ∨ 0x00900000 + 8 * 2 ≤ x.2.toNat))
        ∧ scatterAccesses[1].2 ∈ u.busErr
        ∧ (InBlock .dataOut u ∧ u.eng.dsub = .send ∨ InBlock .dataIn u ∧ askBlock u = some eights) := by
  intro es s hs
  rcases List.mem_cons.1 hs with rfl | hs
  · refine ⟨⟨rfl, rfl, by decide, ?_, fun x hx => ?_, nil_all rfl⟩, by decide, by decide +kernel,
      by decide +kernel, by decide +kernel, .inr ⟨?_, by decide +kernel⟩⟩
    · exact fun k e h => ⟨((tableAt_scattering on).2 k e h).1, ((tableAt_scattering on).2 k e h).2.1⟩
    · cases List.mem_singleton.1 hx; decide
    · exact ⟨⟨⟨rfl, rfl, rfl, rfl, rfl, (by decide : (0#2).toNat < 2)⟩, rfl, rfl, rfl⟩, rfl, rfl, (by decide : 0 < 1)⟩
  · rcases List.mem_cons.1 hs with rfl | hs
    · refine ⟨⟨rfl, rfl, by decide, ?_, fun x hx => ?_, nil_all rfl⟩, by decide, by decide +kernel,
        by decide +kernel, by decide +kernel, .inl ⟨?_, rfl⟩⟩
      · exact fun k e h => ⟨((tableAt_scattering on).2 k e h).1, ((tableAt_scattering on).2 k e h).2.1⟩
      · cases List.mem_singleton.1 hx; decide
      · exact ⟨⟨⟨rfl, rfl, rfl, rfl, rfl, (by decide : (0#2).toNat < 2)⟩, rfl, rfl, rfl⟩, rfl, rfl,
          (by decide : 0 < 1)⟩
    · cases hs

/-- `BlockAborts`: a later word without an address, by a failing table word (V95) or a malformed entry (as V94c), and a
first one after the end of the table (as V91), both directions. -/
theorem witness_blockWithoutAddress :
    let es := [(0x00800000#32, 0x00000004#32)]
    let i := scattering 0x84000004#32 (receiving 0#32 (some eights))
    let o := scattering 0x84000004#32 (sending 0#32)
    let d : Dma := { scatterEnd with
      cur := .known 0x00800004#32, padPtr := .known 0x00900008, eotSeen := false, dest := some [(0x00800000, 4)] }
    (∀ s ∈ [i, o, failing 0x00900008#32 i, failing 0x00900008#32 o],
      scatterWords 1 s.dma es = some ([scatterAccesses[0]], d) ∧ 4 * (1 + 1) ≤ blockLen s
        ∧ s.lent = [] ∧ ∀ x ∈ [scatterAccesses[0]], x.2 ∉ s.busErr)
      ∧ TableReady 0x00900000 es i ∧ TableReady 0x00900000 es (failing 0x00900008#32 o)
      ∧ refuses (nextAddr { i with dma := d, mem := putWords i.overlap i.mem [scatterAccesses[0]] (leWords eights.bytes) }) = true ∧ refuses (nextAddr { o with dma := d }) = true
      ∧ stops (nextAddr { failing 0x00900008#32 i with
        dma := d, mem := putWords i.overlap i.mem [scatterAccesses[0]] (leWords eights.bytes) }) = true
      ∧ stops (nextAddr { failing 0x00900008#32 o with dma := d }) = true
      ∧ (let s := { o with dma := { o.dma with eotSeen := true } }
        scatterWords 0 s.dma [] = some ([], s.dma) ∧ TableReady 0x00900000 [] s ∧ stops (nextAddr s) = true) := by
  intro es i o d
  have he : ∀ k e, es[k]? = some e → memGetWord i.mem (0x00900000 + 8 * k) = some e.1
      ∧ memGetWord i.mem (0x00900000 + 8 * k + 4) = some e.2 :=
    one_entry (P := fun k e => memGetWord i.mem (0x00900000 + 8 * k) = some e.1
      ∧ memGetWord i.mem (0x00900000 + 8 * k + 4) = some e.2) (by decide +kernel)
  refine ⟨by decide +kernel, ⟨rfl, rfl, by decide, he, nil_all rfl, nil_all rfl⟩,
    ⟨rfl, rfl, by decide, he, fun x hx => by cases List.mem_singleton.1 hx; decide, nil_all rfl⟩, by decide +kernel, by decide +kernel,
    by decide +kernel, by decide +kernel,
    rfl, ⟨rfl, rfl, by decide, fun k e h => by simp at h, nil_all rfl, nil_all rfl⟩, by decide +kernel⟩

/-- `NextAddress`: contiguous, inside a segment, at its end with the end mark, past the address space, on a failing
word. -/
theorem witness_nextAddress :
    ((moving 4#32 0xFFFFFFFC#32).dma.cur = .known 0xFFFFFFFC#32 ∧ (moving 4#32 0xFFFFFFFC#32).dmactl.sgen = false)
      ∧ (let s := { atEntry 0 0#32 0#32 with dma := { on.dma with cur := .known 8#32, segLeft := 4 } }
        s.dma.cur = .known 8#32 ∧ s.dmactl.sgen = true ∧ s.dma.segLeft ≠ 0)
      ∧ (let s := { atEntry 0 0#32 0#32 with dma := { on.dma with segLeft := 0, eotSeen := true } }
        s.dmactl.sgen = true ∧ s.dma.segLeft = 0 ∧ s.dma.eotSeen = true)
      ∧ (let s := atEntry 0xFFFFFFFC 0#32 0#32
        s.dmactl.sgen = true ∧ s.dma.segLeft = 0 ∧ s.dma.eotSeen = false ∧ s.dma.padPtr = .known 0xFFFFFFFC
          ∧ 2 ^ 32 < 0xFFFFFFFC + 8)
      ∧ (let s := { atEntry 0xFFFFFFF8 0#32 0#32 with busErr := [0xFFFFFFF8#32] }
        s.dmactl.sgen = true ∧ s.dma.segLeft = 0 ∧ s.dma.eotSeen = false ∧ s.dma.padPtr = .known 0xFFFFFFF8
          ∧ 0xFFFFFFF8 + 8 ≤ 2 ^ 32 ∧ BitVec.ofNat 32 0xFFFFFFF8 ∈ s.busErr)
      ∧ (let s := { atEntry 0xFFFFFFF8 0x00800000#32 4#32 with busErr := [0xFFFFFFFC#32] }
        s.dmactl.sgen = true ∧ s.dma.segLeft = 0 ∧ s.dma.eotSeen = false ∧ s.dma.padPtr = .known 0xFFFFFFF8
          ∧ BitVec.ofNat 32 0xFFFFFFF8 ∉ s.busErr ∧ BitVec.ofNat 32 (0xFFFFFFF8 + 4) ∈ s.busErr
          ∧ memGetWord s.mem 0xFFFFFFF8 = some 0x00800000#32 ∧ s.lent = []) := by
  decide +kernel

/-- `NextAddress`: an entry at the last place of the address space that ends exactly at 2^32, and the malformed
entries V94, V94b, V94c, a count that is no multiple of 4, and one that passes 2^32. -/
theorem witness_entries :
    ∀ n ∈ [(0xFFFFFFFC, 0x80000004), (0x00800002, 0x80000200), (0x00800000, 0x80000000), (0x00800000, 0x84000200),
        (0x00800000, 0x00000002), (0xFFFFFFFC, 0x00000008)],
      let e : Word × Word := (BitVec.ofNat 32 n.1, BitVec.ofNat 32 n.2)
      let s := atEntry 0xFFFFFFF8 e.1 e.2
      s.dmactl.sgen = true ∧ s.dma.segLeft = 0 ∧ s.dma.eotSeen = false ∧ s.dma.padPtr = .known 0xFFFFFFF8
        ∧ 0xFFFFFFF8 + 8 ≤ 2 ^ 32 ∧ BitVec.ofNat 32 0xFFFFFFF8 ∉ s.busErr
        ∧ BitVec.ofNat 32 (0xFFFFFFF8 + 4) ∉ s.busErr
        ∧ ∀ j, j < 4 → memGet s.mem (0xFFFFFFF8 + j) = some (e.1.extractLsb' (8 * j) 8)
          ∧ memGet s.mem (0xFFFFFFF8 + 4 + j) = some (e.2.extractLsb' (8 * j) 8) := by
  decide +kernel

/-- `CtlrstEffect`, `DmarstEffect`, `GctlrstEffect`: a live data operation, and an idle engine. -/
theorem witness_resets :
    { receiving 0#32 none with ctl := { wordCtl 0x01018004#32 with ctlrst := true } }.ctl.ctlrst = true
      ∧ (let s := { receiving 0#32 none with
            dmactl := { dmaen := true, dmarst := true, sgen := false, dmabusy := .known true } }
        s.dmactl.dmarst = true ∧ dataPhase s = true ∧ s.eng.halted = false ∧ s.ctl.rien = .known false
          ∧ s.ctl.r2en = .known false)
      ∧ (let s := { on with dmactl := { on.dmactl with dmarst := true } }
        s.dmactl.dmarst = true ∧ dataPhase s = false)
      ∧ { on with ctl := { on.ctl with ctlrst := true }, dmactl := { on.dmactl with dmabusy := .any } }.ctl.ctlrst = true
      ∧ { receiving 0#32 none with gctl := { gctlrst := true, sden := true } }.gctl.gctlrst = true := by
  decide +kernel

/-- `CardDetectStep`, `PresenceAndPower`: both sources of both ports. -/
theorem witness_cardSources :
    on.inten.cdsrc0 = false ∧ on.inten.cdsrc1 = false
      ∧ { on with inten := { on.inten with cdsrc0 := true, cdsrc1 := true } }.inten.cdsrc1 = true
      ∧ cdsts { on with pins := { on.pins with ded1 := true } } .p1 ≠ on.cdPrev1
      ∧ cdsts { on with pins := { on.pins with ded0 := true } } .p0 ≠ on.cdPrev0 ∧ cdsts on .p0 = on.cdPrev0 := by
  decide +kernel

/-- `InterruptRequest`: `BLKDIF` known and the engine not halted; every enable 0. -/
theorem witness_interruptRequest :
    on.eng.halted = false ∧
    { on with intsts := { on.intsts with blkdif := .known true } }.intsts.blkdif = .known true
      ∧ (on.inten.blkdien = false ∧ on.inten.crcien = false ∧ on.inten.cdien0 = false ∧ on.inten.rtoien = false
        ∧ on.inten.ditoien = false ∧ on.dmainten.weotien = false)
      ∧ { on with inten := { on.inten with cdien1 := false } }.inten.cdien1 = false
      ∧ { on with dmainten := { abortien := false, weotien := false } }.dmainten.abortien = false
      ∧ { on with dtaien := false }.dtaien = false := by
  decide +kernel

/-- `CommandsWithoutData`, `CommandsWithData`: a ready and quiet engine; the data operands at the end of the address
space, one block and 255. -/
theorem witness_commands :
    CommandReady on ∧ CommandReady { on with dmactl := { on.dmactl with dmabusy := .any } }
      ∧ (let s := { on with dmasa := 0xFFFFFE00#32 }; CommandReady s ∧ DataLegal 1 s)
      ∧ (let s := { on with dmasa := 0xFFFE0200#32, ctl := { on.ctl with blkcnt := 255#8 } }
        CommandReady s ∧ DataLegal s.ctl.blkcnt.toNat s) := by
  refine ⟨⟨?_, ?_⟩, ⟨?_, ?_⟩, ⟨⟨?_, ?_⟩, ?_⟩, ⟨?_, ?_⟩, ?_⟩ <;> decide +kernel

theorem witness_submitTerminates : ∀ a : Answer, HostProg.AtMost 0 (HostProg.done a) := by
  exact fun a => .done 0 a

theorem witness_crc7Linear : [true, false, true].length = [false, false, true].length := rfl

/-- `StepKeepsMemoryForm`: a step that stores at the end of memory. -/
theorem witness_stepMemory :
    let s := { receiving 0xFFFFFFFC#32 (some beef) with
      turns := [.env], inputs := [.memStore 0xFFFFFFFF#32 7#8], mem := [(0, 1#8), (0xFFFFFFFF, 2#8)] }
    Memory.wf s.mem = true ∧ ∃ t, step s = .next t := ⟨by decide, _, rfl⟩

/-- `StepKeepsMemoryForm`: an overlap at the top of the address space, a store next to it, and a further word that
starts to lie in both buffers. -/
theorem witness_stepOverlap :
    let s := { on with
      overlap := [0xFFFFFFFC#32], mem := [(0, 1#8), (0xFFFFFFFB, 2#8)], turns := [.env]
      inputs := [.memStore 0xFFFFFFFF#32 7#8] }
    (OverlapAny s ∧ ∃ t, step s = .next t)
      ∧ nextTurn { s with inputs := [.overlap 3#32 true] } = .env := by
  refine ⟨⟨fun x hx => ?_, _, rfl⟩, rfl⟩
  simp only [overlapped, List.any_cons, List.any_nil, Bool.or_false, decide_eq_true_eq] at hx
  have h : 4294967292 ≤ x := hx.1
  simp only [memGet, show ¬0 = x by omega, show ¬4294967291 = x by omega, if_false]

/-- `StepKeepsConsistent`: a consistent state with a data operation in progress, and its next step. -/
theorem witness_stepConsistent :
    let s := { moving 0x0901980B#32 0#32 with
      turns := [.engine], ctl := wordCtl 0x09019808#32, eng := { (sending 0#32).eng with dsub := .waitReady } }
    Consistent s ∧ ∃ t, step s = .next t := by
  refine ⟨⟨?_, ?_, ?_, ?_, ?_, ?_, ?_, ?_⟩, _, rfl⟩ <;> decide +kernel

/-- `ConsistentMeansRule`: each of its premises holds in some consistent state. -/
theorem witness_consistentMeansRule :
    (Consistent on ∧ on.dmactl.dmabusy = .known false)
      ∧ (Consistent (launchedBy 0x01010020#32) ∧ (launchedBy 0x01010020#32).ctl.clk74oen = true)
      ∧ (Consistent (launchedBy 0x01010040#32) ∧ (launchedBy 0x01010040#32).ctl.clk8oen = true)
      ∧ (Consistent (receiving 0#32 none) ∧ (receiving 0#32 none).dmactl.dmabusy = .known true)
      ∧ ((receiving 0#32 none).eng.halted = false ∧ (receiving 0#32 none).dma.halted = false
        ∧ (receiving 0#32 none).gctl.gctlrst = false ∧ (receiving 0#32 none).eng.phase ≠ .reset) := by
  refine ⟨⟨⟨?_, ?_, ?_, ?_, ?_, ?_, ?_, ?_⟩, rfl⟩, ⟨⟨?_, ?_, ?_, ?_, ?_, ?_, ?_, ?_⟩, rfl⟩,
    ⟨⟨?_, ?_, ?_, ?_, ?_, ?_, ?_, ?_⟩, rfl⟩, ⟨⟨?_, ?_, ?_, ?_, ?_, ?_, ?_, ?_⟩, rfl⟩, rfl, rfl, rfl, ?_⟩ <;> decide +kernel

/-- `ConsistentMeansRule`, `StepKeepsConsistent`: both resets pending, a response timeout, the reset after it, and a
`CTLRST` performed while `GCTLRST` is pending. -/
theorem witness_consistentResets :
    Consistent { on with
        gctl := { gctlrst := true, sden := true }, ctl := { on.ctl with ctlrst := true }
        eng := { on.eng with phase := .reset } }
      ∧ Consistent { launchedBy 0x01013702#32 with
        eng := { on.eng with phase := .respIn, halted := true }, bcnt := .any
        dmactl := { on.dmactl with dmabusy := .any } }
      ∧ Consistent { on with bcnt := .any, dmactl := { on.dmactl with dmabusy := .any } }
      ∧ Consistent { on with gctl := { gctlrst := true, sden := true } } := by
  refine ⟨⟨?_, ?_, ?_, ?_, ?_, ?_, ?_, ?_⟩, ⟨?_, ?_, ?_, ?_, ?_, ?_, ?_, ?_⟩, ⟨?_, ?_, ?_, ?_, ?_, ?_, ?_, ?_⟩, ⟨?_, ?_, ?_, ?_, ?_, ?_, ?_, ?_⟩⟩ <;>
    decide +kernel

/-- `ConsistentMeansRule`: the phases `RESET` and `DATA_END`. -/
theorem witness_consistentPhases :
    Consistent { on with ctl := { on.ctl with ctlrst := true }, eng := { on.eng with phase := .reset } }
      ∧ Consistent { sending 0#32 with eng := { on.eng with phase := .dataEnd }, bcnt := .known 0#26 } := by
  refine ⟨⟨?_, ?_, ?_, ?_, ?_, ?_, ?_, ?_⟩, ⟨?_, ?_, ?_, ?_, ?_, ?_, ?_, ?_⟩⟩ <;> decide +kernel

/-- `FlagsAreSticky`: a step of the engine with every flag set. -/
theorem witness_flags :
    let s := { launchedBy 0x01010020#32 with
      turns := [.engine], dtaif := true, dmaintsts := { abortif := true, weotif := true }
      intsts := { on.intsts with blkdif := .known true, crcif := true, cdif0 := true, cdif1 := true
                                 rtoif := true, ditoif := true } }
    (∃ t, step s = .next t) ∧ nextTurn s ≠ .host ∧ nextTurn s ≠ .env :=
  ⟨⟨_, rfl⟩, by decide +kernel, by decide +kernel⟩

/-- `HaltsEndOnlyByReset`: a halt of each engine that ends, in each of the three ways. -/
theorem witness_halts :
    let h := { on with eng := { on.eng with halted := true }, dma := { on.dma with halted := true } }
    ends (step { h with turns := [.engine], ctl := { on.ctl with ctlrst := true } }) (fun t => !t.eng.halted) = true
      ∧ ends (step { h with turns := [.dmaReset], dmactl := { on.dmactl with dmarst := true } })
        (fun t => !t.dma.halted) = true
      ∧ ends (step { h with turns := [.globalReset], gctl := { gctlrst := true, sden := true } })
        (fun t => !t.eng.halted && !t.dma.halted) = true
      ∧ ends (step { h with turns := [.env], inputs := [.hardwareReset] })
        (fun t => !t.eng.halted && !t.dma.halted) = true := by
  decide +kernel

/-- `HistoryGrows`: a step of the engine. -/
theorem witness_historyGrows :
    (∃ t, step { launchedBy 0x01010020#32 with turns := [.engine] } = .next t)
      ∧ nextTurn { launchedBy 0x01010020#32 with turns := [.engine] } ≠ .env := ⟨⟨_, rfl⟩, by decide +kernel⟩

/-- `HostOperationFrame`: one operation of each kind. -/
theorem witness_hostOperation :
    (IsBusOp (.rd 0x820#12) ∧ ∃ t, exec (.rd 0x820#12) on = .next t)
      ∧ (IsBusOp (.wr 0x840#12 3#32) ∧ ∃ t, exec (.wr 0x840#12 3#32) on = .next t)
      ∧ (IsBusOp (.set 0x820#12 0x20#32) ∧ ∃ t, exec (.set 0x820#12 0x20#32) on = .next t)
      ∧ (IsBusOp (.clr 0x804#12 1#32) ∧ ∃ t, exec (.clr 0x804#12 1#32) on = .next t)
      ∧ (IsBusOp (.w1c .gintsts 1#32) ∧ ∃ t, exec (.w1c .gintsts 1#32) on = .next t) := by
  refine ⟨⟨by simp [IsBusOp], _, rfl⟩, ⟨by simp [IsBusOp], _, rfl⟩, ⟨by simp [IsBusOp], _, rfl⟩,
    ⟨by simp [IsBusOp], _, rfl⟩, ⟨by simp [IsBusOp], _, rfl⟩⟩

/-- `MemoryChangesOnlyByInput`, `OtherPortUntouched`: a `DO` step, and a response on the other port. -/
theorem witness_otherPort :
    ((∃ t, exec .dout (sending 0#32) = .next t) ∧ (sending 0#32).ctl.dien.isOn = false ∧ Instr.dout ≠ .di)
      ∧ (IsCtlOp .clk8o ∧ (∃ t, exec .clk8o (launchedBy 0x21010040#32) = .next t)
        ∧ selPort (launchedBy 0x21010040#32) = .p1)
      ∧ selPort (sending 0#32) = .p0 := by
  refine ⟨⟨⟨_, rfl⟩, rfl, by decide⟩, ⟨by simp [IsCtlOp], ⟨_, rfl⟩, rfl⟩, rfl⟩

end Sys2Proof.Tests
end

section
/-!
What an agent's turn amounts to, and from it that a step runs the decoded operation (rules R8, R10, R24).
-/

namespace Sys2Proof.Machine

/-! ### A step, by what is fetched -/

/-- The turn of an agent that has an operation is that operation. -/
theorem step_of_fetch_run {s u : State} {t : Turn} {i : Instr} (ht : nextTurn s = t)
    (hf : fetch t (takeTurn s) = .run i u) : step s = exec i u := by
  unfold step
  rw [ht]
  cases t with
  | cd p => cases hf
  | env => cases hf
  | host | engine | dmaReset | globalReset => simp only [hf]

/-- The turn of an agent without an operation only takes the turn. The outside world and the detectors fetch nothing,
yet their turns are steps of their own. -/
theorem step_of_fetch_nothing {s : State} {t : Turn} (ht : nextTurn s = t) (henv : t ≠ .env) (hcd : ∀ p, t ≠ .cd p)
    (hf : fetch t (takeTurn s) = .nothing) : step s = .next (takeTurn s) := by
  unfold step
  rw [ht]
  cases t with
  | cd p => exact absurd rfl (hcd p)
  | env => exact absurd rfl henv
  | host | engine | dmaReset | globalReset => simp only [hf]

/-- The detector's turn is its step. -/
theorem step_of_cd {s : State} {p : Port} (ht : nextTurn s = .cd p) : step s = .next (cdStep p (takeTurn s)) := by
  unfold step
  rw [ht]

/-- The outside world's turn is its step. -/
theorem step_of_env {s : State} (ht : nextTurn s = .env) : step s = .next (envStep (takeTurn s)) := by
  unfold step
  rw [ht]

/-! ### What is fetched -/

theorem fetchHost_nil {s : State} (hp : s.prog = []) : fetchHost s = .nothing := by
  unfold fetchHost
  rw [hp]

/-- The head of the program, where it is no bare launch word, is fetched as the operation it decodes to. -/
theorem fetchHost_cons {s : State} {c : Code} {rest : List Code} {i : Instr} (hp : s.prog = c :: rest)
    (hc : ∀ r w, c ≠ .word r w) (hd : decode c = .ok i) : fetchHost s = .run i { s with prog := rest } := by
  unfold fetchHost
  rw [hp]
  cases c with
  | word r w => exact absurd rfl (hc r w)
  | bus k sz off d => simp only [hd]
  | frame f => simp only [hd]

theorem fetchLaunch_ok {r : LaunchReg} {w : Word} {s : State} {i : Instr} (hd : decode (.word r w) = .ok i) :
    fetchLaunch r w s = .run i s := by
  unfold fetchLaunch
  rw [hd]

theorem fetchLaunch_error {r : LaunchReg} {w : Word} {s : State} {e : DecodeError}
    (hd : decode (.word r w) = .error e) : fetchLaunch r w s = .nothing := by
  unfold fetchLaunch
  rw [hd]

/-! ### The launch bits of the two reset registers (rules R112, R113) -/

/-- `DMACTL` without a pending `DMARST` launches nothing. -/
theorem decode_dmactlNow_idle {s : State} (h : s.dmactl.dmarst = false) :
    decode (.word .dmactl (dmactlNow s)) = .error .noOperation := by
  have hbit : (dmactlNow s).getLsbD 1 = false := by
    rw [dmactlNow_getLsbD s (by decide)]
    exact h
  simp only [decode, decodeLaunch, hbit, Bool.false_eq_true, if_false]

/-- `GCTL` without a pending `GCTLRST` launches nothing. -/
theorem decode_gctlNow_idle {s : State} (h : s.gctl.gctlrst = false) :
    decode (.word .gctl (gctlNow s)) = .error .noOperation := by
  have hbit : (gctlNow s).getLsbD 0 = false := (bits2_getLsbD _ s.gctl.sden).1.trans h
  simp only [decode, decodeLaunch, hbit, Bool.false_eq_true, if_false]

/-- The outside world without inputs does nothing. -/
theorem envStep_nil {s : State} (h : s.inputs = []) : envStep s = s := by
  unfold envStep
  rw [h]

/-! ### The statement -/

/-- Settles O9: each agent's turn by what it fetches; the agents with nothing to do have an empty program, a register
without launch bits, or no inputs. -/
theorem stepRunsDecoded : Obligations.StepRunsDecoded := by
  unfold Obligations.StepRunsDecoded
  refine ⟨?hostRun, ?engineRun, ?dmaRun, ?globalRun, ?takeTurn, ?hostIdle, ?engineIdle, ?dmaIdle, ?globalIdle,
    ?envIdle, ?detector⟩
  case hostRun => exact fun s c rest i ht hp hc hd => step_of_fetch_run ht (fetchHost_cons hp hc hd)
  case engineRun => exact fun s i ht hd => step_of_fetch_run ht (fetchLaunch_ok hd)
  case dmaRun => exact fun s i ht hd => step_of_fetch_run ht (fetchLaunch_ok hd)
  case globalRun => exact fun s i ht hd => step_of_fetch_run ht (fetchLaunch_ok hd)
  case takeTurn => exact fun s => rfl
  case hostIdle => exact fun s ht hp => step_of_fetch_nothing ht nofun nofun (fetchHost_nil hp)
  case engineIdle => exact fun s e ht hd => step_of_fetch_nothing ht nofun nofun (fetchLaunch_error hd)
  case dmaIdle =>
    exact fun s ht h => step_of_fetch_nothing ht nofun nofun (fetchLaunch_error (decode_dmactlNow_idle h))
  case globalIdle =>
    exact fun s ht h => step_of_fetch_nothing ht nofun nofun (fetchLaunch_error (decode_gctlNow_idle h))
  case envIdle =>
    intro s ht h
    rw [step_of_env ht, envStep_nil (s := takeTurn s) h]
  case detector => exact fun s p ht => step_of_cd ht

end Sys2Proof.Machine
end

section
/-!
What every step keeps: the invariants of rule R66, the flags that are set, and the history (rules R46 to R58, R61, R66).
-/

namespace Sys2Proof.Machine

/-! ### A step, by what it performs -/

/-- What holds after a step: it is enough to look at a turn without an operation, at each kind of operation, and at the
steps of the detectors and of the outside world. -/
theorem step_next_elim {s t : State} {P : State → Prop} (h : step s = .next t) (idle : P (takeTurn s))
    (bus : ∀ rest i, nextTurn s = .host → IsBusOp i → exec i { takeTurn s with prog := rest } = .next t → P t)
    (command : ∀ rest i, nextTurn s = .host → IsCommand i → exec i { takeTurn s with prog := rest } = .next t → P t)
    (ctlOp : ∀ i, IsCtlOp i → exec i (takeTurn s) = .next t → P t)
    (reset : ∀ i, i = .ctlrst ∨ i = .dmarst ∨ i = .gctlrst → exec i (takeTurn s) = .next t → P t)
    (detector : ∀ p, P (cdStep p (takeTurn s))) (env : nextTurn s = .env → P (envStep (takeTurn s))) : P t := by
  obtain ⟨hn, rfl | ⟨_, rest, i, _, _, hi | hi, hx⟩⟩ | ⟨_, rfl | ⟨i, hi | ⟨rfl, _⟩, hx⟩⟩ | ⟨_, rfl | ⟨_, hx⟩⟩
    | ⟨_, rfl | ⟨_, hx⟩⟩ | ⟨p, _, rfl⟩ | ⟨hn, rfl⟩ := step_cases h
  · exact idle
  · exact bus rest i hn hi hx
  · exact command rest i hn hi hx
  · exact idle
  · exact ctlOp i hi hx
  · exact reset _ (.inl rfl) hx
  · exact idle
  · exact reset _ (.inr (.inl rfl)) hx
  · exact idle
  · exact reset _ (.inr (.inr rfl)) hx
  · exact detector p
  · exact env hn

/-! ### The invariants (rule R66) -/

/-- The state after reset meets the invariants (rules R63, R66). -/
theorem reset_consistent : Consistent State.reset := by
  refine ⟨?legal, ?known, ?count, ?phase, ?busy, ?halt, ?blocks, ?reset⟩ <;> decide

/-- The hardware reset leaves what the invariants speak about as it is after reset. -/
theorem core_hardwareReset (s : State) : coreOf (hardwareReset s) = coreOf State.reset := rfl

theorem busOp_consistent {i : Instr} (hi : IsBusOp i) {s t : State} (hs : Consistent s) (h : exec i s = .next t) :
    Consistent t := by
  obtain ⟨off, rfl⟩ | ⟨off, w, rfl⟩ | ⟨off, m, rfl⟩ | ⟨off, m, rfl⟩ | ⟨r, m, rfl⟩ := hi
  · exact step_rd hs h
  · exact step_wr hs h
  · exact step_modify (f := fun t => t ||| m) hs h
  · exact step_modify (f := fun t => t &&& ~~~m) hs h
  · exact step_w1c hs h

theorem command_consistent {i : Instr} (hi : IsCommand i) {s t : State} (hs : Consistent s)
    (h : exec i s = .next t) : Consistent t := by
  obtain ⟨word, arg, hc⟩ := exec_command hi
  exact step_command hs ((hc s).symm.trans h)

theorem ctlOp_consistent {i : Instr} (hi : IsCtlOp i) {s t : State} (hs : Consistent s) (h : exec i s = .next t) :
    Consistent t := by
  obtain rfl | rfl | rfl | rfl | rfl | rfl | rfl := hi
  · exact step_clk74o hs h
  · exact step_clk8o hs h
  · exact step_co hs h
  · exact step_ri hs h
  · exact step_r2i hs h
  · exact step_di hs h
  · exact step_dout hs h

theorem resetOp_consistent {i : Instr} (hi : i = .ctlrst ∨ i = .dmarst ∨ i = .gctlrst) {s t : State}
    (hs : Consistent s) (h : exec i s = .next t) : Consistent t := by
  obtain rfl | rfl | rfl := hi
  · exact step_ctlrst hs h
  · exact step_dmarst hs h
  · exact step_gctlrst hs h

theorem envStep_consistent {s : State} (hs : Consistent s) : Consistent (envStep s) := by
  unfold envStep
  split
  · exact hs
  · rename_i i rest _
    have hs' : Consistent { s with inputs := rest } := .congr rfl hs
    by_cases hi : i = .hardwareReset
    · subst hi
      exact .congr (core_hardwareReset _).symm reset_consistent
    · exact env_consistent hi hs'

/-- Settles O53: whatever the turn, the step is one operation, a detector's or an event of the outside world, and each
of these keeps the invariants. -/
theorem stepKeepsConsistent : Obligations.StepKeepsConsistent := by
  unfold Obligations.StepKeepsConsistent
  intro s t hs h
  have ht : Consistent (takeTurn s) := .congr rfl hs
  have hp : ∀ rest, Consistent { takeTurn s with prog := rest } := fun _ => .congr rfl hs
  refine step_next_elim h ht ?bus ?command ?ctlOp ?reset ?detector ?env
  case bus => exact fun rest i _ hi => busOp_consistent hi (hp rest)
  case command => exact fun rest i _ hi => command_consistent hi (hp rest)
  case ctlOp => exact fun i hi => ctlOp_consistent hi ht
  case reset => exact fun i hi => resetOp_consistent hi ht
  case detector => exact fun p => .congr (core_cd p _).symm ht
  case env => exact fun _ => envStep_consistent ht

/-! ### The words of rule R66 -/

/-- Known launch bits are read as they stand (rule R112). -/
theorem ctlNow_launchBits {s : State} (hk : LaunchKnown s) (hh : s.eng.halted = false) :
    ctlNow s &&& 0x7F#32 = launchBits s.ctl := by
  obtain ⟨hri, hdi, hdo, hr2⟩ := hk hh
  apply BitVec.eq_of_getLsbD_eq
  intro j hj
  rw [BitVec.getLsbD_and, ctlNow_getLsbD s hj, launchBits_getLsbD _ hj]
  simp only [pick_of hri, pick_of hdi, pick_of hdo, pick_of hr2]
  interval_cases j <;> simp

/-- No launch bit is read, that of `CTLRST` among them. -/
theorem ctlNow_noLaunch_iff {s : State} (hk : LaunchKnown s) (hh : s.eng.halted = false) :
    ctlNow s &&& 0x407F#32 = 0#32 ↔ s.ctl.ctlrst = false ∧ launchBits s.ctl = 0#32 := by
  rw [← ctlNow_launchBits hk hh]
  constructor
  · intro h
    refine ⟨(ctlNow_mask s h).2.2.2.1, ?_⟩
    have hm : ctlNow s &&& 0x407F#32 &&& 0x7F#32 = 0#32 := by rw [h]; rfl
    rwa [BitVec.and_assoc] at hm
  · rintro ⟨hr, h⟩
    have hmask : ∀ j, j < 32 → j ≠ 14 → (0x407F#32).getLsbD j = (0x7F#32).getLsbD j := by decide
    apply BitVec.eq_of_getLsbD_eq
    intro j hj
    by_cases h14 : j = 14
    · subst h14
      rw [BitVec.getLsbD_and, ctlNow_getLsbD s hj]
      simp [hr]
    · rw [BitVec.getLsbD_and, hmask j hj h14, ← BitVec.getLsbD_and, h]

/-- The fixed order gives `IDLE` exactly where nothing is launched (rule R175). -/
theorem nextPhase_idle_iff (c : Ctl) : nextPhase c = .idle ↔ launchBits c = 0#32 := by
  unfold nextPhase launchBits
  generalize c.coen = co; generalize c.rien.isOn = ri; generalize c.dien.isOn = di; generalize c.doen.isOn = dout
  generalize c.r2en.isOn = r2; generalize c.clk74oen = clk74; generalize c.clk8oen = clk8
  revert co ri di dout r2 clk74 clk8; decide

/-- What a legal set of launch bits excludes (rule R131). -/
theorem legalSet_excludes {s : State} (h : LegalSet s) :
    ¬(s.ctl.rien.isOn = true ∧ s.ctl.r2en.isOn = true) ∧ ¬(s.ctl.dien.isOn = true ∧ s.ctl.doen.isOn = true)
    ∧ (s.ctl.clk74oen = true → launchBits s.ctl = 0x20#32) ∧ (s.ctl.clk8oen = true → launchBits s.ctl = 0x40#32) := by
  unfold LegalSet launchBits at *
  generalize s.ctl.coen = co at *; generalize s.ctl.rien.isOn = ri at *; generalize s.ctl.dien.isOn = di at *
  generalize s.ctl.doen.isOn = dout at *; generalize s.ctl.r2en.isOn = r2 at *
  generalize s.ctl.clk74oen = clk74 at *; generalize s.ctl.clk8oen = clk8 at *
  revert co ri di dout r2 clk74 clk8; decide

/-- Outside `RESET` the engine is at `IDLE` exactly where nothing is launched (rule R66). -/
theorem phase_idle_iff {s : State} (hp : PhaseOk s) (hh : s.eng.halted = false) (hr : s.eng.phase ≠ .reset) :
    s.eng.phase = .idle ↔ launchBits s.ctl = 0#32 := by
  rw [← nextPhase_idle_iff]
  obtain h | ⟨h, hd | hd⟩ := hp hh hr
  · rw [h]
  · simp [h, hd]
  · simp [h, hd]

/-- Settles O54: the launch bits of a state that is not halted are read as they stand, and the rule's words follow from
the parts of `Consistent`. -/
theorem consistentMeansRule : Obligations.ConsistentMeansRule := by
  unfold Obligations.ConsistentMeansRule
  intro s ⟨hlegal, hknown, hcount, hphase, hbusy, _, _, hreset, hpending⟩ he hd
  have hidle : s.eng.phase ≠ .reset → (s.eng.phase = .idle ↔ ctlNow s &&& 0x407F#32 = 0#32) := by
    intro hr
    have hc : s.ctl.ctlrst = false := by simpa using fun h => hr (hreset h)
    rw [phase_idle_iff hphase he hr, ctlNow_noLaunch_iff hknown he]
    simp [hc]
  obtain ⟨hresp, hdata, h74, h8⟩ := legalSet_excludes hlegal
  rw [← ctlNow_launchBits hknown he] at h74 h8
  refine ⟨fun hw => ⟨⟨hpending, ?pending⟩, ?idle⟩, hpending, hidle, ?busy, ?dataEnd, ?zero, ?count, ?resp, ?data,
    h74, h8⟩
  case pending =>
    rintro (h | h)
    · exact hreset h
    · exact hreset (hw.resolve_right (by simp [h]))
  case idle =>
    constructor
    · intro h
      have hr : s.eng.phase ≠ .reset := by simp [h]
      have hc : s.ctl.ctlrst ≠ true := fun hc => hr (hreset hc)
      exact ⟨(hidle hr).1 h, hw.resolve_left hc⟩
    · rintro ⟨h, hg⟩
      have hc := (ctlNow_noLaunch_iff hknown he).1 h |>.1
      refine (hidle fun hr => ?_).2 h
      simpa [hc, hg] using hpending hr
  case busy =>
    intro hb
    by_cases hr : s.eng.phase = .reset
    · exact .inr (.inr (.inr hr))
    · obtain ⟨h | h, _⟩ | ⟨h, _⟩ := (hbusy he hd hr).1 hb <;> simp [h]
  case dataEnd => exact fun h => (hbusy he hd (by simp [h])).2 h
  case zero =>
    intro hb
    obtain ⟨_, h⟩ | ⟨h, _⟩ | ⟨h, _⟩ := hcount hd
    · exact h
    · simp [hb] at h
    · simp [hb] at h
  case count =>
    intro hb
    obtain ⟨h, _⟩ | ⟨_, h⟩ | ⟨h, _⟩ := hcount hd
    · simp [hb] at h
    · exact h he
    · simp [hb] at h
  case resp => simpa only [isOn_iff] using hresp
  case data => simpa only [isOn_iff] using hdata

/-! ### The flags (rules R46 to R58) -/

/-- Every event flag that is set in `s` is set in `t`; `BLKDIF` is at least not known to be 0. -/
def FlagsKept (s t : State) : Prop :=
  (s.intsts.crcif = true → t.intsts.crcif = true) ∧ (s.intsts.rtoif = true → t.intsts.rtoif = true)
  ∧ (s.intsts.ditoif = true → t.intsts.ditoif = true) ∧ (s.intsts.cdif0 = true → t.intsts.cdif0 = true)
  ∧ (s.intsts.cdif1 = true → t.intsts.cdif1 = true) ∧ (s.dmaintsts.abortif = true → t.dmaintsts.abortif = true)
  ∧ (s.dmaintsts.weotif = true → t.dmaintsts.weotif = true) ∧ (s.dtaif = true → t.dtaif = true)
  ∧ (s.intsts.blkdif = .known true → t.intsts.blkdif ≠ .known false)

theorem Fwd.flagsKept {s t : State} (h : Fwd s t) : FlagsKept s t :=
  ⟨h.crcif, h.rtoif, h.ditoif, h.cdif0, h.cdif1, h.abortif, h.weotif, h.dtaif, fun hb => h.blkdif (by simp [hb])⟩

theorem resetOp_flagsKept {i : Instr} (hi : i = .ctlrst ∨ i = .dmarst ∨ i = .gctlrst) {s t : State}
    (h : exec i s = .next t) : FlagsKept s t := by
  obtain ⟨h1, h2, h3, h4, h5, h6, h7, h8, h9, _⟩ := resets_flags i hi h
  exact ⟨h1, h2, h3, h4, h5, h6, h7, h8, h9⟩

theorem Fwd.takeTurn (s : State) : Fwd s (takeTurn s) := .same rfl rfl rfl rfl rfl rfl rfl rfl rfl rfl rfl

/-- A detector raises the event of its port, which sets a flag, and remembers the level (rule R272). -/
theorem Fwd.cdStep (p : Port) (s : State) : Fwd s (cdStep p s) := by
  unfold Machine.cdStep
  split
  · refine (Fwd.raise (.cardDetect p) s).trans ?_
    cases p <;> exact .same rfl rfl rfl rfl rfl rfl rfl rfl rfl rfl rfl
  · exact .refl s

/-- Settles O55: the operations launched from `CTL` and the detectors move forward (`Fwd`), and the three resets keep
the flags too. -/
theorem flagsAreSticky : Obligations.FlagsAreSticky := by
  unfold Obligations.FlagsAreSticky
  intro s t h hhost henv
  have ht : Fwd s (takeTurn s) := .takeTurn s
  refine step_next_elim (P := FlagsKept s) h ht.flagsKept ?bus ?command ?ctlOp ?reset ?detector ?env
  case bus | command => exact fun _ _ hn => absurd hn hhost
  case ctlOp => exact fun i hi hx => (ht.trans (fwd_ctlOp hi hx)).flagsKept
  case reset => exact fun i hi hx => resetOp_flagsKept hi (s := takeTurn s) hx
  case detector => exact fun p => (ht.trans (.cdStep p _)).flagsKept
  case env => exact fun hn => absurd hn henv

/-! ### The history (rule R61) -/

theorem Fwd.history_prefix {s t : State} (h : Fwd s t) : s.history <+: t.history := by
  obtain ⟨es, hes, _⟩ := h.hist
  exact ⟨es, hes.symm⟩

theorem BusFrame.history_eq {s t : State} (h : BusFrame s t) : t.history = s.history := by rw [h.1]

/-- A bus operation changes what `BusFrame` says, and draws once. -/
theorem busOp_frame {i : Instr} (hi : IsBusOp i) {s t : State} (h : exec i s = .next t) :
    BusFrame s t ∧ t.draws = s.draws + 1 := by
  obtain ⟨off, rfl⟩ | ⟨off, w, rfl⟩ | ⟨off, m, rfl⟩ | ⟨off, m, rfl⟩ | ⟨r, m, rfl⟩ := hi
  · change execRd off s = .next t at h
    unfold execRd at h
    split at h
    · cases h
    · cases h
      obtain ⟨hf, hd⟩ := afterRead_frame (regOf off) s
      exact ⟨hf.trans ⟨rfl, rfl, rfl, rfl, rfl⟩, hd⟩
  · change execWr off w s = .next t at h
    unfold execWr at h
    split at h
    · cases h
    · cases h
      obtain ⟨hf, hd⟩ := regWrite_frame (regOf off) w s
      exact ⟨hf.trans (tick_frame _), congrArg (· + 1) hd⟩
  · exact modify_frame (f := fun t => t ||| m) h
  · exact modify_frame (f := fun t => t &&& ~~~m) h
  · cases h
    cases r <;> exact ⟨⟨rfl, rfl, rfl, rfl, rfl⟩, rfl⟩

theorem command_history_prefix {i : Instr} (hi : IsCommand i) {s t : State} (h : exec i s = .next t) :
    s.history <+: t.history := by
  obtain ⟨word, arg, hc⟩ := exec_command hi
  obtain ⟨u, hu, rfl | rfl⟩ := command_split ((hc s).symm.trans h)
  · rw [hu.history_eq]
  · rw [← hu.history_eq]
    exact (fwd_coStep u).history_prefix

theorem resetOp_history_prefix {i : Instr} (hi : i = .ctlrst ∨ i = .dmarst ∨ i = .gctlrst) {s t : State}
    (h : exec i s = .next t) : s.history <+: t.history := by
  obtain ⟨_, _, _, _, _, _, _, _, _, ⟨es, hes⟩, _⟩ := resets_flags i hi h
  exact ⟨es, hes.symm⟩

/-- The outside world leaves no event in the history but by the hardware reset, which empties it. -/
theorem applyInput_history {i : Input} (hi : i ≠ .hardwareReset) (s : State) :
    (applyInput i s).history = s.history := by
  cases i with
  | cdDed p b | cdGpio p b => cases p <;> rfl
  | memStore a b => simp only [applyInput]; rw [lend_eq]
  | busError a fails => rfl
  | overlap a on => cases on <;> rfl
  | hardwareReset => exact absurd rfl hi

theorem envStep_history {s : State} (hi : ∀ i rest, s.inputs = i :: rest → i ≠ .hardwareReset) :
    (envStep s).history = s.history := by
  unfold envStep
  split
  · rfl
  · rename_i i rest hin
    exact applyInput_history (hi i rest hin) _

/-- Settles O57: bus operations and the outside world leave the history, every other step appends to it. -/
theorem historyGrows : Obligations.HistoryGrows := by
  unfold Obligations.HistoryGrows
  intro s t h hn
  suffices hp : s.history <+: t.history by
    obtain ⟨es, hes⟩ := hp
    exact ⟨es, hes.symm⟩
  refine step_next_elim (P := fun t => s.history <+: t.history) h List.prefix_rfl ?bus ?command ?ctlOp ?reset ?detector
    ?env
  case bus => exact fun rest i _ hi hx => (busOp_frame hi hx).1.history_eq ▸ List.prefix_rfl
  case command => exact fun rest i _ hi hx => command_history_prefix hi (s := { takeTurn s with prog := rest }) hx
  case ctlOp => exact fun i hi hx => (fwd_ctlOp hi hx).history_prefix
  case reset => exact fun i hi hx => resetOp_history_prefix hi (s := takeTurn s) hx
  case detector => exact fun p => (Fwd.cdStep p (takeTurn s)).history_prefix
  case env =>
    intro henv
    have hi : ∀ i rest, s.inputs = i :: rest → i ≠ .hardwareReset := by
      rintro i rest hin rfl
      exact hn ⟨henv, rest, hin⟩
    rw [envStep_history (s := takeTurn s) hi]
    exact List.prefix_rfl

end Sys2Proof.Machine
end

section
/-!
The hardware reset, and the window read and written: what a read returns bit by bit, the reserved offsets and bits, the
shared buffer (rules R26 to R45, R63, R64, R361, R372).
-/

namespace Sys2Proof.Machine

/-! ### Reset (rules R63, R64) -/

/-- Settles O1: the fields stand so in the definition of the state after reset. -/
theorem resetValues : Obligations.ResetValues := by
  unfold Obligations.ResetValues
  decide

/-- After reset no operation is pending and the sequencer is not busy (rules R26, R63). -/
theorem reset_quiet : Quiet State.reset := by decide

/-- Settles O2: memory after reset lists nothing, and so is canonical and `any` in every overlap. -/
theorem resetMeetsInvariants : Obligations.ResetMeetsInvariants := by
  unfold Obligations.ResetMeetsInvariants
  refine ⟨reset_consistent, rfl, fun _ _ => rfl, rfl, rfl, reset_quiet, rfl, rfl, rfl, rfl, rfl⟩

/-- The hardware reset selects the dedicated card-detect inputs and remembers their levels (rules R63, R64, R271). -/
theorem hardwareReset_cdPrev (p : Port) (s : State) :
    cdPrev (hardwareReset s) p = cdsts (hardwareReset s) p := by
  cases p <;> rfl

/-- A detector whose level is the remembered one does nothing (rule R272). -/
theorem cdStep_of_prev {p : Port} {s : State} (h : cdPrev s p = cdsts s p) : cdStep p s = s := by
  unfold cdStep
  rw [if_neg (not_not_intro h.symm)]

/-- The turn of the outside world with the hardware reset as its next event. -/
theorem step_hardwareReset {s : State} {rest : List Input} (ht : nextTurn s = .env)
    (hi : s.inputs = .hardwareReset :: rest) : step s = .next (hardwareReset { takeTurn s with inputs := rest }) := by
  rw [step_of_env ht]
  unfold envStep
  rw [show (takeTurn s).inputs = _ from hi]
  rfl

/-- Settles O3: the step is `hardwareReset` (the model's function, whose name the theorem cannot have), after which
neither level differs from the remembered one. -/
theorem hardwareResetFromAnyState : Obligations.HardwareReset := by
  unfold Obligations.HardwareReset
  intro s rest ht hi
  have hs := step_hardwareReset ht hi
  refine ⟨hs, fun p t h => ?_⟩
  rw [hs] at h
  cases h
  exact cdStep_of_prev (hardwareReset_cdPrev p _)

/-! ### What a read returns (rules R27 to R45, R150) -/

/-- A field of a register that is not reserved is read as it is. -/
theorem regView_extract (off : Offset) (r : Reg) (s : State) {lo n : Nat}
    (h : ∀ i, i < n → (reservedMask r).getLsbD (lo + i) = false) :
    (regView off r s).extractLsb' lo n = (regNow off r s).extractLsb' lo n := by
  apply BitVec.eq_of_getLsbD_eq
  intro i hi
  rw [BitVec.getLsbD_extractLsb', BitVec.getLsbD_extractLsb', regView_getLsbD off r s (h i hi)]

/-- A register without reserved bits is read as it is. -/
theorem regView_of_noReserved {off : Offset} {r : Reg} (s : State) (h : reservedMask r = 0#32) :
    regView off r s = regNow off r s := by
  simp [regView, h]

/-- A field that is known is read as it is (rule R14). -/
theorem Held.pick_known {α : Type} {x : Held α} {a : α} (h : x = .known a) (d : α) : x.pick d = a := by
  rw [h]
  rfl

/-- The field at the bottom of a word. -/
theorem fld_zero_extract {n : Nat} (v : BitVec n) (hn : n ≤ 32) : (fld 0 v).extractLsb' 0 n = v := by
  apply BitVec.eq_of_getLsbD_eq
  intro i hi
  rw [BitVec.getLsbD_extractLsb', fld_getLsbD _ _ (by omega)]
  simp [hi]

/-- The fields of `CTL` that are not launch bits are those of the word it reads (rules R35, R112). -/
theorem withFields_ctlNow (s : State) : s.ctl.withFields (ctlNow s) = s.ctl := by
  simpa using withFields_now s 0#32 (by decide)

theorem ctlNow_cmdcode (s : State) : (ctlNow s).extractLsb' 8 6 = s.ctl.cmdcode :=
  congrArg Ctl.cmdcode (withFields_ctlNow s)

theorem ctlNow_blkcnt (s : State) : (ctlNow s).extractLsb' 16 8 = s.ctl.blkcnt :=
  congrArg Ctl.blkcnt (withFields_ctlNow s)

theorem ctlNow_sdnwr (s : State) : (ctlNow s).extractLsb' 24 4 = s.ctl.sdnwr :=
  congrArg Ctl.sdnwr (withFields_ctlNow s)

theorem ctlNow_sdport (s : State) : (ctlNow s).extractLsb' 29 2 = s.ctl.sdport :=
  congrArg Ctl.sdport (withFields_ctlNow s)

/-- The CRC status of `INTSTS` (rule R50). -/
theorem intstsNow_crcsts (s : State) : (regNow 0x82C#12 .intsts s).extractLsb' 4 3 =
    s.intsts.crcsts.pick ((Config.anyWord s.draws 0x82C#12).extractLsb' 4 3) := by
  apply BitVec.eq_of_getLsbD_eq
  intro i hi
  rw [BitVec.getLsbD_extractLsb', intstsNow_getLsbD s (by omega)]
  interval_cases i <;> simp

/-- Settles O11: each register by the bits of its value; none of the fields named is reserved. -/
theorem rdFields : Obligations.RdFields := by
  unfold Obligations.RdFields
  intro s
  refine ⟨⟨_, execRd_of regAt_82C nofun, ?intsts⟩, ⟨_, execRd_of regAt_820 nofun, ?ctl⟩,
    ⟨_, execRd_of regAt_400 nofun, ?dmactl⟩, ⟨_, execRd_of regAt_40C nofun, ?dmabcnt⟩,
    ⟨_, execRd_of regAt_830 nofun, ?resp0⟩, ⟨_, execRd_of regAt_834 nofun, ?resp1⟩,
    ⟨_, execRd_of regAt_414 nofun, ?dmaintsts⟩, ⟨_, execRd_of regAt_808 nofun, ?gintsts⟩,
    ⟨_, execRd_of regAt_800 nofun, ?gctl⟩, ⟨_, execRd_of regAt_838 nofun, ?blen⟩,
    ⟨_, execRd_of regAt_83C nofun, ?tout⟩, ⟨_, execRd_of regAt_840 nofun, ?ectl⟩,
    ⟨_, execRd_of regAt_824 nofun, ?cmdarg⟩, ⟨_, execRd_of regAt_408 nofun, ?dmasa⟩,
    ⟨_, execRd_of regAt_410 nofun, ?dmainten⟩, ⟨_, execRd_of regAt_804 nofun, ?ginten⟩,
    ⟨_, execRd_of regAt_828 nofun, ?inten⟩⟩
  case intsts =>
    have hbit : ∀ j, j < 32 ∧ (reservedMask .intsts).getLsbD j = false → (regView 0x82C#12 .intsts s).getLsbD j = _ :=
      fun j hj => (regView_getLsbD _ _ s hj.2).trans (intstsNow_getLsbD s hj.1)
    exact ⟨fun b hh hb => (hbit 0 (by decide)).trans (blkdifNow_known hh hb), hbit 1 (by decide),
      fun b hb => (hbit 2 (by decide)).trans (Held.pick_known hb _),
      fun b hb => (hbit 3 (by decide)).trans (Held.pick_known hb _),
      fun v hv => (regView_extract _ _ s (by decide)).trans ((intstsNow_crcsts s).trans (Held.pick_known hv _)),
      hbit 7 (by decide), hbit 8 (by decide), hbit 9 (by decide), hbit 12 (by decide), hbit 13 (by decide),
      hbit 16 (by decide), hbit 17 (by decide)⟩
  case ctl =>
    have hbit : ∀ j, j < 32 ∧ (reservedMask .ctl).getLsbD j = false → (regView 0x820#12 .ctl s).getLsbD j = _ :=
      fun j hj => (regView_getLsbD _ _ s hj.2).trans (ctlNow_getLsbD s hj.1)
    exact ⟨hbit 0 (by decide), fun b hb => (hbit 1 (by decide)).trans (Held.pick_known hb _),
      fun b hb => (hbit 2 (by decide)).trans (Held.pick_known hb _),
      fun b hb => (hbit 3 (by decide)).trans (Held.pick_known hb _),
      fun b hb => (hbit 4 (by decide)).trans (Held.pick_known hb _), hbit 5 (by decide), hbit 6 (by decide),
      hbit 7 (by decide), (regView_extract _ _ s (by decide)).trans (ctlNow_cmdcode s), hbit 14 (by decide),
      hbit 15 (by decide), (regView_extract _ _ s (by decide)).trans (ctlNow_blkcnt s),
      (regView_extract _ _ s (by decide)).trans (ctlNow_sdnwr s),
      (regView_extract _ _ s (by decide)).trans (ctlNow_sdport s), hbit 31 (by decide)⟩
  case dmactl =>
    have hbit : ∀ j, j < 32 ∧ (reservedMask .dmactl).getLsbD j = false → (regView 0x400#12 .dmactl s).getLsbD j = _ :=
      fun j hj => (regView_getLsbD _ _ s hj.2).trans (dmactlNow_getLsbD s hj.1)
    exact ⟨hbit 0 (by decide), hbit 1 (by decide), hbit 3 (by decide),
      fun b hb => (hbit 9 (by decide)).trans (Held.pick_known hb _)⟩
  case dmabcnt =>
    exact fun n hn => (regView_extract _ _ s (by decide)).trans
      ((fld_zero_extract _ (by decide)).trans (Held.pick_known hn _))
  case resp0 => exact fun v hv => (regView_of_noReserved s rfl).trans (Held.pick_known hv _)
  case resp1 =>
    exact fun v hv => (regView_extract _ _ s (by decide)).trans
      ((fld_zero_extract _ (by decide)).trans (Held.pick_known hv _))
  case blen | tout => exact (regView_extract _ _ s (by decide)).trans (fld_zero_extract _ (by decide))
  case dmaintsts | gctl | ectl | dmainten =>
    exact ⟨(regView_getLsbD _ _ s (by decide)).trans (bits2_getLsbD _ _).1,
      (regView_getLsbD _ _ s (by decide)).trans (bits2_getLsbD _ _).2⟩
  case gintsts | ginten =>
    exact (regView_getLsbD _ _ s (by decide)).trans ((bit_getLsbD 0 _ (by decide)).trans (Bool.and_true _))
  case cmdarg | dmasa => exact regView_of_noReserved s rfl
  case inten =>
    have hbit : ∀ j, j < 32 ∧ (reservedMask .inten).getLsbD j = false → (regView 0x828#12 .inten s).getLsbD j = _ :=
      fun j hj => (regView_getLsbD _ _ s hj.2).trans (intenNow_getLsbD _ s hj.1)
    exact ⟨hbit 0 (by decide), hbit 1 (by decide), hbit 8 (by decide), hbit 9 (by decide), hbit 12 (by decide),
      hbit 13 (by decide), hbit 30 (by decide), hbit 31 (by decide)⟩

/-! ### The shared buffer (rules R26, R372) -/

/-- A word of the buffer is read as it is stored while the engine is not halted (rules R26, R331). -/
theorem regView_fb {off : Offset} {i : Fin 128} {s : State} {w : Word} (hh : s.eng.halted = false)
    (hw : s.fb[i] = .known w) : regView off (.fb i) s = w := by
  rw [regView_of_noReserved s rfl]
  simp only [regNow, hw, hh, Held.hideIf_false, Held.pick]

/-- `SET` and `CLR` of the buffer are refused with its read. -/
theorem modify_fb_inFlight {i : Fin 128} {f : Word → Word} {s : State} (h : inFlight s = true) :
    modify (BitVec.ofNat 12 (4 * i)) f s = .refused .bufferInUse := by
  simp only [modify, readRefusal_fb, h, if_true]

/-- Settles O13: the write of a quiet state stores, and the state after it is as quiet. -/
theorem sharedBuffer : Obligations.SharedBuffer := by
  unfold Obligations.SharedBuffer
  constructor
  · intro s i w hq hh
    have hw : regWriteRefusal (.fb i) w s = none := by simp [regWriteRefusal, inFlight_quiet hq]
    have hq' : Quiet (regWrite (.fb i) w s).tick := by simpa [regWrite, Quiet, NotBusy] using hq
    refine ⟨(regWrite (.fb i) w s).tick, _, ?write, rfl, execRd_of (regAt_fb i) fun _ => inFlight_quiet hq', ?read⟩
    case write => rw [execWr_of (regAt_fb i), hw]
    case read =>
      refine regView_fb (i := i) hh ?_
      simp [regWrite]
  · intro s i w h
    refine ⟨?read, refused_of (regAt_fb i) ?write, modify_fb_inFlight (f := fun t => t ||| w) h,
      modify_fb_inFlight (f := fun t => t &&& ~~~w) h⟩
    case read =>
      show execRd _ s = _
      simp only [execRd, readRefusal_fb, h, if_true]
    case write => simp only [regWriteRefusal, h, if_true]

/-! ### Reserved offsets and bits (rules R44, R45) -/

/-- A write looks at no reserved bit: neither its refusal nor its effect does (rule R45). -/
theorem regWrite_ignores_reserved (r : Reg) (w : Word) (s : State) :
    regWriteRefusal r (w &&& ~~~reservedMask r) s = regWriteRefusal r w s
    ∧ regWrite r (w &&& ~~~reservedMask r) s = regWrite r w s := by
  cases r with
  | fb i | dmasa | cmdarg | resp0 => simp [reservedMask, and_ones]
  | dmabcnt | resp1 | reserved => exact ⟨rfl, rfl⟩
  | ctl =>
    have hm : ∀ j, j < 32 → j ≠ 28 → (reservedMask .ctl).getLsbD j = false := by decide
    exact ctl_word_congr (fun j hj hne => and_mask_getLsbD w _ (hm j hj hne) hj) s
  | blen =>
    have hx : (w &&& ~~~reservedMask .blen).setWidth 11 = w.setWidth 11 := by
      rw [setWidth_eq_extract, setWidth_eq_extract, and_mask_extract w _ 0 11 (by decide) (by decide)]
    simp only [regWriteRefusal, regWrite, hx, and_self]
  | tout =>
    have hx : (w &&& ~~~reservedMask .tout).setWidth 24 = w.setWidth 24 := by
      rw [setWidth_eq_extract, setWidth_eq_extract, and_mask_extract w _ 0 24 (by decide) (by decide)]
    simp only [regWriteRefusal, regWrite, hx, and_self]
  | dmactl =>
    simp (disch := decide) only [regWriteRefusal, regWrite, dmactlRefusal, writeDmactl, and_mask_getLsbD, and_self]
  | gctl =>
    simp (disch := decide) only [regWriteRefusal, regWrite, gctlRefusal, writeGctl, and_mask_getLsbD, and_self]
  | dmaintsts | gintsts | intsts =>
    simp (disch := decide) only [regWriteRefusal, regWrite, clearFlags, IntSts.clear, DmaIntSts.clear,
      and_mask_getLsbD, and_self]
  | dmainten | ginten | inten | ectl =>
    simp (disch := decide) only [regWriteRefusal, regWrite, and_mask_getLsbD, and_self]

/-- Settles O14: a reserved offset is reserved bits alone, and a write of a register looks at no reserved bit. -/
theorem reservedSpace : Obligations.ReservedSpace := by
  unfold Obligations.ReservedSpace
  intro s off w
  refine ⟨fun h => ⟨?read, refused_of h rfl⟩, fun r h => ?write⟩
  case read =>
    rw [execRd_of h nofun]
    have hv : regView off .reserved s = Config.anyWord s.draws off := by
      simp [regView, regNow, reservedMask, and_ones]
    rw [hv]
    rfl
  case write =>
    obtain ⟨hr, hw⟩ := regWrite_ignores_reserved r w s
    rw [execWr_of h, execWr_of h, hr, hw]

end Sys2Proof.Machine
end

section
/-!
System memory: which steps keep its form, what an operation of the host keeps, which operations change it, and which
accesses of the window are refused (rules R80 to R91, R240, R344).
-/

namespace Sys2Proof.Machine

/-! ### The form of memory, and the overlaps (rules R88, R344) -/

/-- Memory that was canonical is so afterwards, and if every word that two buffers share was `any`, every such word is
so afterwards. In contrast to `MemKept` the overlaps themselves may change. -/
def FormKept (s t : State) : Prop :=
  (Memory.wf s.mem = true → Memory.wf t.mem = true) ∧ (OverlapAny s → OverlapAny t)

theorem MemKept.formKept {s t : State} (h : MemKept s t) : FormKept s t := ⟨h.wf, h.shared⟩

theorem BusFrame.mem_eq {s t : State} (h : BusFrame s t) : t.mem = s.mem := by rw [h.1]

theorem BusFrame.overlap_eq {s t : State} (h : BusFrame s t) : t.overlap = s.overlap := by rw [h.1]

theorem BusFrame.memKept {s t : State} (h : BusFrame s t) : MemKept s t := .of_eq h.overlap_eq h.mem_eq

/-- A command is two writes of the host and the step `CO` (rules R172, R290), none of which is an access to memory. -/
theorem command_mem {i : Instr} (hi : IsCommand i) {s t : State} (h : exec i s = .next t) :
    t.mem = s.mem ∧ t.overlap = s.overlap := by
  obtain ⟨word, arg, hc⟩ := exec_command hi
  obtain ⟨u, hu, rfl | rfl⟩ := command_split ((hc s).symm.trans h)
  · exact ⟨hu.mem_eq, hu.overlap_eq⟩
  · exact ⟨hu.mem_eq, hu.overlap_eq⟩

theorem command_memKept {i : Instr} (hi : IsCommand i) {s t : State} (h : exec i s = .next t) : MemKept s t := by
  obtain ⟨hm, ho⟩ := command_mem hi h
  exact .of_eq ho hm

theorem resetOp_memKept {i : Instr} (hi : i = .ctlrst ∨ i = .dmarst ∨ i = .gctlrst) {s t : State}
    (h : exec i s = .next t) : MemKept s t := by
  obtain ⟨_, _, _, _, _, _, _, _, _, _, hm, _⟩ := resets_flags i hi h
  exact hm

theorem applyInput_formKept (i : Input) (s : State) : FormKept s (applyInput i s) := by
  by_cases hi : ∃ a on, i = .overlap a on
  · obtain ⟨a, on, rfl⟩ := hi
    exact setOverlap_memory _ on s
  · exact (applyInput_memory (fun a on h => hi ⟨a, on, h⟩) s).formKept

theorem envStep_formKept (s : State) : FormKept s (envStep s) := by
  unfold envStep
  split
  · exact (MemKept.refl s).formKept
  · rename_i i rest _
    exact applyInput_formKept i { s with inputs := rest }

/-- Every step keeps the form of memory: all of them keep the overlaps too, but for the outside world's. -/
theorem step_formKept {s t : State} (h : step s = .next t) : FormKept s t := by
  have ht : MemKept s (takeTurn s) := .of_eq rfl rfl
  refine step_next_elim (P := FormKept s) h ht.formKept ?bus ?command ?ctlOp ?reset ?detector ?env
  case bus =>
    intro rest i _ hi hx
    exact (MemKept.trans (.of_eq rfl rfl) (busOp_frame hi hx).1.memKept).formKept
  case command =>
    intro rest i _ hi hx
    exact (MemKept.trans (.of_eq rfl rfl) (command_memKept hi hx)).formKept
  case ctlOp => exact fun i hi hx => (ht.trans (fwd_ctlOp hi hx).memory).formKept
  case reset => exact fun i hi hx => (ht.trans (resetOp_memKept hi hx)).formKept
  case detector => exact fun p => (ht.trans (Fwd.cdStep p _).memory).formKept
  case env => exact fun _ => envStep_formKept (takeTurn s)

/-- The turn of the outside world is its next event. -/
theorem step_input {s : State} {i : Input} {rest : List Input} (ht : nextTurn s = .env) (hi : s.inputs = i :: rest) :
    step s = .next (applyInput i { takeTurn s with inputs := rest }) := by
  rw [step_of_env ht]
  unfold envStep
  rw [show (takeTurn s).inputs = i :: rest from hi]

/-- The four bytes of the word that byte `a` lies in become `any`, and no other. -/
theorem memGet_erase_word (m : List Host.Cell) (a : Word) (x : Nat) :
    memGet (memErase m (a &&& 0xFFFFFFFC#32).toNat ((a &&& 0xFFFFFFFC#32).toNat + 4)) x =
      if x / 4 = a.toNat / 4 then none else memGet m x := by
  have hw := decide_eq_decide.1 (word_covers a x)
  split
  · rename_i hx
    obtain ⟨hlo, hhi⟩ := hw.2 hx
    exact memGet_memErase_inside m hlo hhi
  · rename_i hx
    exact memGet_memErase_outside m (by have := mt hw.1 hx; omega)

/-- Settles O52: every kind of step keeps the form, and the start of an overlap erases the four bytes of its word. -/
theorem stepKeepsMemoryForm : Obligations.StepKeepsMemoryForm := by
  unfold Obligations.StepKeepsMemoryForm
  refine ⟨fun s t hs h => (step_formKept h).1 hs, fun s t hs h => (step_formKept h).2 hs, ?start⟩
  intro s a rest ht hi
  exact ⟨_, step_input ht hi, rfl, memGet_erase_word s.mem a⟩

/-! ### The frame of the host's operations (rules R83, R85, R91, R99, R217) -/

/-- Settles O58: each of the five operations changes what `BusFrame` says, and draws once. -/
theorem hostOperationFrame : Obligations.HostOperationFrame := by
  unfold Obligations.HostOperationFrame
  intro s t i hi h
  obtain ⟨⟨hf, hverdicts⟩, hd⟩ := busOp_frame hi h
  rw [hd] at hf
  exact ⟨hf, hverdicts⟩

/-! ### What changes memory (rules R91, R99, R240) -/

/-- The operations of the table, by their kind. -/
theorem instr_kinds (i : Instr) :
    IsBusOp i ∨ IsCommand i ∨ IsCtlOp i ∨ i = .ctlrst ∨ i = .dmarst ∨ i = .gctlrst := by
  cases i <;> simp [IsBusOp, IsCommand, IsCtlOp]

/-- An event makes memory `any` only where a `DI` is pending (rule R331). -/
theorem raise_mem_of_noInput (e : EventKind) {s : State} (h : s.ctl.dien.isOn = false) : (raise e s).mem = s.mem := by
  obtain hm | ⟨hd, _⟩ := raise_mem e s
  · exact hm
  · rw [h] at hd
    cases hd

/-- The completion of a data operation halts nothing (rules R238, R330). -/
theorem dataDone_mem (s : State) : (dataDone s).mem = s.mem := rfl

theorem blockMoved_mem {after : State → State} (ha : ∀ x, (after x).mem = x.mem) (s : State) :
    (blockMoved after s).mem = s.mem := by
  rw [moved_if]
  split
  · rfl
  · exact ha _

theorem execRi_mem {s t : State} (hd : s.ctl.dien.isOn = false) (h : execRi s = .next t) : t.mem = s.mem := by
  injection h with h
  subst h
  split
  · split
    · rw [riFrame_eq, after_mem, judge_mem _ (by simpa [riTaken] using hd)]
      simp [riTaken]
    · rw [noResp_mem (by simpa using hd), tookResp48_mem]
  · rfl

theorem execR2i_mem {s t : State} (hd : s.ctl.dien.isOn = false) (h : execR2i s = .next t) : t.mem = s.mem := by
  injection h with h
  subst h
  split
  · split
    · rw [r2iFrame_eq, after_mem, judge_mem _ (by simpa [r2iTaken] using hd)]
      simp [r2iTaken]
    · rw [noResp_mem (by simpa using hd), tookResp136_mem]
  · rfl

/-- Accesses that only read, and the event that ends them, leave memory (rules R241, R247). -/
theorem Flow.Spec.mem_of_reads {α : Type} {s : State} {f : Flow α} (h : Flow.Spec false s f)
    (hd : s.ctl.dien.isOn = false) :
    (∀ a u, f = .go a u → u.mem = s.mem) ∧ ∀ u, f = .stop u → u.mem = s.mem := by
  constructor
  · rintro a u rfl
    exact h.kept rfl
  · rintro u rfl
    obtain ⟨e, v, hv, rfl, _⟩ := h
    have hc : v.ctl = s.ctl := by rw [hv.rest]
    rw [raise_mem_of_noInput e (by rw [hc, hd]), hv.kept rfl]

theorem doBlock_mem {s t : State} (hd : s.ctl.dien.isOn = false) (h : doBlock s = .next t) : t.mem = s.mem := by
  obtain ⟨hgo, hstop⟩ := (loadBlock_spec (st := false) (blockLen s / 4) s).mem_of_reads hd
  unfold doBlock at h
  split at h
  · rename_i d u hl
    cases h
    exact hgo d u hl
  · rename_i hl
    cases h
    exact hstop _ hl
  · cases h

theorem doStatus_mem {s : State} (hd : s.ctl.dien.isOn = false) : (doStatus s).mem = s.mem := by
  unfold doStatus
  split
  · simp
  · simp only
    split
    · rw [raise_mem_of_noInput _ (by simpa using hd)]
      simp
    · rw [blockMoved_mem fun x => by rfl]
      simp

theorem doReady_mem (s : State) : (doReady s).mem = s.mem := by
  unfold doReady
  simp only
  split <;> exact tookReady_mem s

theorem execDout_mem {s t : State} (hd : s.ctl.dien.isOn = false) (h : execDout s = .next t) : t.mem = s.mem := by
  unfold execDout at h
  split at h
  · cases h; rfl
  split at h
  · cases h
    split <;> rfl
  split at h
  · cases h; rfl
  split at h
  · cases h; rfl
  unfold doInBlock at h
  split at h
  · split at h
    · cases h; rfl
    · exact doBlock_mem hd h
  · cases h
    exact doStatus_mem hd
  · cases h
    exact doReady_mem s

/-- Of the operations launched from `CTL` only `DI` stores (rules R99, R240). -/
theorem ctlOp_mem {i : Instr} (hi : IsCtlOp i) (hne : i ≠ .di) {s t : State} (hd : s.ctl.dien.isOn = false)
    (h : exec i s = .next t) : t.mem = s.mem := by
  obtain rfl | rfl | rfl | rfl | rfl | rfl | rfl := hi
  · cases h
    split <;> rfl
  · cases h
    split <;> rfl
  · cases h
    split <;> rfl
  · exact execRi_mem hd h
  · exact execR2i_mem hd h
  · exact absurd rfl hne
  · exact execDout_mem hd h

/-- Settles O59: no operation but `DI` stores, and what makes memory `any` does so for a pending `DI` alone. -/
theorem memoryChangesOnlyByInput : Obligations.MemoryChangesOnlyByInput := by
  unfold Obligations.MemoryChangesOnlyByInput
  intro s t i h hd hne
  obtain hi | hi | hi | hi := instr_kinds i
  · exact (busOp_frame hi h).1.mem_eq
  · exact (command_mem hi h).1
  · exact ctlOp_mem hi hne hd h
  · obtain ⟨_, _, _, _, _, _, _, _, _, _, _, hm⟩ := resets_flags i hi h
    exact hm hd

/-! ### Refused accesses (rule R82) -/

/-- The turn of an agent whose fetch is refused is refused. -/
theorem step_of_fetch_refuse {s : State} {t : Turn} {r : Refusal} (ht : nextTurn s = t)
    (hf : fetch t (takeTurn s) = .refuse r) : step s = .refused r := by
  unfold step
  rw [ht]
  cases t with
  | cd p => cases hf
  | env => cases hf
  | host | engine | dmaReset | globalReset => simp only [hf]

/-- A bus transaction that decodes to nothing is refused at its fetch. -/
theorem fetchHost_bus_error {s : State} {k : BusKind} {sz : AccessSize} {off : Offset} {d : Word} {rest : List Code}
    {e : DecodeError} (hp : s.prog = .bus k sz off d :: rest) (hd : decode (.bus k sz off d) = .error e) :
    fetchHost s = .refuse (codeRefusal e) := by
  unfold fetchHost
  rw [hp]
  simp only [hd]

theorem decode_narrow (k : BusKind) {sz : AccessSize} (off : Offset) (d : Word) (h : sz ≠ .word) :
    decode (.bus k sz off d) = .error .narrowAccess := if_pos h

theorem regAt_badOffset {off : Offset} (h : off.toNat % 4 ≠ 0 ∨ 0x840 < off.toNat) : regAt off = none := if_pos h

theorem readRefusal_badOffset {off : Offset} (h : regAt off = none) (s : State) :
    readRefusal off s = some .badOffset := by
  unfold readRefusal
  rw [h]

theorem writeRefusal_badOffset {off : Offset} (h : regAt off = none) (w : Word) (s : State) :
    writeRefusal off w s = some .badOffset := by
  unfold writeRefusal
  rw [h]

theorem modify_badOffset {off : Offset} (h : regAt off = none) (f : Word → Word) (s : State) :
    modify off f s = .refused .badOffset := by
  simp only [modify, readRefusal_badOffset h]

/-- Settles O20: a narrow access decodes to no operation, and at a bad offset there is no register. -/
theorem refuseBadAccess : Obligations.RefuseBadAccess := by
  unfold Obligations.RefuseBadAccess
  constructor
  · intro s k sz off d rest ht hp hsz
    exact step_of_fetch_refuse ht (fetchHost_bus_error (s := takeTurn s) hp (decode_narrow k off d hsz))
  · intro s off w h
    have hr := regAt_badOffset h
    refine ⟨?rd, ?wr, modify_badOffset hr (fun t => t ||| w) s, modify_badOffset hr (fun t => t &&& ~~~w) s⟩
    case rd =>
      show execRd off s = _
      simp only [execRd, readRefusal_badOffset hr]
    case wr =>
      show execWr off w s = _
      simp only [execWr, writeRefusal_badOffset hr]

end Sys2Proof.Machine
end

section
/-!
Encoding and decoding are inverse, on well-formed operations and on what the decoder accepts (rules R110 to R115, R131,
R134, R156).
-/

namespace Sys2Proof.Machine

/-! ### Bus transactions (rules R111, R156) -/

/-- The operation of a bus transaction at a legal offset: a `WR` to a register of flags is the row `W1C`. -/
def busInstr (k : BusKind) (off : Offset) (d : Word) : Instr :=
  match k with
  | .rd => .rd off
  | .set => .set off d
  | .clr => .clr off d
  | .wr => (w1cAt off).elim (.wr off d) (.w1c · d)

/-- A bus transaction is an operation exactly where it is 32 bits wide and its offset legal (rule R82). -/
theorem decodeBus_ok_iff {k : BusKind} {sz : AccessSize} {off : Offset} {d : Word} {i : Instr} :
    decodeBus k sz off d = .ok i ↔ sz = .word ∧ offsetOk off = true ∧ busInstr k off d = i := by
  unfold decodeBus offsetOk
  by_cases hsz : sz = .word
  · cases hr : regAt off with
    | none => simp [hsz]
    | some r =>
      cases k with
      | rd | set | clr => simp [hsz, busInstr]
      | wr => cases hf : w1cAt off <;> simp [hsz, busInstr, hf]
  · simp [hsz]

/-- What a bus transaction decodes to is well formed, and a transaction that carries data is encoded as it was. -/
theorem busInstr_wellFormed {k : BusKind} {off : Offset} (d : Word) (h : offsetOk off = true) :
    (busInstr k off d).wellFormed = true ∧ (k ≠ .rd → encode (busInstr k off d) = .bus k .word off d) := by
  cases k with
  | rd => exact ⟨h, fun hk => absurd rfl hk⟩
  | set | clr => exact ⟨h, fun _ => rfl⟩
  | wr =>
    cases hf : w1cAt off with
    | none => simp [busInstr, hf, Instr.wellFormed, encode, h]
    | some r => simp [busInstr, hf, Instr.wellFormed, encode, ← w1cAt_some hf]

/-- A well-formed bus operation is read back from its transaction. -/
theorem decode_encode_busOp {i : Instr} (hi : IsBusOp i) (hw : i.wellFormed = true) : decode (encode i) = .ok i := by
  obtain ⟨off, rfl⟩ | ⟨off, d, rfl⟩ | ⟨off, m, rfl⟩ | ⟨off, m, rfl⟩ | ⟨r, m, rfl⟩ := hi
  · exact (decodeBus_ok_iff (k := .rd) (d := 0#32)).2 ⟨rfl, hw, rfl⟩
  · obtain ⟨hoff, hflags⟩ : offsetOk off = true ∧ w1cAt off = none := by simpa [Instr.wellFormed] using hw
    exact (decodeBus_ok_iff (k := .wr) (d := d)).2 ⟨rfl, hoff, by simp [busInstr, hflags]⟩
  · exact (decodeBus_ok_iff (k := .set) (d := m)).2 ⟨rfl, hw, rfl⟩
  · exact (decodeBus_ok_iff (k := .clr) (d := m)).2 ⟨rfl, hw, rfl⟩
  · obtain ⟨hoff, hflags⟩ := regAt_w1cOffset r
    exact (decodeBus_ok_iff (k := .wr) (d := m)).2 ⟨rfl, hoff, by simp [busInstr, hflags]⟩

/-! ### Command frames (rules R115, R134) -/

/-- Every command is encoded as the frame of an index that stands for it. -/
theorem encode_command {i : Instr} (hi : IsCommand i) :
    ∃ idx arg, encode i = .frame (commandFrame idx arg) ∧ commandOf idx arg = some i := by
  obtain ⟨arg, hi⟩ := hi
  rcases hi with rfl | rfl | rfl | rfl | rfl | rfl | rfl | rfl | rfl | rfl | rfl | rfl | rfl | rfl | rfl
  all_goals exact ⟨_, arg, rfl, rfl⟩

theorem decode_encode_command {i : Instr} (hi : IsCommand i) : decode (encode i) = .ok i := by
  obtain ⟨idx, arg, he, hc⟩ := encode_command hi
  rw [he, decode_command idx arg i hc]

/-- A frame is a command exactly where its fixed bits are right and its index stands for one. -/
theorem decodeFrame_ok_iff {f : BitVec 48} {i : Instr} :
    decodeFrame f = .ok i ↔ (f.getLsbD 47 = false ∧ f.getLsbD 46 = true ∧ f.getLsbD 0 = true)
      ∧ commandOf (f.extractLsb' 40 6) (f.extractLsb' 8 32) = some i := by
  unfold decodeFrame
  by_cases hfix : f.getLsbD 47 = false ∧ f.getLsbD 46 = true ∧ f.getLsbD 0 = true
  · obtain ⟨h47, h46, h0⟩ := hfix
    rw [h47, h46, h0]
    cases commandOf (f.extractLsb' 40 6) (f.extractLsb' 8 32) <;> simp
  · rw [if_pos (by simpa only [Bool.or_eq_true, Bool.not_eq_true', or_assoc, not_and_or, Bool.not_eq_true,
      Bool.not_eq_false] using hfix)]
    exact ⟨nofun, fun h => absurd h.1 hfix⟩

/-- The forty leading bits of a frame whose start and transmission bits are right are those bits, index and argument. -/
theorem head_of_fixedBits {f : BitVec 48} (h47 : f.getLsbD 47 = false) (h46 : f.getLsbD 46 = true) :
    (0#1 ++ 1#1 ++ f.extractLsb' 40 6 ++ f.extractLsb' 8 32 : BitVec 40) = f.extractLsb' 8 40 := by
  apply BitVec.eq_of_getLsbD_eq
  intro j hj
  rw [head_getLsbD]
  obtain h | h | rfl | rfl : j < 32 ∨ (32 ≤ j ∧ j < 38) ∨ j = 38 ∨ j = 39 := by omega
  · simp [h, hj]
  · obtain ⟨hlo, hhi⟩ := h
    simp [hhi, hj, show ¬ j < 32 by omega, show j - 32 < 6 by omega, show 40 + (j - 32) = 8 + j by omega]
  · simpa using h46
  · simpa using h47

/-- A frame whose fixed bits and CRC are right is the frame of its index and argument. -/
theorem commandFrame_of_fields {f : BitVec 48} (h47 : f.getLsbD 47 = false) (h46 : f.getLsbD 46 = true)
    (h0 : f.getLsbD 0 = true) (hcrc : f.extractLsb' 1 7 = crc7 (bitsMsb (f.extractLsb' 8 40))) :
    commandFrame (f.extractLsb' 40 6) (f.extractLsb' 8 32) = f := by
  simp only [commandFrame, head_of_fixedBits h47 h46, ← hcrc]
  apply BitVec.eq_of_getLsbD_eq
  intro j hj
  rw [frame_getLsbD]
  obtain rfl | h | h : j = 0 ∨ (0 < j ∧ j < 8) ∨ 8 ≤ j := by omega
  · simp [h0]
  · simp [h.2, show j ≠ 0 by omega, show j - 1 < 7 by omega, show 1 + (j - 1) = j by omega]
  · simp [show j ≠ 0 by omega, show ¬ j < 8 by omega, show j - 8 < 40 by omega, show 8 + (j - 8) = j by omega]

/-! ### Launch words (rules R112, R113) -/

/-- The word with the launch bit of an operation alone is decoded to it. -/
theorem decode_encode_launched {i : Instr} (hi : IsCtlOp i ∨ i = .ctlrst ∨ i = .dmarst ∨ i = .gctlrst) :
    decode (encode i) = .ok i := by
  rcases hi with (rfl | rfl | rfl | rfl | rfl | rfl | rfl) | rfl | rfl | rfl
  all_goals rfl

/-- What a launch register holds is one of the operations of `CTL`, or a reset. -/
theorem decodeLaunch_ok {r : LaunchReg} {w : Word} {i : Instr} (h : decodeLaunch r w = .ok i) :
    IsCtlOp i ∨ i = .ctlrst ∨ i = .dmarst ∨ i = .gctlrst := by
  cases r with
  | ctl =>
    obtain ⟨_, hi⟩ | ⟨_, hi⟩ := decodeCtl_ok h
    · exact .inr (.inl hi)
    · exact .inl hi
  | dmactl =>
    simp only [decodeLaunch] at h
    split at h <;> cases h
    exact .inr (.inr (.inl rfl))
  | gctl =>
    simp only [decodeLaunch] at h
    split at h <;> cases h
    exact .inr (.inr (.inr rfl))

/-- An operation without operands is well formed. -/
theorem launched_wellFormed {i : Instr} (hi : IsCtlOp i ∨ i = .ctlrst ∨ i = .dmarst ∨ i = .gctlrst) :
    i.wellFormed = true := by
  rcases hi with (rfl | rfl | rfl | rfl | rfl | rfl | rfl) | rfl | rfl | rfl
  all_goals rfl

/-! ### Legal launch sets (rule R131) -/

/-- The two clock bits of a word are 0. -/
theorem clockBits_zero_iff (w : Word) :
    w &&& 0x7F#32 &&& 0x60#32 = 0#32 ↔ w.getLsbD 5 = false ∧ w.getLsbD 6 = false := by
  constructor
  · intro h
    have hbit : ∀ j, (w &&& 0x7F#32 &&& 0x60#32).getLsbD j = false := fun j => by rw [h]; exact BitVec.getLsbD_zero
    exact ⟨by simpa using hbit 5, by simpa using hbit 6⟩
  · rintro ⟨h5, h6⟩
    apply BitVec.eq_of_getLsbD_eq
    intro j hj
    have hm : j ≠ 5 → j ≠ 6 → (0x60#32).getLsbD j = false := by revert j; decide
    rw [BitVec.getLsbD_and, BitVec.getLsbD_and, BitVec.getLsbD_zero]
    by_cases hj5 : j = 5
    · rw [hj5, h5]; rfl
    by_cases hj6 : j = 6
    · rw [hj6, h6]; rfl
    rw [hm hj5 hj6, Bool.and_false]

/-! ### The statements -/

/-- Settles O5, by the kinds of operation: a bus operation by its offset, a command by its frame, an operation launched
from a register by its bit. -/
theorem decodeEncode : Obligations.DecodeEncode := by
  unfold Obligations.DecodeEncode
  intro i hw
  obtain hi | hi | hi := instr_kinds i
  · exact decode_encode_busOp hi hw
  · exact decode_encode_command hi
  · exact decode_encode_launched hi

/-- Settles O6, by the format of the code. -/
theorem decodedIsWellFormed : Obligations.DecodedIsWellFormed := by
  unfold Obligations.DecodedIsWellFormed
  intro c i h
  cases c with
  | bus k sz off d =>
    obtain ⟨rfl, hoff, rfl⟩ := decodeBus_ok_iff.1 h
    obtain ⟨hw, he⟩ := busInstr_wellFormed (k := k) d hoff
    refine ⟨hw, ?_, nofun⟩
    rintro _ _ _ _ ⟨⟩ hk
    exact he hk
  | word r w => exact ⟨launched_wellFormed (decodeLaunch_ok h), nofun, nofun⟩
  | frame f =>
    obtain ⟨⟨h47, h46, h0⟩, hc⟩ := decodeFrame_ok_iff.1 h
    obtain ⟨hw, he⟩ := commandOf_encode hc
    refine ⟨hw, nofun, ?_⟩
    rintro _ ⟨⟩ hcrc
    rw [he, commandFrame_of_fields h47 h46 h0 hcrc]

/-- Settles O7: the words of rule R131 are the four tests of the decoder, and the 128 sets are counted. -/
theorem legalLaunchSets : Obligations.LegalLaunchSets := by
  unfold Obligations.LegalLaunchSets
  refine ⟨fun w => ?test, ?count⟩
  case test =>
    simp only [legalLaunch, Bool.or_eq_true, Bool.and_eq_true, beq_iff_eq, clockBits_zero_iff, Bool.not_eq_true',
      Bool.and_eq_false_iff, not_and_or, Bool.not_eq_true, or_assoc, and_assoc]
  case count => decide

/-- Settles O4: the decoder is evaluated on each of the words. -/
theorem decodeKnownWords : Obligations.DecodeKnownWords := by
  unfold Obligations.DecodeKnownWords
  refine ⟨?rd, ?wr, ?set, ?clr, ?w1c, ?co, ?ri, ?di, ?dout, ?r2i, ?clk74o, ?clk8o, ?ctlrst, ?dmarst, ?gctlrst,
    ?cmd0, ?cmd8, ?cmd7, ?cmd17, ?cmd25, ?cmd55⟩
  all_goals rfl

end Sys2Proof.Machine
end

section
/-!
Which launches are refused, by a write of `CTL` and by the commands: illegal sets of launch bits, and requests against the
host contract (rules R129, R131, R275, R373 to R375).
-/

namespace Sys2Proof.Machine

/-! ### A write of `CTL` -/

/-- A write of `CTL` is refused whose launch bits, with those already 1, are an illegal set: either it clears one of
them, or that set is the word's own (rules R129, R131, R370). -/
theorem ctlRefusal_illegal {w : Word} {s : State} (h14 : w.getLsbD 14 = false)
    (hill : legalLaunch ((ctlNow s &&& 0x7F#32) ||| requested w s) = false) : ∃ r, ctlRefusal w s = some r := by
  by_cases hclear : ctlNow s &&& ~~~w &&& 0x407F#32 = 0#32
  · rw [requested_union hclear, legal_and] at hill
    exact ⟨.illegalLaunchSet, by simp only [ctlRefusal, h14, hclear, hill]; rfl⟩
  · exact ⟨.launchBitCleared, by simp only [ctlRefusal, h14, if_neg Bool.false_ne_true, if_pos hclear]⟩

/-- A write of `CTL` whose request the host contract refuses is refused. -/
theorem ctlRefusal_of_launch {w : Word} {s : State} (h14 : w.getLsbD 14 = false) (hreq : requested w s ≠ 0#32)
    (h : ∃ r, launchRefusal w s = some r) : ∃ r, ctlRefusal w s = some r := by
  unfold ctlRefusal
  rw [h14, if_neg Bool.false_ne_true, if_pos hreq]
  split
  · exact ⟨_, rfl⟩
  split
  · exact ⟨_, rfl⟩
  · exact h

/-- A refused write of `CTL`. -/
theorem exec_wr_ctl_refused {w : Word} {s : State} (h : ∃ r, ctlRefusal w s = some r) :
    ∃ r, exec (.wr 0x820#12 w) s = .refused r :=
  h.imp fun _ hr => refused_of regAt_820 hr

/-! ### The commands -/

/-- The launch bits of the commands (rule R290). -/
def commandLaunches : List Word := [launchNone, launchShort, launchLong, launchRead, launchWrite]

/-- The launch bits of a command are a legal set, not empty, and nothing else. -/
theorem commandLaunches_legal {l : Word} (h : l ∈ commandLaunches) :
    l &&& 0xFFFFFF80#32 = 0#32 ∧ l ≠ 0#32 ∧ legalLaunch l = true := by
  simp only [commandLaunches, List.mem_cons, List.not_mem_nil, or_false] at h
  rcases h with rfl | rfl | rfl | rfl | rfl
  all_goals decide

/-- A command that keeps the block count is refused as a request from `CTL` is. -/
theorem refused_commandWord {idx : BitVec 6} {l arg : Word} {s : State} (hq : Quiet s) (hl : l ∈ commandLaunches)
    (h : 2 ≤ s.ctl.sdport.toNat ∨ s.eng.halted = true
      ∨ ((l.getLsbD 2 = true ∨ l.getLsbD 3 = true) ∧ ¬DataLegal s.ctl.blkcnt.toNat s)) :
    ∃ r, command (commandWord · idx l) arg s = .refused r := by
  obtain ⟨hlow, hne, hlegal⟩ := commandLaunches_legal hl
  exact command_refused hq (fun t => isCmd_many t idx l (low_ok l hlow)) (low_ok l hlow) hne hlegal h

/-- A command that moves one block is refused as a request from `CTL` is. -/
theorem refused_oneBlockWord {idx : BitVec 6} {l arg : Word} {s : State} (hq : Quiet s) (hl : l ∈ commandLaunches)
    (h : 2 ≤ s.ctl.sdport.toNat ∨ s.eng.halted = true
      ∨ ((l.getLsbD 2 = true ∨ l.getLsbD 3 = true) ∧ ¬DataLegal 1 s)) :
    ∃ r, command (oneBlockWord · idx l) arg s = .refused r := by
  obtain ⟨hlow, hne, hlegal⟩ := commandLaunches_legal hl
  exact command_refused hq (fun t => isCmd_one t idx l (low_ok l hlow)) (low_ok l hlow) hne hlegal h

/-- Which control word a command writes: a word that keeps the block count, or one that asks for one block. -/
theorem exec_command_word {i : Instr} (hi : IsCommand i) : ∃ arg idx, ∃ l ∈ commandLaunches,
    (∀ s, exec i s = command (commandWord · idx l) arg s)
      ∨ ∀ s, exec i s = command (oneBlockWord · idx l) arg s := by
  obtain ⟨arg, hi⟩ := hi
  by_cases h17 : i = .cmd17 arg
  · exact ⟨arg, 17#6, launchRead, by decide, .inr fun _ => by rw [h17]; rfl⟩
  by_cases h24 : i = .cmd24 arg
  · exact ⟨arg, 24#6, launchWrite, by decide, .inr fun _ => by rw [h24]; rfl⟩
  simp only [h17, h24, false_or] at hi
  rcases hi with rfl | rfl | rfl | rfl | rfl | rfl | rfl | rfl | rfl | rfl | rfl | rfl | rfl
  all_goals exact ⟨arg, _, _, by decide, .inl fun _ => rfl⟩

/-- No command is submitted to a reserved port or a halted engine (rules R275, R375). -/
theorem command_refused_reserved_or_halted {i : Instr} (hi : IsCommand i) {s : State} (hq : Quiet s)
    (h : 2 ≤ s.ctl.sdport.toNat ∨ s.eng.halted = true) : ∃ r, exec i s = .refused r := by
  have h' : ∀ p : Prop, 2 ≤ s.ctl.sdport.toNat ∨ s.eng.halted = true ∨ p := fun _ => or_assoc.1 (.inl h)
  obtain ⟨arg, idx, l, hl, hx | hx⟩ := exec_command_word hi
  · rw [hx]; exact refused_commandWord hq hl (h' _)
  · rw [hx]; exact refused_oneBlockWord hq hl (h' _)

/-! ### The statement -/

/-- Settles O23: a write of `CTL` by what `ctlRefusal` examines in turn, a command by the control word it writes. -/
theorem refuseIllegalLaunch : Obligations.RefuseIllegalLaunch := by
  unfold Obligations.RefuseIllegalLaunch
  refine ⟨fun s w h14 hill => ?illegal, fun s w h14 hreq h => ?request, fun s arg hq => ⟨?port, ?one, ?many⟩⟩
  case illegal => exact exec_wr_ctl_refused (ctlRefusal_illegal h14 hill)
  case request => exact exec_wr_ctl_refused (ctlRefusal_of_launch h14 hreq (launchRefusal_some h))
  case port => exact fun h i hi => command_refused_reserved_or_halted ⟨arg, hi⟩ hq h.symm
  case one =>
    exact fun hd => ⟨refused_oneBlockWord (l := launchRead) hq (by decide) (.inr (.inr ⟨.inl rfl, hd⟩)),
      refused_oneBlockWord (l := launchWrite) hq (by decide) (.inr (.inr ⟨.inr rfl, hd⟩))⟩
  case many =>
    exact fun hd => ⟨refused_commandWord (l := launchRead) hq (by decide) (.inr (.inr ⟨.inl rfl, hd⟩)),
      refused_commandWord (l := launchWrite) hq (by decide) (.inr (.inr ⟨.inr rfl, hd⟩))⟩

end Sys2Proof.Machine
end

section
/-!
The host's register operations: a read changes nothing of the block, a write stores every field of its register at once,
`SET` and `CLR` are writes of the changed value, and `W1C` clears flags (rules R83, R150 to R157, R180).
-/

namespace Sys2Proof.Machine

/-! ### Reads (rules R45, R85, R150) -/

/-- Outside the reserved bits a read returns the value of the register. -/
theorem regView_and_not_reserved (off : Offset) (r : Reg) (s : State) :
    regView off r s &&& ~~~reservedMask r = regNow off r s := by
  apply BitVec.eq_of_getLsbD_eq
  intro j hj
  have hres : ((regNow off r s).getLsbD j && (reservedMask r).getLsbD j) = false := by
    rw [← BitVec.getLsbD_and, regNow_reserved, BitVec.getLsbD_zero]
  cases hm : (reservedMask r).getLsbD j with
  | false => rw [and_mask_getLsbD _ _ hm hj, regView_getLsbD off r s hm]
  | true =>
    rw [hm, Bool.and_true] at hres
    simp [hm, hres]

/-- In the reserved bits a read returns a draw. -/
theorem regView_and_reserved (off : Offset) (r : Reg) (s : State) :
    regView off r s &&& reservedMask r = Config.anyWord s.draws off &&& reservedMask r := by
  rw [regView, BitVec.and_comm, BitVec.and_or_distrib_left, BitVec.and_comm (reservedMask r) (regNow off r s),
    regNow_reserved, BitVec.zero_or, BitVec.and_comm, BitVec.and_assoc, BitVec.and_self]

/-- A read of any register but `INTSTS` only advances the counter of draws. -/
theorem afterRead_of_ne {r : Reg} (h : r ≠ .intsts) (s : State) : afterRead r s = s.tick := by
  cases r
  case intsts => exact absurd rfl h
  all_goals rfl

/-- A read changes the counter of draws and at most the scripts of the cards (rules R52, R85). -/
theorem afterRead_eq (r : Reg) (s : State) : afterRead r s =
    { s with draws := s.draws + 1, card0 := (afterRead r s).card0, card1 := (afterRead r s).card1 } := by
  by_cases h : r = .intsts
  · rw [h]
    simp only [afterRead, tookDat0, State.setCard]
    split <;> rfl
  · rw [afterRead_of_ne h]
    rfl

/-- Settles O10: the state after a read is `afterRead`, and what it returns is split at the reserved bits. -/
theorem rdCompletes : Obligations.RdCompletes := by
  unfold Obligations.RdCompletes
  intro s off r hoff hfb
  refine ⟨_, execRd_of hoff hfb, ?frame, ?scripts, regView_and_not_reserved off r s, regView_and_reserved off r s⟩
  case frame => exact congrArg (fun t : State => { t with rdata := regView off r s }) (afterRead_eq r s)
  case scripts =>
    intro hne
    rw [afterRead_of_ne hne]
    exact ⟨rfl, rfl⟩

/-! ### Writes of registers without launch bits or flags (rules R151, R371) -/

/-- A write that nothing refuses. -/
theorem execWr_next {off : Offset} {r : Reg} {w : Word} {s : State} (h : regAt off = some r)
    (hr : regWriteRefusal r w s = none) : exec (.wr off w) s = .next (regWrite r w s).tick := by
  rw [execWr_of h, hr]

/-- An operand register may be written while nothing is in flight, or with the value it holds (rule R371). -/
theorem operandRefusal_none {n : Nat} {a b : BitVec n} {s : State} (h : inFlight s = false ∨ a = b) :
    (if inFlight s && a != b then some Refusal.operandInFlight else none) = none := by
  obtain h | rfl := h
  · simp [h]
  · simp

theorem exec_wr_cmdarg {w : Word} {s : State} (h : inFlight s = false ∨ s.cmdarg = w) :
    exec (.wr 0x824#12 w) s = .next { s with cmdarg := w, draws := s.draws + 1 } :=
  execWr_next regAt_824 (operandRefusal_none h)

theorem exec_wr_dmasa {w : Word} {s : State} (h : inFlight s = false ∨ s.dmasa = w) :
    exec (.wr 0x408#12 w) s = .next { s with dmasa := w, draws := s.draws + 1 } :=
  execWr_next regAt_408 (operandRefusal_none h)

theorem exec_wr_blen {w : Word} {s : State} (h : inFlight s = false ∨ s.blen = w.extractLsb' 0 11) :
    exec (.wr 0x838#12 w) s = .next { s with blen := w.extractLsb' 0 11, draws := s.draws + 1 } := by
  rw [← setWidth_eq_extract] at h ⊢
  exact execWr_next regAt_838 (operandRefusal_none h)

theorem exec_wr_tout {w : Word} {s : State} (h : inFlight s = false ∨ s.tout = w.extractLsb' 0 24) :
    exec (.wr 0x83C#12 w) s = .next { s with tout := w.extractLsb' 0 24, draws := s.draws + 1 } := by
  rw [← setWidth_eq_extract] at h ⊢
  exact execWr_next regAt_83C (operandRefusal_none h)

theorem exec_wr_dmainten (w : Word) (s : State) : exec (.wr 0x410#12 w) s = .next { s with
    dmainten := { abortien := w.getLsbD 0, weotien := w.getLsbD 1 }, draws := s.draws + 1 } :=
  execWr_next regAt_410 rfl

theorem exec_wr_ginten (w : Word) (s : State) :
    exec (.wr 0x804#12 w) s = .next { s with dtaien := w.getLsbD 0, draws := s.draws + 1 } :=
  execWr_next regAt_804 rfl

/-- The fields of `INTEN` as a word has them (rule R37). -/
def wordInten (w : Word) : IntEn :=
  { blkdien := w.getLsbD 0, crcien := w.getLsbD 1, cdien0 := w.getLsbD 8, cdien1 := w.getLsbD 9
    rtoien := w.getLsbD 12, ditoien := w.getLsbD 13, cdsrc0 := w.getLsbD 30, cdsrc1 := w.getLsbD 31 }

theorem exec_wr_inten (w : Word) (s : State) :
    exec (.wr 0x828#12 w) s = .next { s with inten := wordInten w, draws := s.draws + 1 } :=
  execWr_next regAt_828 rfl

/-- Settles O12, register by register: the operand registers by what may be written in flight, the others by having
nothing that refuses; `regWrite` leaves the read-only ones as they are. -/
theorem wrStoresFields : Obligations.WrStoresFields := by
  unfold Obligations.WrStoresFields
  intro s w
  refine ⟨exec_wr_cmdarg, exec_wr_dmasa, exec_wr_blen, exec_wr_tout, exec_wr_dmainten w s, exec_wr_ginten w s,
    exec_wr_inten w s, execWr_next regAt_840 rfl, ?readOnly⟩
  rintro off (rfl | rfl | rfl)
  · exact execWr_next regAt_40C rfl
  · exact execWr_next regAt_830 rfl
  · exact execWr_next regAt_834 rfl

/-! ### Writes of `CTL` to a quiet engine (rules R129, R157, R180) -/

/-- A launch bit known to be 0 takes the value of the bit that requests it. -/
theorem known_ite (b : Bool) : (if b = true then Held.known true else Held.known false) = Held.known b := by
  cases b <;> rfl

/-- The fields stored and the launch bits set make the `CTL` of the word. -/
theorem launch_withFields_quiet {s : State} (hq : Quiet s) (w : Word) : (s.ctl.withFields w).launch w = wordCtl w := by
  obtain ⟨hco, hri, hdi, hdo, hr2, h74, h8, hrst, -⟩ := hq
  simp [Ctl.launch, Ctl.withFields, wordCtl, portField, Held.isOn, hco, hri, hdi, hdo, hr2, h74, h8, hrst, known_ite]

/-- A word whose bits at the mask are 0 has each of them 0. -/
theorem getLsbD_of_and_eq_zero {w k : Word} (h : w &&& k = 0#32) {j : Nat} (hj : k.getLsbD j = true) :
    w.getLsbD j = false := by
  simpa [hj] using congrArg (fun x => x.getLsbD j) h

/-- A word without a launch bit of an operation or of the reset. -/
theorem and_launches_zero {w : Word} (h : w &&& 0x407F#32 = 0#32) : w &&& 0x7F#32 = 0#32 := by
  rw [show 0x7F#32 = 0x407F#32 &&& 0x7F#32 from rfl, ← BitVec.and_assoc, h, BitVec.zero_and]

/-- A word without launch bits stores its fields, and they make the `CTL` of the word. -/
theorem withFields_quiet {s : State} (hq : Quiet s) {w : Word} (hw : w &&& 0x407F#32 = 0#32) :
    s.ctl.withFields w = wordCtl w := by
  have hbit : ∀ j, (0x407F#32).getLsbD j = true → w.getLsbD j = false := fun j hj => getLsbD_of_and_eq_zero hw hj
  obtain ⟨hco, hri, hdi, hdo, hr2, h74, h8, hrst, -⟩ := hq
  simp only [Ctl.withFields, wordCtl, portField, hco, hri, hdi, hdo, hr2, h74, h8, hrst, hbit 0 rfl, hbit 1 rfl,
    hbit 2 rfl, hbit 3 rfl, hbit 4 rfl, hbit 5 rfl, hbit 6 rfl]

/-- A write of `CTL` that requests operations of a quiet engine, and whose request the host contract admits. -/
theorem exec_wr_ctl_launch {s : State} {w : Word} (hq : Quiet s) (hh : s.eng.halted = false)
    (h14 : w.getLsbD 14 = false) (hne : w &&& 0x7F#32 ≠ 0#32) (hlegal : legalLaunch w = true)
    (hport : (portField w).toNat < 2)
    (hdata : (w.getLsbD 2 = true ∨ w.getLsbD 3 = true) → DataLegal (w.extractLsb' 16 8).toNat s) :
    exec (.wr 0x820#12 w) s = .next { s with
      ctl := wordCtl w
      eng := { s.eng with phase := if s.eng.phase = .idle then nextPhase (wordCtl w) else s.eng.phase }
      draws := s.draws + 1 } := by
  have hr : regWriteRefusal .ctl w s = none := by
    simp only [regWriteRefusal, ctlRefusal, h14, Bool.false_eq_true, if_false, cleared_quiet hq, ne_eq, not_true,
      hlegal, Bool.not_true, requested_quiet hq, if_pos hne, launchRefusal_none hq hh hport hdata]
  have hw : writeCtl w s = { s with
      ctl := wordCtl w
      eng := { s.eng with phase := if s.eng.phase = .idle then nextPhase (wordCtl w) else s.eng.phase } } := by
    simp only [writeCtl, h14, Bool.false_eq_true, if_false, requested_quiet hq, if_pos hne, launch_withFields_quiet hq]
    split <;> rfl
  rw [execWr_next regAt_820 hr, regWrite, hw]
  rfl

/-- A write of `CTL` to a quiet engine that launches nothing. -/
theorem exec_wr_ctl_fields {s : State} {w : Word} (hq : Quiet s) (hw : w &&& 0x407F#32 = 0#32) :
    exec (.wr 0x820#12 w) s = .next { s with ctl := wordCtl w, draws := s.draws + 1 } := by
  have h14 : w.getLsbD 14 = false := getLsbD_of_and_eq_zero hw rfl
  have hlow := and_launches_zero hw
  have hr : regWriteRefusal .ctl w s = none := by
    simp [regWriteRefusal, ctlRefusal, cleared_quiet hq, legalLaunch, requested_quiet hq, hlow, inFlight_quiet hq]
  rw [execWr_next regAt_820 hr]
  simp only [regWrite, writeCtl, h14, Bool.false_eq_true, if_false, requested_quiet hq, hlow, ne_eq, not_true,
    withFields_quiet hq hw]
  rfl

/-- Settles O15: the word with a request and the word without one. -/
theorem wrControlWord : Obligations.WrControlWord := by
  unfold Obligations.WrControlWord
  exact ⟨fun _ _ => exec_wr_ctl_launch, fun _ _ => exec_wr_ctl_fields⟩

/-! ### `SET` and `CLR` as writes (rules R83, R152, R153) -/

/-- On every register but `INTSTS`, whose read asks the card, `SET` and `CLR` are the write of the changed value. -/
theorem modify_eq_wr {off : Offset} {r : Reg} (f : Word → Word) {s : State} (h : regAt off = some r)
    (hfb : (∃ i, r = .fb i) → inFlight s = false) (hne : r ≠ .intsts) :
    modify off f s = exec (.wr off (f (rmwBase off r s))) s := by
  rw [modify_of f h hfb, execWr_of h]
  simp only [afterRead_of_ne hne]

/-- `SET` and `CLR` of `INTSTS` write over flags taken as 0, and ask the card for the level of DAT0. -/
theorem modify_intsts (f : Word → Word) (s : State) :
    modify 0x82C#12 f s = .next (tookDat0 (clearFlags .intsts (f 0#32) s)) :=
  modify_of f regAt_82C nofun

/-- Asking for the level of DAT0 and clearing flags do not meet. -/
theorem tookDat0_clearFlags (m : Word) (s : State) :
    tookDat0 (clearFlags .intsts m s) = { tookDat0 s with intsts := s.intsts.clear m } := by
  have hport : selPort (clearFlags .intsts m s) = selPort s := rfl
  simp only [tookDat0, State.setCard, hport]
  split <;> rfl

/-- A word without a flag's bit clears no flag. -/
theorem clearFlags_zero (r : W1cReg) (s : State) : clearFlags r 0#32 s = s := by
  cases r <;> simp [clearFlags, IntSts.clear, DmaIntSts.clear]

/-- A bit of the word that `CLR` writes. -/
theorem and_not_getLsbD (w m : Word) {j : Nat} (hj : j < 32) :
    (w &&& ~~~m).getLsbD j = (w.getLsbD j && !m.getLsbD j) := by
  rw [BitVec.getLsbD_and, BitVec.getLsbD_not, decide_eq_true hj, Bool.true_and]

/-- The fields of a register of two with the bits of a mask cleared. -/
theorem bits2_and_not_getLsbD (a b : Bool) (m : Word) :
    ((bit 0 a ||| bit 1 b) &&& ~~~m).getLsbD 0 = (a && !m.getLsbD 0)
      ∧ ((bit 0 a ||| bit 1 b) &&& ~~~m).getLsbD 1 = (b && !m.getLsbD 1) := by
  rw [and_not_getLsbD _ _ (by decide), and_not_getLsbD _ _ (by decide), (bits2_getLsbD a b).1, (bits2_getLsbD a b).2]
  exact ⟨rfl, rfl⟩

/-! ### The fields of `INTEN` and `DMACTL` in the word that `SET` and `CLR` write (rules R27, R37) -/

/-- The fields of `INTEN` with the bits of a mask set. -/
theorem wordInten_or (off : Offset) (m : Word) (s : State) : wordInten (regNow off .inten s ||| m) =
    { blkdien := s.inten.blkdien || m.getLsbD 0, crcien := s.inten.crcien || m.getLsbD 1
      cdien0 := s.inten.cdien0 || m.getLsbD 8, cdien1 := s.inten.cdien1 || m.getLsbD 9
      rtoien := s.inten.rtoien || m.getLsbD 12, ditoien := s.inten.ditoien || m.getLsbD 13
      cdsrc0 := s.inten.cdsrc0 || m.getLsbD 30, cdsrc1 := s.inten.cdsrc1 || m.getLsbD 31 } := by
  simp [-BitVec.getLsbD_eq_getElem, wordInten, BitVec.getLsbD_or, intenNow_getLsbD]

/-- The fields of `INTEN` with the bits of a mask cleared. -/
theorem wordInten_and_not (off : Offset) (m : Word) (s : State) : wordInten (regNow off .inten s &&& ~~~m) =
    { blkdien := s.inten.blkdien && !m.getLsbD 0, crcien := s.inten.crcien && !m.getLsbD 1
      cdien0 := s.inten.cdien0 && !m.getLsbD 8, cdien1 := s.inten.cdien1 && !m.getLsbD 9
      rtoien := s.inten.rtoien && !m.getLsbD 12, ditoien := s.inten.ditoien && !m.getLsbD 13
      cdsrc0 := s.inten.cdsrc0 && !m.getLsbD 30, cdsrc1 := s.inten.cdsrc1 && !m.getLsbD 31 } := by
  simp [-BitVec.getLsbD_eq_getElem, wordInten, intenNow_getLsbD]

/-- `DMACTL` after a write with no `DMARST` pending: the busy flag stays (rule R27). -/
def wordDmactl (w : Word) (c : DmaCtl) : DmaCtl :=
  { c with dmaen := w.getLsbD 0, dmarst := w.getLsbD 1, sgen := w.getLsbD 3 }

/-- A write of `DMACTL` with no `DMARST` pending (rules R27, R371). -/
theorem exec_wr_dmactl {w : Word} {s : State} (hrst : s.dmactl.dmarst = false)
    (h : inFlight s = false ∨ s.dmactl.sgen = w.getLsbD 3 ∧ (s.dmactl.dmaen = true → w.getLsbD 0 = true)) :
    exec (.wr 0x400#12 w) s = .next { s with dmactl := wordDmactl w s.dmactl, draws := s.draws + 1 } := by
  have hr : regWriteRefusal .dmactl w s = none := by
    simp only [regWriteRefusal, dmactlRefusal, hrst, Bool.false_and, Bool.false_eq_true, if_false]
    obtain h | ⟨hsgen, hen⟩ := h
    · simp [h]
    · cases he : s.dmactl.dmaen with
      | false => simp [hsgen]
      | true => simp [hsgen, hen he]
  rw [execWr_next regAt_400 hr]
  simp only [regWrite, writeDmactl, hrst, Bool.false_or]
  rfl

/-- `DMACTL` with the bits of a mask set. -/
theorem wordDmactl_or {s : State} (hrst : s.dmactl.dmarst = false) (m : Word) :
    wordDmactl (dmactlNow s ||| m) s.dmactl = { s.dmactl with
      dmaen := s.dmactl.dmaen || m.getLsbD 0, dmarst := m.getLsbD 1, sgen := s.dmactl.sgen || m.getLsbD 3 } := by
  simp [-BitVec.getLsbD_eq_getElem, wordDmactl, BitVec.getLsbD_or, dmactlNow_getLsbD, hrst]

/-- `DMACTL` with the bits of a mask cleared. -/
theorem wordDmactl_and_not {s : State} (hrst : s.dmactl.dmarst = false) (m : Word) :
    wordDmactl (dmactlNow s &&& ~~~m) s.dmactl = { s.dmactl with
      dmaen := s.dmactl.dmaen && !m.getLsbD 0, sgen := s.dmactl.sgen && !m.getLsbD 3 } := by
  simp [-BitVec.getLsbD_eq_getElem, wordDmactl, dmactlNow_getLsbD, hrst]

/-! ### Launch bits of `CTL` set in a quiet engine (rules R129, R157) -/

/-- A launch bit of the word that `SET` writes is the mask's. -/
theorem ctlNow_or_launchBit {s : State} (hq : Quiet s) (m : Word) {j : Nat} (hj : (0x407F#32).getLsbD j = true) :
    (ctlNow s ||| m).getLsbD j = m.getLsbD j := by
  rw [BitVec.getLsbD_or, ctlNow_quiet_bit hq j hj, Bool.false_or]

/-- The word that `SET` writes with a mask of launch bits has no others. -/
theorem ctlNow_or_and_launches {s : State} (hq : Quiet s) {m : Word} (hm : m &&& 0x7F#32 = m) :
    (ctlNow s ||| m) &&& 0x7F#32 = m := by
  rw [BitVec.and_comm, BitVec.and_or_distrib_left, BitVec.and_comm _ (ctlNow s), BitVec.and_comm _ m, hm,
    and_launches_zero (ctlNow_quiet hq), BitVec.zero_or]

/-- The word that `SET` writes with a mask of launch bits has the fields of `CTL`. -/
theorem withFields_ctlNow_or (s : State) {m : Word} (hm : m &&& 0x7F#32 = m) :
    s.ctl.withFields (ctlNow s ||| m) = s.ctl := by
  refine withFields_now s m ?_
  rw [← hm, BitVec.and_assoc]
  exact BitVec.and_zero

/-- The `CTL` that `SET` writes with a mask of launch bits. -/
theorem wordCtl_ctlNow_or {s : State} (hq : Quiet s) {m : Word} (hm : m &&& 0x7F#32 = m) :
    wordCtl (ctlNow s ||| m) = s.ctl.launch m := by
  have hbit : ∀ j, (0x407F#32).getLsbD j = true → (ctlNow s ||| m).getLsbD j = m.getLsbD j :=
    fun j hj => ctlNow_or_launchBit hq m hj
  rw [← launch_withFields_quiet hq, withFields_ctlNow_or s hm]
  simp only [Ctl.launch, hbit 0 rfl, hbit 1 rfl, hbit 2 rfl, hbit 3 rfl, hbit 4 rfl, hbit 5 rfl, hbit 6 rfl]

/-- `SET` of launch bits of `CTL` launches those operations alone (rules R152, R157). -/
theorem exec_set_ctl_launch {s : State} {m : Word} (hq : Quiet s) (hh : s.eng.halted = false) (hm : m &&& 0x7F#32 = m)
    (hne : m ≠ 0#32) (hlegal : legalLaunch m = true) (hport : s.ctl.sdport.toNat < 2)
    (hdata : (m.getLsbD 2 = true ∨ m.getLsbD 3 = true) → DataLegal s.ctl.blkcnt.toNat s) :
    exec (.set 0x820#12 m) s = .next { s with
      ctl := s.ctl.launch m
      eng := { s.eng with phase := if s.eng.phase = .idle then nextPhase (s.ctl.launch m) else s.eng.phase }
      draws := s.draws + 1 } := by
  have hand := ctlNow_or_and_launches hq hm
  have hfields := withFields_ctlNow_or s hm
  have hsdport : portField (ctlNow s ||| m) = s.ctl.sdport := congrArg Ctl.sdport hfields
  have hblkcnt : (ctlNow s ||| m).extractLsb' 16 8 = s.ctl.blkcnt := congrArg Ctl.blkcnt hfields
  have h14 : m.getLsbD 14 = false := by rw [← hm]; simp
  rw [← wordCtl_ctlNow_or hq hm]
  refine (modify_eq_wr (· ||| m) regAt_820 nofun nofun).trans
    (exec_wr_ctl_launch hq hh ((ctlNow_or_launchBit hq m rfl).trans h14) ?nonempty ?legal ?port ?data)
  case nonempty => exact fun h => hne (hand.symm.trans h)
  case legal => exact (legal_and _).symm.trans ((congrArg legalLaunch hand).trans hlegal)
  case port => exact lt_of_eq_of_lt (congrArg BitVec.toNat hsdport) hport
  case data =>
    show ((ctlNow s ||| m).getLsbD 2 = true ∨ (ctlNow s ||| m).getLsbD 3 = true) →
      DataLegal ((ctlNow s ||| m).extractLsb' 16 8).toNat s
    rw [ctlNow_or_launchBit hq m rfl, ctlNow_or_launchBit hq m rfl, hblkcnt]
    exact hdata

/-- The two clock bits in a quiet `CTL`, and the operation that comes first with one of them (rules R112, R175). -/
theorem launch_clockBits {s : State} (hq : Quiet s) :
    (s.ctl.launch 0x20#32 = { s.ctl with clk74oen := true } ∧ nextPhase (s.ctl.launch 0x20#32) = .clk74)
      ∧ s.ctl.launch 0x40#32 = { s.ctl with clk8oen := true } ∧ nextPhase (s.ctl.launch 0x40#32) = .clk8 := by
  obtain ⟨hco, hri, hdi, hdo, hr2, h74, h8, -, -⟩ := hq
  simp [Ctl.launch, nextPhase, Held.isOn, hco, hri, hdi, hdo, hr2, h74, h8]

/-! ### The statements on `SET` and `CLR` -/

/-- Settles O17, register by register as the write of the value with the bits of the mask set. -/
theorem setCompletes : Obligations.SetCompletes := by
  unfold Obligations.SetCompletes
  intro s m
  refine ⟨?cmdarg, ?dmasa, ?inten, ?dmactl, ?fb, ?intsts, ?ctl⟩
  case cmdarg => exact fun h => (modify_eq_wr (· ||| m) regAt_824 nofun nofun).trans (exec_wr_cmdarg h)
  case dmasa => exact fun h => (modify_eq_wr (· ||| m) regAt_408 nofun nofun).trans (exec_wr_dmasa h)
  case inten =>
    rw [← wordInten_or 0x828#12]
    exact (modify_eq_wr (· ||| m) regAt_828 nofun nofun).trans (exec_wr_inten _ s)
  case dmactl =>
    intro hrst h
    rw [← wordDmactl_or hrst]
    refine (modify_eq_wr (· ||| m) regAt_400 nofun nofun).trans (exec_wr_dmactl hrst (h.imp_right fun h3 => ?_))
    have hword := wordDmactl_or hrst m
    have hsgen : (dmactlNow s ||| m).getLsbD 3 = (s.dmactl.sgen || m.getLsbD 3) := congrArg DmaCtl.sgen hword
    have hen : (dmactlNow s ||| m).getLsbD 0 = (s.dmactl.dmaen || m.getLsbD 0) := congrArg DmaCtl.dmaen hword
    exact ⟨(hsgen.trans (by rw [h3, Bool.or_false])).symm, fun he => hen.trans (by rw [he, Bool.true_or])⟩
  case fb =>
    intro i v hfl hh hv
    have hnow : rmwBase (BitVec.ofNat 12 (4 * i)) (.fb i) s = v := by
      simp only [rmwBase, regNow, hv, hh, Held.hideIf_false, Held.pick]
    have hr : regWriteRefusal (.fb i) (v ||| m) s = none := by simp [regWriteRefusal, hfl]
    refine (modify_eq_wr (· ||| m) (regAt_fb i) (fun _ => hfl) nofun).trans ?_
    rw [hnow]
    exact execWr_next (regAt_fb i) hr
  case intsts =>
    refine (modify_intsts (· ||| m) s).trans ?_
    rw [BitVec.zero_or, tookDat0_clearFlags]
  case ctl =>
    intro hq hh hport
    obtain ⟨⟨hctl74, hphase74⟩, hctl8, hphase8⟩ := launch_clockBits hq
    constructor
    · rw [exec_set_ctl_launch hq hh rfl (by decide) rfl hport (fun h => absurd h (by decide)), hphase74, hctl74]
    · rw [exec_set_ctl_launch hq hh rfl (by decide) rfl hport (fun h => absurd h (by decide)), hphase8, hctl8]

/-- Settles O18, register by register as the write of the value with the bits of the mask cleared; the word written to a
register of flags is 0, and so clears none. -/
theorem clrCompletes : Obligations.ClrCompletes := by
  unfold Obligations.ClrCompletes
  intro s m
  have hzero : 0#32 &&& ~~~m = 0#32 := BitVec.zero_and
  refine ⟨?cmdarg, ?inten, ?dmainten, ?ginten, ?dmactl, ?intsts, ?dmaintsts, ?gintsts⟩
  case cmdarg => exact fun h => (modify_eq_wr (· &&& ~~~m) regAt_824 nofun nofun).trans (exec_wr_cmdarg h)
  case inten =>
    rw [← wordInten_and_not 0x828#12]
    exact (modify_eq_wr (· &&& ~~~m) regAt_828 nofun nofun).trans (exec_wr_inten _ s)
  case dmainten =>
    obtain ⟨habort, hweot⟩ := bits2_and_not_getLsbD s.dmainten.abortien s.dmainten.weotien m
    rw [← habort, ← hweot]
    exact (modify_eq_wr (· &&& ~~~m) regAt_410 nofun nofun).trans (exec_wr_dmainten _ s)
  case ginten =>
    have hbit : (bit 0 s.dtaien &&& ~~~m).getLsbD 0 = (s.dtaien && !m.getLsbD 0) := by
      rw [and_not_getLsbD _ _ (by decide), bit_getLsbD _ _ (by decide), decide_eq_true rfl, Bool.and_true]
    rw [← hbit]
    exact (modify_eq_wr (· &&& ~~~m) regAt_804 nofun nofun).trans (exec_wr_ginten _ s)
  case dmactl =>
    intro hfl hrst
    rw [← wordDmactl_and_not hrst]
    exact (modify_eq_wr (· &&& ~~~m) regAt_400 nofun nofun).trans (exec_wr_dmactl hrst (.inl hfl))
  case intsts =>
    refine (modify_intsts (· &&& ~~~m) s).trans ?_
    rw [hzero, clearFlags_zero]
  case dmaintsts =>
    refine (modify_eq_wr (· &&& ~~~m) regAt_414 nofun nofun).trans ((execWr_next regAt_414 rfl).trans ?_)
    rw [rmwBase, hzero, regWrite, clearFlags_zero]
    rfl
  case gintsts =>
    refine (modify_eq_wr (· &&& ~~~m) regAt_808 nofun nofun).trans ((execWr_next regAt_808 rfl).trans ?_)
    rw [rmwBase, hzero, regWrite, clearFlags_zero]
    rfl

/-! ### `W1C` (rule R156) -/

/-- Settles O19: `execW1c` has no refusal, and `clearFlags` is written flag by flag. -/
theorem w1cClears : Obligations.W1cClears := by
  unfold Obligations.W1cClears
  intro s m
  exact ⟨rfl, rfl, rfl⟩

end Sys2Proof.Machine
end

section
/-!
The command encoder: which operation the engine performs next, when an operation is held, and what the clock bursts and
the command output do (rules R129, R170 to R176, R196, R232).
-/

namespace Sys2Proof.Machine

/-! ### The fixed order (rules R129, R175) -/

/-- With `CTLRST` 0, a legal set and a port that is not reserved, the decoder takes the first launch bit that is 1. -/
theorem decodeCtl_of_legal {w : Word} (h14 : w.getLsbD 14 = false) (hl : legalLaunch w = true)
    (hp : (portField w).toNat < 2) :
    decodeCtl w =
      if w.getLsbD 5 = true then .ok .clk74o
      else if w.getLsbD 0 = true then .ok .co
      else if w.getLsbD 1 = true then .ok .ri
      else if w.getLsbD 4 = true then .ok .r2i
      else if w.getLsbD 2 = true then .ok .di
      else if w.getLsbD 3 = true then .ok .dout
      else if w.getLsbD 6 = true then .ok .clk8o
      else .error .noOperation := by
  simp only [decodeCtl, h14, hl, Nat.not_le.2 hp, Bool.not_true, Bool.false_eq_true, if_false]

/-- The set of launch bits read from `CTL` is legal where the set that stands in it is (rule R131). -/
theorem legalLaunch_ctlNow {s : State} (hl : LegalSet s) (hk : LaunchKnown s) (hh : s.eng.halted = false) :
    legalLaunch (ctlNow s) = true := by
  rw [← legal_and, ctlNow_launchBits hk hh]
  exact hl

/-- The launch bits read from `CTL` where all of them are known, in the fixed order (rules R112, R175). -/
theorem ctlNow_bits_inOrder {s : State} (hk : LaunchKnown s) (hh : s.eng.halted = false) :
    (ctlNow s).getLsbD 5 = s.ctl.clk74oen ∧ (ctlNow s).getLsbD 0 = s.ctl.coen ∧ (ctlNow s).getLsbD 1 = s.ctl.rien.isOn
      ∧ (ctlNow s).getLsbD 4 = s.ctl.r2en.isOn ∧ (ctlNow s).getLsbD 2 = s.ctl.dien.isOn
      ∧ (ctlNow s).getLsbD 3 = s.ctl.doen.isOn ∧ (ctlNow s).getLsbD 6 = s.ctl.clk8oen := by
  obtain ⟨hri, hdi, hdo, hr2⟩ := hk hh
  have hread {j : Nat} (hj : j < 32) := ctlNow_getLsbD s hj
  exact ⟨hread (by decide), hread (by decide), (hread (by decide)).trans (pick_of hri _),
    (hread (by decide)).trans (pick_of hr2 _), (hread (by decide)).trans (pick_of hdi _),
    (hread (by decide)).trans (pick_of hdo _), hread (by decide)⟩

/-- Settles O8: the launch bits are read as they stand, and the decoder asks for them in the fixed order. -/
theorem engineOrder : Obligations.EngineOrder := by
  unfold Obligations.EngineOrder
  intro s hlegal hknown hhalt hport hrst
  have h14 : (ctlNow s).getLsbD 14 = false := (ctlNow_getLsbD s (by decide)).trans hrst
  have hp : (portField (ctlNow s)).toNat < 2 := by rwa [portField, ctlNow_sdport]
  obtain ⟨hclk74, hco, hri, hr2, hdi, hdo, hclk8⟩ := ctlNow_bits_inOrder hknown hhalt
  refine (decodeCtl_of_legal h14 (legalLaunch_ctlNow hlegal hknown hhalt) hp).trans ?_
  simp only [hclk74, hco, hri, hr2, hdi, hdo, hclk8, isOn_iff]

/-! ### Held operations and resets (rules R176, R232, R250 to R252) -/

/-- Where a condition of rule R232 is missing, `DI` and `DO` leave the state as it is. -/
theorem held_data {s : State} (h : ¬DataReady s) : exec .di s = .next s ∧ exec .dout s = .next s := by
  have hd : (!dataEnabled s) = true := by rw [Bool.not_eq_true', Bool.eq_false_iff, ne_eq, dataEnabled_iff]; exact h
  exact ⟨if_pos hd, if_pos hd⟩

/-- A launched `CTLRST` completes. -/
theorem exec_ctlrst_clears {s : State} (h : s.ctl.ctlrst = true) :
    ∃ t, exec .ctlrst s = .next t ∧ t.ctl.ctlrst = false := by
  refine ⟨_, rfl, ?_⟩
  rw [if_pos h]
  rfl

/-- A launched `DMARST` completes. -/
theorem exec_dmarst_clears {s : State} (h : s.dmactl.dmarst = true) :
    ∃ t, exec .dmarst s = .next t ∧ t.dmactl.dmarst = false := by
  refine ⟨_, rfl, ?_⟩
  rw [if_pos h]

/-- A launched `GCTLRST` completes. -/
theorem exec_gctlrst_clears {s : State} (h : s.gctl.gctlrst = true) :
    ∃ t, exec .gctlrst s = .next t ∧ t.gctl.gctlrst = false := by
  refine ⟨_, rfl, ?_⟩
  rw [if_pos h]
  rfl

/-- Settles O25: a missing condition is a false guard of the operation, and no reset has another guard than its bit. -/
theorem heldOperations : Obligations.HeldOperations := by
  unfold Obligations.HeldOperations
  intro s
  exact ⟨fun h => held s (not_ready h), held_data, exec_ctlrst_clears, exec_dmarst_clears, exec_gctlrst_clears⟩

/-! ### Clocks and command output (rules R170 to R173) -/

/-- The frame of rule R172 is the one that the encoder puts together. -/
theorem commandFrame_eq_frameOf (idx : BitVec 6) (arg : Word) : commandFrame idx arg = frameOf idx arg := rfl

/-- A launched `CLK74O` of a ready engine is performed. -/
theorem exec_clk74o {s : State} (he : EngineReady s) (h : s.ctl.clk74oen = true) : exec .clk74o s =
    .next { s.log (.clk (selPort s) 74) with ctl := { s.ctl with clk74oen := false } }.goOn :=
  congrArg _ (if_pos (Bool.and_eq_true_iff.2 ⟨(enabled_iff s).2 he, h⟩))

/-- A launched `CLK8O` of a ready engine is performed. -/
theorem exec_clk8o {s : State} (he : EngineReady s) (h : s.ctl.clk8oen = true) : exec .clk8o s =
    .next { s.log (.clk (selPort s) 8) with ctl := { s.ctl with clk8oen := false } }.goOn :=
  congrArg _ (if_pos (Bool.and_eq_true_iff.2 ⟨(enabled_iff s).2 he, h⟩))

/-- A launched `CO` of a ready engine is performed unless the 74 clocks come first. -/
theorem exec_co {s : State} (he : EngineReady s) (h : s.ctl.coen = true) (h74 : s.ctl.clk74oen = false) :
    exec .co s = .next (coStep s) := by
  have hc : coEnabled s = true := by simp [coEnabled, (enabled_iff s).2 he, h, h74]
  exact congrArg _ (if_pos hc)

/-- The state after `CO`, written out. -/
theorem coStep_eq (s : State) : coStep s = { s with
    ctl := { s.ctl with coen := false }
    eng := { s.eng with phase := nextPhase { s.ctl with coen := false } }
    history := s.history ++ [.cmdOut (selPort s) (frameOf s.ctl.cmdcode s.cmdarg)] } := by
  rw [coStep, commandFrame_eq_frameOf]
  rfl

/-- Settles O24: in a ready engine the guard of each operation holds, and its step is the update that the rule names. -/
theorem clocksAndCommandOutput : Obligations.ClocksAndCommandOutput := by
  unfold Obligations.ClocksAndCommandOutput
  refine ⟨fun s he => ⟨exec_clk74o he, exec_clk8o he⟩, fun s he hco h74 => ?_⟩
  rw [exec_co he hco h74, coStep_eq]

end Sys2Proof.Machine
end

section
/-!
The response decoder: a response that arrives and its verdict, a mismatch with a data phase pending, and an answer that
does not come, with and without a timeout (rules R190 to R197, R254, R331).
-/

namespace Sys2Proof.Machine

/-! ### The state after the card was asked (rule R12) -/

@[simp] theorem selPort_tookResp48 (s : State) : selPort (tookResp48 s) = selPort s := selPort_card s _
@[simp] theorem selPort_tookResp136 (s : State) : selPort (tookResp136 s) = selPort s := selPort_card s _

/-! ### The verdict on a response (rules R191, R194, R197) -/

/-- The flags after a verdict: the bit `CRC7`, and on a mismatch `CRCIF`. -/
def IntSts.judged (ok : Bool) (f : IntSts) : IntSts := { f with crc7 := .known ok, crcif := f.crcif || !ok }

/-- A verdict that halts nothing only sets the flags. -/
theorem judgeResponse_eq_judged {ok : Bool} {s : State} (h : ok = true ∨ dataPending s = false) :
    judgeResponse ok s = { s with intsts := s.intsts.judged ok } := by
  cases ok with
  | true => simp [judge_ok, recordCrc7, IntSts.judged]
  | false =>
    rw [judge_bad (h.resolve_left nofun)]
    simp [setFlags, recordCrc7, IntSts.judged]

/-- After a verdict that halts nothing the engine goes on. -/
theorem afterResponse_judged {ok : Bool} {s : State} (hh : s.eng.halted = false)
    (h : ok = true ∨ dataPending s = false) :
    afterResponse (judgeResponse ok s) = { s with intsts := s.intsts.judged ok }.goOn := by
  rw [judgeResponse_eq_judged h]
  exact after_go hh

/-- A mismatch with a data phase pending sets the flags and halts both engines, which then do not go on. -/
theorem afterResponse_halts {s : State} (hd : dataPending s = true) :
    afterResponse (judgeResponse false s)
      = haltData { s with intsts := { s.intsts with crc7 := .known false, crcif := true } } := by
  rw [judge_halt hd, after_halt rfl]
  rfl

/-! ### Responses that arrive (rules R190 to R194) -/

/-- The step `RI-frame` that halts nothing. -/
theorem riFrame_goOn {f : BitVec 48} {s : State} (hh : s.eng.halted = false)
    (h : respOk48 f = true ∨ dataPending s = false) :
    riFrame f s = { riTaken f s with intsts := s.intsts.judged (respOk48 f) }.goOn :=
  afterResponse_judged (s := riTaken f s) hh h

/-- The step `R2I-frame` that halts nothing. -/
theorem r2iFrame_goOn {f : BitVec 136} {s : State} (hh : s.eng.halted = false)
    (h : respOk136 f = true ∨ dataPending s = false) :
    r2iFrame f s = { r2iTaken f s with intsts := s.intsts.judged (respOk136 f) }.goOn :=
  afterResponse_judged (s := r2iTaken f s) hh h

/-- Settles O26: the frame is taken and judged, and the engine, which nothing halted, goes on. -/
theorem shortResponse : Obligations.ShortResponse := by
  unfold Obligations.ShortResponse
  intro s f hready hri hco h74 hask hok
  have hh : (tookResp48 s).eng.halted = false := by simp [hready]
  have hgo : respOk48 f = true ∨ dataPending (tookResp48 s) = false := by simpa [ok48, dataPending] using hok
  rw [ri_frame hready hri hco h74 hask, riFrame_goOn hh hgo, ok48]
  simp [State.goOn, State.setPhase, riTaken, State.log, IntSts.judged]

/-- Settles O27: as for the short response, and the buffer is `longBuffer`, whose words are known in the first four
places alone. -/
theorem longResponse : Obligations.LongResponse := by
  unfold Obligations.LongResponse
  intro s f hready hr2 hco h74 hask hok
  have hh : (tookResp136 s).eng.halted = false := by simp [hready]
  have hgo : respOk136 f = true ∨ dataPending (tookResp136 s) = false := by simpa [ok136, dataPending] using hok
  refine ⟨_, r2i_frame hready hr2 hco h74 hask, ?_⟩
  rw [r2iFrame_goOn hh hgo, ok136]
  refine ⟨?frame, ?low, ?high⟩
  case frame => simp [State.goOn, State.setPhase, r2iTaken, State.log, IntSts.judged]
  case low => exact fun k hk => ⟨longWord f k, longBuffer_low f k hk, fun j hj => longByte_word f k j hk hj⟩
  case high => exact fun k hk hk4 => longBuffer_high f k hk hk4

/-! ### A mismatch with a data phase pending (rules R197, R331) -/

/-- The launch bit of a stopped operation, as the statements write it. -/
theorem blur_eq_ite (x : Held Bool) : x.blur = if x = .known true then .any else x := by
  simp [Held.blur, isOn_iff]

/-- A halt of both engines loses the buffer, whatever stood in it. -/
theorem haltData_setFb (s : State) (v : Vector (Held Word) 128) : haltData { s with fb := v } = haltData s := rfl

/-- Settles O28: the frame is taken and its mismatch halts both engines. The destination that a halt makes `any` is the
one of the state before, and of a long response the buffer it filled is lost again. -/
theorem mismatchWithDataHalts : Obligations.MismatchWithDataHalts := by
  unfold Obligations.MismatchWithDataHalts
  refine ⟨fun s f hready hri hco h74 hask hbad hd => ?short, fun s f hready hr2 hco h74 hask hbad hd => ?long⟩
  case short =>
    have hd' : dataPending (riTaken f (tookResp48 s)) = true := by simpa [dataPending, riTaken] using hd
    rw [ri_frame hready hri hco h74 hask, riFrame_eq, ok48, decide_eq_false hbad, afterResponse_halts hd',
      halt_as (s := s)]
    · simp [stopEngine, riTaken, State.log, blur_eq_ite, fbAny]
    all_goals simp [riTaken]
  case long =>
    have hd' : dataPending (r2iTaken f (tookResp136 s)) = true := by simpa [dataPending, r2iTaken] using hd
    rw [r2i_frame hready hr2 hco h74 hask, r2iFrame_eq, ok136, decide_eq_false hbad, afterResponse_halts hd',
      ← haltData_setFb _ (tookResp136 s).fb]
    simp [r2iTaken, State.log]

/-! ### No response (rules R195, R196) -/

/-- A short response that does not come. -/
theorem ri_noResponse {s : State} (h : EngineReady s) (hri : s.ctl.rien = .known true) (hco : s.ctl.coen = false)
    (h74 : s.ctl.clk74oen = false) (ha : askResp48 s = none) : exec .ri s = .next (noResponse (tookResp48 s)) := by
  have he : riEnabled s = true := by simp [riEnabled, (enabled_iff s).2 h, isOn_known hri, hco, h74]
  show execRi s = _
  rw [execRi, if_pos he, ha]

/-- A long response that does not come. -/
theorem r2i_noResponse {s : State} (h : EngineReady s) (hr2 : s.ctl.r2en = .known true) (hco : s.ctl.coen = false)
    (h74 : s.ctl.clk74oen = false) (ha : askResp136 s = none) :
    exec .r2i s = .next (noResponse (tookResp136 s)) := by
  have he : r2iEnabled s = true := by simp [r2iEnabled, (enabled_iff s).2 h, isOn_known hr2, hco, h74]
  show execR2i s = _
  rw [execR2i, if_pos he, ha]

/-- No response to the question asked in `s`, and a timeout set: with a data phase pending the halt of both engines,
without one that of the SD engine, and all four launch bits `any` in both cases. -/
theorem noResponse_timeout {s u : State}
    (hu : u = { s with card0 := u.card0, card1 := u.card1, draws := s.draws + 1 }) (ht : s.tout ≠ 0#24) :
    noResponse u = if dataPending s then
        { haltData { u with intsts := { s.intsts with rtoif := true }
                            history := s.history ++ [.respNone (selPort s)] } with
          ctl := { s.ctl with rien := .any, r2en := .any, dien := .any, doen := .any } }
      else { u with
        intsts := { s.intsts with rtoif := true }
        ctl := { s.ctl with rien := .any, r2en := .any, dien := .any, doen := .any }
        eng := { s.eng with halted := true }
        dmactl := { s.dmactl with dmabusy := .any }
        bcnt := .any
        history := s.history ++ [.respNone (selPort s)] } := by
  rw [timeout_eq hu ht]
  split <;> (rw [hu]; rfl)

/-- Settles O29: both lengths end in `noResponse`, whose halt depends on whether a data phase is pending. -/
theorem responseTimeout : Obligations.ResponseTimeout := by
  unfold Obligations.ResponseTimeout
  refine fun s hready hco h74 ht => ⟨fun hri hask => ?short, fun hr2 hask => ?long⟩
  case short => rw [ri_noResponse hready hri hco h74 hask, noResponse_timeout (took48_eq s) ht]
  case long => rw [r2i_noResponse hready hr2 hco h74 hask, noResponse_timeout (took136_eq s) ht]

/-! ### Neither an answer nor a timeout (rules R196, R254) -/

theorem noResponse_stuck {s : State} (ht : s.tout = 0#24) : noResponse s = s.getStuck := by
  rw [noResponse, if_neg (not_not_intro ht)]

theorem diBlock_stuck {s : State} (ht : s.tout = 0#24) (ha : askBlock s = none) :
    diBlock s = .next (tookBlock s).getStuck := by
  simp [diBlock, ha, ht]

/-- Settles O30: each of the three ends in `getStuck`, and a stuck engine is not ready, so that it holds every
operation. -/
theorem stuckWithoutTimeout : Obligations.StuckWithoutTimeout := by
  unfold Obligations.StuckWithoutTimeout
  intro s hready ht
  refine ⟨?short, ?long, ?block, ?stuck⟩
  case short =>
    intro hri hco h74 hask
    rw [ri_noResponse hready hri hco h74 hask, noResponse_stuck ((tookResp48_tout s).trans ht), State.getStuck,
      tookResp48_eng]
  case long =>
    intro hr2 hco h74 hask
    rw [r2i_noResponse hready hr2 hco h74 hask, noResponse_stuck ((tookResp136_tout s).trans ht), State.getStuck,
      tookResp136_eng]
  case block =>
    intro hb hask
    rw [di_inBlock hb, diBlock_stuck ht hask, State.getStuck, tookBlock_eng]
  case stuck => exact fun t hstuck => held t (stuck_off hstuck)

end Sys2Proof.Machine
end

section
/-!
PROOFS. The values and algebra of the two CRC functions (rules R210 to R214).
-/

namespace Sys2Proof.Machine

/-! ### `crc7` (rule R211) -/

/-- The initial value 0 is the sum of two zeros, so the linearity of the register gives that of `crc7`. -/
theorem crc7_xor {a b : List Bool} (h : a.length = b.length) :
    crc7 (List.zipWith xor a b) = crc7 a ^^^ crc7 b := by
  have hfold := crc7_fold_xor a b 0#7 0#7 h
  rwa [BitVec.xor_self] at hfold

theorem crc7_append (m c : List Bool) : crc7 (m ++ c) = c.foldl crc7Step (crc7 m) := List.foldl_append

/-- The register that ran over a sequence holds its CRC when that CRC is shifted in. -/
theorem crc7_append_crc7 (m : List Bool) : crc7 (m ++ bitsMsb (crc7 m)) = 0#7 :=
  (crc7_append m _).trans (crc7_residue _)

/-- The header of CMD0 with argument 0 (rule R211 (d)). -/
theorem crc7_header_cmd0 : crc7 (bitsMsb 0x4000000000#40) = 0x4A#7 := by decide +kernel

/-- The header of CMD8 with argument 0x1AA (rule R211 (d)). -/
theorem crc7_header_cmd8 : crc7 (bitsMsb 0x48000001AA#40) = 0x43#7 := by decide +kernel

/-- The header of CMD55 with argument 0 (rule R211 (d)). -/
theorem crc7_header_cmd55 : crc7 (bitsMsb 0x7700000000#40) = 0x32#7 := by decide +kernel

/-- The header of the response to CMD8 (rule R211 (d)). -/
theorem crc7_header_resp8 : crc7 (bitsMsb 0x08000001AA#40) = 0x09#7 := by decide +kernel

/-- Settles O50: zero bits, linearity and the residue are facts of the register; the last bytes follow from the four
values. -/
theorem crc7Properties : Obligations.Crc7Properties := by
  unfold Obligations.Crc7Properties
  refine ⟨crc7_fold_zero, fun _ _ => crc7_xor, crc7_append_crc7, crc7_header_cmd0, crc7_header_cmd8, crc7_header_cmd55,
    crc7_header_resp8, ?_⟩
  rw [crc7_header_cmd0, crc7_header_cmd8, crc7_header_cmd55, crc7_header_resp8]
  decide

/-! ### `crc16` (rule R214) -/

theorem bitsMsb_zero (w : Nat) : bitsMsb 0#w = List.replicate w false := by
  simp [bitsMsb, List.map_const']

theorem serialBits_zeros (n : Nat) : serialBits (List.replicate n 0x00#8) = List.replicate (n * 8) false := by
  rw [serialBits, List.flatMap_replicate, bitsMsb_zero, List.flatten_replicate_replicate]

theorem crc16_zero_bytes (n : Nat) : crc16 (serialBits (List.replicate n 0x00#8)) = 0x0000#16 := by
  rw [serialBits_zeros]
  exact crc16_fold_zero (n * 8)

/-- Settles O51: the worked values are computed; zero bytes are zero bits, over which the register stays 0. -/
theorem crc16Values : Obligations.Crc16Values := by
  unfold Obligations.Crc16Values
  refine ⟨?checkString, ?byte01, ?byte80, ?oneLine, ?fourLines, crc16_zero_bytes⟩ <;> decide +kernel

end Sys2Proof.Machine
end

section
/-!
The resets and the mode bits: the writes that launch a reset or store a mode, what each reset does, and the recovery made of
them (rules R180, R250 to R253, R361).
-/

namespace Sys2Proof.Machine

/-! ### Writes that launch a reset or store the mode bits (rules R27, R32, R180, R250 to R252) -/

/-- A word with the operand fields of `CTL` as they are changes none of them (rules R98, R371). -/
theorem operandsDiffer_of_same {w : Word} {s : State} (h : SameOperands w s) : s.ctl.operandsDiffer w = false := by
  obtain ⟨hcode, hdbw, hcnt, hport⟩ := h
  simp only [Ctl.operandsDiffer, portField, ← hcode, ← hdbw, ← hcnt, ← hport, bne_self_eq_false, Bool.or_false]

/-- A write of `CTL` that launches `CTLRST` (rules R180, R250). -/
theorem exec_wr_ctl_reset {w : Word} {s : State} (h14 : w.getLsbD 14 = true)
    (h : inFlight s = false ∨ s.ctl.operandsDiffer w = false) :
    exec (.wr 0x820#12 w) s = .next { s with
      ctl := { s.ctl.withFields w with ctlrst := true }
      eng := { s.eng with phase := .reset }
      draws := s.draws + 1 } := by
  have hr : regWriteRefusal .ctl w s = none := by
    obtain h | h := h <;> simp [regWriteRefusal, ctlRefusal, -BitVec.getLsbD_eq_getElem, h14, h]
  rw [execWr_next regAt_820 hr, regWrite, writeCtl, if_pos h14]
  rfl

/-- A write of `DMACTL` that does not take back a pending `DMARST`, and in flight changes no mode bit that the operation
uses (rules R27, R251, R370, R371). -/
theorem exec_wr_dmactl_mode {w : Word} {s : State} (hrst : s.dmactl.dmarst = false ∨ w.getLsbD 1 = true)
    (h : inFlight s = false ∨ (s.dmactl.sgen = w.getLsbD 3 ∧ (s.dmactl.dmaen = true → w.getLsbD 0 = true))) :
    exec (.wr 0x400#12 w) s = .next { s with
      dmactl := { s.dmactl with
        dmaen := w.getLsbD 0, dmarst := s.dmactl.dmarst || w.getLsbD 1, sgen := w.getLsbD 3 }
      draws := s.draws + 1 } := by
  have hkeep : (s.dmactl.dmarst && !w.getLsbD 1) = false := by obtain h | h := hrst <;> simp only [h] <;> simp
  have hmode : (inFlight s && (s.dmactl.sgen != w.getLsbD 3 || (s.dmactl.dmaen && !w.getLsbD 0))) = false := by
    obtain h | ⟨hsgen, hen⟩ := h
    · rw [h, Bool.false_and]
    · cases he : s.dmactl.dmaen with
      | false => simp only [hsgen, bne_self_eq_false, Bool.false_and, Bool.or_false, Bool.and_false]
      | true => simp only [hsgen, hen he, bne_self_eq_false, Bool.not_true, Bool.and_false, Bool.or_false]
  have hr : regWriteRefusal .dmactl w s = none := by
    rw [regWriteRefusal, dmactlRefusal, hkeep, hmode]
    rfl
  exact execWr_next regAt_400 hr

/-- A write of `GCTL` that does not take back a pending `GCTLRST`, and in flight does not clear `SDEN`; the phase is
`RESET` where the word launches the reset (rules R32, R180, R252, R370, R371). -/
theorem exec_wr_gctl_mode {w : Word} {s : State} (hrst : s.gctl.gctlrst = false ∨ w.getLsbD 0 = true)
    (h : inFlight s = false ∨ (s.gctl.sden = true → w.getLsbD 1 = true)) :
    exec (.wr 0x800#12 w) s = .next { s with
      gctl := { gctlrst := s.gctl.gctlrst || w.getLsbD 0, sden := w.getLsbD 1 }
      eng := { s.eng with phase := if w.getLsbD 0 && !s.gctl.gctlrst then .reset else s.eng.phase }
      draws := s.draws + 1 } := by
  have hkeep : (s.gctl.gctlrst && !w.getLsbD 0) = false := by obtain h | h := hrst <;> simp only [h] <;> simp
  have hmode : (inFlight s && s.gctl.sden && !w.getLsbD 1) = false := by
    obtain h | hen := h
    · rw [h, Bool.false_and, Bool.false_and]
    · cases he : s.gctl.sden with
      | false => rw [Bool.and_false, Bool.false_and]
      | true => rw [hen he, Bool.not_true, Bool.and_false]
  have hr : regWriteRefusal .gctl w s = none := by
    rw [regWriteRefusal, gctlRefusal, hkeep, hmode]
    rfl
  rw [execWr_next regAt_800 hr, regWrite, writeGctl]
  split <;> rfl

/-- Settles O16: the three registers with a launch bit of a reset, each by its write that the host contract admits. -/
theorem wrModeAndReset : Obligations.WrModeAndReset := by
  unfold Obligations.WrModeAndReset
  intro s w
  refine ⟨?ctlrst, ?dmarst, ?gctlrst, ?dmactl, ?gctl⟩
  case ctlrst => exact fun h14 h => exec_wr_ctl_reset h14 (h.imp_right operandsDiffer_of_same)
  case dmarst =>
    intro h1 h
    rw [exec_wr_dmactl_mode (.inr h1) h, h1, Bool.or_true]
  case gctlrst =>
    intro h0 h
    rw [exec_wr_gctl_mode (.inr h0) h, h0, Bool.or_true]
    cases s.gctl.gctlrst <;> rfl
  case dmactl =>
    intro hrst h1 h
    rw [exec_wr_dmactl_mode (.inl hrst) h, h1, Bool.or_false]
  case gctl =>
    intro hrst h0 h
    rw [exec_wr_gctl_mode (.inl hrst) h, h0, Bool.or_false]
    rfl

/-! ### The three resets (rules R250 to R252, R361) -/

/-- What `CTLRST` does to the sequencer where it cuts a live data operation. -/
theorem cutSequencer_live {s : State} (hh : s.dma.halted = false) (hb : s.dmactl.dmabusy = .known true) :
    cutSequencer s = { s with
      dma := { s.dma with halted := true }, dmactl := { s.dmactl with dmabusy := .any }, bcnt := .any } := by
  simp [cutSequencer, hh, hb, Held.isOn]

/-- Any other status of the sequencer `CTLRST` keeps (rules R59, R361). -/
theorem cutSequencer_not_live {s : State} (h : ¬(s.dma.halted = false ∧ s.dmactl.dmabusy = .known true)) :
    cutSequencer s = s := by
  have hlive : (!s.dma.halted && s.dmactl.dmabusy.isOn) = false := by
    rw [Bool.eq_false_iff]
    intro hl
    obtain ⟨hh, hb⟩ := Bool.and_eq_true_iff.1 hl
    exact h ⟨by simpa using hh, isOn_eq hb⟩
  have hhalted : (s.dma.halted || s.dmactl.dmabusy.isOn) = s.dma.halted := by
    revert hlive
    cases s.dma.halted <;> simp
  rw [cutSequencer, hlive, hhalted]
  rfl

/-- Settles O40: the engine's way back, and the sequencer's status lost where a live operation is cut. -/
theorem ctlrstEffect : Obligations.CtlrstEffect := by
  unfold Obligations.CtlrstEffect
  intro s h live
  refine congrArg Host.Outcome.next ((if_pos h).trans ?_)
  by_cases hl : live
  · rw [cutSequencer_live (s := resetEngine s) hl.1 hl.2, if_pos hl, if_pos hl, if_pos hl]
    rfl
  · rw [cutSequencer_not_live (s := resetEngine s) hl, if_neg hl, if_neg hl, if_neg hl]
    rfl

/-- Whether `DMARST` cuts a live data operation (rule R251). -/
theorem wasData_iff (s : State) : (dataPhase s && !s.eng.halted) = true ↔
    (s.eng.phase = .dataIn ∨ s.eng.phase = .dataOut ∨ s.eng.phase = .dataEnd) ∧ s.eng.halted = false := by
  simp [dataPhase, or_assoc]

/-- Settles O41: the sequencer's way back, and the engine halted where a live operation is cut. -/
theorem dmarstEffect : Obligations.DmarstEffect := by
  unfold Obligations.DmarstEffect
  intro s h cut
  refine congrArg Host.Outcome.next ((if_pos h).trans ?_)
  by_cases hc : cut
  · simp only [if_pos ((wasData_iff s).2 hc), hc, true_and, isOn_iff, if_true]
    rfl
  · simp only [if_neg (mt (wasData_iff s).1 hc), hc, false_and, if_false]
    rfl

/-- Settles O42: the ways back of both engines. -/
theorem gctlrstEffect : Obligations.GctlrstEffect := by
  unfold Obligations.GctlrstEffect
  intro s h
  refine congrArg Host.Outcome.next ((if_pos h).trans ?_)
  have hcut : (s.dmactl.dmabusy.isOn && !s.dma.halted && s.ctl.dien.isOn) = true ↔
      s.dmactl.dmabusy = .known true ∧ s.dma.halted = false ∧ s.ctl.dien = .known true := by
    simp [isOn_iff, and_assoc]
  simp only [hcut]
  rfl

/-! ### The recovery (rules R253, R375) -/

/-- `SET` of `DMARST` launches it in every state, and changes no mode bit (rules R152, R251). -/
theorem exec_set_dmarst (s : State) : exec (.set 0x400#12 0x00000002#32) s = .next { s with
    dmactl := { s.dmactl with dmarst := true }, draws := s.draws + 1 } := by
  have hw : ∀ j, j < 32 → j ≠ 1 → (dmactlNow s ||| 0x00000002#32).getLsbD j = (dmactlNow s).getLsbD j := by
    intro j hj h1
    rw [BitVec.getLsbD_or, show (0x00000002#32).getLsbD j = false by revert h1; revert hj; revert j; decide,
      Bool.or_false]
  have h0 : (dmactlNow s ||| 0x00000002#32).getLsbD 0 = s.dmactl.dmaen :=
    (hw 0 (by decide) (by decide)).trans (dmactlNow_getLsbD s (by decide))
  have h3 : (dmactlNow s ||| 0x00000002#32).getLsbD 3 = s.dmactl.sgen :=
    (hw 3 (by decide) (by decide)).trans (dmactlNow_getLsbD s (by decide))
  have h1 : (dmactlNow s ||| 0x00000002#32).getLsbD 1 = true := by
    rw [BitVec.getLsbD_or, show (0x00000002#32).getLsbD 1 = true from rfl, Bool.or_true]
  refine (modify_eq_wr (· ||| 0x00000002#32) regAt_400 nofun nofun).trans
    ((exec_wr_dmactl_mode (.inr h1) (.inr ⟨h3.symm, h0.trans⟩)).trans ?_)
  show Host.Outcome.next { s with dmactl := { s.dmactl with
    dmaen := (dmactlNow s ||| 0x00000002#32).getLsbD 0
    dmarst := s.dmactl.dmarst || (dmactlNow s ||| 0x00000002#32).getLsbD 1
    sgen := (dmactlNow s ||| 0x00000002#32).getLsbD 3 }, draws := s.draws + 1 } = _
  rw [h0, h1, h3, Bool.or_true]

/-- `SET` of `CTLRST` launches it in every state, and changes no field (rules R152, R250). -/
theorem exec_set_ctlrst (s : State) : exec (.set 0x820#12 0x00004000#32) s = .next { s with
    ctl := { s.ctl with ctlrst := true }, eng := { s.eng with phase := .reset }, draws := s.draws + 1 } := by
  have hfields : s.ctl.withFields (ctlNow s ||| 0x00004000#32) = s.ctl := withFields_now s _ (by decide)
  have h14 : (ctlNow s ||| 0x00004000#32).getLsbD 14 = true := by
    rw [BitVec.getLsbD_or, show (0x00004000#32).getLsbD 14 = true from rfl, Bool.or_true]
  have hsame : SameOperands (ctlNow s ||| 0x00004000#32) s :=
    ⟨congrArg Ctl.cmdcode hfields.symm, congrArg Ctl.dbw hfields.symm, congrArg Ctl.blkcnt hfields.symm,
      congrArg Ctl.sdport hfields.symm⟩
  refine (modify_eq_wr (· ||| 0x00004000#32) regAt_820 nofun nofun).trans
    ((exec_wr_ctl_reset h14 (.inr (operandsDiffer_of_same hsame))).trans ?_)
  show Host.Outcome.next { s with
    ctl := { s.ctl.withFields (ctlNow s ||| 0x00004000#32) with ctlrst := true }
    eng := { s.eng with phase := .reset }, draws := s.draws + 1 } = _
  rw [hfields]

/-- `SET` of `DMAEN` with no `DMARST` pending sets it and nothing else (rule R152). -/
theorem exec_set_dmaen {s : State} (hrst : s.dmactl.dmarst = false) :
    exec (.set 0x400#12 0x00000001#32) s = .next { s with
      dmactl := { s.dmactl with dmaen := true }, draws := s.draws + 1 } := by
  obtain ⟨_, _, _, hset, _⟩ := setCompletes s 0x00000001#32
  rw [hset hrst (.inr rfl)]
  simp [hrst]

/-- What a `DMARST` leaves in every case: the sequencer is idle, and of the rest it can have changed only whether the engine
is halted, the data launch bits, `BLKDIF` and memory (rule R251). -/
theorem exec_dmarst_shape {s : State} (h : s.dmactl.dmarst = true) : ∃ halted dien doen blkdif mem,
    exec .dmarst s = .next { s with
      dmactl := { s.dmactl with dmarst := false, dmabusy := .known false }
      bcnt := .known 0#26
      dma := { halted := false, cur := .any, segLeft := 0, padPtr := .any, eotSeen := false, dest := some [] }
      fb := Vector.replicate 128 .any
      eng := { s.eng with halted := halted }
      ctl := { s.ctl with dien := dien, doen := doen }
      intsts := { s.intsts with blkdif := blkdif }
      mem := mem
      history := s.history ++ [.reset .dma] } := by
  have he := dmarstEffect s h
  by_cases hc : (s.eng.phase = .dataIn ∨ s.eng.phase = .dataOut ∨ s.eng.phase = .dataEnd) ∧ s.eng.halted = false
  · simp only [if_pos hc] at he
    exact ⟨_, _, _, _, _, he⟩
  · simp only [if_neg hc] at he
    exact ⟨_, _, _, _, _, he⟩

/-- Settles O43: each of the eight operations completes, by its own lemma; a `DMARST` that cut a live operation halts the
engine and makes `BLKDIF` `any`, which `CTLRST` and the clearing of the flags undo. -/
theorem recoveryWorks : Obligations.RecoveryWorks := by
  unfold Obligations.RecoveryWorks
  intro s
  obtain ⟨halted, dien, doen, blkdif, mem, hdmarst⟩ := exec_dmarst_shape
    (s := { s with dmactl := { s.dmactl with dmarst := true }, draws := s.draws + 1 }) rfl
  refine ⟨_, _, _, _, _, _, _, _, exec_set_dmarst s, hdmarst, exec_set_ctlrst _, ctlrstEffect _ rfl, rfl, rfl, rfl,
    exec_set_dmaen rfl, ?_⟩
  refine ⟨?quiet, rfl, rfl, rfl, rfl, rfl, rfl, rfl, rfl, ?crcif, ?rtoif, ?ditoif, rfl, ?abortif, ?weotif, ?dtaif,
    rfl, rfl, rfl, rfl, rfl, rfl, rfl, rfl, rfl, rfl, rfl, rfl, rfl, rfl, rfl, rfl, rfl⟩
  case quiet => exact ⟨rfl, rfl, rfl, rfl, rfl, rfl, rfl, rfl, .inl rfl⟩
  all_goals exact Bool.and_false _

end Sys2Proof.Machine
end

section
/-!
The data operations but for their words: the start of the data phase, a received block that is not stored, the CRC status
token and the wait between blocks, and the completion (rules R232, R233, R236 to R238, R242 to R244, R323, R324).
-/

namespace Sys2Proof.Machine

/-! ### The start of the data phase (rules R233, R222) -/

/-- A sequencer that is not busy does not read busy. -/
theorem isOn_of_notBusy {s : State} (h : NotBusy s) : s.dmactl.dmabusy.isOn = false := by
  obtain h | ⟨h, _⟩ := h <;> rw [h] <;> rfl

/-- In its data phase, and with the sequencer not busy, a data operation starts. -/
theorem exec_dstart {s : State} {i : Instr} (hr : DataReady s) (hb : NotBusy s)
    (h : (i = .di ∧ s.eng.phase = .dataIn) ∨ (i = .dout ∧ s.eng.phase = .dataOut)) : exec i s = .next (dstart s) := by
  have hready := (dataEnabled_iff s).2 hr
  have hbusy := isOn_of_notBusy hb
  obtain ⟨rfl, hp⟩ | ⟨rfl, hp⟩ := h
  · show execDi s = _
    simp [execDi, hready, hp, hbusy]
  · show execDout s = _
    simp [execDout, hready, hp, hbusy]

/-- The ranges of a table whose entries are known are its segments (rules R128, R331). -/
theorem destRanges_of_tableAt {s : State} (hs : s.dmactl.sgen = true) {es : List (Word × Word)}
    (h : TableAt s.dmasa.toNat es s.mem) : destRanges s = some (es.map fun e => (e.1.toNat, entryCount e.2)) := by
  obtain ⟨hne, hes⟩ := h
  have hfuel : (s.mem.filter fun c => s.dmasa.toNat ≤ c.1).length < s.mem.length + 1 :=
    Nat.lt_succ_of_le (List.length_filter_le _ _)
  rw [destRanges, if_pos hs, tableSegments_known _ _ es hne hes hfuel]
  simp only [and26, entryCount]

/-- Where an entry before the end mark is unknown the ranges are (assumption log, entry 25). -/
theorem destRanges_of_tableUnknown {s : State} (hs : s.dmactl.sgen = true) (h : TableUnknown s.dmasa.toNat s.mem) :
    destRanges s = none := by
  obtain ⟨n, hk, hn⟩ := h
  rw [destRanges, if_pos hs]
  exact tableSegments_unknown n _ _ hk hn

/-- 255 blocks of 2048 bytes are fewer than 2^26 bytes (rule R222 (b)). -/
theorem byteCount_fits (n : BitVec 8) (b : BitVec 11) : n.toNat * (b.toNat + 1) < 2 ^ 26 :=
  calc n.toNat * (b.toNat + 1) ≤ 255 * 2048 := Nat.mul_le_mul (by omega) (by omega)
    _ < 2 ^ 26 := by decide

/-- Settles O32: the step is `dstart`, which notes the ranges that the registers describe. -/
theorem dataStart : Obligations.DataStart := by
  unfold Obligations.DataStart
  refine ⟨fun s hr hb i hi => ⟨_, exec_dstart hr hb hi, ?next, fun hs => ?dest⟩, fun s => ?fits⟩
  case next =>
    rw [dstart]
    split <;> rfl
  case dest =>
    have hd : (dstart s).dma.dest = destRanges s := by rw [dstart, if_pos hs]
    rw [hd]
    exact ⟨fun es h => destRanges_of_tableAt hs h, destRanges_of_tableUnknown hs⟩
  case fits => rw [BitVec.toNat_ofNat, Nat.mod_eq_of_lt (byteCount_fits _ _)]

/-! ### The state after the card was asked (rule R12) -/

@[simp] theorem selPort_tookBlock (s : State) : selPort (tookBlock s) = selPort s := selPort_card s _
@[simp] theorem selPort_tookStatus (s : State) : selPort (tookStatus s) = selPort s := selPort_card s _
@[simp] theorem blockIndex_tookBlock (s : State) : blockIndex (tookBlock s) = blockIndex s := by simp [blockIndex]

/-! ### A block that is not stored (rules R236, R323, R324) -/

/-- A block whose CRCs differ on some line (rule R236). -/
theorem diBlock_mismatch {s : State} {b : Block} (ha : askBlock s = some b)
    (hc : b.crcs ≠ lineCrcs s.ctl.dbw b.bytes) : diBlock s = .next (raise .dataCrc (recordCrc16 false
      ((tookBlock s).log (.blockIn (selPort s) (blockIndex s) b.bytes)))) := by
  have hbad : (b.crcs == lineCrcs (tookBlock s).ctl.dbw b.bytes) = false := by simpa using hc
  simp only [diBlock, ha, diFrame, hbad, Bool.false_eq_true, if_false, selPort_tookBlock, blockIndex_tookBlock]

/-- No block, and a timeout set (rule R254). -/
theorem diBlock_timeout {s : State} (ha : askBlock s = none) (ht : s.tout ≠ 0#24) : diBlock s =
    .next (raise .dataTimeout ((tookBlock s).log (.blockNone (selPort s) (blockIndex s)))) := by
  simp only [diBlock, ha, if_pos ht]

/-- Settles O34: both are events that halt both engines. -/
theorem blockInFails : Obligations.BlockInFails := by
  unfold Obligations.BlockInFails
  refine ⟨fun s b hb ha hc => ?mismatch, fun s hb ha ht => ?timeout⟩
  case mismatch =>
    rw [di_inBlock hb, diBlock_mismatch ha hc]
    simp [raise, applyHalt, setFlags, recordCrc16, State.log]
  case timeout =>
    rw [di_inBlock hb, diBlock_timeout ha ht]
    simp [raise, applyHalt, setFlags, State.log]

/-! ### The CRC status token and the wait between blocks (rules R242, R243, R254) -/

/-- Where `DO` waits for the status token, that is its step. -/
theorem dout_waitStatus {s : State} (hb : InBlock .dataOut s) (hd : s.eng.dsub = .waitStatus) :
    exec .dout s = .next (doStatus s) := by
  obtain ⟨hr, hp, hbusy, _⟩ := hb
  rw [dout_inBlock hr hp hbusy, doInBlock, hd]

/-- Where `DO` waits for the card between blocks, that is its step. -/
theorem dout_waitReady {s : State} (hr : DataReady s) (hp : s.eng.phase = .dataOut)
    (hb : s.dmactl.dmabusy = .known true) (hd : s.eng.dsub = .waitReady) : exec .dout s = .next (doReady s) := by
  rw [dout_inBlock hr hp hb, doInBlock, hd]

/-- The state after a status token was taken, before it is judged. -/
def statusTaken (v : BitVec 3) (s : State) : State :=
  recordCrcStatus v ((tookStatus s).log (.crcStatus (selPort s) (blockIndex s) v))

/-- What the status token leaves. -/
theorem statusTaken_eq (v : BitVec 3) (s : State) : statusTaken v s = { tookStatus s with
    intsts := { s.intsts with crcsts := .known v }
    history := s.history ++ [.crcStatus (selPort s) (blockIndex s) v] } := by
  simp [statusTaken, recordCrcStatus, State.log]

theorem bcntNow_statusTaken (v : BitVec 3) (s : State) : bcntNow (statusTaken v s) = bcntNow (tookStatus s) := rfl

theorem blockLen_statusTaken (v : BitVec 3) (s : State) : blockLen (statusTaken v s) = blockLen s := by
  simp [statusTaken_eq, blockLen]

/-- A token that is not `010` halts (rule R242). -/
theorem doStatus_bad {s : State} {v : BitVec 3} (ha : askStatus s = some v) (hv : v ≠ 0b010#3) :
    doStatus s = raise .crcStatus (statusTaken v s) := by
  rw [doStatus, ha]
  exact if_pos hv

/-- The token `010` counts the block (rule R242). -/
theorem doStatus_good {s : State} (ha : askStatus s = some 0b010#3) :
    doStatus s = blockMoved (fun x => { x with eng := { x.eng with dsub := .waitReady } }) (statusTaken 0b010#3 s) := by
  rw [doStatus, ha]
  rfl

/-- No token leaves the engine stuck (rules R242, R254). -/
theorem doStatus_none {s : State} (ha : askStatus s = none) : doStatus s = (tookStatus s).getStuck := by
  rw [doStatus, ha]

/-- Settles O37: the step of `DO` by its position inside the block, and at the token by the token. -/
theorem statusAndReady : Obligations.StatusAndReady := by
  unfold Obligations.StatusAndReady
  refine ⟨fun s hb hd => ⟨fun v ha hv => ?bad, fun ha => ?good, fun ha => ?none⟩, fun s hr hp hbusy hd => ?ready⟩
  case bad =>
    rw [dout_waitStatus hb hd, doStatus_bad ha hv, statusTaken_eq]
    rfl
  case good =>
    rw [dout_waitStatus hb hd, doStatus_good ha, moved_if, bcntNow_statusTaken, blockLen_statusTaken, statusTaken_eq]
    obtain ⟨_, hp, _, hleft⟩ := hb
    by_cases h1 : s.eng.blocksLeft = 1
    · simp [h1, hd]
    · have h0 : s.eng.blocksLeft - 1 ≠ 0 := by omega
      simp [h0, h1, hp]
  case none =>
    rw [dout_waitStatus hb hd, doStatus_none ha, State.getStuck, tookStatus_eng]
  case ready =>
    rw [dout_waitReady hr hp hbusy hd, doReady]
    split
    · simp
    · rw [tookReady_eq s, ← hd]

/-! ### The completion (rules R238, R244) -/

/-- At the end of the data phase the pending `DI` is completed. -/
theorem di_dataEnd {s : State} (hr : DataReady s) (hp : s.eng.phase = .dataEnd) (hd : s.ctl.dien = .known true) :
    exec .di s = .next (diDone s) := by
  show execDi s = _
  simp [execDi, (dataEnabled_iff s).2 hr, hp, isOn_iff.2 hd]

/-- At the end of the data phase the pending `DO` is completed. -/
theorem dout_dataEnd {s : State} (hr : DataReady s) (hp : s.eng.phase = .dataEnd) (hd : s.ctl.doen = .known true) :
    exec .dout s = .next (doDone s) := by
  show execDout s = _
  simp [execDout, (dataEnabled_iff s).2 hr, hp, isOn_iff.2 hd]

/-- Settles O35: in the phase `DATA_END` the step is the completion, which raises the event that halts nothing. (The
plain name is the model's own.) -/
theorem dataDone_holds : Obligations.DataDone := by
  unfold Obligations.DataDone
  intro s hr hp
  exact ⟨di_dataEnd hr hp, dout_dataEnd hr hp⟩

end Sys2Proof.Machine
end

section
/-!
The address of the next word: inside a segment, at its end the next entry of the table, and how an entry can fail
(rules R128, R222, R245 to R248).
-/

namespace Sys2Proof.Machine

/-! ### The entry that the sequencer fetches (rules R128, R222, R247) -/

/-- A target abort records its address, sets its flags, clears `DMAEN` and halts both engines (rules R247, R326). -/
theorem raise_targetAbort (a : Word) (s : State) : raise (.targetAbort a) s = haltData (aborted a s) := rfl

theorem fetchPad_wraps {s : State} {p : Nat} (hp : s.dma.padPtr = .known p) (h : 2 ^ 32 < p + 8) :
    fetchPad s = .refuse .padTableWraps := by
  unfold fetchPad
  simp only [hp, Held.pick]
  rw [if_pos h]

theorem fetchPad_firstFails {s : State} {p : Nat} (hp : s.dma.padPtr = .known p) (h : p + 8 ≤ 2 ^ 32)
    (h0 : BitVec.ofNat 32 p ∈ s.busErr) : fetchPad s = .stop (haltData (aborted (BitVec.ofNat 32 p) s)) := by
  unfold fetchPad
  simp only [hp, Held.pick, dmaRead]
  rw [if_neg (Nat.not_lt.2 h), if_pos h0, raise_targetAbort]

/-- The state after the first word of an entry was read. -/
def firstRead (p : Nat) (v : Word) (s : State) : State :=
  { s with history := s.history ++ [.memRd (BitVec.ofNat 32 p) v], draws := s.draws + 1 }

theorem fetchPad_secondFails {s : State} {p : Nat} (hp : s.dma.padPtr = .known p) (h : p + 8 ≤ 2 ^ 32)
    (h0 : BitVec.ofNat 32 p ∉ s.busErr) (h4 : BitVec.ofNat 32 (p + 4) ∈ s.busErr) : fetchPad s =
    .stop (haltData (aborted (BitVec.ofNat 32 (p + 4)) (firstRead p (memWord s (BitVec.ofNat 32 p)) s))) := by
  unfold fetchPad
  simp only [hp, Held.pick, dmaRead_ok h0]
  rw [if_neg (Nat.not_lt.2 h), dmaRead, if_pos (by exact h4), raise_targetAbort]
  rfl

/-- An entry both words of which are answered: it is refused where it is malformed, and otherwise its segment is the
current one (rules R128, R248). -/
theorem fetchPad_entry {s : State} {p : Nat} {e0 e1 : Word} (hp : s.dma.padPtr = .known p) (h : p + 8 ≤ 2 ^ 32)
    (h0 : BitVec.ofNat 32 p ∉ s.busErr) (h4 : BitVec.ofNat 32 (p + 4) ∉ s.busErr)
    (he0 : memWord s (BitVec.ofNat 32 p) = e0) (he1 : memWord (firstRead p e0 s) (BitVec.ofNat 32 (p + 4)) = e1) :
    fetchPad s = if padIllegal e0 e1 then .refuse .illegalPadEntry else .go () { s with
      dma := { s.dma with cur := .known e0, segLeft := entryCount e1, eotSeen := e1.getLsbD 31, padPtr := .known (p + 8)
                          dest := s.dma.dest.map ((e0.toNat, entryCount e1) :: ·) }
      history := s.history ++ [.memRd (BitVec.ofNat 32 p) e0, .memRd (BitVec.ofNat 32 (p + 4)) e1]
      draws := s.draws + 2 } := by
  have hs : (s.log (.memRd (BitVec.ofNat 32 p) e0)).tick = firstRead p e0 s := rfl
  unfold fetchPad
  simp only [hp, Held.pick, dmaRead_ok h0, he0, hs]
  rw [if_neg (Nat.not_lt.2 h), dmaRead_ok (by exact h4), he1]
  simp only [and26, entryCount, firstRead, State.log, State.tick, List.append_assoc, List.cons_append, List.nil_append]

/-! ### The address of the next word (rule R248) -/

/-- Inside a segment. -/
theorem nextAddr_inSegment {s : State} {a : Word} (hc : s.dma.cur = .known a) (hs : s.dmactl.sgen = true)
    (hl : s.dma.segLeft ≠ 0) : nextAddr s =
      .go a { s with dma := { s.dma with cur := .known (a + 4#32), segLeft := s.dma.segLeft - 4 } } := by
  rw [nextAddr_take (by simp [hl])]
  simp [takeAddr, hc, Held.pick, hs]

/-- At the end of the last segment the wrong EOT halts both engines (rules R246, R330). -/
theorem nextAddr_wrongEot {s : State} (hs : s.dmactl.sgen = true) (hl : s.dma.segLeft = 0)
    (he : s.dma.eotSeen = true) :
    nextAddr s = .stop (haltData { s with dmaintsts := { s.dmaintsts with weotif := true } }) := by
  rw [nextAddr, if_pos (by simp [hs, hl]), if_pos he]
  rfl

/-- Settles O39: in the current segment by `takeAddr`, and at its end by how the fetch of an entry ends. -/
theorem nextAddress : Obligations.NextAddress := by
  unfold Obligations.NextAddress
  intro s
  refine ⟨fun a hc hs => contig_next hs a hc, fun a hc hs hl => nextAddr_inSegment hc hs hl,
    fun hs hl he => nextAddr_wrongEot hs hl he, fun p hs hl he hp h => ?wraps, fun p hs hl he hp h => ⟨?first, ?second⟩,
    fun p e0 e1 hs hl he hp h h0 h4 hlent hmem => ?entry⟩
  case wraps => rw [nextAddr_new hs hl he, fetchPad_wraps hp h]
  case first =>
    intro h0
    rw [nextAddr_new hs hl he, fetchPad_firstFails hp h h0]
  case second =>
    intro h0 h4
    refine ⟨memWord s (BitVec.ofNat 32 p), ?_, fun e0 he0 hlent =>
      memWord_eq (by omega) (memGetWord_bytes he0) hlent⟩
    rw [nextAddr_new hs hl he, fetchPad_secondFails hp h h0 h4]
    rfl
  case entry =>
    have he0 : memWord s (BitVec.ofNat 32 p) = e0 :=
      memWord_eq (by omega) (fun j hj => (hmem j hj).1) fun c hc => by have := hlent c hc; omega
    have he1 : memWord (firstRead p e0 s) (BitVec.ofNat 32 (p + 4)) = e1 :=
      memWord_eq (by omega) (fun j hj => (hmem j hj).2) fun c hc => by have := hlent c hc; omega
    rw [nextAddr_new hs hl he, fetchPad_entry hp h h0 h4 he0 he1]
    split
    · rename_i hbad
      rw [if_pos ((padIllegal_iff e0 e1).2 hbad)]
    · rename_i hok
      rw [if_neg (mt (padIllegal_iff e0 e1).1 hok)]
      simp [takeAddr, Held.pick, hs, entryCount]

end Sys2Proof.Machine
end

section
/-!
The words of a block, in both modes: a received block stored, a block sent, and a block that a failing access ends
(rules R86, R90, R95, R236, R241, R245 to R248, R344).
-/

namespace Sys2Proof.Machine

/-! ### Accesses that nothing hinders (rules R88, R245) -/

/-- The accesses of a block that are answered, end inside the address space, and leave the bytes of `T` alone. -/
def Clear (T : Nat → Prop) (s : State) (rs : List Access) : Prop :=
  ∀ r ∈ rs, r.2 ∉ s.busErr ∧ r.2.toNat + 4 ≤ 2 ^ 32 ∧ ∀ y, T y → y < r.2.toNat ∨ r.2.toNat + 4 ≤ y

/-- The bytes of `n` entries of the table at `p` (rule R128). -/
def InTable (p n x : Nat) : Prop := p ≤ x ∧ x < p + 8 * n

/-- No word of clear accesses is one of the bytes left alone. -/
theorem Clear.stores {T : Nat → Prop} {s : State} {rs : List Access} (h : Clear T s rs) :
    ∀ r ∈ rs, r.2 ∉ s.busErr ∧ ∀ k, k < 4 → ¬T (byteAddr r.2 k) := by
  intro r hr
  obtain ⟨hb, hlt, hT⟩ := h r hr
  refine ⟨hb, fun k hk ht => ?_⟩
  have hout := hT _ ht
  rw [byteAddr_eq (by omega)] at hout
  omega

/-- Stored words leave what is listed at the bytes left alone. -/
theorem Clear.memGet_putWords {T : Nat → Prop} {s : State} {rs : List Access} (h : Clear T s rs) (ov : List Word)
    (ws : List Word) (m : List Host.Cell) {y : Nat} (hy : T y) : memGet (putWords ov m rs ws) y = memGet m y :=
  memGet_putWords_other ov rs ws m fun r hr => by
    obtain ⟨_, hlt, hT⟩ := h r hr
    exact ⟨hlt, hT y hy⟩

/-- Accesses that keep off the table are clear of it. -/
theorem clear_of_table {p n : Nat} {s : State} {rs : List Access} (h : ∀ r ∈ rs, r.2 ∉ s.busErr
      ∧ r.2.toNat + 4 ≤ 2 ^ 32 ∧ (r.2.toNat + 4 ≤ p ∨ p + 8 * n ≤ r.2.toNat)) : Clear (InTable p n) s rs := by
  intro r hr
  obtain ⟨hb, hlt, hout⟩ := h r hr
  refine ⟨hb, hlt, fun y hy => ?_⟩
  obtain ⟨hlo, hhi⟩ := hy
  omega

/-- The words of a contiguous buffer that no `BusError` touches are clear; there is no table to keep off. -/
theorem clear_contig {s : State} {a : Word} {n : Nat} (hn : a.toNat + 4 * n ≤ 2 ^ 32)
    (hb : ∀ x ∈ s.busErr, x.toNat < a.toNat ∨ a.toNat + 4 * n ≤ x.toNat) :
    Clear (fun _ => False) s (contigWords a n) := by
  intro r hr
  obtain ⟨k, hk, _, haddr⟩ := contigWords_mem hn hr
  refine ⟨fun hx => ?_, by omega, nofun⟩
  have := hb _ hx
  omega

/-! ### A received block is stored (rules R236, R237, R344) -/

/-- All words of a block are stored. -/
theorem storeBlock_whole {T : Nat → Prop} {s : State} {d : Dma} {rs : List Access} (hw : Walk T s s.dma rs d)
    (hr : Clear T s rs) {bytes : List Byte} (hl : bytes.length = 4 * rs.length) :
    storeBlock bytes s = .go () (wrote rs (leWords bytes) d s) := by
  rw [storeBlock_first hw hr.stores hl.ge, List.drop_eq_nil_of_le hl.le]
  rfl

@[simp] theorem diTaken_busErr (b : Block) (s : State) : (diTaken b s).busErr = s.busErr := by simp [diTaken_eq]
@[simp] theorem diTaken_dma (b : Block) (s : State) : (diTaken b s).dma = s.dma := by simp [diTaken_eq]
@[simp] theorem diTaken_dmactl (b : Block) (s : State) : (diTaken b s).dmactl = s.dmactl := by simp [diTaken_eq]

/-- Accesses that are clear before a block was taken from the card are so afterwards. -/
theorem Clear.taken {T : Nat → Prop} {s : State} {rs : List Access} (h : Clear T s rs) (b : Block) :
    Clear T (diTaken b s) rs := by
  intro r hr
  rw [diTaken_busErr]
  exact h r hr

/-- The walk through a contiguous buffer after a block was taken from the card; there is no table to leave alone. -/
theorem walk_taken_contig {s : State} {a : Word} {b : Block} (hs : s.dmactl.sgen = false) (hc : s.dma.cur = .known a)
    (n : Nat) : Walk (fun _ => False) (diTaken b s) s.dma (contigWords a n)
      { s.dma with cur := .known (a + BitVec.ofNat 32 (4 * n)) } :=
  contig_walk _ (by rwa [diTaken_dmactl]) n a s.dma hc

/-- The walk through a table after a block was taken from the card, where its entries are left alone. -/
theorem walk_taken_table {p n : Nat} {es : List (Word × Word)} {s : State} {b : Block} {rs : List Access} {d : Dma}
    (ht : TableReady p es s) (hs : scatterWords n s.dma es = some (rs, d)) :
    Walk (InTable p es.length) (diTaken b s) s.dma rs d := by
  have hw := table_walk (tableReady_taken (b := b) ht) (by rwa [diTaken_dma]) (InTable p es.length)
    fun x hlo hhi => ⟨hlo, hhi⟩
  rwa [diTaken_dma] at hw

/-- The byte count of a block that was taken and stored is lowered from what it read then. -/
theorem bcntNow_wrote (rs : List Access) (ws : List Word) (d : Dma) (b : Block) (s : State) :
    bcntNow (wrote rs ws d (diTaken b s))
      = s.bcnt.pick ((Config.anyWord (s.draws + 1 + fetchReads rs) dmabcntOff).setWidth 26) := by
  simp [bcntNow, wrote, diTaken_eq]

/-- A good block whose words nothing hinders is stored, and the counts go down. -/
theorem exec_di_stored {T : Nat → Prop} {s : State} {b : Block} {rs : List Access} {d : Dma} (hb : InBlock .dataIn s)
    (ha : askBlock s = some b) (hc : b.crcs = lineCrcs s.ctl.dbw b.bytes) (hw : Walk T (diTaken b s) s.dma rs d)
    (hr : Clear T s rs) (hl : blockLen s = 4 * rs.length) : exec .di s = .next { tookBlock s with
      mem := putWords s.overlap s.mem rs (leWords b.bytes)
      history := s.history ++ [.blockIn (selPort s) (blockIndex s) b.bytes] ++ writeEvents rs (leWords b.bytes)
      intsts := { s.intsts with crc16 := .known true }
      eng := { s.eng with blocksLeft := s.eng.blocksLeft - 1
                          phase := if s.eng.blocksLeft = 1 then .dataEnd else .dataIn }
      bcnt := .known (s.bcnt.pick ((Config.anyWord (s.draws + 1 + fetchReads rs) dmabcntOff).setWidth 26)
        - BitVec.ofNat 26 (blockLen s))
      dma := d
      draws := s.draws + 1 + fetchReads rs } := by
  have hlen : b.bytes.length = 4 * rs.length := (askBlock_length ha).trans hl
  have hstore : storeBlock b.bytes (diTaken b s) = .go () (wrote rs (leWords b.bytes) d (diTaken b s)) :=
    storeBlock_whole (by rwa [diTaken_dma]) (hr.taken b) hlen
  have ⟨_, hphase, _, hleft⟩ := hb
  have hlast : s.eng.blocksLeft - 1 = 0 ↔ s.eng.blocksLeft = 1 := by omega
  rw [di_first hb ha hc, hstore]
  simp only
  rw [moved_eq, bcntNow_wrote, wrote_taken]
  simp [hlast, hphase, blockLen]

/-- A byte of a stored block that no later word of it overwrites (rule R344 where two buffers overlap). -/
theorem memGet_stored (ov : List Word) (m : List Host.Cell) {rs : List Access} {bytes : List Byte}
    (hl : bytes.length = 4 * rs.length) (hlt : ∀ x ∈ rs, x.2.toNat + 4 ≤ 2 ^ 32) {k : Nat} {r : Access}
    (hr : rs[k]? = some r) (hlater : ∀ (i : Nat) (x : Access), k < i → rs[i]? = some x →
      x.2.toNat + 4 ≤ r.2.toNat ∨ r.2.toNat + 4 ≤ x.2.toNat) {j : Nat} (hj : j < 4) :
    memGet (putWords ov m rs (leWords bytes)) (r.2.toNat + j)
      = if overlapped ov (r.2.toNat + j) then none else bytes[4 * k + j]? := by
  obtain ⟨hk, _⟩ := List.getElem?_eq_some_iff.1 hr
  obtain ⟨w, hw, hbyte⟩ := word_byte hl hk hj
  rw [memGet_putWords ov rs (leWords bytes) m k r w hr hw hlt hlater j hj, hbyte]

/-- Each word of a contiguous buffer is one of its accesses. -/
theorem contigWords_getElem {a : Word} {n k : Nat} (hn : a.toNat + 4 * n ≤ 2 ^ 32) (hk : k < n) :
    ∃ r, (contigWords a n)[k]? = some r ∧ r.2.toNat = a.toNat + 4 * k := by
  have h := List.getElem?_eq_getElem (l := contigWords a n) (i := k) (by rwa [contigWords_length])
  exact ⟨_, h, contigWords_get hn h⟩

/-- A block stored in a contiguous buffer stands there byte by byte. -/
theorem memGet_stored_contig (ov : List Word) (m : List Host.Cell) {a : Word} {n : Nat} {bytes : List Byte}
    (hn : a.toNat + 4 * n ≤ 2 ^ 32) (hl : bytes.length = 4 * n) {j : Nat} (hj : j < 4 * n) :
    memGet (putWords ov m (contigWords a n) (leWords bytes)) (a.toNat + j)
      = if overlapped ov (a.toNat + j) then none else bytes[j]? := by
  obtain ⟨r, hr, haddr⟩ := contigWords_getElem hn (show j / 4 < n by omega)
  have hplace : r.2.toNat + j % 4 = a.toNat + j := by omega
  rw [← hplace, show bytes[j]? = bytes[4 * (j / 4) + j % 4]? by rw [Nat.div_add_mod]]
  refine memGet_stored ov m (hl.trans (by rw [contigWords_length])) (fun x hx => ?_) hr (fun i x hi hx => ?_)
    (Nat.mod_lt _ (by decide))
  · obtain ⟨k, hk, _, hx⟩ := contigWords_mem hn hx
    omega
  · have := contigWords_get hn hx
    omega

/-- Settles O33: the words go where the walk through the buffer or the table puts them. -/
theorem blockInStored : Obligations.BlockInStored := by
  unfold Obligations.BlockInStored
  refine ⟨fun s a b hb hrange ha hc => ?contig, fun s p es rs d b hb ht hlen hs hr ha hc => ?scatter⟩
  case contig =>
    obtain ⟨hsg, hcur, hlen, hspace, hbus⟩ := hrange
    have hL : blockLen s = 4 * (blockLen s / 4) := by omega
    have hspace' : a.toNat + 4 * (blockLen s / 4) ≤ 2 ^ 32 := hL ▸ hspace
    have hw := walk_taken_contig (b := b) hsg hcur (blockLen s / 4)
    have hr := clear_contig hspace' (by rwa [← hL])
    refine ⟨_, exec_di_stored hb ha hc hw hr (by rwa [contigWords_length]), ?_, fun j hj => ?_, fun x hx => ?_⟩
    · simp [fetchReads_contig, bcntNow, ← hL]
    · exact memGet_stored_contig s.overlap s.mem hspace' ((askBlock_length ha).trans hL) (by omega)
    · refine memGet_putWords_other _ _ _ _ fun r hr => ?_
      obtain ⟨k, hk, _, haddr⟩ := contigWords_mem hspace' hr
      omega
  case scatter =>
    have hn := scatterWords_length _ _ _ _ _ hs
    have hL : blockLen s = 4 * rs.length := by omega
    refine ⟨_, exec_di_stored hb ha hc (walk_taken_table ht hs) (clear_of_table hr) hL, rfl, fun n hcount => ?_,
      fun k r hk hlater j hj => ?_, fun x hx => ?_⟩
    · simp [hcount, Held.pick]
    · exact memGet_stored s.overlap s.mem ((askBlock_length ha).trans hL) (fun x hx => (hr x hx).2.1) hk hlater hj
    · exact memGet_putWords_other _ _ _ _ fun r h => ⟨(hr r h).2.1, hx r h⟩

/-! ### A block is sent (rules R95, R241) -/

/-- Clear accesses are answered and end inside the address space. -/
theorem Clear.reads {T : Nat → Prop} {s : State} {rs : List Access} (h : Clear T s rs) :
    ∀ r ∈ rs, r.2 ∉ s.busErr ∧ r.2.toNat + 4 ≤ 2 ^ 32 := by
  intro r hr
  obtain ⟨hb, hlt, _⟩ := h r hr
  exact ⟨hb, hlt⟩

/-- The bytes of words read are the ones sent. -/
theorem sentFrom_of_seen {s : State} {ws : List Word} {k j a : Nat} {w : Word} (hw : ws[k]? = some w) (hj : j < 4)
    (h : Seen s (a + j) (w.extractLsb' (8 * j) 8)) : SentFrom s (leBytes ws) a k j := by
  intro v hv
  rw [leBytes_getElem ws k hj, hw, Option.map_some]
  obtain ⟨c, hc, haddr, hval⟩ | h | h := h
  · exact .inr ⟨c, hc, haddr, hval⟩
  · rw [h] at hv
    cases hv
  · exact .inl (h.symm.trans hv)

/-- A block whose words nothing hinders is sent as it is read. -/
theorem exec_dout_sent {s : State} {rs : List Access} {d : Dma} (hb : InBlock .dataOut s) (hd : s.eng.dsub = .send)
    (hw : Walk (fun _ => True) s s.dma rs d) (hr : ∀ r ∈ rs, r.2 ∉ s.busErr ∧ r.2.toNat + 4 ≤ 2 ^ 32)
    (hl : blockLen s = 4 * rs.length) : ∃ bytes, bytes.length = blockLen s
      ∧ exec .dout s = .next { s with
        eng := { s.eng with dsub := .waitStatus }
        dma := d
        history := s.history ++ readEvents rs (leWords bytes)
          ++ [.blockOut (selPort s) (blockIndex s) bytes (lineCrcs s.ctl.dbw bytes)]
        draws := s.draws + fetchReads rs + blockLen s / 4 }
      ∧ ∀ (k : Nat) (r : Access) (j : Nat), rs[k]? = some r → j < 4 → SentFrom s bytes r.2.toNat k j := by
  obtain ⟨ws, hlen, hseen, hload⟩ := loadBlock_first hw hr
  have hn : blockLen s / 4 = rs.length := by omega
  have hwords : loadBlock (blockLen s / 4) s = .go (leBytes ws) (didRead rs ws d s) := by
    rw [hn]
    simpa [loadBlock] using hload 0
  refine ⟨leBytes ws, by rw [leBytes_length, hlen, hl], ?_, fun k r j hk hj => ?_⟩
  · rw [dout_first hb hd, doBlock, hwords, leWords_leBytes, hn]
    rfl
  · obtain ⟨hkr, _⟩ := List.getElem?_eq_some_iff.1 hk
    have hw := List.getElem?_eq_getElem (show k < ws.length from hlen ▸ hkr)
    exact sentFrom_of_seen hw hj (hseen k r _ hk hw j hj)

/-- Another master's store of a byte while a `DO` is pending notes the value it replaces (rules R80, R95). -/
theorem applyInput_memStore (a : Word) (v : Byte) (s : State) : applyInput (.memStore a v) s = { s with
    mem := storeByte s.overlap s.mem a.toNat v
    lent := if s.ctl.doen = .known true then (a.toNat, memGet s.mem a.toNat) :: s.lent else s.lent } := by
  unfold applyInput lend
  simp only [isOn_iff]
  split <;> rfl

/-- Settles O36: the words come from where the walk through the buffer or the table finds them. -/
theorem blockOutSent : Obligations.BlockOutSent := by
  unfold Obligations.BlockOutSent
  refine ⟨fun s a hb hd hrange => ?contig, fun s p es rs e hb hd ht hlen hs hr => ?scatter,
    fun s a v rest ht hi => ⟨_, (step_input ht hi).trans
      (congrArg _ (applyInput_memStore a v _)), rfl, ?here, fun x hx => ?other⟩⟩
  case contig =>
    obtain ⟨hsg, hcur, hlen, hspace, hbus⟩ := hrange
    have hL : blockLen s = 4 * (blockLen s / 4) := by omega
    have hspace' : a.toNat + 4 * (blockLen s / 4) ≤ 2 ^ 32 := hL ▸ hspace
    obtain ⟨d, hdl, hx, hsent⟩ := exec_dout_sent hb hd (contig_walk _ hsg (blockLen s / 4) a s.dma hcur)
      (clear_contig hspace' (by rwa [← hL])).reads (by rwa [contigWords_length])
    refine ⟨d, hdl, ?_, fun k j hkj hj => ?_⟩
    · rw [hx, ← hL, fetchReads_contig]
      rfl
    · obtain ⟨r, hr, haddr⟩ := contigWords_getElem hspace' (show k < blockLen s / 4 by omega)
      rw [← haddr]
      exact hsent k r j hr hj
  case scatter =>
    have hn := scatterWords_length _ _ _ _ _ hs
    exact exec_dout_sent hb hd (table_walk ht hs _ fun _ _ _ => trivial) hr (by omega)
  case here => exact (memGet_storeByte _ _ _ _ _).trans (if_pos rfl)
  case other => exact (memGet_storeByte _ _ _ _ _).trans (if_neg hx)

/-! ### A block that a failing access ends (rules R246 to R248, R326) -/

/-- A block with room for a further word after `k` of them. -/
theorem further_word {n k : Nat} (h : 4 * (k + 1) ≤ n) : ∃ m, n / 4 = k + (m + 1) := ⟨n / 4 - k - 1, by omega⟩

/-- The words read before an access that fails, and the word that fails. -/
theorem exec_dout_abort {s : State} {rs : List Access} {r : Access} {d : Dma} (hb : InBlock .dataOut s)
    (hd : s.eng.dsub = .send) (hw : Walk (fun _ => True) s s.dma (rs ++ [r]) d)
    (hr : ∀ x ∈ rs, x.2 ∉ s.busErr ∧ x.2.toNat + 4 ≤ 2 ^ 32) (hbad : r.2 ∈ s.busErr)
    (hl : 4 * (rs.length + 1) ≤ blockLen s) : ∃ ws, ws.length = rs.length
      ∧ exec .dout s = .next (haltData (aborted r.2 { s with
        dma := d, history := s.history ++ readEvents rs ws ++ r.1
        draws := s.draws + fetchReads rs + rs.length + r.1.length }))
      ∧ ∀ (i : Nat) (x : Access) (w : Word), rs[i]? = some x → s.lent = [] →
        memGetWord s.mem x.2.toNat = some w → ws[i]? = some w := by
  obtain ⟨d', hw', hnext⟩ := hw.snoc
  obtain ⟨ws, hlen, hseen, hload⟩ := loadBlock_first hw' hr
  obtain ⟨m, hm⟩ := further_word hl
  have hstop := load_abort (m := m) (hnext (didRead rs ws d' s) ⟨rfl, fun _ _ => rfl⟩ rfl) hbad
  refine ⟨ws, hlen, ?_, fun i x w hx hlent hw => seen_ws hseen hlen hlent hx hw⟩
  rw [dout_first hb hd, doBlock, hm, hload, hstop, raise_targetAbort]
  rfl

/-- The words read before one that has no address, and how the step ends there (rule R248). -/
theorem exec_dout_ends {s : State} {rs : List Access} {d : Dma} (hb : InBlock .dataOut s) (hd : s.eng.dsub = .send)
    (hw : Walk (fun _ => True) s s.dma rs d) (hr : ∀ x ∈ rs, x.2 ∉ s.busErr ∧ x.2.toNat + 4 ≤ 2 ^ 32)
    (hl : 4 * (rs.length + 1) ≤ blockLen s) : ∃ ws, ws.length = rs.length
      ∧ (∀ u, nextAddr (didRead rs ws d s) = .stop u → exec .dout s = .next u)
      ∧ ∀ e, nextAddr (didRead rs ws d s) = .refuse e → exec .dout s = .refused e := by
  obtain ⟨ws, hlen, _, hload⟩ := loadBlock_first hw hr
  obtain ⟨m, hm⟩ := further_word hl
  refine ⟨ws, hlen, fun u hu => ?_, fun e he => ?_⟩
  · rw [dout_first hb hd, doBlock, hm, hload, loadBlock, hu]
  · rw [dout_first hb hd, doBlock, hm, hload, loadBlock, he]

/-- The words stored before an access that fails, and the word that fails. -/
theorem exec_di_abort {T : Nat → Prop} {s : State} {b : Block} {rs : List Access} {r : Access} {d : Dma}
    (hb : InBlock .dataIn s) (ha : askBlock s = some b) (hc : b.crcs = lineCrcs s.ctl.dbw b.bytes)
    (hw : Walk T (diTaken b s) s.dma (rs ++ [r]) d) (hr : Clear T s rs) (hbad : r.2 ∈ s.busErr)
    (hl : 4 * (rs.length + 1) ≤ blockLen s) : exec .di s = .next (haltData (aborted r.2 { tookBlock s with
      dma := d, mem := putWords s.overlap s.mem rs (leWords b.bytes)
      history := s.history ++ [.blockIn (selPort s) (blockIndex s) b.bytes] ++ writeEvents rs (leWords b.bytes) ++ r.1
      intsts := { s.intsts with crc16 := .known true }
      draws := s.draws + 1 + fetchReads rs + r.1.length })) := by
  obtain ⟨d', hw', hnext⟩ := hw.snoc
  have hlike : Like T (diTaken b s) (wrote rs (leWords b.bytes) d' (diTaken b s)) :=
    ⟨rfl, fun x hx => hr.memGet_putWords _ _ _ hx⟩
  have hstop := store_abort (by rwa [diTaken_dma]) (hr.taken b).stores (by rwa [askBlock_length ha])
    (hnext _ hlike rfl) (by simpa [wrote] using hbad)
  rw [di_first hb ha hc, hstop, raise_targetAbort, wrote_taken]

/-- How the step ends where a word to be stored has no address (rule R248). -/
theorem exec_di_ends {T : Nat → Prop} {s : State} {b : Block} {rs : List Access} {d : Dma} (hb : InBlock .dataIn s)
    (ha : askBlock s = some b) (hc : b.crcs = lineCrcs s.ctl.dbw b.bytes) (hw : Walk T (diTaken b s) s.dma rs d)
    (hr : Clear T s rs) (hl : 4 * (rs.length + 1) ≤ blockLen s) :
    (∀ u, nextAddr (wrote rs (leWords b.bytes) d (diTaken b s)) = .stop u → exec .di s = .next u)
      ∧ ∀ e, nextAddr (wrote rs (leWords b.bytes) d (diTaken b s)) = .refuse e → exec .di s = .refused e := by
  obtain ⟨hstop, hrefuse⟩ := store_ends (bytes := b.bytes) (by rwa [diTaken_dma]) (hr.taken b).stores
    (by rwa [askBlock_length ha])
  refine ⟨fun u hu => ?_, fun e he => ?_⟩
  · rw [di_first hb ha hc, hstop u hu]
  · rw [di_first hb ha hc, hrefuse e he]

/-- The last word of a contiguous buffer. -/
theorem contigWords_succ (a : Word) (n : Nat) :
    contigWords a (n + 1) = contigWords a n ++ [([], a + BitVec.ofNat 32 (4 * n))] := by
  induction n generalizing a with
  | zero => simp [contigWords]
  | succ n ih =>
    have hlast : a + 4#32 + BitVec.ofNat 32 (4 * n) = a + BitVec.ofNat 32 (4 * (n + 1)) := by
      rw [BitVec.add_assoc, Nat.mul_add, Nat.add_comm, BitVec.ofNat_add]
    rw [contigWords, ih, hlast]
    rfl

/-- Settles O38: the walk through the words before, and then the word that fails or the address that does not come. -/
theorem blockAborts : Obligations.BlockAborts := by
  unfold Obligations.BlockAborts
  refine ⟨fun s a k hsg hcur hlen hspace hbus hbad => ?contig, fun s p k es rs r d ht hlen hs hr hbad => ?scatter,
    fun s p k es rs d ht hlen hs hr => ?noAddress⟩
  case contig =>
    intro d
    have hspace' : a.toNat + 4 * k ≤ 2 ^ 32 := by omega
    have hclear := clear_contig hspace' hbus
    have hcount := contigWords_length a k
    refine ⟨fun hb hd => ?_, fun b hb ha hc => ?_⟩
    · have hw := contig_walk (fun _ => True) hsg (k + 1) a s.dma hcur
      rw [contigWords_succ] at hw
      obtain ⟨ws, hl, hx, hread⟩ := exec_dout_abort hb hd hw hclear.reads hbad (by rwa [hcount])
      refine ⟨ws, hl.trans hcount, ?_, fun i w hi hlent hmem => ?_⟩
      · rw [hx, fetchReads_contig, hcount, List.append_nil]
        rfl
      · obtain ⟨r, hr, haddr⟩ := contigWords_getElem hspace' hi
        exact hread i r w hr hlent (haddr ▸ hmem)
    · have hw := walk_taken_contig (b := b) hsg hcur (k + 1)
      rw [contigWords_succ] at hw
      rw [exec_di_abort hb ha hc hw hclear hbad (by rwa [hcount])]
      simp [fetchReads_contig, d]
  case scatter =>
    have hn := scatterWords_length _ _ _ _ _ hs
    have hcount : rs.length = k := by simpa using hn
    refine ⟨fun hb hd => ?_, fun b hb ha hc => ?_⟩
    · rw [← hcount]
      exact exec_dout_abort hb hd (table_walk ht hs _ fun _ _ _ => trivial) (clear_of_table hr).reads hbad
        (by rwa [hcount])
    · exact exec_di_abort hb ha hc (walk_taken_table ht hs) (clear_of_table hr) hbad (by rwa [hcount])
  case noAddress =>
    have hcount := scatterWords_length _ _ _ _ _ hs
    refine ⟨fun hb hd => ?_, fun b hb ha hc => ?_⟩
    · rw [← hcount]
      exact exec_dout_ends hb hd (table_walk ht hs _ fun _ _ _ => trivial) (clear_of_table hr).reads (by rwa [hcount])
    · have hends := exec_di_ends hb ha hc (walk_taken_table ht hs) (clear_of_table hr) (by rwa [hcount])
      rwa [wrote_taken] at hends

end Sys2Proof.Machine
end

section
/-!
The ports: the operations launched from `CTL` use the selected one alone, and the card-detect levels, their detectors
and the power output, port by port (rules R52, R54, R270 to R272, R275 to R277).
-/

namespace Sys2Proof.Machine

/-! ### One selected port (rules R275, R276) -/

/-- Settles O60: what every operation of the group keeps (`Fwd`) names the card of the other port, and the events by
`Event.port`, the port that each of the nine kinds carries. -/
theorem otherPortUntouched : Obligations.OtherPortUntouched := by
  unfold Obligations.OtherPortUntouched
  intro s t i hi h
  have hf : Fwd s t := fwd_ctlOp hi h
  obtain ⟨es, hgrows, hnames⟩ := hf.hist
  refine ⟨hf.c1, hf.c0, es, hgrows, fun e he p hp => hnames e he p ?_⟩
  obtain ⟨n, rfl⟩ | ⟨f, rfl⟩ | ⟨f, rfl⟩ | ⟨f, rfl⟩ | rfl | ⟨k, b, rfl⟩ | ⟨k, rfl⟩ | ⟨k, b, c, rfl⟩
    | ⟨k, v, rfl⟩ := hp
  all_goals rfl

/-! ### The card-detect detectors (rules R54, R272) -/

/-- After its step a detector remembers the present level: where the level differed the step stored it, and otherwise it
was the remembered one. -/
theorem cdPrev_cdStep (p : Port) (s : State) : cdPrev (cdStep p s) p = cdsts (cdStep p s) p := by
  unfold cdStep
  split
  · cases p <;> rfl
  · rename_i hsame
    exact (not_not.1 hsame).symm

/-- Settles O44: the event of a detector halts nothing, so that its step is the flag and the level; then the level is
the remembered one, and a second step has nothing to do. -/
theorem cardDetectStep : Obligations.CardDetectStep := by
  unfold Obligations.CardDetectStep
  exact fun s => ⟨rfl, rfl, fun p => cdStep_of_prev (cdPrev_cdStep p s)⟩

/-! ### The level, the presence predicate and the power output (rules R270, R271, R277) -/

/-- Settles O45: the source selects the level and, as it is compared with the level, the polarity too. -/
theorem presenceAndPower : Obligations.PresenceAndPower := by
  unfold Obligations.PresenceAndPower
  intro s
  refine ⟨?dedicated0, ?pin0, ?dedicated1, ?pin1, rfl, rfl⟩
  case dedicated0 | dedicated1 =>
    intro hsrc
    refine ⟨by simp [cdsts, hsrc], ?_⟩
    rw [cardPresent, hsrc, Bool.bne_false]
  case pin0 | pin1 =>
    intro hsrc
    refine ⟨by simp [cdsts, hsrc], ?_⟩
    rw [cardPresent, hsrc, Bool.bne_true, Bool.not_eq_true']

end Sys2Proof.Machine
end

section
/-!
The host's commands and the driver's submission: what a command leaves behind in a ready and quiet engine, without and
with a data phase, and how many host operations a submission takes (rules R172, R286, R290 to R305, R317).
-/

namespace Sys2Proof.Machine

/-! ### The control word of a command as `CTL` holds it (rules R112, R290) -/

/-- Every command launches `CO`, and none a clock burst (rule R290). -/
theorem commandLaunches_co {l : Word} (h : l ∈ commandLaunches) :
    l.getLsbD 0 = true ∧ l.getLsbD 5 = false ∧ l.getLsbD 6 = false := by
  simp only [commandLaunches, List.mem_cons, List.not_mem_nil, or_false] at h
  rcases h with rfl | rfl | rfl | rfl | rfl
  all_goals decide

/-- The `CTL` that a command launches: `CO`, the response and the data phase that the launch word asks for, the code and
the block count; every other field is as it was. -/
def Ctl.commanded (idx : BitVec 6) (n : BitVec 8) (l : Word) (c : Ctl) : Ctl :=
  { c with
    coen := true, rien := .known (l.getLsbD 1), dien := .known (l.getLsbD 2), doen := .known (l.getLsbD 3)
    r2en := .known (l.getLsbD 4), cmdcode := idx, blkcnt := n }

/-- In a quiet engine the control word of a command launches that and nothing more. -/
theorem IsCmd.wordCtl_eq {w : Word} {idx : BitVec 6} {n : BitVec 8} {l : Word} {s : State} (h : IsCmd w idx n l s)
    (hq : Quiet s) (hl : l ∈ commandLaunches) : wordCtl w = s.ctl.commanded idx n l := by
  obtain ⟨-, -, -, -, -, h74, h8, hrst, -⟩ := hq
  obtain ⟨hco, hl74, hl8⟩ := commandLaunches_co hl
  simp only [wordCtl, Ctl.commanded, h.low 0 (by decide), h.low 1 (by decide), h.low 2 (by decide),
    h.low 3 (by decide), h.low 4 (by decide), h.low 5 (by decide), h.low 6 (by decide), h.b7, h.b15, h.b31, h.code,
    h.cnt, h.nwr, h.port, hco, hl74, hl8, h74, h8, hrst]

/-- The phase after the frame of a command with these launch bits: its response, or nothing (rules R175, R290). -/
def responsePhase (l : Word) : Phase :=
  if l.getLsbD 1 then .respIn else if l.getLsbD 4 then .resp2In else .idle

/-- After the frame of a command its response comes next: no command has a data phase without one. -/
theorem nextPhase_commanded {l : Word} (hl : l ∈ commandLaunches) (idx : BitVec 6) (n : BitVec 8) {s : State}
    (hq : Quiet s) : nextPhase { s.ctl.commanded idx n l with coen := false } = responsePhase l := by
  obtain ⟨-, -, -, -, -, h74, h8, -, -⟩ := hq
  simp only [nextPhase, Ctl.commanded, h74, h8]
  simp only [commandLaunches, List.mem_cons, List.not_mem_nil, or_false] at hl
  rcases hl with rfl | rfl | rfl | rfl | rfl
  all_goals rfl

/-! ### A command as three steps (rules R172, R286) -/

/-- A write that completes was not refused, and stored its word. -/
theorem regWrite_of_exec_wr {off : Offset} {r : Reg} {w : Word} {s t : State} (hoff : regAt off = some r)
    (h : exec (.wr off w) s = .next t) : regWriteRefusal r w s = none ∧ t = (regWrite r w s).tick := by
  rw [execWr_of hoff] at h
  cases hr : regWriteRefusal r w s with
  | some x => rw [hr] at h; cases h
  | none => rw [hr] at h; cases h; exact ⟨rfl, rfl⟩

/-- A command whose two writes complete is `CO` after them. -/
theorem command_of_writes {word : Word → Word} {arg : Word} {s t u : State}
    (harg : exec (.wr 0x824#12 arg) s = .next t) (hctl : exec (.wr 0x820#12 (word (ctlNow t))) t = .next u) :
    command word arg s = exec .co u := by
  obtain ⟨hargFree, rfl⟩ := regWrite_of_exec_wr regAt_824 harg
  obtain ⟨hctlFree, rfl⟩ := regWrite_of_exec_wr regAt_820 hctl
  simp only [command, submitted, hargFree, hctlFree]
  rfl

/-- A command of a ready and quiet engine completes: the argument is stored, the control word is stored and launches,
and `CO` sends the frame. -/
theorem command_completes {word : Word → Word} {arg : Word} {idx : BitVec 6} {n : BitVec 8} {l : Word} {s : State}
    (hs : CommandReady s) (hl : l ∈ commandLaunches)
    (hw : IsCmd (word (ctlNow (argWritten arg s))) idx n l (argWritten arg s))
    (hdata : l.getLsbD 2 = true ∨ l.getLsbD 3 = true → DataLegal n.toNat s) :
    command word arg s = .next (commandDone idx arg n l (responsePhase l) s) := by
  obtain ⟨hready, hquiet⟩ := hs
  have ⟨_, hhalt, _, _, _, hport⟩ := hready
  have ⟨_, _, _, _, _, h74, _, _, _⟩ := hquiet
  obtain ⟨hlow, hne, hlegal⟩ := commandLaunches_legal hl
  have hword := hw.lowWord (low_ok l hlow)
  have hwrite := exec_wr_ctl_launch (s := argWritten arg s) hquiet hhalt hw.b14 (by rwa [hword])
    (by rwa [← legal_and, hword]) (by rwa [portField, hw.port])
    (by rwa [hw.low 2 (by decide), hw.low 3 (by decide), hw.cnt])
  rw [hw.wordCtl_eq hquiet hl] at hwrite
  rw [← nextPhase_commanded hl idx n hquiet]
  calc command word arg s
    _ = exec .co _ := command_of_writes (exec_wr_cmdarg (.inl (inFlight_quiet hquiet))) hwrite
    _ = .next (coStep _) := exec_co hready rfl h74
    _ = _ := congrArg _ (coStep_eq _)

/-- A command that keeps the block count. -/
theorem commandWord_completes {idx : BitVec 6} {l arg : Word} {s : State} (hs : CommandReady s)
    (hl : l ∈ commandLaunches) (hdata : l.getLsbD 2 = true ∨ l.getLsbD 3 = true → DataLegal s.ctl.blkcnt.toNat s) :
    command (commandWord · idx l) arg s = .next (commandDone idx arg s.ctl.blkcnt l (responsePhase l) s) :=
  command_completes hs hl (isCmd_many (argWritten arg s) idx l (low_ok l (commandLaunches_legal hl).1)) hdata

/-- A command that moves one block. -/
theorem oneBlockWord_completes {idx : BitVec 6} {l arg : Word} {s : State} (hs : CommandReady s)
    (hl : l ∈ commandLaunches) (hdata : l.getLsbD 2 = true ∨ l.getLsbD 3 = true → DataLegal 1 s) :
    command (oneBlockWord · idx l) arg s = .next (commandDone idx arg 1#8 l (responsePhase l) s) :=
  command_completes hs hl (isCmd_one (argWritten arg s) idx l (low_ok l (commandLaunches_legal hl).1)) hdata

/-! ### The statements on commands -/

/-- Settles O47: none of the eleven launch words asks for a data phase, so nothing is asked of the data operands. -/
theorem commandsWithoutData : Obligations.CommandsWithoutData := by
  unfold Obligations.CommandsWithoutData
  intro s arg hs
  have hnone (idx : BitVec 6) := commandWord_completes (idx := idx) (l := launchNone) (arg := arg) hs (by decide)
    (fun h => absurd h (by decide))
  have hshort (idx : BitVec 6) := commandWord_completes (idx := idx) (l := launchShort) (arg := arg) hs (by decide)
    (fun h => absurd h (by decide))
  have hlong (idx : BitVec 6) := commandWord_completes (idx := idx) (l := launchLong) (arg := arg) hs (by decide)
    (fun h => absurd h (by decide))
  exact ⟨hnone 0#6, hshort 1#6, hlong 2#6, hshort 3#6, hshort 7#6, hshort 8#6, hlong 9#6, hshort 12#6, hshort 13#6,
    hshort 41#6, hshort 55#6⟩

/-- Settles O48: the single-block commands by the word that asks for one block, the others by the word that keeps the
block count. -/
theorem commandsWithData : Obligations.CommandsWithData := by
  unfold Obligations.CommandsWithData
  intro s arg hs
  refine ⟨fun hone => ⟨?cmd17, ?cmd24⟩, fun hmany => ⟨?cmd18, ?cmd25⟩⟩
  case cmd17 => exact oneBlockWord_completes (l := launchRead) hs (by decide) fun _ => hone
  case cmd24 => exact oneBlockWord_completes (l := launchWrite) hs (by decide) fun _ => hone
  case cmd18 => exact commandWord_completes (l := launchRead) hs (by decide) fun _ => hmany
  case cmd25 => exact commandWord_completes (l := launchWrite) hs (by decide) fun _ => hmany

/-! ### The driver's submission (rules R286, R317) -/

/-- Settles O49: four operations before the wait, two in each of its rounds, and then at most the failure path, whose
poll has the bound of the wait, or the reading of the response. -/
theorem submitTerminates : Obligations.SubmitTerminates := by
  unfold Obligations.SubmitTerminates
  intro bound m idx arg ty k hk
  have hfail (b : Bool) := fail_atMost bound b k m hk
  have hread := read_atMost ty k m hk
  refine atMost_mono (a := 2 * bound + (bound + m + 7) + 1 + 1 + 1 + 1) ?_ (by omega)
  refine .op _ _ _ fun _ => .op _ _ _ fun _ => .op _ _ _ fun t => .op _ _ _ fun _ => wait_atMost _ _ _ (fun e => ?_) _
  cases e with
  | timeout => exact atMost_mono (hfail true) (by omega)
  | error _ => exact atMost_mono (hfail false) (by omega)
  | success =>
    refine .op (bound + m + 6) _ _ fun v => ?_
    split
    · exact atMost_mono (hfail false) (by omega)
    split
    · exact .op _ _ _ fun _ => atMost_mono (hk _) (by omega)
    split
    · exact .op (bound + m + 5) _ _ fun _ => atMost_mono hread (by omega)
    · exact atMost_mono hread (by omega)

end Sys2Proof.Machine
end

section
/-!
The halts and the interrupt request: what a halt of both engines takes away, which steps end a halt, and the level that
the flags and their enables make (rules R90, R128, R249 to R252, R331, R333, R334, R337).
-/

namespace Sys2Proof.Machine

/-! ### What a halt of both engines does (rules R249, R331) -/

/-- The ranges that a stopped `DI` loses: the noted ones of a scatter-gather operation that has started, otherwise those
that the registers describe; none where they are unknown (assumption log, entry 25). -/
def stoppedRanges (s : State) : Option (List (Nat × Nat)) :=
  if s.dmactl.sgen && s.dmactl.dmabusy.isOn then s.dma.dest else destRanges s

theorem stoppedRanges_contiguous {s : State} (hs : s.dmactl.sgen = false) :
    stoppedRanges s = some [(s.dmasa.toNat, s.ctl.blkcnt.toNat * (s.blen.toNat + 1))] := by
  simp [stoppedRanges, destRanges, hs, byteCount, blockLen]

theorem stoppedRanges_started {s : State} (hs : s.dmactl.sgen = true) (hb : s.dmactl.dmabusy = .known true) :
    stoppedRanges s = s.dma.dest := by
  simp [stoppedRanges, hs, isOn_known hb]

theorem stoppedRanges_notStarted {s : State} (hb : s.dmactl.dmabusy ≠ .known true) :
    stoppedRanges s = destRanges s := by
  have hoff : s.dmactl.dmabusy.isOn = false := Bool.eq_false_iff.2 (mt isOn_eq hb)
  simp [stoppedRanges, hoff]

/-- A halt makes memory `any` in the destination of a `DI` alone. -/
theorem haltData_mem_noInput {s : State} (hd : s.ctl.dien ≠ .known true) : (haltData s).mem = s.mem :=
  (haltData_mem s).trans (if_neg (mt isOn_eq hd))

theorem haltData_mem_input {s : State} (hd : s.ctl.dien = .known true) : (haltData s).mem = blurDest s :=
  (haltData_mem s).trans (if_pos (isOn_known hd))

/-- Where the ranges of the stopped `DI` are known, exactly their bytes lose their values. -/
theorem memGet_haltData_ranges {s : State} (hd : s.ctl.dien = .known true) {rs : List (Nat × Nat)}
    (h : stoppedRanges s = some rs) (a : Nat) :
    memGet (haltData s).mem a = if ∃ r ∈ rs, r.1 ≤ a ∧ a < r.1 + r.2 then none else memGet s.mem a := by
  unfold stoppedRanges at h
  rw [haltData_mem_input hd, memGet_blurDest, h]

/-- Where they are unknown, every byte loses its value. -/
theorem memGet_haltData_unknown {s : State} (hd : s.ctl.dien = .known true) (h : stoppedRanges s = none) (a : Nat) :
    memGet (haltData s).mem a = none := by
  unfold stoppedRanges at h
  rw [haltData_mem_input hd, memGet_blurDest, h]

/-- Settles O31: the fields as `haltData` has them, and memory by the ranges of the stopped `DI` in each mode. -/
theorem haltDataEffect : Obligations.HaltDataEffect := by
  unfold Obligations.HaltDataEffect
  refine fun s => ⟨?fields, haltData_mem_noInput, fun hd hs a => ?contiguous, fun hd hs hb => ⟨fun rs h => ?noted,
    fun h => ?unnoted⟩, fun hd hs hb => ⟨fun es h a => ?table, fun h => ?unknown⟩, fun hd a b h => ?listed⟩
  case fields =>
    simp only [← blur_eq_ite]
    rfl
  case contiguous =>
    rw [memGet_haltData_ranges hd (stoppedRanges_contiguous hs)]
    simp only [List.mem_singleton, exists_eq_left]
  case noted => exact memGet_haltData_ranges hd ((stoppedRanges_started hs hb).trans h)
  case unnoted => exact memGet_haltData_unknown hd ((stoppedRanges_started hs hb).trans h)
  case table =>
    rw [memGet_haltData_ranges hd ((stoppedRanges_notStarted hb).trans (destRanges_of_tableAt hs h))]
    simp only [List.mem_map, exists_exists_and_eq_and]
  case unknown =>
    exact memGet_haltData_unknown hd ((stoppedRanges_notStarted hb).trans (destRanges_of_tableUnknown hs h))
  case listed => exact memGet_blurDest_some (haltData_mem_input hd ▸ h)

/-! ### Which steps end a halt (rules R250 to R252, R331, R337) -/

/-- An engine that is halted in `s` is halted in `t`, and so is the sequencer. -/
def HaltsKept (s t : State) : Prop :=
  (s.eng.halted = true → t.eng.halted = true) ∧ (s.dma.halted = true → t.dma.halted = true)

theorem Fwd.haltsKept {s t : State} (h : Fwd s t) : HaltsKept s t := ⟨h.eh, h.dh⟩

theorem HaltsKept.trans {s t u : State} (h : HaltsKept s t) (k : HaltsKept t u) : HaltsKept s u :=
  ⟨k.1 ∘ h.1, k.2 ∘ h.2⟩

/-- Where the halts are kept, none ends. -/
theorem HaltsKept.no_end {s t : State} (h : HaltsKept s t) (p q : Prop) :
    (s.eng.halted = true → t.eng.halted = false → p) ∧ (s.dma.halted = true → t.dma.halted = false → q) :=
  ⟨fun hs ht => absurd (h.1 hs) (by simp [ht]), fun hs ht => absurd (h.2 hs) (by simp [ht])⟩

theorem BusFrame.haltsKept {s t : State} (h : BusFrame s t) : HaltsKept s t := by
  rw [h.1]
  exact ⟨id, id⟩

theorem command_haltsKept {i : Instr} (hi : IsCommand i) {s t : State} (h : exec i s = .next t) : HaltsKept s t := by
  obtain ⟨word, arg, hc⟩ := exec_command hi
  obtain ⟨u, hu, rfl | rfl⟩ := command_split ((hc s).symm.trans h)
  · exact hu.haltsKept
  · exact hu.haltsKept.trans (fwd_coStep u).haltsKept

/-- `CTLRST` may halt the sequencer and never ends its halt (rule R250). -/
theorem ctlrst_keeps_dmaHalt {s t : State} (h : exec .ctlrst s = .next t) (hs : s.dma.halted = true) :
    t.dma.halted = true := by
  cases h
  split
  · simp [State.log, State.setPhase, cutSequencer, resetEngine, hs]
  · exact hs

/-- `DMARST` may halt the SD engine and never ends its halt (rule R251). -/
theorem dmarst_keeps_engHalt {s t : State} (h : exec .dmarst s = .next t) (hs : s.eng.halted = true) :
    t.eng.halted = true := by
  cases h
  split
  · dsimp only
    split
    · rfl
    · exact hs
  · exact hs

/-- The outside world ends a halt by the hardware reset alone. -/
theorem applyInput_haltsKept {i : Input} (hi : i ≠ .hardwareReset) (s : State) : HaltsKept s (applyInput i s) := by
  cases i with
  | cdDed p b | cdGpio p b => cases p <;> exact ⟨id, id⟩
  | memStore a b => rw [applyInput, lend_eq]; exact ⟨id, id⟩
  | busError a fails => exact ⟨id, id⟩
  | overlap a on => cases on <;> exact ⟨id, id⟩
  | hardwareReset => exact absurd rfl hi

theorem envStep_haltsKept {s : State} (h : ∀ rest, s.inputs ≠ .hardwareReset :: rest) : HaltsKept s (envStep s) := by
  unfold envStep
  split
  · exact ⟨id, id⟩
  · rename_i i rest hin
    exact applyInput_haltsKept (fun hi => h rest (hi ▸ hin)) { s with inputs := rest }

/-- Settles O56: of all that a step can do, only the resets and the hardware reset end a halt, and `CTLRST` and `DMARST`
each only the halt that is its own. -/
theorem haltsEndOnlyByReset : Obligations.HaltsEndOnlyByReset := by
  unfold Obligations.HaltsEndOnlyByReset
  intro s t h
  have hturn : HaltsKept s (takeTurn s) := ⟨id, id⟩
  have hprog : ∀ rest, HaltsKept s { takeTurn s with prog := rest } := fun _ => ⟨id, id⟩
  obtain ⟨_, rfl | ⟨_, rest, i, _, _, hi | hi, hx⟩⟩ | ⟨hn, rfl | ⟨i, hi | ⟨rfl, hr⟩, hx⟩⟩ | ⟨hn, rfl | ⟨hr, hx⟩⟩
    | ⟨hn, rfl | ⟨hr, _⟩⟩ | ⟨p, _, rfl⟩ | ⟨hn, rfl⟩ := step_cases h
  · exact hturn.no_end _ _
  · exact ((hprog rest).trans (busOp_frame hi hx).1.haltsKept).no_end _ _
  · exact ((hprog rest).trans (command_haltsKept hi hx)).no_end _ _
  · exact hturn.no_end _ _
  · exact (hturn.trans (fwd_ctlOp hi hx).haltsKept).no_end _ _
  · exact ⟨fun _ _ => .inl ⟨hn, hr⟩, fun hs ht => absurd (ctlrst_keeps_dmaHalt hx hs) (by simp [ht])⟩
  · exact hturn.no_end _ _
  · exact ⟨fun hs ht => absurd (dmarst_keeps_engHalt hx hs) (by simp [ht]), fun _ _ => .inl ⟨hn, hr⟩⟩
  · exact hturn.no_end _ _
  · exact ⟨fun _ _ => .inr (.inl ⟨hn, hr⟩), fun _ _ => .inr (.inl ⟨hn, hr⟩)⟩
  · exact (hturn.trans (Fwd.cdStep p _).haltsKept).no_end _ _
  · by_cases hin : ∃ rest, s.inputs = .hardwareReset :: rest
    · exact ⟨fun _ _ => .inr (.inr ⟨hn, hin⟩), fun _ _ => .inr (.inr ⟨hn, hin⟩)⟩
    · exact (hturn.trans (envStep_haltsKept (not_exists.1 hin))).no_end _ _

/-! ### The interrupt request (rules R333, R334) -/

/-- The term of `BLKDIF`, where the flag is known and not hidden by a halt, or not enabled (assumption log, entries 35
and 40). -/
theorem blkdif_term {s : State} {b : Bool}
    (h : s.eng.halted = false ∧ s.intsts.blkdif = .known b ∨ s.inten.blkdien = false) :
    (s.inten.blkdien && blkdifNow s) = (s.inten.blkdien && b) := by
  obtain ⟨hh, hb⟩ | hen := h
  · rw [blkdifNow_known hh hb]
  · rw [hen, Bool.false_and, Bool.false_and]

/-- Settles O46: the nine terms of `irq`, of which only that of `BLKDIF` can hold a draw. -/
theorem interruptRequest : Obligations.InterruptRequest := by
  unfold Obligations.InterruptRequest
  refine fun s => ⟨fun b hb => ?term, fun h1 h2 h3 h4 h5 h6 h7 h8 h9 => ?disabled⟩
  case term =>
    rw [irq, blkdif_term hb]
    simp only [Bool.or_eq_true, Bool.and_eq_true, or_assoc]
  case disabled =>
    simp only [irq, h1, h2, h3, h4, h5, h6, h7, h8, h9, Bool.false_and, Bool.or_false]

end Sys2Proof.Machine
end

section
/-!
The host contract on launch bits and on an operation in flight: no launch bit is taken back, no further operation is
requested and no operand changed, and what stays allowed (rules R98, R129, R150 to R153, R177, R370, R371).
-/

namespace Sys2Proof.Machine

/-! ### A launch bit is not cleared (rule R370) -/

/-- A write of `CTL` without `CTLRST` that has 0 in a launch bit which reads 1. -/
theorem exec_wr_ctl_clears {w : Word} {s : State} (h14 : w.getLsbD 14 = false)
    (h : ctlNow s &&& ~~~w &&& 0x407F#32 ≠ 0#32) : exec (.wr 0x820#12 w) s = .refused .launchBitCleared := by
  refine refused_of regAt_820 ?_
  rw [regWriteRefusal, ctlRefusal, h14, if_neg Bool.false_ne_true, if_pos h]

theorem exec_wr_dmactl_clears {w : Word} {s : State} (hrst : s.dmactl.dmarst = true) (h1 : w.getLsbD 1 = false) :
    exec (.wr 0x400#12 w) s = .refused .launchBitCleared := by
  refine refused_of regAt_400 ?_
  rw [regWriteRefusal, dmactlRefusal, hrst, h1]
  rfl

theorem exec_wr_gctl_clears {w : Word} {s : State} (hrst : s.gctl.gctlrst = true) (h0 : w.getLsbD 0 = false) :
    exec (.wr 0x800#12 w) s = .refused .launchBitCleared := by
  refine refused_of regAt_800 ?_
  rw [regWriteRefusal, gctlRefusal, hrst, h0]
  rfl

/-- `CLR` of a register that is neither of the buffer nor `INTSTS` is the write of its value with the bits of the mask
cleared (rule R153). -/
theorem exec_clr_eq_wr {off : Offset} {r : Reg} (h : regAt off = some r) (hfb : ∀ i, r ≠ .fb i) (hne : r ≠ .intsts)
    (m : Word) (s : State) : exec (.clr off m) s = exec (.wr off (rmwBase off r s &&& ~~~m)) s :=
  modify_eq_wr (· &&& ~~~m) h (fun ⟨i, hi⟩ => absurd hi (hfb i)) hne

/-- A bit of the mask is 0 in the word that `CLR` writes. -/
theorem and_not_getLsbD_of_mask (v : Word) {m : Word} {j : Nat} (hj : j < 32) (hm : m.getLsbD j = true) :
    (v &&& ~~~m).getLsbD j = false := by
  rw [and_not_getLsbD _ _ hj, hm, Bool.not_true, Bool.and_false]

/-- The bits that a cleared word takes back are those of the mask. -/
theorem and_not_and_not (v m : Word) : v &&& ~~~(v &&& ~~~m) = v &&& m := by
  apply BitVec.eq_of_getLsbD_eq
  intro j hj
  rw [and_not_getLsbD _ _ hj, and_not_getLsbD _ _ hj, BitVec.getLsbD_and]
  cases v.getLsbD j <;> simp

/-- Settles O21: a `CLR` as the write of the cleared word, and a word of `CTL` with `CTLRST` as the write that launches
the reset. -/
theorem refuseClearingLaunchBit : Obligations.RefuseClearingLaunchBit := by
  unfold Obligations.RefuseClearingLaunchBit
  refine fun s w => ⟨exec_wr_ctl_clears, exec_wr_dmactl_clears, exec_wr_gctl_clears, fun h14 h => ?reset,
    fun hrst h => ?clrCtl, fun hrst h1 => ?clrDmactl, fun hrst h0 => ?clrGctl⟩
  case reset => exact ⟨_, exec_wr_ctl_reset h14 (h.imp_right operandsDiffer_of_same)⟩
  case clrCtl =>
    have h14 : (ctlNow s &&& ~~~w).getLsbD 14 = false := by
      obtain hrst | hw := hrst
      · rw [and_not_getLsbD _ _ (by decide), ctlNow_getLsbD s (by decide)]
        simp [hrst]
      · exact and_not_getLsbD_of_mask _ (by decide) hw
    have hclear : ctlNow s &&& ~~~(ctlNow s &&& ~~~w) &&& 0x407F#32 ≠ 0#32 := by rwa [and_not_and_not]
    exact (exec_clr_eq_wr regAt_820 nofun nofun w s).trans (exec_wr_ctl_clears h14 hclear)
  case clrDmactl =>
    exact (exec_clr_eq_wr regAt_400 nofun nofun w s).trans
      (exec_wr_dmactl_clears hrst (and_not_getLsbD_of_mask _ (by decide) h1))
  case clrGctl =>
    exact (exec_clr_eq_wr regAt_800 nofun nofun w s).trans
      (exec_wr_gctl_clears hrst (and_not_getLsbD_of_mask _ (by decide) h0))

/-! ### What is refused in flight (rules R98, R177, R371) -/

theorem sameOperands_of_operandsDiffer {w : Word} {s : State} (h : s.ctl.operandsDiffer w = false) :
    SameOperands w s := by
  simpa [Ctl.operandsDiffer, portField, and_assoc, -BitVec.getLsbD_eq_getElem] using h

/-- A request in flight is refused, whatever it asks for (rule R371). -/
theorem launchRefusal_inFlight {w : Word} {s : State} (h : inFlight s = true) :
    launchRefusal w s = some .launchInFlight := if_pos h

/-- A word of `CTL` that changes an operand in flight is refused, also where it launches a reset (assumption log, entry
14). -/
theorem ctlRefusal_of_operand {w : Word} {s : State} (h : inFlight s = true) (hd : s.ctl.operandsDiffer w = true) :
    ∃ r, ctlRefusal w s = some r := by
  unfold ctlRefusal
  rw [h, hd, launchRefusal_inFlight h]
  split
  · exact ⟨_, rfl⟩
  split
  · exact ⟨_, rfl⟩
  split
  · exact ⟨_, rfl⟩
  split <;> exact ⟨_, rfl⟩

/-- An operand register that holds another value may not be written in flight. -/
theorem operandRefusal_some {n : Nat} {a b : BitVec n} {s : State} (h : inFlight s = true) (hne : a ≠ b) :
    (if inFlight s && a != b then some Refusal.operandInFlight else none) = some .operandInFlight := by
  simp [h, hne]

/-- In flight `SGEN` may not change and `DMAEN` may not be cleared. -/
theorem dmactlRefusal_inFlight {w : Word} {s : State} (h : inFlight s = true)
    (hm : s.dmactl.sgen ≠ w.getLsbD 3 ∨ (s.dmactl.dmaen = true ∧ w.getLsbD 0 = false)) :
    ∃ r, dmactlRefusal w s = some r := by
  have hmode : (s.dmactl.sgen != w.getLsbD 3 || (s.dmactl.dmaen && !w.getLsbD 0)) = true := by
    obtain hs | ⟨he, h0⟩ := hm
    · rw [bne_iff_ne.2 hs, Bool.true_or]
    · rw [he, h0, Bool.not_false, Bool.and_self, Bool.or_true]
  unfold dmactlRefusal
  rw [h, hmode]
  split <;> exact ⟨_, rfl⟩

/-- In flight `SDEN` may not be cleared. -/
theorem gctlRefusal_inFlight {w : Word} {s : State} (h : inFlight s = true) (hen : s.gctl.sden = true)
    (h1 : w.getLsbD 1 = false) : ∃ r, gctlRefusal w s = some r := by
  unfold gctlRefusal
  rw [h, hen, h1]
  split <;> exact ⟨_, rfl⟩

/-- A write of `CTL` in flight that requests a further operation or changes an operand. -/
theorem exec_wr_ctl_inFlight {w : Word} {s : State} (h : inFlight s = true)
    (hw : w.getLsbD 14 = false ∧ requested w s ≠ 0#32 ∨ ¬SameOperands w s) :
    ∃ r, exec (.wr 0x820#12 w) s = .refused r := by
  apply exec_wr_ctl_refused
  obtain ⟨h14, hreq⟩ | hd := hw
  · exact ctlRefusal_of_launch h14 hreq ⟨_, launchRefusal_inFlight h⟩
  · exact ctlRefusal_of_operand h (by simpa using mt sameOperands_of_operandsDiffer hd)

theorem exec_wr_dmactl_inFlight {w : Word} {s : State} (h : inFlight s = true)
    (hm : s.dmactl.sgen ≠ w.getLsbD 3 ∨ (s.dmactl.dmaen = true ∧ w.getLsbD 0 = false)) :
    ∃ r, exec (.wr 0x400#12 w) s = .refused r :=
  (dmactlRefusal_inFlight h hm).imp fun _ hr => refused_of regAt_400 hr

/-! ### A write of `CTL` that changes only `SDNWR` and the clock bits -/

/-- Words that agree at a mask agree at each of its bits. -/
theorem getLsbD_of_masked {v w k : Word} (h : w &&& k = v &&& k) {j : Nat} (hj : k.getLsbD j = true) :
    w.getLsbD j = v.getLsbD j := by
  simpa [hj] using congrArg (fun x => x.getLsbD j) h

/-- Words that agree at a mask agree at each smaller one. -/
theorem and_of_masked {v w k m : Word} (h : w &&& k = v &&& k) (hm : k &&& m = m) : w &&& m = v &&& m := by
  rw [← hm, ← BitVec.and_assoc, h, BitVec.and_assoc]

/-- Of words that agree at a mask neither has a bit there that the other has not. -/
theorem and_not_of_masked {v w k : Word} (h : w &&& k = v &&& k) : v &&& ~~~w &&& k = 0#32 := by
  apply BitVec.eq_of_getLsbD_eq
  intro j hj
  rw [BitVec.getLsbD_and, and_not_getLsbD _ _ hj, BitVec.getLsbD_zero]
  cases hk : k.getLsbD j with
  | false => rw [Bool.and_false]
  | true => rw [getLsbD_of_masked h hk, Bool.and_not_self, Bool.false_and]

/-- Words that agree at a mask agree in each field inside it. -/
theorem extract_of_masked {v w k : Word} (h : w &&& k = v &&& k) {lo n : Nat}
    (hk : ∀ i, i < n → k.getLsbD (lo + i) = true) : w.extractLsb' lo n = v.extractLsb' lo n := by
  apply BitVec.eq_of_getLsbD_eq
  intro i hi
  rw [BitVec.getLsbD_extractLsb', BitVec.getLsbD_extractLsb', getLsbD_of_masked h (hk i hi)]

/-- A word that reads like `CTL` outside `SDNWR`, the clock bits and `CTLRST` has its operands. -/
theorem sameOperands_of_masked {w : Word} {s : State} (h : w &&& 0x60FFBF7F#32 = ctlNow s &&& 0x60FFBF7F#32) :
    SameOperands w s := by
  refine ⟨?cmdcode, ?dbw, ?blkcnt, ?sdport⟩
  case cmdcode => rw [extract_of_masked h (by decide), ctlNow_cmdcode]
  case dbw => rw [getLsbD_of_masked h rfl, ctlNow_getLsbD s (by decide)]; rfl
  case blkcnt => rw [extract_of_masked h (by decide), ctlNow_blkcnt]
  case sdport => rw [extract_of_masked h (by decide), ctlNow_sdport]

/-- With the same operands a word stores `SDNWR` and the clock bits. -/
theorem withFields_sameOperands {w : Word} {s : State} (h : SameOperands w s) : s.ctl.withFields w =
    { s.ctl with clkkeep0 := w.getLsbD 7, sdnwr := w.extractLsb' 24 4, clkkeep1 := w.getLsbD 31 } := by
  obtain ⟨hcode, hdbw, hcnt, hport⟩ := h
  rw [Ctl.withFields, portField, ← hcode, ← hdbw, ← hcnt, ← hport]

/-- If it has `CTLRST` as it is too, it has every launch bit as it reads. -/
theorem launches_of_masked {w : Word} {s : State} (h14 : w.getLsbD 14 = s.ctl.ctlrst)
    (h : w &&& 0x60FFBF7F#32 = ctlNow s &&& 0x60FFBF7F#32) : w &&& 0x407F#32 = ctlNow s &&& 0x407F#32 := by
  have hbits : ∀ j, j < 32 → (0x407F#32).getLsbD j = true → j = 14 ∨ (0x60FFBF7F#32).getLsbD j = true := by decide
  apply BitVec.eq_of_getLsbD_eq
  intro j hj
  rw [BitVec.getLsbD_and, BitVec.getLsbD_and]
  cases hm : (0x407F#32).getLsbD j with
  | false => rw [Bool.and_false, Bool.and_false]
  | true =>
    obtain rfl | hk := hbits j hj hm
    · rw [h14, ctlNow_getLsbD s hj]
      rfl
    · rw [getLsbD_of_masked h hk]

/-- A write of `CTL` that changes only `SDNWR` and the clock bits completes in every state whose launch bits are a legal
set; where `CTLRST` is pending it is a second write of it (rules R45, R98, R129, R371). -/
theorem exec_wr_ctl_clocks {w : Word} {s : State} (h14 : w.getLsbD 14 = s.ctl.ctlrst)
    (hl : legalLaunch (ctlNow s) = true) (h : w &&& 0x60FFBF7F#32 = ctlNow s &&& 0x60FFBF7F#32) :
    exec (.wr 0x820#12 w) s = .next { s with
      ctl := { s.ctl with clkkeep0 := w.getLsbD 7, sdnwr := w.extractLsb' 24 4, clkkeep1 := w.getLsbD 31 }
      eng := { s.eng with phase := if s.ctl.ctlrst then .reset else s.eng.phase }
      draws := s.draws + 1 } := by
  have hsame := sameOperands_of_masked h
  have hfields := withFields_sameOperands hsame
  have hops := operandsDiffer_of_same hsame
  cases hrst : s.ctl.ctlrst with
  | true =>
    have hctl : { s.ctl.withFields w with ctlrst := true } = { s.ctl with
        clkkeep0 := w.getLsbD 7, sdnwr := w.extractLsb' 24 4, clkkeep1 := w.getLsbD 31 } := by rw [hfields, ← hrst]
    rw [exec_wr_ctl_reset (h14.trans hrst) (.inr hops), hctl]
    rfl
  | false =>
    have hlow : w &&& 0x7F#32 = ctlNow s &&& 0x7F#32 := and_of_masked h rfl
    have hclear : ctlNow s &&& ~~~w &&& 0x407F#32 = 0#32 := and_not_of_masked (launches_of_masked h14 h)
    have hreq : requested w s = 0#32 := and_not_of_masked hlow.symm
    have hlegal : legalLaunch w = true := by rw [← legal_and, hlow, legal_and, hl]
    have hr : regWriteRefusal .ctl w s = none := by
      simp only [regWriteRefusal, ctlRefusal, h14, hrst, hclear, hlegal, hreq, hops, ne_eq, not_true, Bool.not_true,
        Bool.and_false, Bool.false_eq_true, if_false]
    rw [execWr_next regAt_820 hr, regWrite, writeCtl, h14, hrst, hreq, hfields]
    rfl

/-- Settles O22: in flight each register by what its write refuses; in every state what no refusal meets. -/
theorem oneTransactionInFlight : Obligations.OneTransactionInFlight := by
  unfold Obligations.OneTransactionInFlight
  refine ⟨fun s w h => ⟨exec_wr_ctl_inFlight h, fun hne => ?cmdarg, fun hne => ?dmasa, fun hne => ?blen,
    fun hne => ?tout, exec_wr_dmactl_inFlight h, fun hen h0 => ?clrDmaen, fun hen h1 => ?sden⟩,
    fun s w => ⟨fun off r hoff hfb => ?read, fun r => ⟨_, rfl⟩, ?enables, exec_wr_ctl_clocks⟩⟩
  case cmdarg => exact refused_of regAt_824 (operandRefusal_some h hne)
  case dmasa => exact refused_of regAt_408 (operandRefusal_some h hne)
  case blen =>
    rw [← setWidth_eq_extract] at hne
    exact refused_of regAt_838 (operandRefusal_some h hne)
  case tout =>
    rw [← setWidth_eq_extract] at hne
    exact refused_of regAt_83C (operandRefusal_some h hne)
  case clrDmaen =>
    rw [exec_clr_eq_wr regAt_400 nofun nofun]
    exact exec_wr_dmactl_inFlight h (.inr ⟨hen, and_not_getLsbD_of_mask _ (by decide) h0⟩)
  case sden => exact (gctlRefusal_inFlight h hen h1).imp fun _ hr => refused_of regAt_800 hr
  case read => exact ⟨_, execRd_of hoff fun ⟨i, hi⟩ => absurd hi (hfb i)⟩
  case enables =>
    rintro off (rfl | rfl | rfl | rfl)
    · exact ⟨_, exec_wr_dmainten w s⟩
    · exact ⟨_, exec_wr_ginten w s⟩
    · exact ⟨_, exec_wr_inten w s⟩
    · exact ⟨_, execWr_next regAt_840 rfl⟩

end Sys2Proof.Machine
end
